-- ==== Sys2Proof/Word.lean ====
section
/-! DEFINITION. The bit-vector types of the decode core and the field selector of the notation rule
(00_scope.md R22). -/

namespace Sys2Proof

/-- A register value, an address, an instruction word: 64 bits (00_scope.md R21, R22; 30_encoding.md R100). -/
abbrev Word := BitVec 64

/-- The unit memory is addressed in (20_memory.md R70). -/
abbrev Byte := BitVec 8

/-- A floating-point register cell or a vector element cell (10_state.md R36, R39). -/
abbrev Wide := BitVec 128

/-- A register index as an accessor returns it (30_encoding.md R104 to R107, R119 to R122). -/
abbrev Reg := BitVec 5

/-- A CSR address (10_state.md R44). -/
abbrev CsrAddr := BitVec 12

end Sys2Proof
end

