-- ==== Sys2Proof/Config.lean ====
section
/-! DEFINITION. What an implementation fixes: the parameters of 00_scope.md R20 as plain data, the inputs the
collaborators own (10_state.md R46), the vocabulary both need (vector tags, fault reports), and the parameters that
are functions, which stay free values (opaque, log 20). -/

namespace Sys2Proof

/-! ## Selectors -/

/-- XLEN, the active register width, an input of each step (00_scope.md R20, 10_state.md R46). -/
inductive XLen where
  | x32
  | x64
deriving DecidableEq, Repr

/-- NXPR: the standard file of 32 integer registers or the reduced one of 16 (10_state.md R30). -/
inductive RegFile where
  | standard
  | reduced
deriving DecidableEq, Repr

/-- NXPR as a number (10_state.md R30). -/
def RegFile.count : RegFile → Nat
  | .standard => 32
  | .reduced => 16

/-- The extensions the capability query is asked about (00_scope.md R20). -/
inductive Ext where
  | c
  | f
  | d
  | q
  | h
  | v
deriving DecidableEq, Repr

/-- ILLEGAL_TVAL, OPEN in {ZERO, INSN_BITS} (00_scope.md R20, 60_exceptions.md R402). -/
inductive IllegalTval where
  | zero
  | insnBits
deriving DecidableEq, Repr

/-! ## Vector vocabulary -/

/-- An element width in bits: 8, 16, 32, 64 or 128 (10_state.md R40). -/
inductive EWidth where
  | w8
  | w16
  | w32
  | w64
  | w128
deriving DecidableEq, Repr

/-- The width as a number of bits. -/
def EWidth.bits : EWidth → Nat
  | .w8 => 8
  | .w16 => 16
  | .w32 => 32
  | .w64 => 64
  | .w128 => 128

/-- Scalar or vector (10_state.md R40). -/
inductive Shape where
  | scalar
  | vector
deriving DecidableEq, Repr

/-- Unsigned integer, signed integer or floating point (10_state.md R40). -/
inductive Rep where
  | uint
  | sint
  | float
deriving DecidableEq, Repr

/-- `Tag(shape, width, rep)` (10_state.md R40). -/
structure Tag where
  shape : Shape
  width : EWidth
  rep : Rep
deriving DecidableEq, Repr

/-- The tag of a vector register: Unconfigured, or a triple (10_state.md R40, D13). -/
inductive VTag where
  | unconfigured
  | configured (t : Tag)
deriving DecidableEq, Repr

/-- A tag as a configuration REQUESTS it, before `validate_config` has checked it (41_vector_engine.md R201): the
width may be any number, and `none` is an unrecognised representation. -/
structure TagRequest where
  shape : Shape
  width : Nat
  rep : Option Rep
deriving DecidableEq, Repr

/-- The ordered `(count, tag)` pairs of a configuration (41_vector_engine.md R200). -/
abbrev Groups := List (Nat × TagRequest)

/-! ## What the collaborators answer -/

/-- A fault as it is reported: a cause code and a recorded value (60_exceptions.md R402, R403). -/
structure Report where
  cause : Word
  tval : Word
deriving DecidableEq, Repr

/-- Who accesses memory, and how. -/
inductive AccessKind where
  | load
  | store
  | fetch
deriving DecidableEq, Repr

/-- One region of MEMORY_MAP (20_memory.md R78) whose accesses of the marked kinds the memory subsystem faults, with
its own cause, and its own value (`none`: the address of the access) (log 10). -/
structure FaultRegion where
  base : Nat
  size : Nat
  loads : Bool
  stores : Bool
  fetches : Bool
  cause : Word
  tval : Option Word
deriving DecidableEq, Repr

/-- MISALIGNED_DATA (20_memory.md R74): a misaligned access succeeds undivided, or is split into the parts between
multiples of `unit` bytes, each an access of its own, or faults with a cause of the memory subsystem's (log 11). -/
inductive MisalignedData where
  | succeeds
  | splits (unit : Nat)
  | faults (loadCause storeCause : Word)
deriving DecidableEq, Repr

/-- What the CSR store does with a field of a CSR whose written value is not legal (42_csr_gate.md R262; log 7). -/
inductive IllegalWrite where
  /-- The field keeps its old value. -/
  | keepsOld
  /-- The field takes these bits of `value`. -/
  | becomes (value : Word)
  /-- The write faults. -/
  | faults (report : Report)
deriving DecidableEq, Repr

/-- A field of a CSR, by its mask, with its legal values, in place (42_csr_gate.md R262; log 7). -/
structure CsrField where
  mask : Word
  legal : List Word
  illegal : IllegalWrite
deriving DecidableEq, Repr

/-- What the CSR store does at one address beyond keeping 64 bits (42_csr_gate.md R262): existence, it may fault a read
or a write; legal values, it may fault or alter a write by the value; and it may let only some bits be written (log 7).
-/
structure CsrRule where
  addr : CsrAddr
  onRead : Option Report
  onWrite : Option Report
  fields : List CsrField
  writable : Word
deriving DecidableEq, Repr

/-! ## Parameters and inputs -/

/-- The parameters fixed when the context is built (00_scope.md R20; 70_reset_and_hazards.md R442, point 1). They
are data in State, so that a statement about every state is a statement about every setting (log 14). -/
structure Params where
  nxpr : RegFile
  vlmax : Nat
  v0Hardwired : Bool
  vcfgCsr : CsrAddr
  illegalTval : IllegalTval
  /-- The addresses with `CSR_NEEDS_SERIALIZE(a)` false; the spec decides: none (42_csr_gate.md R265). -/
  noSerialize : List CsrAddr
  memMap : List FaultRegion
  misaligned : MisalignedData
  csrRules : List CsrRule
  logEnabled : Bool
deriving DecidableEq, Repr

/-- An answer of the capability query `Supports`: a Boolean, or a fault of its own (00_scope.md R8, 90_conflicts.md
C10). -/
inductive CapAnswer where
  | yes
  | no
  | faults (report : Report)
deriving DecidableEq, Repr

/-- The answers of the capability query `Supports` (00_scope.md R8). -/
structure Caps where
  c : CapAnswer
  f : CapAnswer
  d : CapAnswer
  q : CapAnswer
  h : CapAnswer
  v : CapAnswer
deriving DecidableEq, Repr

/-- The inputs the block reads and does not own (10_state.md R46): constant during one instruction, and the
collaborators' to change between two. -/
structure Inputs where
  xlen : XLen
  caps : Caps
  fpEnabled : Bool
  prv : BitVec 2
  frm : BitVec 3
deriving DecidableEq, Repr

/-! ## Free values -/

/-- MAXVL, OPEN (00_scope.md R20, D14; log 20): the maximum vector length a configuration allows. -/
opaque Config.maxVl : Groups → Nat

/-- VCFG_ENC, OPEN (00_scope.md R20, D14; log 20): the packing of a configuration request. -/
opaque Config.vcfgEnc : Groups → Word

/-- VTYPE_PACK, OPEN (00_scope.md R5, R20; 10_state.md R40, D12; log 27): the bit packing of a vector type tag. -/
opaque Config.vtypePack : VTag → Word

/-- VFIELDS, OPEN (30_encoding.md R135, D46; log 20): field number `k` of a vector instruction word. -/
opaque Config.vfields : Nat → Word → Word

end Sys2Proof
end

