-- ==== Sys2Proof/Syntax.lean ====
section
/-! DEFINITION. The reference instructions: one constructor per row of spec/opcode_table.json (30_encoding.md R137).
An operand is the VALUE the row's accessors return (30_encoding.md R104 to R134, R144), never raw bits: an immediate
is the 64-bit value after extension and scaling, a compact register specifier is already 8..15. -/

namespace Sys2Proof

/-- A reference instruction, operands in assembler order (30_encoding.md R142). -/
inductive Instr where
  -- 45_reference_rv.md, integer computation
  | add (rd rs1 rs2 : Reg)
  | addi (rd rs1 : Reg) (imm : Word)
  | lui (rd : Reg) (imm : Word)
  | slli (rd rs1 : Reg) (shamt : BitVec 6)
  | auipc (rd : Reg) (imm : Word)
  -- control transfer
  | jal (rd : Reg) (off : Word)
  | jalr (rd rs1 : Reg) (imm : Word)
  | beq (rs1 rs2 : Reg) (off : Word)
  | bne (rs1 rs2 : Reg) (off : Word)
  | blt (rs1 rs2 : Reg) (off : Word)
  | bge (rs1 rs2 : Reg) (off : Word)
  | bltu (rs1 rs2 : Reg) (off : Word)
  | bgeu (rs1 rs2 : Reg) (off : Word)
  -- loads and stores
  | lw (rd rs1 : Reg) (imm : Word)
  | ld (rd rs1 : Reg) (imm : Word)
  | sw (rs2 rs1 : Reg) (imm : Word)
  | sd (rs2 rs1 : Reg) (imm : Word)
  -- CSR access
  | csrrw (rd : Reg) (csr : CsrAddr) (rs1 : Reg)
  | csrrs (rd : Reg) (csr : CsrAddr) (rs1 : Reg)
  | csrrc (rd : Reg) (csr : CsrAddr) (rs1 : Reg)
  | csrrwi (rd : Reg) (csr : CsrAddr) (zimm : BitVec 5)
  | csrrsi (rd : Reg) (csr : CsrAddr) (zimm : BitVec 5)
  | csrrci (rd : Reg) (csr : CsrAddr) (zimm : BitVec 5)
  -- sign injection
  | fsgnjS (rd rs1 rs2 : Reg)
  | fsgnjnS (rd rs1 rs2 : Reg)
  | fsgnjxS (rd rs1 rs2 : Reg)
  | fsgnjD (rd rs1 rs2 : Reg)
  | fsgnjnD (rd rs1 rs2 : Reg)
  | fsgnjxD (rd rs1 rs2 : Reg)
  | fsgnjQ (rd rs1 rs2 : Reg)
  | fsgnjnQ (rd rs1 rs2 : Reg)
  | fsgnjxQ (rd rs1 rs2 : Reg)
  -- 46_reference_rvc.md, quadrant 00
  | cAddi4spn (rd : Reg) (imm : Word)
  | cLw (rd rs1 : Reg) (imm : Word)
  | cLd (rd rs1 : Reg) (imm : Word)
  | cSw (rs2 rs1 : Reg) (imm : Word)
  | cSd (rs2 rs1 : Reg) (imm : Word)
  -- quadrant 01
  | cAddi (rd : Reg) (imm : Word)
  | cLi (rd : Reg) (imm : Word)
  | cAddi16sp (imm : Word)
  | cLui (rd : Reg) (imm : Word)
  | cJ (off : Word)
  | cBeqz (rs1 : Reg) (off : Word)
  | cBnez (rs1 : Reg) (off : Word)
  -- quadrant 10
  | cSlli (rd : Reg) (shamt : BitVec 6)
  | cLwsp (rd : Reg) (imm : Word)
  | cLdsp (rd : Reg) (imm : Word)
  | cSwsp (rs2 : Reg) (imm : Word)
  | cSdsp (rs2 : Reg) (imm : Word)
deriving DecidableEq, Repr

end Sys2Proof
end

