-- ==== Sys2Proof/WellFormed.lean ====
section
/-! DEFINITION. Which instruction terms some word spells: each operand is a value its accessor can return
(30_encoding.md R111 to R134). `Instr.wf` is a Bool, so that a test can decide it. -/

namespace Sys2Proof

/-- `v` is the sign extension of its low `n` bits. -/
def signedFits (n : Nat) (v : Word) : Bool := (v.setWidth n).signExtend 64 == v

/-- `v` is the zero extension of its low `n` bits. -/
def unsignedFits (n : Nat) (v : Word) : Bool := (v.setWidth n).setWidth 64 == v

/-- The low `n` bits of `v` are 0, so that `v` is a multiple of `2^n`. -/
def lowZero (n : Nat) (v : Word) : Bool := v.setWidth n == 0

/-- A compact register specifier names x8..x15 (30_encoding.md R121, R122). -/
def compactReg (r : Reg) : Bool := r.extractLsb' 3 2 == 1#2

/-- The term is what the decoder can return for some word: its immediates are in range and aligned as their formats
say, its compact registers are in 8..15, and `c.lui` does not name x2, whose word is `c.addi16sp` (30_encoding.md
R138; 46_reference_rvc.md R358). -/
def Instr.wf : Instr → Bool
  | .add _ _ _ => true
  | .addi _ _ imm => signedFits 12 imm
  | .lui _ imm => signedFits 32 imm && lowZero 12 imm
  | .slli _ _ _ => true
  | .auipc _ imm => signedFits 32 imm && lowZero 12 imm
  | .jal _ off => signedFits 21 off && lowZero 1 off
  | .jalr _ _ imm => signedFits 12 imm
  | .beq _ _ off => signedFits 13 off && lowZero 1 off
  | .bne _ _ off => signedFits 13 off && lowZero 1 off
  | .blt _ _ off => signedFits 13 off && lowZero 1 off
  | .bge _ _ off => signedFits 13 off && lowZero 1 off
  | .bltu _ _ off => signedFits 13 off && lowZero 1 off
  | .bgeu _ _ off => signedFits 13 off && lowZero 1 off
  | .lw _ _ imm => signedFits 12 imm
  | .ld _ _ imm => signedFits 12 imm
  | .sw _ _ imm => signedFits 12 imm
  | .sd _ _ imm => signedFits 12 imm
  | .csrrw _ _ _ => true
  | .csrrs _ _ _ => true
  | .csrrc _ _ _ => true
  | .csrrwi _ _ _ => true
  | .csrrsi _ _ _ => true
  | .csrrci _ _ _ => true
  | .fsgnjS _ _ _ => true
  | .fsgnjnS _ _ _ => true
  | .fsgnjxS _ _ _ => true
  | .fsgnjD _ _ _ => true
  | .fsgnjnD _ _ _ => true
  | .fsgnjxD _ _ _ => true
  | .fsgnjQ _ _ _ => true
  | .fsgnjnQ _ _ _ => true
  | .fsgnjxQ _ _ _ => true
  | .cAddi4spn rd imm => compactReg rd && unsignedFits 10 imm && lowZero 2 imm
  | .cLw rd rs1 imm => compactReg rd && compactReg rs1 && unsignedFits 7 imm && lowZero 2 imm
  | .cLd rd rs1 imm => compactReg rd && compactReg rs1 && unsignedFits 8 imm && lowZero 3 imm
  | .cSw rs2 rs1 imm => compactReg rs2 && compactReg rs1 && unsignedFits 7 imm && lowZero 2 imm
  | .cSd rs2 rs1 imm => compactReg rs2 && compactReg rs1 && unsignedFits 8 imm && lowZero 3 imm
  | .cAddi _ imm => signedFits 6 imm
  | .cLi _ imm => signedFits 6 imm
  | .cAddi16sp imm => signedFits 10 imm && lowZero 4 imm
  | .cLui rd imm => rd != 2#5 && signedFits 6 imm
  | .cJ off => signedFits 12 off && lowZero 1 off
  | .cBeqz rs1 off => compactReg rs1 && signedFits 9 off && lowZero 1 off
  | .cBnez rs1 off => compactReg rs1 && signedFits 9 off && lowZero 1 off
  | .cSlli _ _ => true
  | .cLwsp _ imm => unsignedFits 8 imm && lowZero 2 imm
  | .cLdsp _ imm => unsignedFits 9 imm && lowZero 3 imm
  | .cSwsp _ imm => unsignedFits 8 imm && lowZero 2 imm
  | .cSdsp _ imm => unsignedFits 9 imm && lowZero 3 imm

end Sys2Proof
end

