-- ==== Sys2Proof/Decode.lean ====
section
/-! DEFINITION. The instruction-word unit (30_encoding.md): length, canonical form, the field and immediate
accessors, the decoder, and after it the encoder. Nothing here validates operands; every accessor is total on all
64-bit words (R136). -/

namespace Sys2Proof

/-- `insn[hi:lo]` (00_scope.md R22). -/
def bits (insn : Word) (hi lo : Nat) : BitVec (hi - lo + 1) := insn.extractLsb hi lo

/-! ## Length and canonical form -/

/-- The length in bytes, from the low two, five and six bits in that order (30_encoding.md R102). -/
def insnLength (insn : Word) : Nat :=
  if bits insn 1 0 ≠ 0b11#2 then 2
  else if bits insn 4 0 ≠ 0b11111#5 then 4
  else if bits insn 5 0 ≠ 0b111111#6 then 6
  else 8

/-- `canonical(raw, L)`: the sign extension of the low `8L` bits (30_encoding.md R101). -/
def canonical (raw : Word) (len : Nat) : Word := (raw.setWidth (8 * len)).signExtend 64

/-! ## Register, rounding-mode and CSR fields -/

/-- 30_encoding.md R104. -/
def rd (insn : Word) : Reg := bits insn 11 7

/-- 30_encoding.md R105. -/
def rs1 (insn : Word) : Reg := bits insn 19 15

/-- 30_encoding.md R106. -/
def rs2 (insn : Word) : Reg := bits insn 24 20

/-- 30_encoding.md R107. -/
def rs3 (insn : Word) : Reg := bits insn 31 27

/-- 30_encoding.md R108. -/
def rm (insn : Word) : BitVec 3 := bits insn 14 12

/-- 30_encoding.md R109. -/
def csr (insn : Word) : CsrAddr := bits insn 31 20

/-- 30_encoding.md R110. -/
def shamt (insn : Word) : BitVec 6 := bits insn 25 20

/-- The 5-bit immediate of the CSR immediate forms (30_encoding.md R144); its zero extension is the operand. -/
def zimm (insn : Word) : BitVec 5 := rs1 insn

/-! ## 32-bit immediates -/

/-- The I immediate: the whole word shifted right arithmetically by 20 (30_encoding.md R111). -/
def iImm (insn : Word) : Word := insn.sshiftRight 20

/-- The S immediate, its sign in bit 31 (30_encoding.md R112). -/
def sImm (insn : Word) : Word := (bits insn 31 25 ++ bits insn 11 7).signExtend 64

/-- The SB immediate, its sign in bit 63 (30_encoding.md R113). -/
def sbImm (insn : Word) : Word :=
  (bits insn 63 63 ++ bits insn 7 7 ++ bits insn 30 25 ++ bits insn 11 8 ++ 0#1).signExtend 64

/-- The U immediate: the word read as signed, its low 12 bits cleared (30_encoding.md R114). -/
def uImm (insn : Word) : Word := insn.sshiftRight 12 <<< 12

/-- The UJ immediate, its sign in bit 63 (30_encoding.md R115). -/
def ujImm (insn : Word) : Word :=
  (bits insn 63 63 ++ bits insn 19 12 ++ bits insn 20 20 ++ bits insn 30 21 ++ 0#1).signExtend 64

/-! ## Compressed fields and immediates -/

/-- `rvc_rd` and `rvc_rs1` (30_encoding.md R119). -/
def rvcRd (insn : Word) : Reg := bits insn 11 7

/-- 30_encoding.md R120. -/
def rvcRs2 (insn : Word) : Reg := bits insn 6 2

/-- `8 + insn[9:7]` (30_encoding.md R121). -/
def rvcRs1s (insn : Word) : Reg := 0b01#2 ++ bits insn 9 7

/-- `8 + insn[4:2]` (30_encoding.md R122). -/
def rvcRs2s (insn : Word) : Reg := 0b01#2 ++ bits insn 4 2

/-- 30_encoding.md R123. -/
def rvcImm (insn : Word) : Word := (bits insn 12 12 ++ bits insn 6 2).signExtend 64

/-- 30_encoding.md R124. -/
def rvcZimm (insn : Word) : BitVec 6 := bits insn 12 12 ++ bits insn 6 2

/-- 30_encoding.md R125. -/
def rvcAddi4spnImm (insn : Word) : Word :=
  (bits insn 10 7 ++ bits insn 12 11 ++ bits insn 5 5 ++ bits insn 6 6 ++ 0#2).setWidth 64

/-- 30_encoding.md R126. -/
def rvcAddi16spImm (insn : Word) : Word :=
  (bits insn 12 12 ++ bits insn 4 3 ++ bits insn 5 5 ++ bits insn 2 2 ++ bits insn 6 6 ++ 0#4).signExtend 64

/-- 30_encoding.md R127. -/
def rvcLwspImm (insn : Word) : Word := (bits insn 3 2 ++ bits insn 12 12 ++ bits insn 6 4 ++ 0#2).setWidth 64

/-- 30_encoding.md R128. -/
def rvcLdspImm (insn : Word) : Word := (bits insn 4 2 ++ bits insn 12 12 ++ bits insn 6 5 ++ 0#3).setWidth 64

/-- 30_encoding.md R129. -/
def rvcSwspImm (insn : Word) : Word := (bits insn 8 7 ++ bits insn 12 9 ++ 0#2).setWidth 64

/-- 30_encoding.md R130. -/
def rvcSdspImm (insn : Word) : Word := (bits insn 9 7 ++ bits insn 12 10 ++ 0#3).setWidth 64

/-- 30_encoding.md R131. -/
def rvcLwImm (insn : Word) : Word := (bits insn 5 5 ++ bits insn 12 10 ++ bits insn 6 6 ++ 0#2).setWidth 64

/-- 30_encoding.md R132. -/
def rvcLdImm (insn : Word) : Word := (bits insn 6 5 ++ bits insn 12 10 ++ 0#3).setWidth 64

/-- 30_encoding.md R133. -/
def rvcJImm (insn : Word) : Word :=
  (bits insn 12 12 ++ bits insn 8 8 ++ bits insn 10 9 ++ bits insn 6 6 ++ bits insn 7 7 ++ bits insn 2 2 ++
    bits insn 11 11 ++ bits insn 5 3 ++ 0#1).signExtend 64

/-- 30_encoding.md R134. -/
def rvcBImm (insn : Word) : Word :=
  (bits insn 12 12 ++ bits insn 6 5 ++ bits insn 2 2 ++ bits insn 11 10 ++ bits insn 4 3 ++ 0#1).signExtend 64

/-- Field number `k` of a vector instruction, through the OPEN parameter VFIELDS (30_encoding.md R135). -/
def vectorField (k : Nat) (insn : Word) : Word := Config.vfields k insn

/-! ## The decoder -/

/-- Why a word is refused (30_encoding.md R138). -/
inductive Reject where
  /-- No row of the table takes the word (R138, D47). -/
  | noReferenceInstruction
  /-- A word of length 6 or 8: no row has that length (43_dispatch_shell.md R288). -/
  | longInstruction
  /-- The word of an RV64-only row while XLEN is 32: another, unreferenced, instruction (R139). -/
  | rv64OnlyRow
  /-- Fewer bytes than the length says (only `decodeBytes` answers this; a fetch always delivers the length). -/
  | truncated
deriving DecidableEq, Repr

/-- A 4-byte word: major opcode, then funct3, then funct7, funct6 or the CSR-form funct3 (30_encoding.md R117,
R137). -/
def decode32 (w : Word) : Option Instr :=
  let op := bits w 6 0
  let f3 := bits w 14 12
  let f7 := bits w 31 25
  if op = 0x33#7 then
    if f3 = 0#3 ∧ f7 = 0#7 then some (.add (rd w) (rs1 w) (rs2 w)) else none
  else if op = 0x13#7 then
    if f3 = 0#3 then some (.addi (rd w) (rs1 w) (iImm w))
    else if f3 = 1#3 ∧ bits w 31 26 = 0#6 then some (.slli (rd w) (rs1 w) (shamt w))
    else none
  else if op = 0x37#7 then some (.lui (rd w) (uImm w))
  else if op = 0x17#7 then some (.auipc (rd w) (uImm w))
  else if op = 0x6f#7 then some (.jal (rd w) (ujImm w))
  else if op = 0x67#7 then
    if f3 = 0#3 then some (.jalr (rd w) (rs1 w) (iImm w)) else none
  else if op = 0x63#7 then
    if f3 = 0#3 then some (.beq (rs1 w) (rs2 w) (sbImm w))
    else if f3 = 1#3 then some (.bne (rs1 w) (rs2 w) (sbImm w))
    else if f3 = 4#3 then some (.blt (rs1 w) (rs2 w) (sbImm w))
    else if f3 = 5#3 then some (.bge (rs1 w) (rs2 w) (sbImm w))
    else if f3 = 6#3 then some (.bltu (rs1 w) (rs2 w) (sbImm w))
    else if f3 = 7#3 then some (.bgeu (rs1 w) (rs2 w) (sbImm w))
    else none
  else if op = 0x03#7 then
    if f3 = 2#3 then some (.lw (rd w) (rs1 w) (iImm w))
    else if f3 = 3#3 then some (.ld (rd w) (rs1 w) (iImm w))
    else none
  else if op = 0x23#7 then
    if f3 = 2#3 then some (.sw (rs2 w) (rs1 w) (sImm w))
    else if f3 = 3#3 then some (.sd (rs2 w) (rs1 w) (sImm w))
    else none
  else if op = 0x73#7 then
    if f3 = 1#3 then some (.csrrw (rd w) (csr w) (rs1 w))
    else if f3 = 2#3 then some (.csrrs (rd w) (csr w) (rs1 w))
    else if f3 = 3#3 then some (.csrrc (rd w) (csr w) (rs1 w))
    else if f3 = 5#3 then some (.csrrwi (rd w) (csr w) (zimm w))
    else if f3 = 6#3 then some (.csrrsi (rd w) (csr w) (zimm w))
    else if f3 = 7#3 then some (.csrrci (rd w) (csr w) (zimm w))
    else none
  else if op = 0x53#7 then
    if f7 = 0x10#7 then
      if f3 = 0#3 then some (.fsgnjS (rd w) (rs1 w) (rs2 w))
      else if f3 = 1#3 then some (.fsgnjnS (rd w) (rs1 w) (rs2 w))
      else if f3 = 2#3 then some (.fsgnjxS (rd w) (rs1 w) (rs2 w))
      else none
    else if f7 = 0x11#7 then
      if f3 = 0#3 then some (.fsgnjD (rd w) (rs1 w) (rs2 w))
      else if f3 = 1#3 then some (.fsgnjnD (rd w) (rs1 w) (rs2 w))
      else if f3 = 2#3 then some (.fsgnjxD (rd w) (rs1 w) (rs2 w))
      else none
    else if f7 = 0x13#7 then
      if f3 = 0#3 then some (.fsgnjQ (rd w) (rs1 w) (rs2 w))
      else if f3 = 1#3 then some (.fsgnjnQ (rd w) (rs1 w) (rs2 w))
      else if f3 = 2#3 then some (.fsgnjxQ (rd w) (rs1 w) (rs2 w))
      else none
    else none
  else none

/-- A 2-byte word: quadrant and funct3 (30_encoding.md R118, R137); `c.addi16sp` wins over `c.lui` (R138); the
RV64-only rows are rows at XLEN 64 alone (R139). -/
def decode16 (x : XLen) (w : Word) : Except Reject Instr :=
  let q := bits w 1 0
  let f3 := bits w 15 13
  let only64 (i : Instr) : Except Reject Instr := if x = .x64 then .ok i else .error .rv64OnlyRow
  if q = 0#2 then
    if f3 = 0#3 then .ok (.cAddi4spn (rvcRs2s w) (rvcAddi4spnImm w))
    else if f3 = 2#3 then .ok (.cLw (rvcRs2s w) (rvcRs1s w) (rvcLwImm w))
    else if f3 = 3#3 then only64 (.cLd (rvcRs2s w) (rvcRs1s w) (rvcLdImm w))
    else if f3 = 6#3 then .ok (.cSw (rvcRs2s w) (rvcRs1s w) (rvcLwImm w))
    else if f3 = 7#3 then only64 (.cSd (rvcRs2s w) (rvcRs1s w) (rvcLdImm w))
    else .error .noReferenceInstruction
  else if q = 1#2 then
    if f3 = 0#3 then .ok (.cAddi (rvcRd w) (rvcImm w))
    else if f3 = 2#3 then .ok (.cLi (rvcRd w) (rvcImm w))
    else if f3 = 3#3 then
      if rvcRd w = 2#5 then .ok (.cAddi16sp (rvcAddi16spImm w)) else .ok (.cLui (rvcRd w) (rvcImm w))
    else if f3 = 5#3 then .ok (.cJ (rvcJImm w))
    else if f3 = 6#3 then .ok (.cBeqz (rvcRs1s w) (rvcBImm w))
    else if f3 = 7#3 then .ok (.cBnez (rvcRs1s w) (rvcBImm w))
    else .error .noReferenceInstruction
  else
    if f3 = 0#3 then .ok (.cSlli (rvcRd w) (rvcZimm w))
    else if f3 = 2#3 then .ok (.cLwsp (rvcRd w) (rvcLwspImm w))
    else if f3 = 3#3 then only64 (.cLdsp (rvcRd w) (rvcLdspImm w))
    else if f3 = 6#3 then .ok (.cSwsp (rvcRs2 w) (rvcSwspImm w))
    else if f3 = 7#3 then only64 (.cSdsp (rvcRs2 w) (rvcSdspImm w))
    else .error .noReferenceInstruction

/-- Decoding a canonical word: the handler of the row it spells, or a refusal (30_encoding.md R138). It agrees with
`tableDecode`, the procedure as the rule writes it. -/
def decodeWord (x : XLen) (w : Word) : Except Reject Instr :=
  if insnLength w = 2 then decode16 x w
  else if insnLength w = 4 then
    match decode32 w with
    | some i => .ok i
    | none => .error .noReferenceInstruction
  else .error .longInstruction

/-- Little-endian assembly of bytes: byte `k` supplies bits `8k+7:8k` (20_memory.md R71, R72). -/
def leWord : List Byte → Word
  | [] => 0
  | b :: bs => leWord bs <<< 8 ||| b.setWidth 64

/-- Decoding the bytes of an instruction, the first at the lowest address: the length comes from the first parcel,
the word is made canonical (20_memory.md R72, 30_encoding.md R101). Answers the instruction and the bytes after it. -/
def decodeBytes (x : XLen) (bytes : List Byte) : Except Reject (Instr × List Byte) :=
  let len := insnLength (leWord (bytes.take 2))
  if bytes.length < 2 ∨ bytes.length < len then .error .truncated
  else
    match decodeWord x (canonical (leWord (bytes.take len)) len) with
    | .ok i => .ok (i, bytes.drop len)
    | .error r => .error r

/-- The low `n` bytes of `v`, the least significant first. -/
def leBytes : Nat → Word → List Byte
  | 0, _ => []
  | n + 1, v => v.setWidth 8 :: leBytes n (v >>> 8)

/-- The host's question about one row of spec/opcode_table.json: the instruction the decoder reads (at XLEN 64)
from the word whose low `nbits` bits are those of `w` and whose other bits are 0. -/
def decodeTableWord (nbits w : Nat) : Option Instr :=
  match decodeBytes .x64 (leBytes 8 (BitVec.ofNat 64 (w % 2 ^ nbits))) with
  | .ok (i, _) => some i
  | .error _ => none

/-! ## The opcode table and the decode procedure as the rule writes them -/

/-- A row of spec/opcode_table.json: `match`, `mask`, the `xlen` restriction, and the handler it stands for. -/
structure Row where
  pattern : Word
  mask : Word
  only64 : Bool
  build : Word → Instr

/-- Integer computation and control transfer (45_reference_rv.md R300 to R313). -/
def integerRows : List Row :=
  [ { pattern := 0x00000033, mask := 0xfe00707f, only64 := false, build := fun w => .add (rd w) (rs1 w) (rs2 w) },
    { pattern := 0x00000013, mask := 0x0000707f, only64 := false, build := fun w => .addi (rd w) (rs1 w) (iImm w) },
    { pattern := 0x00000037, mask := 0x0000007f, only64 := false, build := fun w => .lui (rd w) (uImm w) },
    { pattern := 0x00001013, mask := 0xfc00707f, only64 := false, build := fun w => .slli (rd w) (rs1 w) (shamt w) },
    { pattern := 0x00000017, mask := 0x0000007f, only64 := false, build := fun w => .auipc (rd w) (uImm w) },
    { pattern := 0x0000006f, mask := 0x0000007f, only64 := false, build := fun w => .jal (rd w) (ujImm w) },
    { pattern := 0x00000067, mask := 0x0000707f, only64 := false, build := fun w => .jalr (rd w) (rs1 w) (iImm w) },
    { pattern := 0x00000063, mask := 0x0000707f, only64 := false, build := fun w => .beq (rs1 w) (rs2 w) (sbImm w) },
    { pattern := 0x00001063, mask := 0x0000707f, only64 := false, build := fun w => .bne (rs1 w) (rs2 w) (sbImm w) },
    { pattern := 0x00004063, mask := 0x0000707f, only64 := false, build := fun w => .blt (rs1 w) (rs2 w) (sbImm w) },
    { pattern := 0x00005063, mask := 0x0000707f, only64 := false, build := fun w => .bge (rs1 w) (rs2 w) (sbImm w) },
    { pattern := 0x00006063, mask := 0x0000707f, only64 := false, build := fun w => .bltu (rs1 w) (rs2 w) (sbImm w) },
    { pattern := 0x00007063, mask := 0x0000707f, only64 := false, build := fun w => .bgeu (rs1 w) (rs2 w) (sbImm w) } ]

/-- Loads, stores and CSR access (45_reference_rv.md R314 to R325). -/
def memoryCsrRows : List Row :=
  [ { pattern := 0x00002003, mask := 0x0000707f, only64 := false, build := fun w => .lw (rd w) (rs1 w) (iImm w) },
    { pattern := 0x00003003, mask := 0x0000707f, only64 := false, build := fun w => .ld (rd w) (rs1 w) (iImm w) },
    { pattern := 0x00002023, mask := 0x0000707f, only64 := false, build := fun w => .sw (rs2 w) (rs1 w) (sImm w) },
    { pattern := 0x00003023, mask := 0x0000707f, only64 := false, build := fun w => .sd (rs2 w) (rs1 w) (sImm w) },
    { pattern := 0x00001073, mask := 0x0000707f, only64 := false, build := fun w => .csrrw (rd w) (csr w) (rs1 w) },
    { pattern := 0x00002073, mask := 0x0000707f, only64 := false, build := fun w => .csrrs (rd w) (csr w) (rs1 w) },
    { pattern := 0x00003073, mask := 0x0000707f, only64 := false, build := fun w => .csrrc (rd w) (csr w) (rs1 w) },
    { pattern := 0x00005073, mask := 0x0000707f, only64 := false, build := fun w => .csrrwi (rd w) (csr w) (zimm w) },
    { pattern := 0x00006073, mask := 0x0000707f, only64 := false, build := fun w => .csrrsi (rd w) (csr w) (zimm w) },
    { pattern := 0x00007073, mask := 0x0000707f, only64 := false, build := fun w => .csrrci (rd w) (csr w) (zimm w) } ]

/-- Sign injection (45_reference_rv.md R330 to R338). -/
def signRows : List Row :=
  [ { pattern := 0x20000053, mask := 0xfe00707f, only64 := false, build := fun w => .fsgnjS (rd w) (rs1 w) (rs2 w) },
    { pattern := 0x20001053, mask := 0xfe00707f, only64 := false, build := fun w => .fsgnjnS (rd w) (rs1 w) (rs2 w) },
    { pattern := 0x20002053, mask := 0xfe00707f, only64 := false, build := fun w => .fsgnjxS (rd w) (rs1 w) (rs2 w) },
    { pattern := 0x22000053, mask := 0xfe00707f, only64 := false, build := fun w => .fsgnjD (rd w) (rs1 w) (rs2 w) },
    { pattern := 0x22001053, mask := 0xfe00707f, only64 := false, build := fun w => .fsgnjnD (rd w) (rs1 w) (rs2 w) },
    { pattern := 0x22002053, mask := 0xfe00707f, only64 := false, build := fun w => .fsgnjxD (rd w) (rs1 w) (rs2 w) },
    { pattern := 0x26000053, mask := 0xfe00707f, only64 := false, build := fun w => .fsgnjQ (rd w) (rs1 w) (rs2 w) },
    { pattern := 0x26001053, mask := 0xfe00707f, only64 := false, build := fun w => .fsgnjnQ (rd w) (rs1 w) (rs2 w) },
    { pattern := 0x26002053, mask := 0xfe00707f, only64 := false, build := fun w => .fsgnjxQ (rd w) (rs1 w) (rs2 w) } ]

/-- The compressed rows (46_reference_rvc.md R350 to R366). -/
def compressedRows : List Row :=
  [ { pattern := 0x0000, mask := 0xe003, only64 := false, build := fun w => .cAddi4spn (rvcRs2s w) (rvcAddi4spnImm w) },
    { pattern := 0x4000, mask := 0xe003, only64 := false, build := fun w => .cLw (rvcRs2s w) (rvcRs1s w) (rvcLwImm w) },
    { pattern := 0x6000, mask := 0xe003, only64 := true, build := fun w => .cLd (rvcRs2s w) (rvcRs1s w) (rvcLdImm w) },
    { pattern := 0xc000, mask := 0xe003, only64 := false, build := fun w => .cSw (rvcRs2s w) (rvcRs1s w) (rvcLwImm w) },
    { pattern := 0xe000, mask := 0xe003, only64 := true, build := fun w => .cSd (rvcRs2s w) (rvcRs1s w) (rvcLdImm w) },
    { pattern := 0x0001, mask := 0xe003, only64 := false, build := fun w => .cAddi (rvcRd w) (rvcImm w) },
    { pattern := 0x4001, mask := 0xe003, only64 := false, build := fun w => .cLi (rvcRd w) (rvcImm w) },
    { pattern := 0x6101, mask := 0xef83, only64 := false, build := fun w => .cAddi16sp (rvcAddi16spImm w) },
    { pattern := 0x6001, mask := 0xe003, only64 := false, build := fun w => .cLui (rvcRd w) (rvcImm w) },
    { pattern := 0xa001, mask := 0xe003, only64 := false, build := fun w => .cJ (rvcJImm w) },
    { pattern := 0xc001, mask := 0xe003, only64 := false, build := fun w => .cBeqz (rvcRs1s w) (rvcBImm w) },
    { pattern := 0xe001, mask := 0xe003, only64 := false, build := fun w => .cBnez (rvcRs1s w) (rvcBImm w) },
    { pattern := 0x0002, mask := 0xe003, only64 := false, build := fun w => .cSlli (rvcRd w) (rvcZimm w) },
    { pattern := 0x4002, mask := 0xe003, only64 := false, build := fun w => .cLwsp (rvcRd w) (rvcLwspImm w) },
    { pattern := 0x6002, mask := 0xe003, only64 := true, build := fun w => .cLdsp (rvcRd w) (rvcLdspImm w) },
    { pattern := 0xc002, mask := 0xe003, only64 := false, build := fun w => .cSwsp (rvcRs2 w) (rvcSwspImm w) },
    { pattern := 0xe002, mask := 0xe003, only64 := true, build := fun w => .cSdsp (rvcRs2 w) (rvcSdspImm w) } ]

/-- spec/opcode_table.json, in its own order. -/
def opcodeTable : List Row := integerRows ++ memoryCsrRows ++ signRows ++ compressedRows

/-- `(insn & mask) == match` (30_encoding.md R137). -/
def Row.takes (r : Row) (w : Word) : Bool := w &&& r.mask == r.pattern

/-- The number of 1 bits among the low `n` bits. -/
def onesBelow : Nat → Word → Nat
  | 0, _ => 0
  | n + 1, v => (if v.getLsbD n then 1 else 0) + onesBelow n v

/-- The row with the most 1 bits in its mask; the earlier row on a tie. -/
def mostSpecific : List Row → Option Row
  | [] => none
  | r :: rs =>
    match mostSpecific rs with
    | none => some r
    | some b => if onesBelow 32 b.mask > onesBelow 32 r.mask then some b else some r

/-- The decode procedure of 30_encoding.md R138 over the table, with the XLEN restriction of R139 and the name of
the refusal for lengths 6 and 8 (43_dispatch_shell.md R288). -/
def tableDecode (x : XLen) (w : Word) : Except Reject Instr :=
  match mostSpecific (opcodeTable.filter (·.takes w)) with
  | some r => if r.only64 && x != .x64 then .error .rv64OnlyRow else .ok (r.build w)
  | none => if insnLength w > 4 then .error .longInstruction else .error .noReferenceInstruction

/-! ## The encoder -/

/-- Format R (30_encoding.md R117). -/
def encR (f7 : BitVec 7) (rs2 rs1 : Reg) (f3 : BitVec 3) (rd : Reg) (op : BitVec 7) : BitVec 32 :=
  f7 ++ rs2 ++ rs1 ++ f3 ++ rd ++ op

/-- Formats I and CSR: a 12-bit field on top (30_encoding.md R117). -/
def encI (top : BitVec 12) (rs1 : Reg) (f3 : BitVec 3) (rd : Reg) (op : BitVec 7) : BitVec 32 :=
  top ++ rs1 ++ f3 ++ rd ++ op

/-- Format S (30_encoding.md R117). -/
def encS (imm : Word) (rs2 rs1 : Reg) (f3 : BitVec 3) (op : BitVec 7) : BitVec 32 :=
  bits imm 11 5 ++ rs2 ++ rs1 ++ f3 ++ bits imm 4 0 ++ op

/-- Format SB (30_encoding.md R117). -/
def encSB (off : Word) (rs2 rs1 : Reg) (f3 : BitVec 3) (op : BitVec 7) : BitVec 32 :=
  bits off 12 12 ++ bits off 10 5 ++ rs2 ++ rs1 ++ f3 ++ bits off 4 1 ++ bits off 11 11 ++ op

/-- Format U (30_encoding.md R117). -/
def encU (imm : Word) (rd : Reg) (op : BitVec 7) : BitVec 32 := bits imm 31 12 ++ rd ++ op

/-- Format UJ (30_encoding.md R117). -/
def encUJ (off : Word) (rd : Reg) (op : BitVec 7) : BitVec 32 :=
  bits off 20 20 ++ bits off 10 1 ++ bits off 11 11 ++ bits off 19 12 ++ rd ++ op

/-- The low three bits of a compact register specifier (30_encoding.md R121, R122). -/
def compactBits (r : Reg) : BitVec 3 := r.extractLsb' 0 3

/-- Format CI with the immediate layout of `rvc_imm` and `rvc_zimm` (30_encoding.md R118, R123, R124). -/
def encCI (f3 : BitVec 3) (imm : BitVec 6) (rd : Reg) (op : BitVec 2) : BitVec 16 :=
  f3 ++ imm.extractLsb' 5 1 ++ rd ++ imm.extractLsb' 0 5 ++ op

/-- Formats CL and CS with the immediate of `c.lw` and `c.sw` (30_encoding.md R118, R131). -/
def encCLw (f3 : BitVec 3) (imm : Word) (rs1 r : Reg) : BitVec 16 :=
  f3 ++ bits imm 5 3 ++ compactBits rs1 ++ bits imm 2 2 ++ bits imm 6 6 ++ compactBits r ++ 0#2

/-- Formats CL and CS with the immediate of `c.ld` and `c.sd` (30_encoding.md R118, R132). -/
def encCLd (f3 : BitVec 3) (imm : Word) (rs1 r : Reg) : BitVec 16 :=
  f3 ++ bits imm 5 3 ++ compactBits rs1 ++ bits imm 7 6 ++ compactBits r ++ 0#2

/-- Format CB (30_encoding.md R118, R134). -/
def encCB (f3 : BitVec 3) (off : Word) (rs1 : Reg) : BitVec 16 :=
  f3 ++ bits off 8 8 ++ bits off 4 3 ++ compactBits rs1 ++ bits off 7 6 ++ bits off 2 1 ++ bits off 5 5 ++ 1#2

/-- The length of the instruction's word in bytes. -/
def instrLength : Instr → Nat
  | .add _ _ _ | .addi _ _ _ | .lui _ _ | .slli _ _ _ | .auipc _ _ => 4
  | .jal _ _ | .jalr _ _ _ | .beq _ _ _ | .bne _ _ _ | .blt _ _ _ | .bge _ _ _ | .bltu _ _ _ | .bgeu _ _ _ => 4
  | .lw _ _ _ | .ld _ _ _ | .sw _ _ _ | .sd _ _ _ => 4
  | .csrrw _ _ _ | .csrrs _ _ _ | .csrrc _ _ _ | .csrrwi _ _ _ | .csrrsi _ _ _ | .csrrci _ _ _ => 4
  | .fsgnjS _ _ _ | .fsgnjnS _ _ _ | .fsgnjxS _ _ _ => 4
  | .fsgnjD _ _ _ | .fsgnjnD _ _ _ | .fsgnjxD _ _ _ => 4
  | .fsgnjQ _ _ _ | .fsgnjnQ _ _ _ | .fsgnjxQ _ _ _ => 4
  | .cAddi4spn _ _ | .cLw _ _ _ | .cLd _ _ _ | .cSw _ _ _ | .cSd _ _ _ => 2
  | .cAddi _ _ | .cLi _ _ | .cAddi16sp _ | .cLui _ _ | .cJ _ | .cBeqz _ _ | .cBnez _ _ => 2
  | .cSlli _ _ | .cLwsp _ _ | .cLdsp _ _ | .cSwsp _ _ | .cSdsp _ _ => 2

/-- A 4-byte instruction in its canonical word (30_encoding.md R101). -/
def word32 (v : BitVec 32) : Word := v.signExtend 64

/-- A 2-byte instruction in its canonical word (30_encoding.md R101). -/
def word16 (v : BitVec 16) : Word := v.signExtend 64

/-- The canonical word of a well-formed instruction (30_encoding.md R117, R118, R137). -/
def encode : Instr → Word
  | .add rd rs1 rs2 => word32 (encR 0x00#7 rs2 rs1 0#3 rd 0x33#7)
  | .addi rd rs1 imm => word32 (encI (bits imm 11 0) rs1 0#3 rd 0x13#7)
  | .lui rd imm => word32 (encU imm rd 0x37#7)
  | .slli rd rs1 sh => word32 (encI (0#6 ++ sh) rs1 1#3 rd 0x13#7)
  | .auipc rd imm => word32 (encU imm rd 0x17#7)
  | .jal rd off => word32 (encUJ off rd 0x6f#7)
  | .jalr rd rs1 imm => word32 (encI (bits imm 11 0) rs1 0#3 rd 0x67#7)
  | .beq rs1 rs2 off => word32 (encSB off rs2 rs1 0#3 0x63#7)
  | .bne rs1 rs2 off => word32 (encSB off rs2 rs1 1#3 0x63#7)
  | .blt rs1 rs2 off => word32 (encSB off rs2 rs1 4#3 0x63#7)
  | .bge rs1 rs2 off => word32 (encSB off rs2 rs1 5#3 0x63#7)
  | .bltu rs1 rs2 off => word32 (encSB off rs2 rs1 6#3 0x63#7)
  | .bgeu rs1 rs2 off => word32 (encSB off rs2 rs1 7#3 0x63#7)
  | .lw rd rs1 imm => word32 (encI (bits imm 11 0) rs1 2#3 rd 0x03#7)
  | .ld rd rs1 imm => word32 (encI (bits imm 11 0) rs1 3#3 rd 0x03#7)
  | .sw rs2 rs1 imm => word32 (encS imm rs2 rs1 2#3 0x23#7)
  | .sd rs2 rs1 imm => word32 (encS imm rs2 rs1 3#3 0x23#7)
  | .csrrw rd a rs1 => word32 (encI a rs1 1#3 rd 0x73#7)
  | .csrrs rd a rs1 => word32 (encI a rs1 2#3 rd 0x73#7)
  | .csrrc rd a rs1 => word32 (encI a rs1 3#3 rd 0x73#7)
  | .csrrwi rd a z => word32 (encI a z 5#3 rd 0x73#7)
  | .csrrsi rd a z => word32 (encI a z 6#3 rd 0x73#7)
  | .csrrci rd a z => word32 (encI a z 7#3 rd 0x73#7)
  | .fsgnjS rd rs1 rs2 => word32 (encR 0x10#7 rs2 rs1 0#3 rd 0x53#7)
  | .fsgnjnS rd rs1 rs2 => word32 (encR 0x10#7 rs2 rs1 1#3 rd 0x53#7)
  | .fsgnjxS rd rs1 rs2 => word32 (encR 0x10#7 rs2 rs1 2#3 rd 0x53#7)
  | .fsgnjD rd rs1 rs2 => word32 (encR 0x11#7 rs2 rs1 0#3 rd 0x53#7)
  | .fsgnjnD rd rs1 rs2 => word32 (encR 0x11#7 rs2 rs1 1#3 rd 0x53#7)
  | .fsgnjxD rd rs1 rs2 => word32 (encR 0x11#7 rs2 rs1 2#3 rd 0x53#7)
  | .fsgnjQ rd rs1 rs2 => word32 (encR 0x13#7 rs2 rs1 0#3 rd 0x53#7)
  | .fsgnjnQ rd rs1 rs2 => word32 (encR 0x13#7 rs2 rs1 1#3 rd 0x53#7)
  | .fsgnjxQ rd rs1 rs2 => word32 (encR 0x13#7 rs2 rs1 2#3 rd 0x53#7)
  | .cAddi4spn rd imm =>
    word16 (0#3 ++ bits imm 5 4 ++ bits imm 9 6 ++ bits imm 2 2 ++ bits imm 3 3 ++ compactBits rd ++ 0#2)
  | .cLw rd rs1 imm => word16 (encCLw 2#3 imm rs1 rd)
  | .cLd rd rs1 imm => word16 (encCLd 3#3 imm rs1 rd)
  | .cSw rs2 rs1 imm => word16 (encCLw 6#3 imm rs1 rs2)
  | .cSd rs2 rs1 imm => word16 (encCLd 7#3 imm rs1 rs2)
  | .cAddi rd imm => word16 (encCI 0#3 (bits imm 5 0) rd 1#2)
  | .cLi rd imm => word16 (encCI 2#3 (bits imm 5 0) rd 1#2)
  | .cAddi16sp imm =>
    word16 (3#3 ++ bits imm 9 9 ++ 2#5 ++ bits imm 4 4 ++ bits imm 6 6 ++ bits imm 8 7 ++ bits imm 5 5 ++ 1#2)
  | .cLui rd imm => word16 (encCI 3#3 (bits imm 5 0) rd 1#2)
  | .cJ off =>
    word16 (5#3 ++ bits off 11 11 ++ bits off 4 4 ++ bits off 9 8 ++ bits off 10 10 ++ bits off 6 6 ++
      bits off 7 7 ++ bits off 3 1 ++ bits off 5 5 ++ 1#2)
  | .cBeqz rs1 off => word16 (encCB 6#3 off rs1)
  | .cBnez rs1 off => word16 (encCB 7#3 off rs1)
  | .cSlli rd sh => word16 (encCI 0#3 sh rd 2#2)
  | .cLwsp rd imm => word16 (2#3 ++ bits imm 5 5 ++ rd ++ bits imm 4 2 ++ bits imm 7 6 ++ 2#2)
  | .cLdsp rd imm => word16 (3#3 ++ bits imm 5 5 ++ rd ++ bits imm 4 3 ++ bits imm 8 6 ++ 2#2)
  | .cSwsp rs2 imm => word16 (6#3 ++ bits imm 5 2 ++ bits imm 7 6 ++ rs2 ++ 2#2)
  | .cSdsp rs2 imm => word16 (7#3 ++ bits imm 5 3 ++ bits imm 8 6 ++ rs2 ++ 2#2)

/-- The bytes of a well-formed instruction, the first at the lowest address (20_memory.md R71, R72). -/
def encodeBytes (i : Instr) : List Byte := leBytes (instrLength i) (encode i)

/-- The rows of the table that are rows at XLEN 64 alone (30_encoding.md R139). -/
def rv64Only : Instr → Bool
  | .cLd _ _ _ | .cSd _ _ _ | .cLdsp _ _ | .cSdsp _ _ => true
  | .add _ _ _ | .addi _ _ _ | .lui _ _ | .slli _ _ _ | .auipc _ _ => false
  | .jal _ _ | .jalr _ _ _ | .beq _ _ _ | .bne _ _ _ | .blt _ _ _ | .bge _ _ _ | .bltu _ _ _ | .bgeu _ _ _ => false
  | .lw _ _ _ | .ld _ _ _ | .sw _ _ _ | .sd _ _ _ => false
  | .csrrw _ _ _ | .csrrs _ _ _ | .csrrc _ _ _ | .csrrwi _ _ _ | .csrrsi _ _ _ | .csrrci _ _ _ => false
  | .fsgnjS _ _ _ | .fsgnjnS _ _ _ | .fsgnjxS _ _ _ => false
  | .fsgnjD _ _ _ | .fsgnjnD _ _ _ | .fsgnjxD _ _ _ => false
  | .fsgnjQ _ _ _ | .fsgnjnQ _ _ _ | .fsgnjxQ _ _ _ => false
  | .cAddi4spn _ _ | .cLw _ _ _ | .cSw _ _ _ => false
  | .cAddi _ _ | .cLi _ _ | .cAddi16sp _ | .cLui _ _ | .cJ _ | .cBeqz _ _ | .cBnez _ _ => false
  | .cSlli _ _ | .cLwsp _ _ | .cSwsp _ _ => false

end Sys2Proof
end

