-- ==== Sys2Proof/Machine/State.lean ====
section
/-! DEFINITION. The state of the machine, plain data: what the block owns (10_state.md), what its collaborators own
and it reads or writes through them, and the parameters. Reset is the table of 70_reset_and_hazards.md R440. -/

namespace Sys2Proof.Machine

/-- The three next actions of a completed step (00_scope.md R6). -/
inductive NextAction where
  | normal
  | serializeBefore
  | serializeAfter
deriving DecidableEq, Repr

/-- The class of a trap (60_exceptions.md R402), or a collaborator's own cause (R403). -/
inductive Cause where
  | instructionAddressMisaligned
  | illegalInstruction
  | collaborator (code : Word)
deriving DecidableEq, Repr

/-- The outcome of one activation of the block (00_scope.md R6). -/
inductive BlockOutcome where
  | next (npc : Word) (action : NextAction)
  | trap (cause : Cause) (tval : Word)
deriving DecidableEq, Repr

/-- The accrued IEEE flags (10_state.md R35): invalid, divide by zero, overflow, underflow, inexact. -/
structure FFlags where
  nv : Bool
  dz : Bool
  of : Bool
  uf : Bool
  nx : Bool
deriving DecidableEq, Repr

/-- One record of the commit log: index, integer or floating point, value (40_register_access.md R163). -/
inductive LogEntry where
  | int (index : Reg) (value : Word)
  | float (index : Reg) (value : Wide)
deriving DecidableEq, Repr

/-- One decision of the trap handler, a collaborator (60_exceptions.md R406): where execution resumes, the inputs
the block then reads, and CSR values it stored (log 9). -/
structure Resume where
  pc : Word
  inputs : Inputs
  csrs : List (CsrAddr × Word)
deriving DecidableEq, Repr

/-- Memory: pairs of an address and a byte, addresses strictly rising, no entry equal to what an unlisted address
reads as (`Memory.wf` in Machine/Ops.lean). -/
abbrev Memory := List Host.Cell

/-- The CSR store's contents, in the same canonical form. -/
abbrev CsrStore := List (Nat × Word)

/-- A fetch unit that does not see the data memory at once (FETCH_COHERENCE, 20_memory.md R83): what it reads, the data
memory after each step whose stores it does not see yet (oldest first), and when it sees them: how many of those steps
become visible at the end of each coming step, and of every step after those (log 12). -/
structure FetchView where
  seen : Memory
  pending : List Memory
  reveals : List Nat
  thereafter : Nat
deriving DecidableEq, Repr

/-- The state: parameters, the collaborators' inputs, then every piece of 10_state.md. -/
structure State where
  /-- R20: fixed when the context is built. -/
  params : Params
  /-- 10_state.md R46: read by the block, owned by collaborators. -/
  inputs : Inputs
  /-- R34: the architectural PC, the `pc` input of the next step. -/
  pc : Word
  /-- R30: cells 16..31 are unused when NXPR is 16 (log 23). -/
  xpr : Vector Word 32
  /-- R36. -/
  fpr : Vector Wide 32
  /-- R40. -/
  vtag : Vector VTag 32
  /-- R41. -/
  vl : Nat
  /-- R39: per register a list of VLMAX elements. -/
  velem : Vector (List Wide) 32
  /-- R43. -/
  serialized : Bool
  /-- R70: data memory. -/
  mem : Memory
  /-- FETCH_COHERENCE (20_memory.md R83): `none`, the fetch unit sees the data memory at once; `some v`, it reads its
  own view, in which stores become visible as `v` says (log 12). -/
  fetchView : Option FetchView
  /-- R44, R45: the external CSR store. -/
  csrs : CsrStore
  /-- R35: the CSR store's accrued flags. -/
  fflags : FFlags
  /-- 40_register_access.md R166: the signal that the FP state is dirty. -/
  fsDirty : Bool
  /-- R163: the commit log, oldest record first. -/
  log : List LogEntry
  /-- 60_exceptions.md R406: the handler's decisions, the next one first; the model's own field (log 9). -/
  resumes : List Resume
  /-- 00_scope.md R6: what the block answered last; `trap` means the handler has not resumed yet (log 8). -/
  outcome : BlockOutcome
deriving DecidableEq, Repr

/-- Why the machine stops. -/
inductive Fault where
  /-- `Machine.resume`, on a step after a trap when no handler decision is queued: the handler "decides resumption"
  (60_exceptions.md R406) and is a collaborator outside the block (00_scope.md R4). Safe: the machine stops where
  the hardware's handler would go on (log 9). -/
  | noHandlerDecision
deriving DecidableEq, Repr

/-- Why an instruction has no meaning here. -/
inductive Refusal where
  /-- `exec`, for an instruction that has no meaning yet. Safe. -/
  | notModelled (mnemonic : String)
  /-- `step`, for a word that matches no row of the opcode table (30_encoding.md R138, D47). Safe: the spec itself
  refuses it. -/
  | noReferenceInstruction
  /-- `step`, for a word of length 6 or 8 (43_dispatch_shell.md R288). Safe: the spec itself refuses it. -/
  | longInstruction
  /-- `step` and the meanings of c.ld, c.sd, c.ldsp and c.sdsp while XLEN is 32 (30_encoding.md R139): the bits are
  then another instruction, unreferenced. Safe: the spec itself refuses it. -/
  | rv64OnlyRow
  /-- `step`, if a fetch delivered fewer bytes than the length; a fetch never does. Safe. -/
  | truncatedFetch
deriving DecidableEq, Repr

/-- The answer of a meaning and of a step. -/
abbrev Answer := Host.Outcome State Fault Refusal

/-- No flag raised. -/
def FFlags.none : FFlags := { nv := false, dz := false, of := false, uf := false, nx := false }

/-- The parameters at reset (log 4, 5, 7, 10, 11, 24); V0_HARDWIRED and `noSerialize` are the spec's decisions. -/
def resetParams : Params where
  nxpr := .standard
  vlmax := 16
  v0Hardwired := true
  vcfgCsr := 0x800
  illegalTval := .zero
  noSerialize := []
  memMap := []
  misaligned := .succeeds
  csrRules := []
  logEnabled := false

/-- The collaborators' inputs at reset (log 3, 4). -/
def resetInputs : Inputs where
  xlen := .x64
  caps := { c := .yes, f := .yes, d := .yes, q := .yes, h := .no, v := .yes }
  fpEnabled := true
  prv := 3
  frm := 0

/-- Construction of a context (70_reset_and_hazards.md R440) for given parameters, inputs and RESET_PC, and for the
two draws: `xs`, the values of x1.. (x0 is 0 whatever `xs` holds), and `fs`, the values of f0..f31. What the rule does
not list is the model's choice: no decision of the handler is queued, so a first trap with none added stops the machine
(log 9), and the outcome, memory, CSRs, flags and log start as log 6, 7, 8, 21, 24 and 25 say. -/
def State.construct (p : Params) (inp : Inputs) (pc : Word) (xs : Vector Word 32) (fs : Vector Wide 32) : State where
  params := p
  inputs := inp
  pc := pc
  xpr := xs.set 0 0
  fpr := fs
  vtag := Vector.replicate 32 .unconfigured
  vl := 0
  velem := Vector.replicate 32 (List.replicate p.vlmax 0)
  serialized := false
  mem := []
  fetchView := none
  csrs := []
  fflags := .none
  fsDirty := false
  log := []
  resumes := []
  outcome := .next pc .normal

/-- The machine right after reset: R440 with the draws at 0 and RESET_PC 0 (log 1, 2). -/
def State.reset : State :=
  State.construct resetParams resetInputs 0 (Vector.replicate 32 0) (Vector.replicate 32 0)

end Sys2Proof.Machine
end

