-- ==== Sys2Proof/Machine/Ops.lean ====
section
/-! DEFINITION. The named operations the instruction bodies are written with: the body monad with raise and the
outcome mux (60_exceptions.md R400 to R404), the gates, register files, memory, the CSR store, the PC gate. -/

namespace Sys2Proof.Machine

/-! ## Bodies, raise and the outcome mux -/

/-- What ends a body before its last statement (60_exceptions.md R400): a raise of the block's own two classes
(R402), a collaborator's fault (R403), or the gate's SERIALIZE_BEFORE (42_csr_gate.md R260). -/
inductive Stop where
  | illegal
  | misaligned (target : Word)
  | collaborator (r : Report)
  | serializeBefore
deriving DecidableEq, Repr

/-- A body: statements in order over the context; a stop keeps the context it reached, so nothing is rolled back
(00_scope.md R7, R25; 60_exceptions.md R404). -/
abbrev Body (α : Type) := EStateM Stop State α

/-- A value computed from the context. -/
def look {α : Type} (f : State → α) : Body α := fun s => .ok (f s) s

/-- A change of the context. -/
def change (f : State → State) : Body Unit := fun s => .ok () (f s)

/-- End the body here (60_exceptions.md R401). -/
def stopIf (c : Bool) (e : Stop) : Body Unit := fun s => if c then .error e s else .ok () s

/-- Raise illegal-instruction when the context and the instruction fail a precondition (60_exceptions.md R402). -/
def illegalIf (f : State → Bool) : Body Unit := fun s => if f s then .error .illegal s else .ok () s

/-- Run a body only when the condition holds. -/
def when (c : Bool) (b : Body Unit) : Body Unit := fun s => if c then b s else .ok () s

/-! ### Updates, one per field a body may write -/

/-- The state with another outcome. -/
def State.withOutcome (s : State) (o : BlockOutcome) : State := { s with outcome := o }

/-- The state with another `serialized`. -/
def State.withSerialized (s : State) (b : Bool) : State := { s with serialized := b }

/-- The state with another data memory. -/
def State.withMem (s : State) (m : Memory) : State := { s with mem := m }

/-- The state with another CSR store. -/
def State.withCsrs (s : State) (c : CsrStore) : State := { s with csrs := c }

/-- The state with another PC. -/
def State.withPc (s : State) (a : Word) : State := { s with pc := a }

/-- The state with a record added to the commit log, when the hook is enabled (40_register_access.md R163). -/
def State.logged (s : State) (e : LogEntry) : State :=
  { s with log := if s.params.logEnabled then s.log ++ [e] else s.log }

/-- The low `n` bits of an instruction word, zero-extended. -/
def lowBits (n : Nat) (w : Word) : Word := (w.setWidth n).setWidth 64

/-- The value recorded with an illegal-instruction trap of a word of `len` bytes (60_exceptions.md R402): 0, or the
word's own bits. -/
def wordTval (p : Params) (len : Nat) (insn : Word) : Word :=
  match p.illegalTval with
  | .zero => 0
  | .insnBits => lowBits (8 * len) insn

/-- The value recorded with an illegal-instruction trap of an instruction (60_exceptions.md R402). -/
def illegalTval (p : Params) (i : Instr) : Word := wordTval p (instrLength i) (encode i)

/-- Taking an exception, as far as the block goes (60_exceptions.md R400 to R403, R406): the outcome of a body over a
word of `len` bytes that stopped in context `s`. The block saves no register and redirects nothing; the pc stays the
faulting instruction's. -/
def stopOutcome (len : Nat) (insn : Word) (s : State) : Stop → BlockOutcome
  | .illegal => .trap .illegalInstruction (wordTval s.params len insn)
  | .misaligned t => .trap .instructionAddressMisaligned t
  | .collaborator r => .trap (.collaborator r.cause) r.tval
  | .serializeBefore => .next s.pc .serializeBefore

/-- The cause code passed to the handler (60_exceptions.md R402, R403). -/
def Cause.code : Cause → Word
  | .instructionAddressMisaligned => 0
  | .illegalInstruction => 2
  | .collaborator c => c

/-! ### Extension to XLEN and the next PC -/

/-- `sext_xlen` (00_scope.md R23). -/
def sextXlen (x : XLen) (v : Word) : Word :=
  match x with
  | .x32 => (v.setWidth 32).signExtend 64
  | .x64 => v

/-- `sext_32` (00_scope.md R23). -/
def sext32 (v : Word) : Word := (v.setWidth 32).signExtend 64

/-- XLEN as a number. -/
def xlenBits : XLen → Nat
  | .x32 => 32
  | .x64 => 64

/-- `npc_default` for an instruction of `len` bytes (43_dispatch_shell.md R280). -/
def npcDefault (s : State) (len : Nat) : Word := sextXlen s.inputs.xlen (s.pc + BitVec.ofNat 64 len)

/-- The dispatch shell around the body of a word of `len` bytes (43_dispatch_shell.md R281) and the outcome mux
(60_exceptions.md R400). -/
def runShell (len : Nat) (insn : Word) (b : Body Unit) (s : State) : Answer :=
  match b (s.withOutcome (.next (npcDefault s len) .normal)) with
  | .ok _ t => .next t
  | .error e t => .next (t.withOutcome (stopOutcome len insn t e))

/-- The shell around the body of an instruction. -/
def runBody (i : Instr) (b : Body Unit) (s : State) : Answer := runShell (instrLength i) (encode i) b s

/-- The shell around the body of a word that is no row of the opcode table: a vector word (30_encoding.md R135). -/
def runWord (insn : Word) (b : Body Unit) (s : State) : Answer := runShell (insnLength insn) insn b s

/-- A row that is a row at XLEN 64 alone is refused at XLEN 32 (30_encoding.md R139). -/
def runBody64 (i : Instr) (b : Body Unit) (s : State) : Answer :=
  if s.inputs.xlen = .x64 then runBody i b s else .refused .rv64OnlyRow

/-! ## Capability gates -/

/-- What `Supports(ext)` answers, a Boolean or a fault (00_scope.md R8, 90_conflicts.md C10). -/
def supports (s : State) : Ext → CapAnswer
  | .c => s.inputs.caps.c
  | .f => s.inputs.caps.f
  | .d => s.inputs.caps.d
  | .q => s.inputs.caps.q
  | .h => s.inputs.caps.h
  | .v => s.inputs.caps.v

/-- The call `Supports(ext)`: its fault passes through unchanged (00_scope.md R8, 90_conflicts.md C10). -/
def querySupports (e : Ext) : Body Bool := fun s =>
  match supports s e with
  | .yes => .ok true s
  | .no => .ok false s
  | .faults r => .error (.collaborator r) s

/-- `require_c`, `require_v` (43_dispatch_shell.md R284, 41_vector_engine.md R206). -/
def requireExt (e : Ext) : Body Unit := do
  let b ← querySupports e
  stopIf (!b) .illegal

/-- `require_fp(ext)`: the extension first, then `fp_enabled` (40_register_access.md R164). -/
def requireFp (e : Ext) : Body Unit := do
  requireExt e
  illegalIf fun s => !s.inputs.fpEnabled

/-! ## Sparse contents in canonical form -/

/-- The value at a key; `d` where no entry stands. -/
def lookCell {β : Type} (d : β) : List (Nat × β) → Nat → β
  | [], _ => d
  | (k, v) :: m, a => if k = a then v else lookCell d m a

/-- Set the value at a key, keeping the keys rising and dropping an entry that holds `d`. -/
def setCell {β : Type} [DecidableEq β] (d : β) : List (Nat × β) → Nat → β → List (Nat × β)
  | [], a, v => if v = d then [] else [(a, v)]
  | (k, w) :: m, a, v =>
    if a < k then (if v = d then (k, w) :: m else (a, v) :: (k, w) :: m)
    else if a = k then (if v = d then m else (a, v) :: m)
    else (k, w) :: setCell d m a v

/-- The canonical form from key `lo` on: keys rise strictly and stay below `bound`, no entry holds `d`. -/
def cellsWf {β : Type} [DecidableEq β] (d : β) (bound : Nat) : Nat → List (Nat × β) → Bool
  | _, [] => true
  | lo, (k, v) :: m => decide (lo ≤ k) && decide (k < bound) && decide (v ≠ d) && cellsWf d bound (k + 1) m

/-! ## Memory -/

/-- What a byte nothing has written reads as (log 6). -/
def unlistedByte : Byte := 0

/-- The canonical form of memory. -/
def Memory.wf (m : Memory) : Bool := cellsWf unlistedByte (2 ^ 64) 0 m

/-- One byte of memory (20_memory.md R70). -/
def readByte (m : Memory) (a : Word) : Byte := lookCell unlistedByte m a.toNat

/-- Memory with one byte replaced. -/
def writeByte (m : Memory) (a : Word) (b : Byte) : Memory := setCell unlistedByte m a.toNat b

/-- The `n` bytes from `a` on, at increasing addresses modulo 2^64 (20_memory.md R71, R85; log 29). -/
def readBytes (m : Memory) (a : Word) : Nat → List Byte
  | 0 => []
  | n + 1 => readByte m a :: readBytes m (a + 1) n

/-- Memory with bytes replaced from `a` on (20_memory.md R71). -/
def writeBytes (m : Memory) (a : Word) : List Byte → Memory
  | [] => m
  | b :: bs => writeBytes (writeByte m a b) (a + 1) bs

/-- The widths of the memory interface (20_memory.md R75). -/
inductive MWidth where
  | b8
  | b16
  | b32
  | b64
deriving DecidableEq, Repr

/-- The width in bytes. -/
def MWidth.bytes : MWidth → Nat
  | .b8 => 1
  | .b16 => 2
  | .b32 => 4
  | .b64 => 8

/-- Some byte of the access lies in the region, and the region faults accesses of this kind. -/
def regionFaults (kind : AccessKind) (n : Nat) (a : Word) (r : FaultRegion) : Bool :=
  (match kind with
    | .load => r.loads
    | .store => r.stores
    | .fetch => r.fetches) &&
  (List.range n).any fun k =>
    decide (r.base ≤ (a + BitVec.ofNat 64 k).toNat) && decide ((a + BitVec.ofNat 64 k).toNat < r.base + r.size)

/-- MISALIGNED_DATA for an access of `n` bytes (20_memory.md R74; log 11). -/
def misalignedFault (p : Params) (kind : AccessKind) (n : Nat) (a : Word) : Option Report :=
  match p.misaligned, kind with
  | .faults c _, .load => if a.toNat % n = 0 then none else some ⟨c, a⟩
  | .faults _ c, .store => if a.toNat % n = 0 then none else some ⟨c, a⟩
  | .faults _ _, .fetch => none
  | .succeeds, _ => none
  | .splits _, _ => none

/-- The parts of `n` bytes from `a` on between multiples of `unit`, in address order: address and length of each
(20_memory.md R74; log 11). The first argument bounds their number. -/
def splitParts (unit : Nat) : Nat → Word → Nat → List (Word × Nat)
  | 0, _, _ => []
  | fuel + 1, a, n =>
    if n = 0 then []
    else
      let k := min n (unit - a.toNat % unit)
      (a, k) :: splitParts unit fuel (a + BitVec.ofNat 64 k) (n - k)

/-- The parts an access is made in: itself, but for a misaligned data access that is split (20_memory.md R74;
log 11). -/
def accessParts (p : Params) (kind : AccessKind) (n : Nat) (a : Word) : List (Word × Nat) :=
  match p.misaligned with
  | .splits unit => if kind = .fetch ∨ unit = 0 ∨ a.toNat % n = 0 then [(a, n)] else splitParts unit n a n
  | .succeeds => [(a, n)]
  | .faults _ _ => [(a, n)]

/-- The first part that MEMORY_MAP faults: how many bytes the parts before it hold, and its report; each part is made
whole or not at all (log 10). -/
def partsStop (p : Params) (kind : AccessKind) : List (Word × Nat) → Option (Nat × Report)
  | [] => none
  | (a, k) :: rest =>
    match p.memMap.find? (regionFaults kind k a) with
    | some r => some (0, ⟨r.cause, r.tval.getD a⟩)
    | none => (partsStop p kind rest).map fun q => (k + q.1, q.2)

/-- Where an access stops, if the memory subsystem faults it: how many of its bytes were accessed before, and the
report. A misaligned access that faults as such does so before any region is looked at (60_exceptions.md R403; log 10,
11). -/
def accessStop (p : Params) (kind : AccessKind) (n : Nat) (a : Word) : Option (Nat × Report) :=
  match misalignedFault p kind n a with
  | some r => some (0, r)
  | none => partsStop p kind (accessParts p kind n a)

/-- The fault, if any, that the memory subsystem raises for an access (60_exceptions.md R403). -/
def accessFault (p : Params) (kind : AccessKind) (n : Nat) (a : Word) : Option Report :=
  (accessStop p kind n a).map (·.2)

/-- Raise the memory subsystem's fault for an access, if it has one. -/
def checkAccess (kind : AccessKind) (n : Nat) (a : Word) : Body Unit := fun s =>
  match accessFault s.params kind n a with
  | some r => .error (.collaborator r) s
  | none => .ok () s

/-- Sign or zero extension of a loaded value to 64 bits (20_memory.md R75). -/
def extendLoad (signed : Bool) (w : MWidth) (v : Word) : Word :=
  if signed then (v.setWidth (8 * w.bytes)).signExtend 64 else (v.setWidth (8 * w.bytes)).setWidth 64

/-- `MemLoad(kind, width, addr)` (00_scope.md R8, 20_memory.md R75). -/
def memLoad (signed : Bool) (w : MWidth) (a : Word) : Body Word := do
  checkAccess .load w.bytes a
  look fun s => extendLoad signed w (leWord (readBytes s.mem a w.bytes))

/-- `MemStore(width, addr, value)` (00_scope.md R8, 20_memory.md R75); the parts of a split store before the one that
faults stay made (60_exceptions.md R404; log 11). -/
def memStore (w : MWidth) (a v : Word) : Body Unit := fun s =>
  match accessStop s.params .store w.bytes a with
  | some (made, r) => .error (.collaborator r) (s.withMem (writeBytes s.mem a (leBytes made v)))
  | none => .ok () (s.withMem (writeBytes s.mem a (leBytes w.bytes v)))

/-- The paired 64-bit load: low half at `a`, high half at `a + 8` (20_memory.md R75). -/
def memLoadPair (a : Word) : Body Wide := do
  let lo ← memLoad false .b64 a
  let hi ← memLoad false .b64 (a + 8)
  pure (hi ++ lo)

/-- The paired 64-bit store: low half at `a`, then high half at `a + 8` (20_memory.md R75). -/
def memStorePair (a : Word) (v : Wide) : Body Unit := do
  memStore .b64 a (v.extractLsb' 0 64)
  memStore .b64 (a + 8) (v.extractLsb' 64 64)

/-! ## Integer register file -/

/-- The value of integer register `i`: x0 is 0 (40_register_access.md R161). -/
def State.x (s : State) (i : Reg) : Word := if i = 0 then 0 else s.xpr[i.toNat]'i.isLt

/-- The register is in the file (40_register_access.md R160). -/
def State.hasX (s : State) (i : Reg) : Bool := decide (i.toNat < s.params.nxpr.count)

/-- The state after a write of integer register `i`: x0 discards it, the commit log records it either way
(40_register_access.md R162, R163). -/
def State.putX (s : State) (i : Reg) (v : Word) : State :=
  { s with xpr := if i = 0 then s.xpr else s.xpr.set i.toNat v i.isLt }.logged (.int i v)

/-- `check_x(i)` (40_register_access.md R160). -/
def checkX (i : Reg) : Body Unit := illegalIf fun s => !s.hasX i

/-- A checked read of an integer register (40_register_access.md R160, R161). -/
def readX (i : Reg) : Body Word := do
  checkX i
  look (·.x i)

/-- A checked write of an integer register (40_register_access.md R160, R162, R163). -/
def writeX (i : Reg) (v : Word) : Body Unit := do
  checkX i
  change (·.putX i v)

/-- `x[i] <- sext_xlen(v)` (00_scope.md R21, R23). -/
def writeSext (i : Reg) (v : Word) : Body Unit := do
  let x ← look (·.inputs.xlen)
  writeX i (sextXlen x v)

/-! ## Floating-point register file -/

/-- The cell of floating-point register `i`; f0 is an ordinary cell (40_register_access.md R165, 10_state.md R37). -/
def State.f (s : State) (i : Reg) : Wide := s.fpr[i.toNat]'i.isLt

/-- The state after a write of floating-point register `i`: the cell, the dirty signal, the commit log
(40_register_access.md R166, R163). -/
def State.putF (s : State) (i : Reg) (c : Wide) : State :=
  { s with fpr := s.fpr.set i.toNat c i.isLt, fsDirty := true }.logged (.float i c)

/-- `f[i]` (40_register_access.md R165). -/
def readF (i : Reg) : Body Wide := look (·.f i)

/-- `f[i] <- c` (40_register_access.md R166). -/
def writeF (i : Reg) (c : Wide) : Body Unit := change (·.putF i c)

/-! ## CSR store -/

/-- What a CSR nothing has written reads as (log 7). -/
def unlistedCsr : Word := 0

/-- The canonical form of the CSR store. -/
def CsrStore.wf (c : CsrStore) : Bool := cellsWf unlistedCsr 4096 0 c

/-- The value the store holds at an address (10_state.md R44). -/
def State.csrAt (s : State) (a : CsrAddr) : Word := lookCell unlistedCsr s.csrs a.toNat

/-- The store's rule for an address, if its parameter has one (42_csr_gate.md R262; log 7). -/
def csrRule (p : Params) (a : CsrAddr) : Option CsrRule := p.csrRules.find? fun r => r.addr == a

/-- The written value is legal for the field (42_csr_gate.md R262; log 7). -/
def csrAdmits (f : CsrField) (v : Word) : Bool := f.legal.contains (v &&& f.mask)

/-- The field's bits after `v` is written over `old` (log 7). -/
def csrKept (f : CsrField) (old v : Word) : Word :=
  if csrAdmits f v then v &&& f.mask
  else
    match f.illegal with
    | .keepsOld => old &&& f.mask
    | .becomes w => w &&& f.mask
    | .faults _ => old &&& f.mask

/-- The fault, if any, that the field raises for its written value (log 7). -/
def csrFieldFault (f : CsrField) (v : Word) : Option Report :=
  if csrAdmits f v then none
  else
    match f.illegal with
    | .keepsOld => none
    | .becomes _ => none
    | .faults r => some r

/-- The value with every field made legal (log 7). -/
def csrLegalise (fields : List CsrField) (old v : Word) : Word :=
  fields.foldl (fun acc f => (acc &&& ~~~f.mask) ||| csrKept f old v) v

/-- The value the store keeps when `v` is written over `old`: fields made legal, and only writable bits changed
(42_csr_gate.md R262; log 7). -/
def csrMerge (p : Params) (a : CsrAddr) (old v : Word) : Word :=
  match csrRule p a with
  | some r => (old &&& ~~~r.writable) ||| (csrLegalise r.fields old v &&& r.writable)
  | none => v

/-- The state after the CSR store has taken a write. -/
def State.putCsr (s : State) (a : CsrAddr) (v : Word) : State :=
  s.withCsrs (setCell unlistedCsr s.csrs a.toNat (csrMerge s.params a (s.csrAt a) v))

/-- The fault, if any, that the CSR store raises for a read (42_csr_gate.md R262). -/
def csrReadFault (p : Params) (a : CsrAddr) : Option Report := (csrRule p a).bind (·.onRead)

/-- The fault, if any, that the CSR store raises for a write of `v`: of the address, else of the first field whose
value is not legal and that faults (42_csr_gate.md R262; log 7). -/
def csrWriteFault (p : Params) (a : CsrAddr) (v : Word) : Option Report :=
  match csrRule p a with
  | some r => r.onWrite.or (r.fields.findSome? (csrFieldFault · v))
  | none => none

/-- `CsrRead(addr)` (00_scope.md R8, 60_exceptions.md R403). -/
def csrRead (a : CsrAddr) : Body Word := fun s =>
  match csrReadFault s.params a with
  | some r => .error (.collaborator r) s
  | none => .ok (s.csrAt a) s

/-- `CsrWrite(addr, value)` (00_scope.md R8, 60_exceptions.md R403). -/
def csrWrite (a : CsrAddr) (v : Word) : Body Unit := fun s =>
  match csrWriteFault s.params a v with
  | some r => .error (.collaborator r) s
  | none => .ok () (s.putCsr a v)

/-! ## The PC gate -/

/-- The target fails the gate: bit 1 set and no compressed extension; bit 0 is not looked at (43_dispatch_shell.md
R282). -/
def targetMisaligned (s : State) (t : Word) : Bool := t.getLsbD 1 && supports s .c == .no

/-- The fault, if any, of the gate's own query, which is asked only when bit 1 is set (43_dispatch_shell.md R282; log
32). -/
def targetFault (s : State) (t : Word) : Option Report :=
  if t.getLsbD 1 then
    match supports s .c with
    | .yes => none
    | .no => none
    | .faults r => some r
  else none

/-- `set_pc(t)` (43_dispatch_shell.md R282). The action stays NORMAL: no body calls it after
`set_pc_and_serialize`, which is always a body's last statement (60_exceptions.md R400). -/
def setPc (t : Word) : Body Unit := fun s =>
  match targetFault s t with
  | some r => .error (.collaborator r) s
  | none =>
    if targetMisaligned s t then .error (.misaligned t) s
    else .ok () (s.withOutcome (.next (sextXlen s.inputs.xlen t) .normal))

/-- `set_pc_and_serialize(t)` (43_dispatch_shell.md R283). -/
def setPcAndSerialize (t : Word) : Body Unit := do
  setPc t
  change fun s => s.withOutcome (.next (sextXlen s.inputs.xlen t) .serializeAfter)

end Sys2Proof.Machine
end

