-- ==== Sys2Proof/Machine/Flags.lean ====
section
/-! DEFINITION. Flags. The block holds no condition codes (10_state.md R35): a branch computes its condition from
register values. The only flags are the IEEE exception flags of the vector engine's float conversions; the engine
returns them, the body gives them to the CSR store, which accrues them (D19; log 21). -/

namespace Sys2Proof.Machine

/-- The flags raised by either of two operations. -/
def FFlags.merge (a b : FFlags) : FFlags where
  nv := a.nv || b.nv
  dz := a.dz || b.dz
  of := a.of || b.of
  uf := a.uf || b.uf
  nx := a.nx || b.nx

/-- Only the invalid flag, when the operand is a signalling NaN (41_vector_engine.md R212, R213). -/
def invalidIf (b : Bool) : FFlags := { FFlags.none with nv := b }

/-- The flags of a rounded result in range: underflow when it is tiny and inexact (41_vector_engine.md R213). -/
def roundedFlags (tiny inexact : Bool) : FFlags := { FFlags.none with uf := tiny && inexact, nx := inexact }

/-- The flags of an overflow (41_vector_engine.md R213). -/
def overflowFlags : FFlags := { FFlags.none with of := true, nx := true }

/-- A body gives the flags an operation returned to the CSR store, which accrues them (10_state.md R35). -/
def accrueFlags (fl : FFlags) : Body Unit := change fun s => { s with fflags := s.fflags.merge fl }

end Sys2Proof.Machine
end

