-- ==== Sys2Proof/Machine/Float.lean ====
section
/-! DEFINITION. Floating-point formats: NaN-boxing and sign injection (40_register_access.md R167 to R172), and the
conversions between formats (41_vector_engine.md R212, R213). A value of a narrower format stands in a 128-bit cell
with zeros above it (log 19). -/

namespace Sys2Proof.Machine

/-- The four binary formats (40_register_access.md R170; 41_vector_engine.md R212). -/
inductive FWidth where
  | f16
  | f32
  | f64
  | f128
deriving DecidableEq, Repr

/-- The width in bits. -/
def FWidth.bits : FWidth → Nat
  | .f16 => 16
  | .f32 => 32
  | .f64 => 64
  | .f128 => 128

/-- The width of the fraction field. -/
def FWidth.frac : FWidth → Nat
  | .f16 => 10
  | .f32 => 23
  | .f64 => 52
  | .f128 => 112

/-- The width of the exponent field. -/
def FWidth.exp : FWidth → Nat
  | .f16 => 5
  | .f32 => 8
  | .f64 => 11
  | .f128 => 15

/-- The exponent bias. -/
def FWidth.bias (w : FWidth) : Nat := 2 ^ (w.exp - 1) - 1

/-- The largest exponent field: infinities and NaNs. -/
def FWidth.maxExp (w : FWidth) : Nat := 2 ^ w.exp - 1

/-! ## Boxing -/

/-- `v[n-1:0]`, zero-extended to a cell. -/
def lowWide (n : Nat) (v : Wide) : Wide := (v.setWidth n).setWidth 128

/-- Ones from bit `n` up. -/
def onesAbove (n : Nat) : Wide := BitVec.allOnes 128 <<< n

/-- `box(v, W)` (40_register_access.md R167). -/
def box (w : FWidth) (v : Wide) : Wide := onesAbove w.bits ||| lowWide w.bits v

/-- `isBoxed(c, W)`, tested from the widest width to the narrowest (40_register_access.md R169). -/
def isBoxed (w : FWidth) (c : Wide) : Bool :=
  match w with
  | .f128 => true
  | .f64 => c.extractLsb' 64 64 == BitVec.allOnes 64
  | .f32 => (c.extractLsb' 64 64 == BitVec.allOnes 64) && (c.extractLsb' 32 32 == BitVec.allOnes 32)
  | .f16 =>
    (c.extractLsb' 64 64 == BitVec.allOnes 64) && (c.extractLsb' 32 32 == BitVec.allOnes 32) &&
      (c.extractLsb' 16 16 == BitVec.allOnes 16)

/-- `canonicalNaN(W)` (40_register_access.md R170). -/
def canonicalNaN : FWidth → Wide
  | .f16 => 0x7e00
  | .f32 => 0x7fc00000
  | .f64 => 0x7ff8000000000000
  | .f128 => 0x7fff8000000000000000000000000000

/-- `unbox(c, W)` (40_register_access.md R168). -/
def unbox (w : FWidth) (c : Wide) : Wide := if isBoxed w c then lowWide w.bits c else canonicalNaN w

/-- Bit `W - 1`, the sign. -/
def signBit (w : FWidth) (v : Wide) : Bool := v.getLsbD (w.bits - 1)

/-- The value with magnitude bits `v[W-2:0]` and the given sign. -/
def withSign (w : FWidth) (s : Bool) (v : Wide) : Wide :=
  (if s then 1 <<< (w.bits - 1) else 0) ||| lowWide (w.bits - 1) v

/-- `fsgnj(a, b, W, n, xr)` (40_register_access.md R172). -/
def fsgnj (w : FWidth) (n xr : Bool) (a b : Wide) : Wide :=
  let va := unbox w a
  let vb := unbox w b
  let s := (if xr then signBit w va else n) ^^ signBit w vb
  box w (withSign w s va)

/-! ## Rounding modes -/

/-- The rounding modes 0 to 4 (40_register_access.md R173). -/
inductive RMode where
  | rne
  | rtz
  | rdn
  | rup
  | rmm
deriving DecidableEq, Repr

/-- The mode of a resolved field; none above 4 (40_register_access.md R173). -/
def RMode.ofField (r : BitVec 3) : Option RMode :=
  if r = 0#3 then some .rne
  else if r = 1#3 then some .rtz
  else if r = 2#3 then some .rdn
  else if r = 3#3 then some .rup
  else if r = 4#3 then some .rmm
  else none

/-- The mode an instruction's field selects: 7 takes `frm` (40_register_access.md R173). -/
def selectMode (field frm : BitVec 3) : Option RMode := RMode.ofField (if field = 7#3 then frm else field)

/-- `resolve_rm`, for the value of the `rm` field (40_register_access.md R173). -/
def resolveRm (field : BitVec 3) : Body RMode := fun s =>
  match selectMode field s.inputs.frm with
  | some m => .ok m s
  | none => .error .illegal s

/-! ## Conversions -/

/-- The exponent field. -/
def expField (w : FWidth) (v : Wide) : Nat := (v.toNat >>> w.frac) % 2 ^ w.exp

/-- The fraction field. -/
def fracField (w : FWidth) (v : Wide) : Nat := v.toNat % 2 ^ w.frac

/-- A value from its sign and from the number its exponent and fraction fields make together. -/
def packMagnitude (w : FWidth) (s : Bool) (m : Nat) : Wide :=
  BitVec.ofNat 128 ((if s then 2 ^ (w.bits - 1) else 0) + m)

/-- A value from its three fields. -/
def packFloat (w : FWidth) (s : Bool) (e f : Nat) : Wide := packMagnitude w s (e * 2 ^ w.frac + f)

/-- A NaN: the largest exponent field and a fraction that is not 0. -/
def isNaN (w : FWidth) (v : Wide) : Bool := expField w v == w.maxExp && fracField w v != 0

/-- A signalling NaN: a NaN with the top fraction bit 0 (41_vector_engine.md R212). -/
def isSignallingNaN (w : FWidth) (v : Wide) : Bool := isNaN w v && !v.getLsbD (w.frac - 1)

/-- `fwiden(v, w1, w2)`, with `w1` narrower than `w2` (41_vector_engine.md R212): exact; a subnormal becomes normal;
a NaN becomes the canonical NaN of `w2`, and a signalling one raises invalid. -/
def fwiden (w1 w2 : FWidth) (v : Wide) : Wide × FFlags :=
  let s := signBit w1 v
  let e := expField w1 v
  let f := fracField w1 v
  if e = w1.maxExp then
    if f = 0 then (packFloat w2 s w2.maxExp 0, .none)
    else (canonicalNaN w2, invalidIf (isSignallingNaN w1 v))
  else if e = 0 then
    if f = 0 then (packFloat w2 s 0 0, .none)
    else
      let k := f.log2
      (packFloat w2 s (k + 1 + w2.bias - w1.bias - w1.frac) ((f - 2 ^ k) <<< (w2.frac - k)), .none)
  else (packFloat w2 s (e + w2.bias - w1.bias) (f <<< (w2.frac - w1.frac)), .none)

/-- Whether rounding to an integer goes away from zero: `odd` is the parity of the truncated magnitude, `cmp` how
the discarded part compares with one half, `exact` that nothing was discarded (40_register_access.md R173). -/
def roundsUp (m : RMode) (neg odd exact : Bool) (cmp : Ordering) : Bool :=
  match m with
  | .rne => cmp == .gt || (cmp == .eq && odd)
  | .rtz => false
  | .rdn => neg && !exact
  | .rup => !neg && !exact
  | .rmm => cmp != .lt

/-- `sig / 2^d` rounded to an integer, and whether it was inexact. -/
def roundShift (m : RMode) (neg : Bool) (sig : Nat) (d : Int) : Nat × Bool :=
  if d ≤ 0 then (sig <<< (-d).toNat, false)
  else
    let n := sig >>> d.toNat
    let r := sig % 2 ^ d.toNat
    let up := roundsUp m neg (n % 2 == 1) (r == 0) (compare (2 * r) (2 ^ d.toNat))
    (if up then n + 1 else n, r != 0)

/-- The result of an overflow: infinity, or the largest finite value, as the mode directs (41_vector_engine.md
R213). -/
def overflowResult (w : FWidth) (m : RMode) (neg : Bool) : Wide :=
  let toInfinity : Bool :=
    match m with
    | .rne => true
    | .rtz => false
    | .rdn => neg
    | .rup => !neg
    | .rmm => true
  if toInfinity then packFloat w neg w.maxExp 0 else packFloat w neg (w.maxExp - 1) (2 ^ w.frac - 1)

/-- `±sig * 2^exp`, with `sig > 0`, rounded to format `w`: overflow, and underflow when the result is tiny after
rounding and inexact (41_vector_engine.md R213). -/
def roundToFormat (w : FWidth) (m : RMode) (neg : Bool) (sig : Nat) (exp : Int) : Wide × FFlags :=
  let top : Int := sig.log2 + exp
  let emin : Int := 1 - w.bias
  let quantum : Int := max top emin - w.frac
  let (n, inexact) := roundShift m neg sig (quantum - exp)
  let magnitude := (quantum + w.frac + w.bias - 1).toNat * 2 ^ w.frac + n
  if w.maxExp * 2 ^ w.frac ≤ magnitude then (overflowResult w m neg, overflowFlags)
  else
    let unbounded := (roundShift m neg sig (top - w.frac - exp)).1
    let tiny := decide (top < emin) && !(decide (top = emin - 1) && unbounded == 2 ^ (w.frac + 1))
    (packMagnitude w neg magnitude, roundedFlags tiny inexact)

/-- `fnarrow(v, w1, w2, rm)`, with `w1` wider than `w2` (41_vector_engine.md R213). -/
def fnarrow (w1 w2 : FWidth) (m : RMode) (v : Wide) : Wide × FFlags :=
  let s := signBit w1 v
  let e := expField w1 v
  let f := fracField w1 v
  if e = w1.maxExp then
    if f = 0 then (packFloat w2 s w2.maxExp 0, .none)
    else (canonicalNaN w2, invalidIf (isSignallingNaN w1 v))
  else if e = 0 then
    if f = 0 then (packFloat w2 s 0 0, .none)
    else roundToFormat w2 m s f (1 - w1.bias - w1.frac)
  else roundToFormat w2 m s (2 ^ w1.frac + f) (e - w1.bias - w1.frac)

end Sys2Proof.Machine
end

