-- ==== Sys2Proof/Machine/Operands.lean ====
section
/-! DEFINITION. The operand forms of the reference instructions: base plus offset addresses, branch and jump
targets, the stack pointer, CSR immediates, and floating-point operands at a width. -/

namespace Sys2Proof.Machine

/-- `ea = (base + offset) mod 2^64`, not truncated to XLEN (20_memory.md R85). -/
def effAddr (base off : Word) : Word := base + off

/-- The register a stack-relative form reads (46_reference_rvc.md R350, R357, R363 to R366). -/
def sp : Reg := 2

/-- The address of a base-plus-offset access; the base register is checked when it is read (45_reference_rv.md
section 3). -/
def readAddr (base : Reg) (off : Word) : Body Word := do
  let b ← readX base
  pure (effAddr b off)

/-- The low 32 bits of an operand, as `sw` stores them. -/
def low32 (v : Word) : Word := (v.setWidth 32).setWidth 64

/-- A target relative to the instruction itself (45_reference_rv.md R306, R308). -/
def relTarget (s : State) (off : Word) : Word := s.pc + off

/-- The target of `jalr`: bit 0 cleared (45_reference_rv.md R307). -/
def jalrTarget (base off : Word) : Word := (base + off) &&& ~~~1

/-- `set_pc(pc + off)` (43_dispatch_shell.md R282). -/
def jumpRel (off : Word) : Body Unit := do
  let t ← look (relTarget · off)
  setPc t

/-- A conditional `set_pc(pc + off)`; not taken, it does nothing (45_reference_rv.md R308). -/
def branchIf (taken : Bool) (off : Word) : Body Unit := when taken (jumpRel off)

/-- The operand of a CSR immediate form (30_encoding.md R144). -/
def zimmValue (z : BitVec 5) : Word := z.setWidth 64

/-- `FP_BOX_WIDTHS`: 32 and 64 bits, and 16 with half precision (00_scope.md R20, D6). -/
def boxWidths (s : State) : List FWidth := [.f32, .f64] ++ if supports s .h = .yes then [.f16] else []

/-- The width is in `FP_BOX_WIDTHS` or 128 (40_register_access.md R167, R172). -/
def boxable (s : State) (w : FWidth) : Bool := w == .f128 || (boxWidths s).contains w

/-- A body at a width that is not boxed is illegal, as one of a missing extension is (log 33). -/
def requireBoxable (w : FWidth) : Body Unit :=
  match w with
  | .f16 => requireExt .h
  | .f32 => pure ()
  | .f64 => pure ()
  | .f128 => pure ()

/-- A floating-point source at a width (40_register_access.md R171). -/
def readFAt (w : FWidth) (i : Reg) : Body Wide := do
  requireBoxable w
  let c ← readF i
  pure (unbox w c)

/-- `write_f(i, v, W)` (40_register_access.md R167, R171). -/
def writeFAt (w : FWidth) (i : Reg) (v : Wide) : Body Unit := do
  requireBoxable w
  writeF i (box w v)

end Sys2Proof.Machine
end

