-- ==== Sys2Proof/Machine/Compressed.lean ====
section
/-! DEFINITION. The compressed instructions (46_reference_rvc.md R350 to R366). Each body starts with `require_c`
(43_dispatch_shell.md R284). The operands of `Instr` are the accessors' values, so a compact register is 8..15. -/

namespace Sys2Proof.Machine

/-- `c.addi4spn`: illegal with immediate 0 (46_reference_rvc.md R350). -/
def execCAddi4spn (rd : Reg) (imm : Word) (s : State) : Answer :=
  runBody (.cAddi4spn rd imm) (do
    requireExt .c
    stopIf (imm == 0) .illegal
    let a ← readX sp
    writeSext rd (a + imm)) s

/-- `c.lw` (46_reference_rvc.md R351). -/
def execCLw (rd rs1 : Reg) (imm : Word) (s : State) : Answer :=
  runBody (.cLw rd rs1 imm) (do
    requireExt .c
    let ea ← readAddr rs1 imm
    let v ← memLoad true .b32 ea
    writeX rd (sext32 v)) s

/-- `c.ld`, a row at XLEN 64 alone (46_reference_rvc.md R352). -/
def execCLd (rd rs1 : Reg) (imm : Word) (s : State) : Answer :=
  runBody64 (.cLd rd rs1 imm) (do
    requireExt .c
    let ea ← readAddr rs1 imm
    let v ← memLoad true .b64 ea
    writeX rd v) s

/-- `c.sw` (46_reference_rvc.md R353). -/
def execCSw (rs2 rs1 : Reg) (imm : Word) (s : State) : Answer :=
  runBody (.cSw rs2 rs1 imm) (do
    requireExt .c
    let ea ← readAddr rs1 imm
    let v ← readX rs2
    memStore .b32 ea (low32 v)) s

/-- `c.sd`, a row at XLEN 64 alone (46_reference_rvc.md R354). -/
def execCSd (rs2 rs1 : Reg) (imm : Word) (s : State) : Answer :=
  runBody64 (.cSd rs2 rs1 imm) (do
    requireExt .c
    let ea ← readAddr rs1 imm
    let v ← readX rs2
    memStore .b64 ea v) s

/-- `c.addi` (46_reference_rvc.md R355). -/
def execCAddi (rd : Reg) (imm : Word) (s : State) : Answer :=
  runBody (.cAddi rd imm) (do
    requireExt .c
    let a ← readX rd
    writeSext rd (a + imm)) s

/-- `c.li` (46_reference_rvc.md R356). -/
def execCLi (rd : Reg) (imm : Word) (s : State) : Answer :=
  runBody (.cLi rd imm) (do
    requireExt .c
    writeX rd imm) s

/-- `c.addi16sp`: illegal with immediate 0 (46_reference_rvc.md R357). -/
def execCAddi16sp (imm : Word) (s : State) : Answer :=
  runBody (.cAddi16sp imm) (do
    requireExt .c
    stopIf (imm == 0) .illegal
    let a ← readX sp
    writeSext sp (a + imm)) s

/-- `c.lui`: illegal with immediate 0 (46_reference_rvc.md R358). -/
def execCLui (rd : Reg) (imm : Word) (s : State) : Answer :=
  runBody (.cLui rd imm) (do
    requireExt .c
    stopIf (imm == 0) .illegal
    writeSext rd (imm <<< 12)) s

/-- `c.j` (46_reference_rvc.md R359). -/
def execCJ (off : Word) (s : State) : Answer :=
  runBody (.cJ off) (do
    requireExt .c
    jumpRel off) s

/-- `c.beqz` (46_reference_rvc.md R360). -/
def execCBeqz (rs1 : Reg) (off : Word) (s : State) : Answer :=
  runBody (.cBeqz rs1 off) (do
    requireExt .c
    let a ← readX rs1
    branchIf (a == 0) off) s

/-- `c.bnez` (46_reference_rvc.md R361). -/
def execCBnez (rs1 : Reg) (off : Word) (s : State) : Answer :=
  runBody (.cBnez rs1 off) (do
    requireExt .c
    let a ← readX rs1
    branchIf (a != 0) off) s

/-- `c.slli`: illegal when the shift amount is XLEN or more (46_reference_rvc.md R362). -/
def execCSlli (rd : Reg) (shamt : BitVec 6) (s : State) : Answer :=
  runBody (.cSlli rd shamt) (do
    requireExt .c
    illegalIf fun s => decide (xlenBits s.inputs.xlen ≤ shamt.toNat)
    let a ← readX rd
    writeSext rd (a <<< shamt.toNat)) s

/-- `c.lwsp`: illegal with rd = 0 (46_reference_rvc.md R363). -/
def execCLwsp (rd : Reg) (imm : Word) (s : State) : Answer :=
  runBody (.cLwsp rd imm) (do
    requireExt .c
    stopIf (rd == 0) .illegal
    let ea ← readAddr sp imm
    let v ← memLoad true .b32 ea
    writeX rd (sext32 v)) s

/-- `c.ldsp`, a row at XLEN 64 alone: illegal with rd = 0 (46_reference_rvc.md R364). -/
def execCLdsp (rd : Reg) (imm : Word) (s : State) : Answer :=
  runBody64 (.cLdsp rd imm) (do
    requireExt .c
    stopIf (rd == 0) .illegal
    let ea ← readAddr sp imm
    let v ← memLoad true .b64 ea
    writeX rd v) s

/-- `c.swsp` (46_reference_rvc.md R365). -/
def execCSwsp (rs2 : Reg) (imm : Word) (s : State) : Answer :=
  runBody (.cSwsp rs2 imm) (do
    requireExt .c
    let ea ← readAddr sp imm
    let v ← readX rs2
    memStore .b32 ea (low32 v)) s

/-- `c.sdsp`, a row at XLEN 64 alone (46_reference_rvc.md R366). -/
def execCSdsp (rs2 : Reg) (imm : Word) (s : State) : Answer :=
  runBody64 (.cSdsp rs2 imm) (do
    requireExt .c
    let ea ← readAddr sp imm
    let v ← readX rs2
    memStore .b64 ea v) s

end Sys2Proof.Machine
end

