-- ==== Sys2Proof/Machine/Control.lean ====
section
/-! DEFINITION. Control transfer (45_reference_rv.md R306 to R313). -/

namespace Sys2Proof.Machine

/-- `jal`: the link is written after `set_pc`, so a misaligned target leaves it (45_reference_rv.md R306). -/
def execJal (rd : Reg) (off : Word) (s : State) : Answer :=
  runBody (.jal rd off) (do
    let link ← look (npcDefault · 4)
    jumpRel off
    writeX rd link) s

/-- `jalr`: the base is read before the link is written, bit 0 of the target is cleared (45_reference_rv.md R307). -/
def execJalr (rd rs1 : Reg) (imm : Word) (s : State) : Answer :=
  runBody (.jalr rd rs1 imm) (do
    let link ← look (npcDefault · 4)
    let base ← readX rs1
    setPc (jalrTarget base imm)
    writeX rd link) s

/-- `beq`: taken when equal (45_reference_rv.md R308). -/
def execBeq (rs1 rs2 : Reg) (off : Word) (s : State) : Answer :=
  runBody (.beq rs1 rs2 off) (do
    let a ← readX rs1
    let b ← readX rs2
    branchIf (a == b) off) s

/-- `bne`: taken when not equal (45_reference_rv.md R309). -/
def execBne (rs1 rs2 : Reg) (off : Word) (s : State) : Answer :=
  runBody (.bne rs1 rs2 off) (do
    let a ← readX rs1
    let b ← readX rs2
    branchIf (a != b) off) s

/-- `blt`: taken when less, signed (45_reference_rv.md R310). -/
def execBlt (rs1 rs2 : Reg) (off : Word) (s : State) : Answer :=
  runBody (.blt rs1 rs2 off) (do
    let a ← readX rs1
    let b ← readX rs2
    branchIf (BitVec.slt a b) off) s

/-- `bge`: taken when not less, signed (45_reference_rv.md R311). -/
def execBge (rs1 rs2 : Reg) (off : Word) (s : State) : Answer :=
  runBody (.bge rs1 rs2 off) (do
    let a ← readX rs1
    let b ← readX rs2
    branchIf (!BitVec.slt a b) off) s

/-- `bltu`: taken when less, unsigned (45_reference_rv.md R312). -/
def execBltu (rs1 rs2 : Reg) (off : Word) (s : State) : Answer :=
  runBody (.bltu rs1 rs2 off) (do
    let a ← readX rs1
    let b ← readX rs2
    branchIf (BitVec.ult a b) off) s

/-- `bgeu`: taken when not less, unsigned (45_reference_rv.md R313). -/
def execBgeu (rs1 rs2 : Reg) (off : Word) (s : State) : Answer :=
  runBody (.bgeu rs1 rs2 off) (do
    let a ← readX rs1
    let b ← readX rs2
    branchIf (!BitVec.ult a b) off) s

end Sys2Proof.Machine
end

