-- ==== Sys2Proof/Machine/Csr.lean ====
section
/-! DEFINITION. The CSR privilege gate (42_csr_gate.md) and the CSR access instructions (45_reference_rv.md R320 to
R325). -/

namespace Sys2Proof.Machine

/-- The lowest privilege level allowed to access the CSR: `a[9:8]` (42_csr_gate.md R261). -/
def csrLevel (a : CsrAddr) : BitVec 2 := a.extractLsb' 8 2

/-- The CSR is read-only: `a[11:10] = 0b11` (42_csr_gate.md R261). -/
def csrReadOnly (a : CsrAddr) : Bool := a.extractLsb' 10 2 == 0b11#2

/-- `CSR_NEEDS_SERIALIZE(a)` (42_csr_gate.md R265). -/
def needsSerialize (p : Params) (a : CsrAddr) : Bool := !p.noSerialize.contains a

/-- The access is disallowed: a write of a read-only CSR, or a privilege level below the required one
(42_csr_gate.md R260). -/
def csrDenied (s : State) (a : CsrAddr) (isWrite : Bool) : Bool :=
  (isWrite && csrReadOnly a) || BitVec.ult s.inputs.prv (csrLevel a)

/-- The serialisation precondition: it ends the instruction with SERIALIZE_BEFORE (42_csr_gate.md R260). -/
def requireSerialized (a : CsrAddr) : Body Unit := fun s =>
  if needsSerialize s.params a && !s.serialized then .error .serializeBefore s else .ok () s

/-- `validate_csr(a, is_write)`: serialisation first, then `serialized` is cleared, then the privilege and read-only
tests (42_csr_gate.md R260). -/
def validateCsr (a : CsrAddr) (isWrite : Bool) : Body CsrAddr := do
  requireSerialized a
  change (·.withSerialized false)
  illegalIf fun s => csrDenied s a isWrite
  pure a

/-- The shape of every CSR body (45_reference_rv.md section 4): gate, read, write when it is a write, destination,
serialise. `new` computes the value written from the old one. -/
def csrAccess (rd : Reg) (csr : CsrAddr) (isWrite : Bool) (new : Word → Body Word) : Body Unit := do
  let a ← validateCsr csr isWrite
  let old ← csrRead a
  when isWrite (do
    let v ← new old
    csrWrite a v)
  writeSext rd old
  let npc ← look (npcDefault · 4)
  setPcAndSerialize npc

/-- `csrrw` (45_reference_rv.md R320). -/
def execCsrrw (rd : Reg) (csr : CsrAddr) (rs1 : Reg) (s : State) : Answer :=
  runBody (.csrrw rd csr rs1) (csrAccess rd csr (true) (fun _ => readX rs1)) s

/-- `csrrs` (45_reference_rv.md R321). -/
def execCsrrs (rd : Reg) (csr : CsrAddr) (rs1 : Reg) (s : State) : Answer :=
  runBody (.csrrs rd csr rs1) (csrAccess rd csr (rs1 != 0) (fun old => do
      let v ← readX rs1
      pure (old ||| v))) s

/-- `csrrc` (45_reference_rv.md R322). -/
def execCsrrc (rd : Reg) (csr : CsrAddr) (rs1 : Reg) (s : State) : Answer :=
  runBody (.csrrc rd csr rs1) (csrAccess rd csr (rs1 != 0) (fun old => do
      let v ← readX rs1
      pure (old &&& ~~~v))) s

/-- `csrrwi` (45_reference_rv.md R323). -/
def execCsrrwi (rd : Reg) (csr : CsrAddr) (zimm : BitVec 5) (s : State) : Answer :=
  runBody (.csrrwi rd csr zimm) (csrAccess rd csr (true) (fun _ => pure (zimmValue zimm))) s

/-- `csrrsi` (45_reference_rv.md R324). -/
def execCsrrsi (rd : Reg) (csr : CsrAddr) (zimm : BitVec 5) (s : State) : Answer :=
  runBody (.csrrsi rd csr zimm) (csrAccess rd csr (zimm != 0) (fun old => pure (old ||| zimmValue zimm))) s

/-- `csrrci` (45_reference_rv.md R325). -/
def execCsrrci (rd : Reg) (csr : CsrAddr) (zimm : BitVec 5) (s : State) : Answer :=
  runBody (.csrrci rd csr zimm) (csrAccess rd csr (zimm != 0) (fun old => pure (old &&& ~~~zimmValue zimm))) s

end Sys2Proof.Machine
end

