-- ==== Sys2Proof/Machine/FpSign.lean ====
section
/-! DEFINITION. Floating-point sign injection (45_reference_rv.md R330 to R338). -/

namespace Sys2Proof.Machine

/-- The shape of every sign-injection body: `require_fp(ext)`, a width the cells box, then the destination cell
(45_reference_rv.md section 5, 40_register_access.md R172). -/
def injectSign (ext : Ext) (w : FWidth) (n xr : Bool) (rd rs1 rs2 : Reg) : Body Unit := do
  requireFp ext
  requireBoxable w
  let a ← readF rs1
  let b ← readF rs2
  writeF rd (fsgnj w n xr a b)

/-- `fsgnj.s` (45_reference_rv.md R330). -/
def execFsgnjS (rd rs1 rs2 : Reg) (s : State) : Answer :=
  runBody (.fsgnjS rd rs1 rs2) (injectSign .f .f32 false false rd rs1 rs2) s

/-- `fsgnjn.s` (45_reference_rv.md R331). -/
def execFsgnjnS (rd rs1 rs2 : Reg) (s : State) : Answer :=
  runBody (.fsgnjnS rd rs1 rs2) (injectSign .f .f32 true false rd rs1 rs2) s

/-- `fsgnjx.s` (45_reference_rv.md R332). -/
def execFsgnjxS (rd rs1 rs2 : Reg) (s : State) : Answer :=
  runBody (.fsgnjxS rd rs1 rs2) (injectSign .f .f32 false true rd rs1 rs2) s

/-- `fsgnj.d` (45_reference_rv.md R333). -/
def execFsgnjD (rd rs1 rs2 : Reg) (s : State) : Answer :=
  runBody (.fsgnjD rd rs1 rs2) (injectSign .d .f64 false false rd rs1 rs2) s

/-- `fsgnjn.d` (45_reference_rv.md R334). -/
def execFsgnjnD (rd rs1 rs2 : Reg) (s : State) : Answer :=
  runBody (.fsgnjnD rd rs1 rs2) (injectSign .d .f64 true false rd rs1 rs2) s

/-- `fsgnjx.d` (45_reference_rv.md R335). -/
def execFsgnjxD (rd rs1 rs2 : Reg) (s : State) : Answer :=
  runBody (.fsgnjxD rd rs1 rs2) (injectSign .d .f64 false true rd rs1 rs2) s

/-- `fsgnj.q` (45_reference_rv.md R336). -/
def execFsgnjQ (rd rs1 rs2 : Reg) (s : State) : Answer :=
  runBody (.fsgnjQ rd rs1 rs2) (injectSign .q .f128 false false rd rs1 rs2) s

/-- `fsgnjn.q` (45_reference_rv.md R337). -/
def execFsgnjnQ (rd rs1 rs2 : Reg) (s : State) : Answer :=
  runBody (.fsgnjnQ rd rs1 rs2) (injectSign .q .f128 true false rd rs1 rs2) s

/-- `fsgnjx.q` (45_reference_rv.md R338). -/
def execFsgnjxQ (rd rs1 rs2 : Reg) (s : State) : Answer :=
  runBody (.fsgnjxQ rd rs1 rs2) (injectSign .q .f128 false true rd rs1 rs2) s

end Sys2Proof.Machine
end

