-- ==== Sys2Proof/Machine/Integer.lean ====
section
/-! DEFINITION. Integer computation (45_reference_rv.md R300 to R304). -/

namespace Sys2Proof.Machine

/-- `add` (45_reference_rv.md R300). -/
def execAdd (rd rs1 rs2 : Reg) (s : State) : Answer :=
  runBody (.add rd rs1 rs2) (do
    let a ← readX rs1
    let b ← readX rs2
    writeSext rd (a + b)) s

/-- `addi` (45_reference_rv.md R301). -/
def execAddi (rd rs1 : Reg) (imm : Word) (s : State) : Answer :=
  runBody (.addi rd rs1 imm) (do
    let a ← readX rs1
    writeSext rd (a + imm)) s

/-- `lui`: the immediate as it is, sign-extended already (45_reference_rv.md R302). -/
def execLui (rd : Reg) (imm : Word) (s : State) : Answer :=
  runBody (.lui rd imm) (writeX rd imm) s

/-- `slli`: illegal when the shift amount is XLEN or more (45_reference_rv.md R303). -/
def execSlli (rd rs1 : Reg) (shamt : BitVec 6) (s : State) : Answer :=
  runBody (.slli rd rs1 shamt) (do
    illegalIf fun s => decide (xlenBits s.inputs.xlen ≤ shamt.toNat)
    let a ← readX rs1
    writeSext rd (a <<< shamt.toNat)) s

/-- `auipc`: relative to the instruction itself (45_reference_rv.md R304). -/
def execAuipc (rd : Reg) (imm : Word) (s : State) : Answer :=
  runBody (.auipc rd imm) (do
    let pc ← look (·.pc)
    writeSext rd (imm + pc)) s

end Sys2Proof.Machine
end

