-- ==== Sys2Proof/Machine/LoadStore.lean ====
section
/-! DEFINITION. Loads and stores (45_reference_rv.md R314 to R317). -/

namespace Sys2Proof.Machine

/-- `ld` and `sd` are illegal at XLEN 32 (45_reference_rv.md R315, R317). -/
def requireXlen64 : Body Unit := illegalIf fun s => s.inputs.xlen != .x64

/-- `lw`: a sign-extended word (45_reference_rv.md R314). -/
def execLw (rd rs1 : Reg) (imm : Word) (s : State) : Answer :=
  runBody (.lw rd rs1 imm) (do
    let ea ← readAddr rs1 imm
    let v ← memLoad true .b32 ea
    writeX rd (sext32 v)) s

/-- `ld` (45_reference_rv.md R315). -/
def execLd (rd rs1 : Reg) (imm : Word) (s : State) : Answer :=
  runBody (.ld rd rs1 imm) (do
    requireXlen64
    let ea ← readAddr rs1 imm
    let v ← memLoad true .b64 ea
    writeX rd v) s

/-- `sw` (45_reference_rv.md R316). -/
def execSw (rs2 rs1 : Reg) (imm : Word) (s : State) : Answer :=
  runBody (.sw rs2 rs1 imm) (do
    let ea ← readAddr rs1 imm
    let v ← readX rs2
    memStore .b32 ea (low32 v)) s

/-- `sd` (45_reference_rv.md R317). -/
def execSd (rs2 rs1 : Reg) (imm : Word) (s : State) : Answer :=
  runBody (.sd rs2 rs1 imm) (do
    requireXlen64
    let ea ← readAddr rs1 imm
    let v ← readX rs2
    memStore .b64 ea v) s

end Sys2Proof.Machine
end

