-- ==== Sys2Proof/Machine/Fetch.lean ====
section
/-! DEFINITION. The fetch unit, a collaborator (20_memory.md R72, 30_encoding.md R101): it delivers the bytes of one
instruction, parcel by parcel, or a fetch fault, which prevents the step (60_exceptions.md R405). -/

namespace Sys2Proof.Machine

/-- What the fetch unit reads: the data memory, or its own view (FETCH_COHERENCE, 20_memory.md R83; log 12). -/
def fetchMemory (s : State) : Memory :=
  match s.fetchView with
  | none => s.mem
  | some v => v.seen

/-- The view after a step that left data memory `m`: the step's stores are pending, and the next entry of the schedule
says how many steps' stores, the oldest first, become visible (20_memory.md R83; log 12). -/
def advanceView (m : Memory) (v : FetchView) : FetchView :=
  let k := v.reveals.headD v.thereafter
  { v with
    seen := ((v.pending ++ [m]).take k).getLastD v.seen
    pending := (v.pending ++ [m]).drop k
    reveals := v.reveals.tail }

/-- The end of a step, for the fetch unit. -/
def State.advanceFetch (s : State) : State := { s with fetchView := s.fetchView.map (advanceView s.mem) }

/-- `n` parcels of 16 bits from address `a` on, each a checked fetch (20_memory.md R72; log 13). -/
def fetchParcels (s : State) (a : Word) : Nat → Except Report (List Byte)
  | 0 => .ok []
  | n + 1 =>
    match accessFault s.params .fetch 2 a with
    | some r => .error r
    | none =>
      match fetchParcels s (a + 2) n with
      | .error r => .error r
      | .ok bytes => .ok (readBytes (fetchMemory s) a 2 ++ bytes)

/-- The bytes of the instruction at the pc: its first parcel gives its length (30_encoding.md R102), then the other
parcels follow. -/
def fetchBytes (s : State) : Except Report (List Byte) :=
  match fetchParcels s s.pc 1 with
  | .error r => .error r
  | .ok first => fetchParcels s s.pc (insnLength (leWord first) / 2)

/-- The outcome of a fetch fault: it goes to the handler as the collaborator reported it (60_exceptions.md R405). -/
def fetchFault (r : Report) (s : State) : State := s.withOutcome (.trap (.collaborator r.cause) r.tval)

end Sys2Proof.Machine
end

