-- ==== Sys2Proof/Machine/Shell.lean ====
section
/-! DEFINITION. The step loop around the block (43_dispatch_shell.md R287) and the trap handler's part of it
(60_exceptions.md R406). -/

namespace Sys2Proof.Machine

/-- What the loop does with an outcome (43_dispatch_shell.md R287): the PC becomes `npc`; SERIALIZE_BEFORE sets
`serialized` and leaves the pc where it was (`npc` is the same pc); a trap leaves all to the handler. -/
def commit (s : State) : State :=
  match s.outcome with
  | .next npc .normal => s.withPc npc
  | .next npc .serializeBefore => (s.withPc npc).withSerialized true
  | .next npc .serializeAfter => s.withPc npc
  | .trap _ _ => s

/-- The end of a step that goes on: the fetch unit's view advances (log 12). -/
def endStep : Answer → Answer
  | .next s => .next s.advanceFetch
  | .fault r => .fault r
  | .refused r => .refused r

/-- The loop after a body: it commits a next state and ends the step, and a stop stays a stop. -/
def settle : Answer → Answer
  | .next s => .next (commit s).advanceFetch
  | .fault r => .fault r
  | .refused r => .refused r

/-- A refused word's name as a refusal (30_encoding.md R138, R139; 43_dispatch_shell.md R288). -/
def refusalOf : Reject → Refusal
  | .noReferenceInstruction => .noReferenceInstruction
  | .longInstruction => .longInstruction
  | .rv64OnlyRow => .rv64OnlyRow
  | .truncated => .truncatedFetch

/-- The CSR store with the handler's values stored. -/
def storeAll (c : CsrStore) : List (CsrAddr × Word) → CsrStore
  | [] => c
  | (a, v) :: rest => storeAll (setCell unlistedCsr c a.toNat v) rest

/-- The handler's decision taken: execution resumes at its pc with its inputs and its CSR values (log 9). -/
def resumeWith (r : Resume) (rest : List Resume) (s : State) : State :=
  { s with
    pc := r.pc
    inputs := r.inputs
    csrs := storeAll s.csrs r.csrs
    resumes := rest
    outcome := .next r.pc .normal }

/-- The step after a trap: the next queued decision of the handler, which "decides resumption" (60_exceptions.md
R406); with none queued the machine stops (log 9). -/
def resume (s : State) : Answer :=
  match s.resumes with
  | [] => .fault .noHandlerDecision
  | r :: rest => .next (resumeWith r rest s)

end Sys2Proof.Machine
end

