-- ==== Sys2Proof/Machine/Step.lean ====
section
/-! DEFINITION. One step of the machine: the handler's decision after a trap, else fetch, decode, the block, and the
loop around it (43_dispatch_shell.md R281, R287). -/

namespace Sys2Proof.Machine

def step (s : State) : Host.Outcome State Fault Refusal :=
  match s.outcome with
  | .trap _ _ => endStep (resume s)
  | .next _ _ =>
    match fetchBytes s with
    | .error r => endStep (.next (fetchFault r s))
    | .ok bytes =>
      match decodeBytes s.inputs.xlen bytes with
      | .error r => .refused (refusalOf r)
      | .ok (i, _) => settle (exec i s)

/-- `s` with an instruction of `nbits` bits `w` (the bits above them 0, up to 8 bytes) where the next step fetches:
in the memory the fetch unit reads, at the pc, and with no trap waiting for the handler. It stands for the loader
outside the block (log 26). -/
def State.withFetchWord (s : State) (nbits w : Nat) : State :=
  let m := writeBytes (fetchMemory s) s.pc (leBytes 8 (BitVec.ofNat 64 (w % 2 ^ nbits)))
  let t : State :=
    match s.fetchView with
    | none => { s with mem := m }
    | some v => { s with fetchView := some { v with seen := m } }
  match s.outcome with
  | .next _ _ => t
  | .trap _ _ => t.withOutcome (.next s.pc .normal)

end Sys2Proof.Machine
end

