-- ==== Sys2Proof/Machine/Vector.lean ====
section
/-! DEFINITION. The vector type-resolution and promotion/demotion engine (41_vector_engine.md). The fork's vector
instructions have no encoding in the spec (30_encoding.md R135), so no row of the opcode table runs these operations;
they are stated over the registers, tags and values an instruction body would hand them. -/

namespace Sys2Proof.Machine

/-! ## Tags -/

/-- The tag of vector register `r` (10_state.md R40). -/
def State.tagOf (s : State) (r : Reg) : VTag := s.vtag[r.toNat]'r.isLt

/-- An element width among {8, 16, 32, 64, 128} (41_vector_engine.md R201). -/
def widthOf (n : Nat) : Option EWidth :=
  if n = 8 then some .w8
  else if n = 16 then some .w16
  else if n = 32 then some .w32
  else if n = 64 then some .w64
  else if n = 128 then some .w128
  else none

/-- The tag a request stands for; none when `validate_config` refuses it (41_vector_engine.md R201). -/
def requestedTag (q : TagRequest) : Option Tag :=
  match widthOf q.width, q.rep with
  | some w, some r => if r = .float ∧ w = .w8 then none else some ⟨q.shape, w, r⟩
  | _, _ => none

/-- `validate_config`: at most NVREG = 32 registers, every tag supported (41_vector_engine.md R201). -/
def groupsValid (g : Groups) : Bool :=
  decide ((g.map (·.1)).sum ≤ 32) && g.all fun p => (requestedTag p.2).isSome

/-- The tags of registers 0, 1, …, in list order (41_vector_engine.md R200). -/
def assignedTags (g : Groups) : List VTag :=
  g.flatMap fun p =>
    List.replicate p.1 (match requestedTag p.2 with
      | some t => VTag.configured t
      | none => VTag.unconfigured)

/-- The tags of all 32 registers: those the groups assign, then Unconfigured (41_vector_engine.md R200). -/
def tagFile (g : Groups) : Vector VTag 32 :=
  ⟨((assignedTags g ++ List.replicate 32 VTag.unconfigured).take 32).toArray, by simp⟩

/-- The packed tag of vector register `r`, by VTYPE_PACK (10_state.md R40; log 27). -/
def State.packedTag (s : State) (r : Reg) : Word := Config.vtypePack (s.tagOf r)

/-- The reference packing that D12 gives as one value of VTYPE_PACK, six bits, non-normative; nothing relies on it
(10_state.md R40; log 27). -/
def packTag : VTag → BitVec 6
  | .unconfigured => 0b011000
  | .configured t =>
    (match t.shape with
      | .scalar => 0#1
      | .vector => 1#1) ++
    (match t.rep with
      | .uint => 0#2
      | .sint => 1#2
      | .float => 2#2) ++
    (match t.width with
      | .w8 => 0#3
      | .w16 => 1#3
      | .w32 => 2#3
      | .w64 => 3#3
      | .w128 => 4#3)

/-- The configured-register gate: the tag, or illegal-instruction (41_vector_engine.md R207). -/
def requireConfigured (r : Reg) : Body Tag := fun s =>
  match s.tagOf r with
  | .configured t => .ok t s
  | .unconfigured => .error .illegal s

/-- The gate on several registers, in order. -/
def requireAll : List Reg → Body (List Tag)
  | [] => pure []
  | r :: rs => do
    let t ← requireConfigured r
    let ts ← requireAll rs
    pure (t :: ts)

/-! ## Configuration -/

/-- `MAXVL(groups)`, kept within `1 <= MAXVL(groups) <= VLMAX` (41_vector_engine.md R200; log 20). -/
def maxVlOf (p : Params) (g : Groups) : Nat := min p.vlmax (max 1 (Config.maxVl g))

/-- Tags, length and elements after a configuration (41_vector_engine.md R200, R202). -/
def State.configured (s : State) (avl : Word) (g : Groups) : State :=
  { s with
    vtag := tagFile g
    vl := min avl.toNat (maxVlOf s.params g)
    velem := Vector.replicate 32 (List.replicate s.params.vlmax 0) }

/-- `configure(avl, groups)`; its write of VCFG does not pass the CSR gate (41_vector_engine.md R200, 42_csr_gate.md
R264). -/
def configure (avl : Word) (g : Groups) : Body Word := do
  requireExt .v
  stopIf (!groupsValid g) .illegal
  let a ← look (·.params.vcfgCsr)
  csrWrite a (Config.vcfgEnc g)
  change (·.configured avl g)
  look fun s => BitVec.ofNat 64 s.vl

/-! ## Elements and effective length -/

/-- The element cell as it stands; 0 past the last one. -/
def State.elemCell (s : State) (r : Reg) (e : Nat) : Wide := (s.velem[r.toNat]'r.isLt).getD e 0

/-- `elem(r, e)` at width `w` (41_vector_engine.md R204). -/
def State.elem (s : State) (r : Reg) (w : EWidth) (e : Nat) : Wide := lowWide w.bits (s.elemCell r e)

/-- What an element write stores: the `w`-bit payload with zeros above, or 0 in register 0 when it is hardwired
(41_vector_engine.md R203, 10_state.md R42). -/
def storedElem (p : Params) (r : Reg) (w : EWidth) (v : Wide) : Wide :=
  if r = 0 ∧ p.v0Hardwired = true then 0 else lowWide w.bits v

/-- `write_elem(r, e, v)` at width `w` (41_vector_engine.md R203). -/
def State.putElem (s : State) (r : Reg) (w : EWidth) (e : Nat) (v : Wide) : State :=
  { s with
    velem := s.velem.set r.toNat ((s.velem[r.toNat]'r.isLt).set e (storedElem s.params r w v)) r.isLt }

/-- `efflen(r)` of a register with tag `t` (41_vector_engine.md R205). -/
def effLen (s : State) (t : Tag) : Nat :=
  match t.shape with
  | .scalar => 1
  | .vector => s.vl

/-- The element a source gives at loop index `e`: element 0 of a scalar (41_vector_engine.md R208). -/
def operandIndex (t : Tag) (e : Nat) : Nat :=
  match t.shape with
  | .scalar => 0
  | .vector => e

/-- `VS_k(e)` (41_vector_engine.md R208). -/
def State.operandElem (s : State) (r : Reg) (t : Tag) (e : Nat) : Wide := s.elem r t.width (operandIndex t e)

/-! ## Type resolution, extension, truncation -/

/-- The intermediate type (41_vector_engine.md R209). -/
structure VType where
  width : EWidth
  rep : Rep
deriving DecidableEq, Repr

/-- The format of a float element width (41_vector_engine.md R210: 16, 32, 64 or 128). -/
def floatFormat : EWidth → Option FWidth
  | .w8 => none
  | .w16 => some .f16
  | .w32 => some .f32
  | .w64 => some .f64
  | .w128 => some .f128

/-- `resolve(t_1 .. t_n)`; none is the illegal-instruction of mixed operands (41_vector_engine.md R209). The widest
float is 128 bits (00_scope.md R20, W_FMAX). With no operand at all, every one is FLOAT and the type is the widest
float: the model's reading of the rule's second line (log 30). -/
def resolveType : List Tag → Option VType
  | [] => some ⟨.w128, .float⟩
  | t :: ts =>
    if (t :: ts).all (·.rep == .float) then some ⟨.w128, .float⟩
    else if (t :: ts).any (·.rep == .float) then none
    else some ⟨t.width, t.rep⟩

/-- The integer value `v` of `w` bits, extended by its own signedness to `n` bits (41_vector_engine.md R210). -/
def extendInt (rep : Rep) (w n : Nat) (v : Wide) : Wide :=
  match rep with
  | .sint => lowWide n ((v.setWidth w).signExtend 128)
  | .uint => lowWide w v
  | .float => v

/-- `extend(v, t, T)`: the value and its flags; none is illegal-instruction (41_vector_engine.md R210). -/
def extendValue (t : Tag) (ty : VType) (v : Wide) : Option (Wide × FFlags) :=
  if t.rep = .float ∧ ty.rep = .float then
    match floatFormat t.width, floatFormat ty.width with
    | some w1, some w2 =>
      if t.width.bits < ty.width.bits then some (fwiden w1 w2 v)
      else if t.width = ty.width then some (v, .none)
      else none
    | _, _ => none
  else if t.rep = .float ∨ ty.rep = .float then none
  else if t.width.bits < ty.width.bits then some (extendInt t.rep t.width.bits ty.width.bits v, .none)
  else if t.width = ty.width then some (v, .none)
  else none

/-- `truncate(r, T, d)` under the selected rounding mode (`none`: it is out of range); none is illegal-instruction
(41_vector_engine.md R211). -/
def truncateValue (ty : VType) (d : Tag) (m : Option RMode) (r : Wide) : Option (Wide × FFlags) :=
  if d.rep = .float ∧ ty.rep = .float then
    match floatFormat d.width, floatFormat ty.width with
    | some wd, some wt =>
      if d.width.bits < ty.width.bits then m.map fun mode => fnarrow wt wd mode r
      else if d.width = ty.width then some (r, .none)
      else none
    | _, _ => none
  else if d.rep = .float ∨ ty.rep = .float then none
  else if d.width.bits ≤ ty.width.bits then some (lowWide d.width.bits r, .none)
  else none

/-- The extension is one R210 allows: it depends on the tags alone. -/
def extendAllowed (t : Tag) (ty : VType) : Bool := (extendValue t ty 0).isSome

/-- The truncation is one R211 allows, whatever the rounding mode: it depends on the tags alone. -/
def truncateAllowed (ty : VType) (d : Tag) : Bool := (truncateValue ty d (some .rne) 0).isSome

/-- `check_combination`: the tag checks of R210 and R211, made once before the loop (41_vector_engine.md R214). -/
def combinationAllowed (ty : VType) (srcs : List Tag) (d : Tag) : Bool :=
  srcs.all (extendAllowed · ty) && truncateAllowed ty d

/-- A value some check gives, or illegal-instruction. -/
def orIllegal {α : Type} (o : Option α) : Body α := fun s =>
  match o with
  | some a => .ok a s
  | none => .error .illegal s

/-- Truncation with the rounding mode the instruction's `rm` field selects (41_vector_engine.md R211, D19). -/
def truncateElem (field : BitVec 3) (ty : VType) (d : Tag) (r : Wide) : Body (Wide × FFlags) := fun s =>
  orIllegal (truncateValue ty d (selectMode field s.inputs.frm) r) s

/-! ## The element loop -/

/-- The extended operands of loop index `e`, in order, and the flags raised (41_vector_engine.md R214). -/
def extendOperands (ty : VType) (e : Nat) : List (Reg × Tag) → Body (List Wide × FFlags)
  | [] => pure ([], .none)
  | (r, t) :: rest => do
    let v ← look fun s => s.operandElem r t e
    let a ← orIllegal (extendValue t ty v)
    let as ← extendOperands ty e rest
    pure (a.1 :: as.1, a.2.merge as.2)

/-- The arithmetic of a vector opcode, outside the block: a value, or a stop (41_vector_engine.md R214; log 22). -/
abbrev VectorOp := List Wide → Except Stop Wide

/-- What `op` answers, as a statement of the loop. -/
def applyOp (op : VectorOp) (xs : List Wide) : Body Wide := fun s =>
  match op xs with
  | .ok v => .ok v s
  | .error e => .error e s

/-- One iteration of the loop (41_vector_engine.md R214). -/
def opElement (field : BitVec 3) (op : VectorOp) (ty : VType) (d : Reg) (dt : Tag) (srcs : List (Reg × Tag)) (e : Nat) :
    Body FFlags := do
  let as ← extendOperands ty e srcs
  let r ← applyOp op as.1
  let v ← truncateElem field ty dt r
  change (·.putElem d dt.width e v.1)
  pure (as.2.merge v.2)

/-- Iterations `e`, `e + 1`, … , `n` of them, in increasing order (41_vector_engine.md R214). -/
def elementLoop (iter : Nat → Body FFlags) (e : Nat) : Nat → Body FFlags
  | 0 => pure .none
  | n + 1 => do
    let a ← iter e
    let b ← elementLoop iter (e + 1) n
    pure (a.merge b)

/-- `vop(op, d, s_1 .. s_n)` with the instruction's `rm` field; it answers the flags of its conversions
(41_vector_engine.md R214, 10_state.md R35). -/
def vop (field : BitVec 3) (op : VectorOp) (d : Reg) (srcs : List Reg) : Body FFlags := do
  requireExt .v
  let dt ← requireConfigured d
  let ts ← requireAll srcs
  let ty ← orIllegal (resolveType ts)
  stopIf (!combinationAllowed ty ts dt) .illegal
  let len ← look (effLen · dt)
  elementLoop (opElement field op ty d dt (srcs.zip ts)) 0 len

/-! ## Vector loads and stores -/

/-- The (rep, width) pair has a memory accessor: all but FLOAT of 8 bits (41_vector_engine.md R217). -/
def routable (t : Tag) : Bool := !(t.rep == .float && t.width == .w8)

/-- The load accessor of a (rep, width) pair (41_vector_engine.md R217). -/
def routeLoad (t : Tag) (a : Word) : Body Wide :=
  let single (w : MWidth) : Body Wide := do
    let v ← memLoad (t.rep == .sint) w a
    pure (v.setWidth 128)
  match t.width with
  | .w8 => single .b8
  | .w16 => single .b16
  | .w32 => single .b32
  | .w64 => single .b64
  | .w128 => memLoadPair a

/-- The store accessor of a (rep, width) pair (41_vector_engine.md R217). -/
def routeStore (t : Tag) (a : Word) (v : Wide) : Body Unit :=
  match t.width with
  | .w8 => memStore .b8 a (v.setWidth 64)
  | .w16 => memStore .b16 a (v.setWidth 64)
  | .w32 => memStore .b32 a (v.setWidth 64)
  | .w64 => memStore .b64 a (v.setWidth 64)
  | .w128 => memStorePair a v

/-- `(base + e * (W / 8)) mod 2^64` (41_vector_engine.md R215, R216). -/
def elementAddr (base : Word) (w : EWidth) (e : Nat) : Word := base + BitVec.ofNat 64 (e * (w.bits / 8))

/-- One element of a vector load (41_vector_engine.md R215). -/
def loadElement (d : Reg) (t : Tag) (base : Word) (e : Nat) : Body FFlags := do
  let v ← routeLoad t (elementAddr base t.width e)
  change (·.putElem d t.width e v)
  pure .none

/-- `vload(d, base)` (41_vector_engine.md R215). -/
def vload (d : Reg) (base : Word) : Body Unit := do
  requireExt .v
  let t ← requireConfigured d
  stopIf (!routable t) .illegal
  let len ← look (effLen · t)
  let _ ← elementLoop (loadElement d t base) 0 len
  pure ()

/-- One element of a vector store (41_vector_engine.md R216). -/
def storeElement (r : Reg) (t : Tag) (base : Word) (e : Nat) : Body FFlags := do
  let v ← look fun s => s.elem r t.width e
  routeStore t (elementAddr base t.width e) v
  pure .none

/-- `vstore(s, base)` (41_vector_engine.md R216). -/
def vstore (r : Reg) (base : Word) : Body Unit := do
  requireExt .v
  let t ← requireConfigured r
  stopIf (!routable t) .illegal
  let len ← look (effLen · t)
  let _ ← elementLoop (storeElement r t base) 0 len
  pure ()

/-! ## Bodies over an instruction word

What an opcode fixes is an argument: its arithmetic, how it reads its groups, and which accessor names each source (log
34). `runWord` runs a body in the shell, with the word's own ILLEGAL_TVAL. -/

/-- The register-index accessors of every form (30_encoding.md R104 to R107, R135, D46). -/
inductive RegField where
  | rd
  | rs1
  | rs2
  | rs3
deriving DecidableEq, Repr

/-- The register index an accessor reads from a word (30_encoding.md R104 to R107). -/
def regIndex (insn : Word) : RegField → Reg
  | .rd => rd insn
  | .rs1 => rs1 insn
  | .rs2 => rs2 insn
  | .rs3 => rs3 insn

/-- The vector immediates of a word, through VFIELDS (30_encoding.md R135). -/
def vectorImms (insn : Word) : Nat → Word := fun k => vectorField k insn

/-- The base address a vector load or store body reads: `x[rs1(insn)]` (41_vector_engine.md R215, D21, D46). -/
def vectorBase (insn : Word) : Body Word := readX (rs1 insn)

/-- An element-wise body: the operation on the registers its word names, then its flags to the CSR store (30_encoding.md
R104, R135, D46; 10_state.md R35, D19; log 21, 34). That a vector word's rounding mode stands where `rm(insn)` reads it,
bits 14:12, is the model's choice: D46 leaves every vector field but the register indices to VFIELDS (log 35). -/
def vopBody (insn : Word) (op : (Nat → Word) → VectorOp) (srcs : List RegField) : Body Unit := do
  let fl ← vop (rm insn) (op (vectorImms insn)) (rd insn) (srcs.map (regIndex insn))
  accrueFlags fl

/-- A vector load body: the gate before the base is read (60_exceptions.md R405), destination `rd(insn)`, base
`x[rs1(insn)]` (41_vector_engine.md R215, D21, D46). -/
def vloadBody (insn : Word) : Body Unit := do
  requireExt .v
  let base ← vectorBase insn
  vload (rd insn) base

/-- A vector store body: the gate, then base `x[rs1(insn)]`; the source is the register its opcode's accessor names
(41_vector_engine.md R216, D21, D46; log 34). -/
def vstoreBody (insn : Word) (src : RegField) : Body Unit := do
  requireExt .v
  let base ← vectorBase insn
  vstore (regIndex insn src) base

/-- A configuration body: the gate, `avl` from an integer register, the groups from the vector immediates, VL to
`x[rd(insn)]` (41_vector_engine.md R200; 00_scope.md R21; D46; log 34). -/
def configureBody (insn : Word) (avl : RegField) (groups : (Nat → Word) → Groups) : Body Unit := do
  requireExt .v
  let a ← readX (regIndex insn avl)
  let vl ← configure a (groups (vectorImms insn))
  writeSext (rd insn) vl

/-- A word of an element-wise operation, run by the block (43_dispatch_shell.md R281; 60_exceptions.md R400, R402). -/
def runVop (insn : Word) (op : (Nat → Word) → VectorOp) (srcs : List RegField) (s : State) : Answer :=
  runWord insn (vopBody insn op srcs) s

/-- A word of a vector load, run by the block. -/
def runVload (insn : Word) (s : State) : Answer := runWord insn (vloadBody insn) s

/-- A word of a vector store, run by the block. -/
def runVstore (insn : Word) (src : RegField) (s : State) : Answer := runWord insn (vstoreBody insn src) s

/-- A word of a configuration, run by the block. -/
def runConfigure (insn : Word) (avl : RegField) (groups : (Nat → Word) → Groups) (s : State) : Answer :=
  runWord insn (configureBody insn avl groups) s

end Sys2Proof.Machine
end

