-- ==== Sys2Proof/Safety.lean ====
section
/-! DEFINITION. What counts as a safe run, in the terms claims use: the invariants of the state, how an instruction
ends, and for each shape of instruction what it reads and writes, as one table over all constructors. -/

namespace Sys2Proof.Machine

/-! ## Invariants -/

/-- Every list of vector elements has VLMAX cells (10_state.md R39). -/
def State.elemsSized (s : State) : Bool := s.velem.toList.all fun l => l.length == s.params.vlmax

/-- Vector register 0 reads as zero when it is hardwired (10_state.md R42). -/
def State.v0Zero (s : State) : Bool := !s.params.v0Hardwired || s.velem[0].all (· == 0)

/-- No register carries a tag a configuration refuses: FLOAT of 8 bits (41_vector_engine.md R201). -/
def State.tagsLegal (s : State) : Bool :=
  s.vtag.toList.all fun
    | .unconfigured => true
    | .configured t => routable t

/-- With XLEN 32 each integer register holds a sign-extended 32-bit value (00_scope.md R21). Not part of `Inv`: a
handler that changes XLEN from 64 to 32 leaves the cells as they are. -/
def State.xSignExtended (s : State) : Bool :=
  s.inputs.xlen == .x64 || s.xpr.toList.all fun v => sext32 v == v

/-- Every copy of memory is in canonical form. -/
def State.memWf (s : State) : Bool :=
  s.mem.wf && (match s.fetchView with
    | none => true
    | some v => v.seen.wf && v.pending.all Memory.wf)

/-- The invariant of the state: canonical memory and CSR store, the vector unit within its sizes, and cell 0 of the
integer file at its reset value 0. -/
def State.Inv (s : State) : Prop :=
  s.memWf = true ∧ CsrStore.wf s.csrs = true ∧ s.vl ≤ s.params.vlmax ∧ s.elemsSized = true ∧ s.v0Zero = true ∧
    s.tagsLegal = true ∧ s.xpr[0] = 0

/-- The machine goes on from here: the step answers a next state. -/
def goesOn (s : State) : Prop := ∃ t, step s = .next t

/-- `k` steps that all answer a next state, and the state they reach. -/
def runsTo : Nat → State → State → Prop
  | 0, s, t => s = t
  | k + 1, s, t => ∃ u, step s = .next u ∧ runsTo k u t

/-! ## How an instruction ends -/

/-- It completes, and the next PC is the default one of its length (43_dispatch_shell.md R280). -/
def State.completes (s : State) (len : Nat) : State := s.withOutcome (.next (npcDefault s len) .normal)

/-- It completes with a redirected PC (43_dispatch_shell.md R282). -/
def State.redirects (s : State) (t : Word) : State := s.withOutcome (.next (sextXlen s.inputs.xlen t) .normal)

/-- It ends in a trap (60_exceptions.md R400). -/
def State.traps (s : State) (c : Cause) (v : Word) : State := s.withOutcome (.trap c v)

/-- It raises illegal-instruction (60_exceptions.md R402). -/
def State.illegalAt (s : State) (i : Instr) : State := s.traps .illegalInstruction (illegalTval s.params i)

/-- A word raises illegal-instruction, with its own ILLEGAL_TVAL (60_exceptions.md R402). -/
def State.illegalAtWord (s : State) (insn : Word) : State :=
  s.traps .illegalInstruction (wordTval s.params (insnLength insn) insn)

/-- The fault of a collaborator ends the instruction (60_exceptions.md R403). -/
def State.faultsAt (s : State) (r : Report) : State := s.traps (.collaborator r.cause) r.tval

/-- The body of the word raises illegal-instruction with nothing changed, and the block reports it so. -/
def wordIllegal (insn : Word) (b : Body Unit) (s : State) : Prop :=
  b s = .error .illegal s ∧ runWord insn b s = .next (s.illegalAtWord insn)

/-- The fault of a collaborator ends the body of the word with nothing changed, and the block passes it on. -/
def wordFaults (insn : Word) (r : Report) (b : Body Unit) (s : State) : Prop :=
  b s = .error (.collaborator r) s ∧ runWord insn b s = .next (s.faultsAt r)

/-- Every register of the list is in the file (40_register_access.md R160). -/
def State.hasXs (s : State) (l : List Reg) : Bool := l.all s.hasX

/-! ## Notation of 00_scope.md R22 -/

/-- `x(lo, len)`: the field `insn[lo+len-1:lo]`, unsigned. -/
def xField (w : Word) (lo len : Nat) : Word := (w >>> lo) &&& BitVec.ofNat 64 (2 ^ len - 1)

/-- `xs(lo, len)`: the same field, sign-extended from its top bit. -/
def xsField (w : Word) (lo len : Nat) : Word := (w <<< (64 - lo - len)).sshiftRight (64 - len)

/-- Every word with the bits `pattern` under `mask` decodes to this instruction (30_encoding.md R137, R138). -/
def spells (x : XLen) (pattern mask : Word) (i : Word → Instr) : Prop :=
  ∀ w : Word, w &&& mask = pattern → decodeWord x w = .ok (i w)

/-! ## What the instructions read and write -/

/-- A load: destination, base, offset, bytes. -/
structure LoadForm where
  rd : Reg
  base : Reg
  off : Word
  bytes : Nat

/-- A store: source, base, offset, bytes. -/
structure StoreForm where
  src : Reg
  base : Reg
  off : Word
  bytes : Nat

/-- A CSR access: destination, address, whether it is a write, the register read for it if it is one. -/
structure CsrForm where
  rd : Reg
  addr : CsrAddr
  isWrite : Bool
  src : Option Reg

/-- A sign injection: extension, width, flags, destination, sources. -/
structure SignForm where
  ext : Ext
  width : FWidth
  n : Bool
  xr : Bool
  rd : Reg
  rs1 : Reg
  rs2 : Reg

/-- A conditional branch of 32 bits: sources and offset. -/
structure BranchForm where
  rs1 : Reg
  rs2 : Reg
  off : Word

/-- The loads (45_reference_rv.md R314, R315; 46_reference_rvc.md R351, R352, R363, R364). -/
def loadForm : Instr → Option LoadForm
  | .lw rd rs1 imm => some ⟨rd, rs1, imm, 4⟩
  | .ld rd rs1 imm => some ⟨rd, rs1, imm, 8⟩
  | .cLw rd rs1 imm => some ⟨rd, rs1, imm, 4⟩
  | .cLd rd rs1 imm => some ⟨rd, rs1, imm, 8⟩
  | .cLwsp rd imm => some ⟨rd, 2, imm, 4⟩
  | .cLdsp rd imm => some ⟨rd, 2, imm, 8⟩
  | .add _ _ _ | .addi _ _ _ | .lui _ _ | .slli _ _ _ | .auipc _ _ | .jal _ _ | .jalr _ _ _ | .beq _ _ _
  | .bne _ _ _ | .blt _ _ _ | .bge _ _ _ | .bltu _ _ _ | .bgeu _ _ _ | .sw _ _ _ | .sd _ _ _
  | .csrrw _ _ _ | .csrrs _ _ _ | .csrrc _ _ _ | .csrrwi _ _ _ | .csrrsi _ _ _ | .csrrci _ _ _
  | .fsgnjS _ _ _ | .fsgnjnS _ _ _ | .fsgnjxS _ _ _ | .fsgnjD _ _ _ | .fsgnjnD _ _ _ | .fsgnjxD _ _ _
  | .fsgnjQ _ _ _ | .fsgnjnQ _ _ _ | .fsgnjxQ _ _ _ | .cAddi4spn _ _ | .cSw _ _ _ | .cSd _ _ _
  | .cAddi _ _ | .cLi _ _ | .cAddi16sp _ | .cLui _ _ | .cJ _ | .cBeqz _ _ | .cBnez _ _ | .cSlli _ _
  | .cSwsp _ _ | .cSdsp _ _ => none

/-- The stores (45_reference_rv.md R316, R317; 46_reference_rvc.md R353, R354, R365, R366). -/
def storeForm : Instr → Option StoreForm
  | .sw rs2 rs1 imm => some ⟨rs2, rs1, imm, 4⟩
  | .sd rs2 rs1 imm => some ⟨rs2, rs1, imm, 8⟩
  | .cSw rs2 rs1 imm => some ⟨rs2, rs1, imm, 4⟩
  | .cSd rs2 rs1 imm => some ⟨rs2, rs1, imm, 8⟩
  | .cSwsp rs2 imm => some ⟨rs2, 2, imm, 4⟩
  | .cSdsp rs2 imm => some ⟨rs2, 2, imm, 8⟩
  | .add _ _ _ | .addi _ _ _ | .lui _ _ | .slli _ _ _ | .auipc _ _ | .jal _ _ | .jalr _ _ _ | .beq _ _ _
  | .bne _ _ _ | .blt _ _ _ | .bge _ _ _ | .bltu _ _ _ | .bgeu _ _ _ | .lw _ _ _ | .ld _ _ _
  | .csrrw _ _ _ | .csrrs _ _ _ | .csrrc _ _ _ | .csrrwi _ _ _ | .csrrsi _ _ _ | .csrrci _ _ _
  | .fsgnjS _ _ _ | .fsgnjnS _ _ _ | .fsgnjxS _ _ _ | .fsgnjD _ _ _ | .fsgnjnD _ _ _ | .fsgnjxD _ _ _
  | .fsgnjQ _ _ _ | .fsgnjnQ _ _ _ | .fsgnjxQ _ _ _ | .cAddi4spn _ _ | .cLw _ _ _ | .cLd _ _ _
  | .cAddi _ _ | .cLi _ _ | .cAddi16sp _ | .cLui _ _ | .cJ _ | .cBeqz _ _ | .cBnez _ _ | .cSlli _ _
  | .cLwsp _ _ | .cLdsp _ _ => none

/-- The CSR accesses; the set and clear forms write when their operand FIELD is not 0 (45_reference_rv.md R320 to
R325). -/
def csrForm : Instr → Option CsrForm
  | .csrrw rd csr rs1 => some ⟨rd, csr, true, some rs1⟩
  | .csrrs rd csr rs1 => some ⟨rd, csr, rs1 != 0, some rs1⟩
  | .csrrc rd csr rs1 => some ⟨rd, csr, rs1 != 0, some rs1⟩
  | .csrrwi rd csr _ => some ⟨rd, csr, true, none⟩
  | .csrrsi rd csr zimm => some ⟨rd, csr, zimm != 0, none⟩
  | .csrrci rd csr zimm => some ⟨rd, csr, zimm != 0, none⟩
  | .add _ _ _ | .addi _ _ _ | .lui _ _ | .slli _ _ _ | .auipc _ _ | .jal _ _ | .jalr _ _ _ | .beq _ _ _
  | .bne _ _ _ | .blt _ _ _ | .bge _ _ _ | .bltu _ _ _ | .bgeu _ _ _ | .lw _ _ _ | .ld _ _ _ | .sw _ _ _
  | .sd _ _ _ | .fsgnjS _ _ _ | .fsgnjnS _ _ _ | .fsgnjxS _ _ _ | .fsgnjD _ _ _ | .fsgnjnD _ _ _
  | .fsgnjxD _ _ _ | .fsgnjQ _ _ _ | .fsgnjnQ _ _ _ | .fsgnjxQ _ _ _ | .cAddi4spn _ _ | .cLw _ _ _
  | .cLd _ _ _ | .cSw _ _ _ | .cSd _ _ _ | .cAddi _ _ | .cLi _ _ | .cAddi16sp _ | .cLui _ _ | .cJ _
  | .cBeqz _ _ | .cBnez _ _ | .cSlli _ _ | .cLwsp _ _ | .cLdsp _ _ | .cSwsp _ _ | .cSdsp _ _ => none

/-- The value a CSR access writes, from the state and the old value (45_reference_rv.md R320 to R325). -/
def csrNew : Instr → State → Word → Word
  | .csrrw _ _ rs1 => fun s _ => s.x rs1
  | .csrrs _ _ rs1 => fun s old => old ||| s.x rs1
  | .csrrc _ _ rs1 => fun s old => old &&& ~~~s.x rs1
  | .csrrwi _ _ zimm => fun _ _ => zimm.setWidth 64
  | .csrrsi _ _ zimm => fun _ old => old ||| zimm.setWidth 64
  | .csrrci _ _ zimm => fun _ old => old &&& ~~~zimm.setWidth 64
  | .add _ _ _ | .addi _ _ _ | .lui _ _ | .slli _ _ _ | .auipc _ _ | .jal _ _ | .jalr _ _ _ | .beq _ _ _
  | .bne _ _ _ | .blt _ _ _ | .bge _ _ _ | .bltu _ _ _ | .bgeu _ _ _ | .lw _ _ _ | .ld _ _ _ | .sw _ _ _
  | .sd _ _ _ | .fsgnjS _ _ _ | .fsgnjnS _ _ _ | .fsgnjxS _ _ _ | .fsgnjD _ _ _ | .fsgnjnD _ _ _
  | .fsgnjxD _ _ _ | .fsgnjQ _ _ _ | .fsgnjnQ _ _ _ | .fsgnjxQ _ _ _ | .cAddi4spn _ _ | .cLw _ _ _
  | .cLd _ _ _ | .cSw _ _ _ | .cSd _ _ _ | .cAddi _ _ | .cLi _ _ | .cAddi16sp _ | .cLui _ _ | .cJ _
  | .cBeqz _ _ | .cBnez _ _ | .cSlli _ _ | .cLwsp _ _ | .cLdsp _ _ | .cSwsp _ _ | .cSdsp _ _ => fun _ old => old

/-- The sign injections (45_reference_rv.md R330 to R338). -/
def signForm : Instr → Option SignForm
  | .fsgnjS rd rs1 rs2 => some ⟨.f, .f32, false, false, rd, rs1, rs2⟩
  | .fsgnjnS rd rs1 rs2 => some ⟨.f, .f32, true, false, rd, rs1, rs2⟩
  | .fsgnjxS rd rs1 rs2 => some ⟨.f, .f32, false, true, rd, rs1, rs2⟩
  | .fsgnjD rd rs1 rs2 => some ⟨.d, .f64, false, false, rd, rs1, rs2⟩
  | .fsgnjnD rd rs1 rs2 => some ⟨.d, .f64, true, false, rd, rs1, rs2⟩
  | .fsgnjxD rd rs1 rs2 => some ⟨.d, .f64, false, true, rd, rs1, rs2⟩
  | .fsgnjQ rd rs1 rs2 => some ⟨.q, .f128, false, false, rd, rs1, rs2⟩
  | .fsgnjnQ rd rs1 rs2 => some ⟨.q, .f128, true, false, rd, rs1, rs2⟩
  | .fsgnjxQ rd rs1 rs2 => some ⟨.q, .f128, false, true, rd, rs1, rs2⟩
  | .add _ _ _ | .addi _ _ _ | .lui _ _ | .slli _ _ _ | .auipc _ _ | .jal _ _ | .jalr _ _ _ | .beq _ _ _
  | .bne _ _ _ | .blt _ _ _ | .bge _ _ _ | .bltu _ _ _ | .bgeu _ _ _ | .lw _ _ _ | .ld _ _ _ | .sw _ _ _
  | .sd _ _ _ | .csrrw _ _ _ | .csrrs _ _ _ | .csrrc _ _ _ | .csrrwi _ _ _ | .csrrsi _ _ _
  | .csrrci _ _ _ | .cAddi4spn _ _ | .cLw _ _ _ | .cLd _ _ _ | .cSw _ _ _ | .cSd _ _ _ | .cAddi _ _
  | .cLi _ _ | .cAddi16sp _ | .cLui _ _ | .cJ _ | .cBeqz _ _ | .cBnez _ _ | .cSlli _ _ | .cLwsp _ _
  | .cLdsp _ _ | .cSwsp _ _ | .cSdsp _ _ => none

/-- The conditional branches (45_reference_rv.md R308 to R313). -/
def branchForm : Instr → Option BranchForm
  | .beq rs1 rs2 off => some ⟨rs1, rs2, off⟩
  | .bne rs1 rs2 off => some ⟨rs1, rs2, off⟩
  | .blt rs1 rs2 off => some ⟨rs1, rs2, off⟩
  | .bge rs1 rs2 off => some ⟨rs1, rs2, off⟩
  | .bltu rs1 rs2 off => some ⟨rs1, rs2, off⟩
  | .bgeu rs1 rs2 off => some ⟨rs1, rs2, off⟩
  | .add _ _ _ | .addi _ _ _ | .lui _ _ | .slli _ _ _ | .auipc _ _ | .jal _ _ | .jalr _ _ _ | .lw _ _ _
  | .ld _ _ _ | .sw _ _ _ | .sd _ _ _ | .csrrw _ _ _ | .csrrs _ _ _ | .csrrc _ _ _ | .csrrwi _ _ _
  | .csrrsi _ _ _ | .csrrci _ _ _ | .fsgnjS _ _ _ | .fsgnjnS _ _ _ | .fsgnjxS _ _ _ | .fsgnjD _ _ _
  | .fsgnjnD _ _ _ | .fsgnjxD _ _ _ | .fsgnjQ _ _ _ | .fsgnjnQ _ _ _ | .fsgnjxQ _ _ _ | .cAddi4spn _ _
  | .cLw _ _ _ | .cLd _ _ _ | .cSw _ _ _ | .cSd _ _ _ | .cAddi _ _ | .cLi _ _ | .cAddi16sp _ | .cLui _ _
  | .cJ _ | .cBeqz _ _ | .cBnez _ _ | .cSlli _ _ | .cLwsp _ _ | .cLdsp _ _ | .cSwsp _ _ | .cSdsp _ _ => none

/-- When a branch is taken (45_reference_rv.md R308 to R313; 00_scope.md R26). -/
def branchTaken : Instr → Word → Word → Prop
  | .beq _ _ _ => fun a b => a = b
  | .bne _ _ _ => fun a b => a ≠ b
  | .blt _ _ _ => fun a b => a.toInt < b.toInt
  | .bge _ _ _ => fun a b => a.toInt ≥ b.toInt
  | .bltu _ _ _ => fun a b => a.toNat < b.toNat
  | .bgeu _ _ _ => fun a b => a.toNat ≥ b.toNat
  | .add _ _ _ | .addi _ _ _ | .lui _ _ | .slli _ _ _ | .auipc _ _ | .jal _ _ | .jalr _ _ _ | .lw _ _ _
  | .ld _ _ _ | .sw _ _ _ | .sd _ _ _ | .csrrw _ _ _ | .csrrs _ _ _ | .csrrc _ _ _ | .csrrwi _ _ _
  | .csrrsi _ _ _ | .csrrci _ _ _ | .fsgnjS _ _ _ | .fsgnjnS _ _ _ | .fsgnjxS _ _ _ | .fsgnjD _ _ _
  | .fsgnjnD _ _ _ | .fsgnjxD _ _ _ | .fsgnjQ _ _ _ | .fsgnjnQ _ _ _ | .fsgnjxQ _ _ _ | .cAddi4spn _ _
  | .cLw _ _ _ | .cLd _ _ _ | .cSw _ _ _ | .cSd _ _ _ | .cAddi _ _ | .cLi _ _ | .cAddi16sp _ | .cLui _ _
  | .cJ _ | .cBeqz _ _ | .cBnez _ _ | .cSlli _ _ | .cLwsp _ _ | .cLdsp _ _ | .cSwsp _ _ | .cSdsp _ _ => fun _ _ => False

/-- The integer register the instruction writes. -/
def destX : Instr → Option Reg
  | .add rd _ _ => some rd
  | .addi rd _ _ => some rd
  | .lui rd _ => some rd
  | .slli rd _ _ => some rd
  | .auipc rd _ => some rd
  | .jal rd _ => some rd
  | .jalr rd _ _ => some rd
  | .lw rd _ _ => some rd
  | .ld rd _ _ => some rd
  | .csrrw rd _ _ => some rd
  | .csrrs rd _ _ => some rd
  | .csrrc rd _ _ => some rd
  | .csrrwi rd _ _ => some rd
  | .csrrsi rd _ _ => some rd
  | .csrrci rd _ _ => some rd
  | .cAddi4spn rd _ => some rd
  | .cLw rd _ _ => some rd
  | .cLd rd _ _ => some rd
  | .cAddi rd _ => some rd
  | .cLi rd _ => some rd
  | .cAddi16sp _ => some 2
  | .cLui rd _ => some rd
  | .cSlli rd _ => some rd
  | .cLwsp rd _ => some rd
  | .cLdsp rd _ => some rd
  | .beq _ _ _ | .bne _ _ _ | .blt _ _ _ | .bge _ _ _ | .bltu _ _ _ | .bgeu _ _ _ | .sw _ _ _
  | .sd _ _ _ | .fsgnjS _ _ _ | .fsgnjnS _ _ _ | .fsgnjxS _ _ _ | .fsgnjD _ _ _ | .fsgnjnD _ _ _
  | .fsgnjxD _ _ _ | .fsgnjQ _ _ _ | .fsgnjnQ _ _ _ | .fsgnjxQ _ _ _ | .cSw _ _ _ | .cSd _ _ _ | .cJ _
  | .cBeqz _ _ | .cBnez _ _ | .cSwsp _ _ | .cSdsp _ _ => none

/-- The floating-point register the instruction writes. -/
def destF : Instr → Option Reg
  | .fsgnjS rd _ _ => some rd
  | .fsgnjnS rd _ _ => some rd
  | .fsgnjxS rd _ _ => some rd
  | .fsgnjD rd _ _ => some rd
  | .fsgnjnD rd _ _ => some rd
  | .fsgnjxD rd _ _ => some rd
  | .fsgnjQ rd _ _ => some rd
  | .fsgnjnQ rd _ _ => some rd
  | .fsgnjxQ rd _ _ => some rd
  | .add _ _ _ | .addi _ _ _ | .lui _ _ | .slli _ _ _ | .auipc _ _ | .jal _ _ | .jalr _ _ _ | .beq _ _ _
  | .bne _ _ _ | .blt _ _ _ | .bge _ _ _ | .bltu _ _ _ | .bgeu _ _ _ | .lw _ _ _ | .ld _ _ _ | .sw _ _ _
  | .sd _ _ _ | .csrrw _ _ _ | .csrrs _ _ _ | .csrrc _ _ _ | .csrrwi _ _ _ | .csrrsi _ _ _
  | .csrrci _ _ _ | .cAddi4spn _ _ | .cLw _ _ _ | .cLd _ _ _ | .cSw _ _ _ | .cSd _ _ _ | .cAddi _ _
  | .cLi _ _ | .cAddi16sp _ | .cLui _ _ | .cJ _ | .cBeqz _ _ | .cBnez _ _ | .cSlli _ _ | .cLwsp _ _
  | .cLdsp _ _ | .cSwsp _ _ | .cSdsp _ _ => none

/-- The extension whose query is the first thing the instruction's body does (40_register_access.md R164,
43_dispatch_shell.md R284). -/
def gateExt : Instr → Option Ext
  | .fsgnjS _ _ _ => some .f
  | .fsgnjnS _ _ _ => some .f
  | .fsgnjxS _ _ _ => some .f
  | .fsgnjD _ _ _ => some .d
  | .fsgnjnD _ _ _ => some .d
  | .fsgnjxD _ _ _ => some .d
  | .fsgnjQ _ _ _ => some .q
  | .fsgnjnQ _ _ _ => some .q
  | .fsgnjxQ _ _ _ => some .q
  | .cAddi4spn _ _ => some .c
  | .cLw _ _ _ => some .c
  | .cLd _ _ _ => some .c
  | .cSw _ _ _ => some .c
  | .cSd _ _ _ => some .c
  | .cAddi _ _ => some .c
  | .cLi _ _ => some .c
  | .cAddi16sp _ => some .c
  | .cLui _ _ => some .c
  | .cJ _ => some .c
  | .cBeqz _ _ => some .c
  | .cBnez _ _ => some .c
  | .cSlli _ _ => some .c
  | .cLwsp _ _ => some .c
  | .cLdsp _ _ => some .c
  | .cSwsp _ _ => some .c
  | .cSdsp _ _ => some .c
  | .add _ _ _ | .addi _ _ _ | .lui _ _ | .slli _ _ _ | .auipc _ _ | .jal _ _ | .jalr _ _ _ | .beq _ _ _
  | .bne _ _ _ | .blt _ _ _ | .bge _ _ _ | .bltu _ _ _ | .bgeu _ _ _ | .lw _ _ _ | .ld _ _ _ | .sw _ _ _
  | .sd _ _ _ | .csrrw _ _ _ | .csrrs _ _ _ | .csrrc _ _ _ | .csrrwi _ _ _ | .csrrsi _ _ _
  | .csrrci _ _ _ => none

/-- The fault, if any, that the instruction's capability query raises (00_scope.md R8). -/
def capFault (s : State) (i : Instr) : Option Report :=
  match (gateExt i).map (supports s) with
  | none => none
  | some .yes => none
  | some .no => none
  | some (.faults r) => some r

/-- The capability and encoding preconditions of the instruction hold (30_encoding.md R139): everything its body
checks before it reads a register, but for the CSR gate. -/
def legalIn (s : State) : Instr → Bool
  | .slli _ _ shamt => decide (shamt.toNat < xlenBits s.inputs.xlen)
  | .ld _ _ _ => s.inputs.xlen == .x64
  | .sd _ _ _ => s.inputs.xlen == .x64
  | .fsgnjS _ _ _ => s.inputs.caps.f == .yes && s.inputs.fpEnabled
  | .fsgnjnS _ _ _ => s.inputs.caps.f == .yes && s.inputs.fpEnabled
  | .fsgnjxS _ _ _ => s.inputs.caps.f == .yes && s.inputs.fpEnabled
  | .fsgnjD _ _ _ => s.inputs.caps.d == .yes && s.inputs.fpEnabled
  | .fsgnjnD _ _ _ => s.inputs.caps.d == .yes && s.inputs.fpEnabled
  | .fsgnjxD _ _ _ => s.inputs.caps.d == .yes && s.inputs.fpEnabled
  | .fsgnjQ _ _ _ => s.inputs.caps.q == .yes && s.inputs.fpEnabled
  | .fsgnjnQ _ _ _ => s.inputs.caps.q == .yes && s.inputs.fpEnabled
  | .fsgnjxQ _ _ _ => s.inputs.caps.q == .yes && s.inputs.fpEnabled
  | .cAddi4spn _ imm => s.inputs.caps.c == .yes && imm != 0
  | .cLw _ _ _ => s.inputs.caps.c == .yes
  | .cLd _ _ _ => s.inputs.caps.c == .yes && s.inputs.xlen == .x64
  | .cSw _ _ _ => s.inputs.caps.c == .yes
  | .cSd _ _ _ => s.inputs.caps.c == .yes && s.inputs.xlen == .x64
  | .cAddi _ _ => s.inputs.caps.c == .yes
  | .cLi _ _ => s.inputs.caps.c == .yes
  | .cAddi16sp imm => s.inputs.caps.c == .yes && imm != 0
  | .cLui _ imm => s.inputs.caps.c == .yes && imm != 0
  | .cJ _ => s.inputs.caps.c == .yes
  | .cBeqz _ _ => s.inputs.caps.c == .yes
  | .cBnez _ _ => s.inputs.caps.c == .yes
  | .cSlli _ shamt => s.inputs.caps.c == .yes && decide (shamt.toNat < xlenBits s.inputs.xlen)
  | .cLwsp rd _ => s.inputs.caps.c == .yes && rd != 0
  | .cLdsp rd _ => s.inputs.caps.c == .yes && s.inputs.xlen == .x64 && rd != 0
  | .cSwsp _ _ => s.inputs.caps.c == .yes
  | .cSdsp _ _ => s.inputs.caps.c == .yes && s.inputs.xlen == .x64
  | .add _ _ _ | .addi _ _ _ | .lui _ _ | .auipc _ _ | .jal _ _ | .jalr _ _ _ | .beq _ _ _ | .bne _ _ _
  | .blt _ _ _ | .bge _ _ _ | .bltu _ _ _ | .bgeu _ _ _ | .lw _ _ _ | .sw _ _ _ | .csrrw _ _ _
  | .csrrs _ _ _ | .csrrc _ _ _ | .csrrwi _ _ _ | .csrrsi _ _ _ | .csrrci _ _ _ => true

/-- What a next state becomes; a stop stays a stop. -/
def mapNext (f : State → State) : Answer → Answer
  | .next s => .next (f s)
  | .fault r => .fault r
  | .refused r => .refused r

/-- The state without its commit log, the hook disabled. -/
def State.unlogged (s : State) : State := { s with log := [], params := { s.params with logEnabled := false } }

/-- The state at another privilege level. -/
def State.atLevel (s : State) (p : BitVec 2) : State := { s with inputs := { s.inputs with prv := p } }

/-! ## What the vector operations store and report -/

/-- The bytes of an element, the least significant first: of 128 bits, the low half's and then the high half's
(20_memory.md R71, R75). -/
def elemBytes (w : EWidth) (v : Wide) : List Byte := (List.range (w.bits / 8)).map fun k => v.extractLsb' (8 * k) 8

/-- Where the store of one element stops, if it faults: how many of its bytes are written, and the report. A 128-bit
element is two accesses of 64 bits, the low half first (20_memory.md R75, 41_vector_engine.md R217). -/
def elemStop (p : Params) (w : EWidth) (a : Word) : Option (Nat × Report) :=
  if w = .w128 then
    match accessStop p .store 8 a with
    | some q => some q
    | none => (accessStop p .store 8 (a + 8)).map fun q => (8 + q.1, q.2)
  else accessStop p .store (w.bits / 8) a

/-- The flags of the first `k` elements of a loop: of every operand's extension and every result's truncation
(10_state.md R35). -/
def loopFlags (k : Nat) (as : Nat → List (Wide × FFlags)) (v : Nat → Wide × FFlags) : FFlags :=
  (List.range k).foldr (fun e acc => ((((as e).map (·.2)).foldr FFlags.merge .none).merge (v e).2).merge acc) .none

/-! ## Values of floating-point formats -/

/-- Neither an infinity nor a NaN. -/
def isFinite (w : FWidth) (v : Wide) : Bool := expField w v != w.maxExp

/-- The rational a finite value stands for. -/
def floatValue (w : FWidth) (v : Wide) : ℚ :=
  (if signBit w v then -1 else 1) *
    ((if expField w v = 0 then 0 else 2 ^ w.frac) + fracField w v : ℕ) *
    (2 : ℚ) ^ ((max (expField w v) 1 : ℤ) - w.bias - w.frac)

/-- The mode never rounds a value of this sign away from zero (40_register_access.md R173). -/
def towardZero (m : RMode) (neg : Bool) : Bool := m == .rtz || (m == .rdn && !neg) || (m == .rup && neg)

/-- The mode never rounds a value of this sign toward zero (40_register_access.md R173). -/
def awayFromZero (m : RMode) (neg : Bool) : Bool := (m == .rdn && neg) || (m == .rup && !neg)

/-- A magnitude `x` rounds to `b` or beyond, where `b` is a power of two and representable magnitudes below it are `u`
apart: at a tie below `b`, `b` is the even one and the one of the larger magnitude. -/
def reaches (m : RMode) (neg : Bool) (x b u : ℚ) : Prop :=
  if towardZero m neg = true then b ≤ x
  else if awayFromZero m neg = true then b - u < x
  else b - u / 2 ≤ x

/-- The power of two past every finite magnitude of the format. -/
def FWidth.overflowBound (w : FWidth) : ℚ := (2 : ℚ) ^ ((w.maxExp : ℤ) - w.bias)

/-- The spacing of the largest finite magnitudes. -/
def FWidth.topSpacing (w : FWidth) : ℚ := (2 : ℚ) ^ ((w.maxExp : ℤ) - 1 - w.bias - w.frac)

/-- The smallest normal magnitude. -/
def FWidth.minNormal (w : FWidth) : ℚ := (2 : ℚ) ^ (1 - (w.bias : ℤ))

/-- The spacing just below the smallest normal magnitude, if exponents had no lower bound (tininess is detected after
rounding: 41_vector_engine.md R213). -/
def FWidth.tinySpacing (w : FWidth) : ℚ := (2 : ℚ) ^ (-(w.bias : ℤ) - w.frac)

end Sys2Proof.Machine
end

