-- ==== Sys2Proof/Certificates/Slice0/Obligations.lean ====
section
/-! DEFINITION. The statements for the provers, in the order of spec/: encoding, registers and formats, the vector
engine, the CSR gate, the dispatch shell, the instructions, whole-machine rules. Each docstring names the rules its
statement formalises, or says what it rests on. -/

open Sys2Proof Sys2Proof.Machine

/-! ## Encoding -/

/-- Every well-formed instruction's word decodes to it, at every operand its encoding admits; the four RV64-only rows
at XLEN 64 (30_encoding.md R117, R118, R137, R139; 95_test_vectors.md S-P1). -/
def Obligations.DecodeOfEncode : Prop :=
  ∀ (x : XLen) (i : Instr), i.wf = true → (rv64Only i = true → x = .x64) → decodeWord x (encode i) = .ok i

/-- Each canonical word the decoder takes is the word of the well-formed instruction it answers: no two words decode
to one instruction, and no bit of a word is ignored (30_encoding.md R101, R137). -/
def Obligations.EncodeOfDecode : Prop :=
  ∀ (x : XLen) (w : Word) (i : Instr), canonical w (insnLength w) = w → decodeWord x w = .ok i →
    i.wf = true ∧ encode i = w ∧ instrLength i = insnLength w ∧ (rv64Only i = true → x = .x64)

/-- The decoder is the procedure of 30_encoding.md R138 over the opcode table, on every 64-bit word. -/
def Obligations.DecoderFollowsOpcodeTable : Prop := ∀ (x : XLen) (w : Word), decodeWord x w = tableDecode x w

/-- Two rows of the table take a common word only if they are `c.addi16sp` (row 39) and `c.lui` (row 40), and then
`c.addi16sp` wins (30_encoding.md R138). -/
def Obligations.OnlyOverlapIsAddi16sp : Prop :=
  (∀ (j k : Nat) (r q : Row), j < k → opcodeTable[j]? = some r → opcodeTable[k]? = some q →
    ((∃ w, r.takes w = true ∧ q.takes w = true) ↔ j = 39 ∧ k = 40)) ∧
  (∀ w : Word, (opcodeTable.filter (·.takes w)).length = 2 → tableDecode .x64 w = .ok (.cAddi16sp (rvcAddi16spImm w)))

/-- The length is read off the low two, five and six bits; a canonical word copies bit `8L-1` into every higher bit, and
at length 8 it is the raw word (30_encoding.md R101, R102, R103). -/
def Obligations.LengthAndCanonicalForm : Prop :=
  (∀ w : Word,
    (w.toNat % 4 ≠ 3 → insnLength w = 2) ∧
    (w.toNat % 4 = 3 → w.toNat % 32 ≠ 31 → insnLength w = 4) ∧
    (w.toNat % 64 = 31 → insnLength w = 6) ∧
    (w.toNat % 64 = 63 → insnLength w = 8)) ∧
  (∀ (raw : Word) (len k : Nat), (len = 2 ∨ len = 4 ∨ len = 6) → k < 64 →
    (canonical raw len).getLsbD k = raw.getLsbD (if k < 8 * len then k else 8 * len - 1)) ∧
  (∀ raw : Word, canonical raw 8 = raw)

/-- The 32-bit immediates are the sums of shifted fields the rules write, on every word; on the canonical word of a
4-byte instruction their sign is bit 31 (30_encoding.md R111 to R115). -/
def Obligations.ImmediatesOf32BitForms : Prop :=
  ∀ w : Word,
    iImm w = w.sshiftRight 20 ∧
    sImm w = xField w 7 5 + (xsField w 25 7 <<< 5) ∧
    sbImm w = (xField w 8 4 <<< 1) + (xField w 25 6 <<< 5) + (xField w 7 1 <<< 11) + (xsField w 63 1 <<< 12) ∧
    uImm w = (w.sshiftRight 12) <<< 12 ∧
    ujImm w = (xField w 21 10 <<< 1) + (xField w 20 1 <<< 11) + (xField w 12 8 <<< 12) + (xsField w 63 1 <<< 20) ∧
    (canonical w 4 = w →
      iImm w = xsField w 20 12 ∧
      sbImm w = (xField w 8 4 <<< 1) + (xField w 25 6 <<< 5) + (xField w 7 1 <<< 11) + (xsField w 31 1 <<< 12) ∧
      uImm w = xsField w 12 20 <<< 12 ∧
      ujImm w = (xField w 21 10 <<< 1) + (xField w 20 1 <<< 11) + (xField w 12 8 <<< 12) + (xsField w 31 1 <<< 20))

/-- The compressed immediates are the sums of shifted fields the rules write (30_encoding.md R123 to R134). -/
def Obligations.ImmediatesOfCompressedForms : Prop :=
  ∀ w : Word,
    rvcImm w = xField w 2 5 + (xsField w 12 1 <<< 5) ∧
    (rvcZimm w).setWidth 64 = xField w 2 5 + (xField w 12 1 <<< 5) ∧
    rvcAddi4spnImm w = (xField w 6 1 <<< 2) + (xField w 5 1 <<< 3) + (xField w 11 2 <<< 4) + (xField w 7 4 <<< 6) ∧
    rvcAddi16spImm w = (xField w 6 1 <<< 4) + (xField w 2 1 <<< 5) + (xField w 5 1 <<< 6) + (xField w 3 2 <<< 7) +
      (xsField w 12 1 <<< 9) ∧
    rvcLwspImm w = (xField w 4 3 <<< 2) + (xField w 12 1 <<< 5) + (xField w 2 2 <<< 6) ∧
    rvcLdspImm w = (xField w 5 2 <<< 3) + (xField w 12 1 <<< 5) + (xField w 2 3 <<< 6) ∧
    rvcSwspImm w = (xField w 9 4 <<< 2) + (xField w 7 2 <<< 6) ∧
    rvcSdspImm w = (xField w 10 3 <<< 3) + (xField w 7 3 <<< 6) ∧
    rvcLwImm w = (xField w 6 1 <<< 2) + (xField w 10 3 <<< 3) + (xField w 5 1 <<< 6) ∧
    rvcLdImm w = (xField w 10 3 <<< 3) + (xField w 5 2 <<< 6) ∧
    rvcJImm w = (xField w 3 3 <<< 1) + (xField w 11 1 <<< 4) + (xField w 2 1 <<< 5) + (xField w 7 1 <<< 6) +
      (xField w 6 1 <<< 7) + (xField w 9 2 <<< 8) + (xField w 8 1 <<< 10) + (xsField w 12 1 <<< 11) ∧
    rvcBImm w = (xField w 3 2 <<< 1) + (xField w 10 2 <<< 3) + (xField w 2 1 <<< 5) + (xField w 5 2 <<< 6) +
      (xsField w 12 1 <<< 8)

/-- The register, rounding-mode, CSR and shift fields as numbers (30_encoding.md R104 to R110, R119 to R122, R144). -/
def Obligations.FieldsOfWord : Prop :=
  ∀ w : Word,
    (rd w).toNat = w.toNat / 2 ^ 7 % 32 ∧
    (rs1 w).toNat = w.toNat / 2 ^ 15 % 32 ∧
    (rs2 w).toNat = w.toNat / 2 ^ 20 % 32 ∧
    (rs3 w).toNat = w.toNat / 2 ^ 27 % 32 ∧
    (rm w).toNat = w.toNat / 2 ^ 12 % 8 ∧
    (csr w).toNat = w.toNat / 2 ^ 20 % 4096 ∧
    (shamt w).toNat = w.toNat / 2 ^ 20 % 64 ∧
    (zimm w).toNat = (rs1 w).toNat ∧
    (rvcRd w).toNat = w.toNat / 2 ^ 7 % 32 ∧
    (rvcRs2 w).toNat = w.toNat / 2 ^ 2 % 32 ∧
    (rvcRs1s w).toNat = 8 + w.toNat / 2 ^ 7 % 8 ∧
    (rvcRs2s w).toNat = 8 + w.toNat / 2 ^ 2 % 8

/-- Words of the spec's own examples decode to the instructions it names, one or more per family (30_encoding.md;
45_reference_rv.md R300, R301, R303, R307, R309, R314, R316, R320, R333; 46_reference_rvc.md R351, R356, R357, R358,
R361, R365). -/
def Obligations.ExampleWordsDecode : Prop :=
  decodeTableWord 32 0x002081b3 = some (.add 3 1 2) ∧
  decodeTableWord 32 0xfff00093 = some (.addi 1 0 (-1)) ∧
  decodeTableWord 32 0x03f09093 = some (.slli 1 1 63) ∧
  decodeTableWord 32 0x00008067 = some (.jalr 0 1 0) ∧
  decodeTableWord 32 0xfe009ce3 = some (.bne 1 0 (-8)) ∧
  decodeTableWord 32 0x00452283 = some (.lw 5 10 4) ∧
  decodeTableWord 32 0x00552223 = some (.sw 5 10 4) ∧
  decodeTableWord 32 0x340312f3 = some (.csrrw 5 0x340 6) ∧
  decodeTableWord 32 0x223100d3 = some (.fsgnjD 1 2 3) ∧
  decodeTableWord 16 0x4144 = some (.cLw 9 10 4) ∧
  decodeTableWord 16 0x557d = some (.cLi 10 (-1)) ∧
  decodeTableWord 16 0x7101 = some (.cAddi16sp (-512)) ∧
  decodeTableWord 16 0x6285 = some (.cLui 5 1) ∧
  decodeTableWord 16 0xfc75 = some (.cBnez 8 (-4)) ∧
  decodeTableWord 16 0xc406 = some (.cSwsp 1 8)

/-- A word that no row of the table takes is refused, whatever its length, and raises nothing (30_encoding.md R138,
43_dispatch_shell.md R288). -/
def Obligations.UnmatchedWordIsRefused : Prop :=
  ∀ (s : State) (npc : Word) (act : NextAction) (bytes : List Byte),
    s.outcome = .next npc act → fetchBytes s = .ok bytes →
    (∀ r ∈ opcodeTable, r.takes (canonical (leWord bytes) (insnLength (leWord bytes))) = false) →
    (insnLength (leWord bytes) ≤ 4 → step s = .refused .noReferenceInstruction) ∧
    (insnLength (leWord bytes) > 4 → step s = .refused .longInstruction)

/-! ## Register files and NaN-boxing -/

/-- Reading and writing the register files: x0 discards writes and reads 0, another integer register reads what was last
written, and a write of one leaves the others; an FP write sets the cell it names, f0 included, and signals that the FP
state is dirty; each write adds one record to the commit log when the hook is enabled, x0's too, and nothing when it is
not (40_register_access.md R161 to R163, R165, R166, R176). -/
def Obligations.RegisterFileLaws : Prop :=
  ∀ (s : State) (i j : Reg) (v : Word) (c : Wide),
    (s.putX i v).x j = (if j = i ∧ i ≠ 0 then v else s.x j) ∧ s.x 0 = 0 ∧ (s.putX 0 v).x 0 = 0 ∧
    (s.putX i v).log = (if s.params.logEnabled then s.log ++ [.int i v] else s.log) ∧
    (s.putF i c).log = (if s.params.logEnabled then s.log ++ [.float i c] else s.log) ∧
    (s.putF i c).f j = (if j = i then c else s.f j) ∧ (s.putF i c).fsDirty = true

/-- `check_x`: a read or a write of a register at or above NXPR raises illegal-instruction and changes nothing; of
another register it reads or writes; registers 8..15 always pass (40_register_access.md R160). -/
def Obligations.RegisterIndexCheck : Prop :=
  ∀ (s : State) (i : Reg) (v : Word),
    (i.toNat ≥ s.params.nxpr.count → readX i s = .error .illegal s ∧ writeX i v s = .error .illegal s) ∧
    (i.toNat < s.params.nxpr.count → readX i s = .ok (s.x i) s ∧ writeX i v s = .ok () (s.putX i v)) ∧
    (s.params.nxpr = .standard → i.toNat < s.params.nxpr.count) ∧
    (s.params.nxpr = .reduced → (i.toNat < s.params.nxpr.count ↔ i.toNat < 16)) ∧
    (compactReg i = true → i.toNat < s.params.nxpr.count)

/-- Boxing: unboxing what was boxed at the same width gives the value back; a cell whose bits above the width are not
all ones unboxes to the canonical NaN, one whose bits are all ones to its low bits (40_register_access.md R168, R169,
R174, R175). -/
def Obligations.BoxingLaws : Prop :=
  (∀ (w : FWidth) (v : Wide), v.toNat < 2 ^ w.bits → unbox w (box w v) = v) ∧
  ∀ (w : FWidth) (c : Wide),
    ((∃ k, w.bits ≤ k ∧ k < 128 ∧ c.getLsbD k = false) → unbox w c = canonicalNaN w) ∧
    ((∀ k, w.bits ≤ k → k < 128 → c.getLsbD k = true) → unbox w c = lowWide w.bits c)

/-- Sign injection, bit by bit: the magnitude bits are those of the unboxed first operand, the sign is the one the
flags choose, the bits above are ones (40_register_access.md R172). -/
def Obligations.SignInjectionBits : Prop :=
  ∀ (w : FWidth) (n xr : Bool) (a b : Wide) (k : Nat), k < 128 →
    (fsgnj w n xr a b).getLsbD k =
      if k < w.bits - 1 then (unbox w a).getLsbD k
      else if k = w.bits - 1 then
        ((if xr then (unbox w a).getLsbD (w.bits - 1) else n) ^^ (unbox w b).getLsbD (w.bits - 1))
      else true

/-- Rounding-mode resolution: the field itself, or `frm` when the field is 7; a resolved value above 4 raises
illegal-instruction (40_register_access.md R173). -/
def Obligations.RoundingModeResolution : Prop :=
  ∀ (s : State) (field r : BitVec 3), r = (if field = 7 then s.inputs.frm else field) →
    (r = 0 → resolveRm field s = .ok .rne s) ∧ (r = 1 → resolveRm field s = .ok .rtz s) ∧
    (r = 2 → resolveRm field s = .ok .rdn s) ∧ (r = 3 → resolveRm field s = .ok .rup s) ∧
    (r = 4 → resolveRm field s = .ok .rmm s) ∧ (r.toNat > 4 → resolveRm field s = .error .illegal s)

/-- Widening is exact: a finite value keeps its rational value, its sign, and stays finite (41_vector_engine.md R212). -/
def Obligations.WideningIsExact : Prop :=
  ∀ (w1 w2 : FWidth) (v : Wide), w1.bits < w2.bits → v.toNat < 2 ^ w1.bits → isFinite w1 v = true →
    floatValue w2 (fwiden w1 w2 v).1 = floatValue w1 v ∧ signBit w2 (fwiden w1 w2 v).1 = signBit w1 v ∧
    isFinite w2 (fwiden w1 w2 v).1 = true ∧ (fwiden w1 w2 v).2 = .none

/-- Conversions of a NaN give the canonical NaN of the new format, and raise invalid exactly for a signalling one
(41_vector_engine.md R212, R213). -/
def Obligations.ConvertedNaNsAreCanonical : Prop :=
  ∀ (w1 w2 : FWidth) (m : RMode) (v : Wide), isNaN w1 v = true →
    fwiden w1 w2 v = (canonicalNaN w2, invalidIf (!v.getLsbD (w1.frac - 1))) ∧
    fnarrow w1 w2 m v = (canonicalNaN w2, invalidIf (!v.getLsbD (w1.frac - 1)))

/-! ## The vector engine -/

/-- A value of a float format that is not a NaN survives widening to 128 bits and narrowing back, under every rounding
mode and with no flag (41_vector_engine.md R219). -/
def Obligations.WideFloatRoundTrip : Prop :=
  ∀ (w : FWidth) (m : RMode) (v : Wide), w ≠ .f128 → v.toNat < 2 ^ w.bits → isNaN w v = false →
    fnarrow .f128 w m (fwiden w .f128 v).1 = (v, .none) ∧ (fwiden w .f128 v).2 = .none

/-- Narrowing rounds. A finite value goes to a neighbour among the values of the new format, of the same sign: toward
zero or away from it as the mode directs, or to the nearest, at a tie to the even one or to the larger magnitude. It
overflows when its magnitude rounds past every finite one, and then gives infinity or the largest finite value as the
mode directs. Inexact says that the result differs; underflow, that it also was tiny after rounding. An infinity stays
one, with no flag (41_vector_engine.md R213; 40_register_access.md R173). -/
def Obligations.NarrowingRounds : Prop :=
  ∀ (w1 w2 : FWidth) (m : RMode) (v r : Wide) (fl : FFlags),
    w2.bits < w1.bits → v.toNat < 2 ^ w1.bits → fnarrow w1 w2 m v = (r, fl) →
    (expField w1 v = w1.maxExp → fracField w1 v = 0 →
      r = packFloat w2 (signBit w1 v) w2.maxExp 0 ∧ fl = .none) ∧
    (isFinite w1 v = true →
      r.toNat < 2 ^ w2.bits ∧ isNaN w2 r = false ∧ signBit w2 r = signBit w1 v ∧ fl.nv = false ∧ fl.dz = false ∧
      (isFinite w2 r = true →
        (∀ u : Wide, u.toNat < 2 ^ w2.bits → isFinite w2 u = true →
          ¬(|floatValue w1 v| < |floatValue w2 u| ∧ |floatValue w2 u| < |floatValue w2 r|) ∧
          ¬(|floatValue w2 r| < |floatValue w2 u| ∧ |floatValue w2 u| < |floatValue w1 v|)) ∧
        (towardZero m (signBit w1 v) = true → |floatValue w2 r| ≤ |floatValue w1 v|) ∧
        (awayFromZero m (signBit w1 v) = true → |floatValue w1 v| ≤ |floatValue w2 r|) ∧
        (m = .rne ∨ m = .rmm → ∀ u : Wide, u.toNat < 2 ^ w2.bits → isFinite w2 u = true →
          |floatValue w2 r - floatValue w1 v| ≤ |floatValue w2 u - floatValue w1 v| ∧
          (|floatValue w2 r - floatValue w1 v| = |floatValue w2 u - floatValue w1 v| →
            floatValue w2 u ≠ floatValue w2 r →
            (m = .rne → r.getLsbD 0 = false) ∧ (m = .rmm → |floatValue w1 v| ≤ |floatValue w2 r|)))) ∧
      (fl.of = true ↔ reaches m (signBit w1 v) |floatValue w1 v| w2.overflowBound w2.topSpacing) ∧
      (fl.of = false → isFinite w2 r = true) ∧
      (fl.of = true → (towardZero m (signBit w1 v) = true →
          isFinite w2 r = true ∧ |floatValue w2 r| = w2.overflowBound - w2.topSpacing) ∧
        (towardZero m (signBit w1 v) = false → isFinite w2 r = false)) ∧
      (fl.nx = true ↔ isFinite w2 r = false ∨ floatValue w2 r ≠ floatValue w1 v) ∧
      (fl.uf = true ↔ fl.nx = true ∧ ¬reaches m (signBit w1 v) |floatValue w1 v| w2.minNormal w2.tinySpacing))

/-- A valid configuration completes: each group's registers carry its tag, from register 0 upward in list order, the
rest are Unconfigured, every element is 0, VL is the smaller of the request and the maximum, and VCFG is written
without the gate; nothing else changes. The body that reads `avl` from the register its word names writes VL, extended to
XLEN, to `x[rd(insn)]`, or raises illegal-instruction there with the configuration done (41_vector_engine.md R200, R202;
30_encoding.md R104, R135; 00_scope.md R21; MAXVL and VCFG_ENC are free values, log 20; what an opcode fixes: log 34). -/
def Obligations.ConfigureCompletes : Prop :=
  ∀ (s : State) (avl : Word) (g : Groups), supports s .v = .yes → groupsValid g = true →
    csrWriteFault s.params s.params.vcfgCsr (Config.vcfgEnc g) = none →
    ∃ t, configure avl g s = .ok (BitVec.ofNat 64 t.vl) t ∧
      t.vl = min avl.toNat (maxVlOf s.params g) ∧
      (∀ pre c q post j tag, g = pre ++ (c, q) :: post → j < c → requestedTag q = some tag →
        t.vtag[(pre.map (·.1)).sum + j]? = some (.configured tag)) ∧
      (∀ r : Reg, (g.map (·.1)).sum ≤ r.toNat → t.tagOf r = .unconfigured) ∧
      (∀ (r : Reg) (w : EWidth) (e : Nat), t.elem r w e = 0) ∧
      t = { s.putCsr s.params.vcfgCsr (Config.vcfgEnc g) with vtag := t.vtag, vl := t.vl, velem := t.velem } ∧
      (∀ (insn : Word) (f : RegField) (gs : (Nat → Word) → Groups),
        s.hasX (regIndex insn f) = true → s.x (regIndex insn f) = avl → gs (vectorImms insn) = g →
        (s.hasX (rd insn) = true → configureBody insn f gs s =
          .ok () (t.putX (rd insn) (sextXlen s.inputs.xlen (BitVec.ofNat 64 t.vl)))) ∧
        (s.hasX (rd insn) = false → configureBody insn f gs s = .error .illegal t))

/-- A configuration is refused, and changes nothing, without the vector extension, and with it when its counts exceed 32
registers, or when some tag has another width, another representation, or is FLOAT of 8 bits; a tag of none of these
kinds is accepted (41_vector_engine.md R201, R206). -/
def Obligations.ConfigureRefuses : Prop :=
  (∀ (s : State) (avl : Word) (g : Groups),
    (supports s .v = .no ∨ (supports s .v = .yes ∧ ((g.map (·.1)).sum > 32 ∨
      ∃ p ∈ g, (p.2.width ∉ [8, 16, 32, 64, 128] ∨ p.2.rep = none ∨ (p.2.rep = some .float ∧ p.2.width = 8))))) →
    configure avl g s = .error .illegal s) ∧
  (∀ q : TagRequest, q.width ∈ [8, 16, 32, 64, 128] → q.rep ≠ none → ¬(q.rep = some .float ∧ q.width = 8) →
    ∃ t, requestedTag q = some t ∧ t.shape = q.shape ∧ t.width.bits = q.width ∧ some t.rep = q.rep)

/-- Elements: a written element's cell holds the payload's low bits with zeros above, or 0 in register 0 when it is
hardwired, and reads back so; every other element keeps its cell; a scalar register has effective length 1 and gives
element 0 at every loop index (41_vector_engine.md R203, R204, R205, R208; 10_state.md R42). -/
def Obligations.VectorElements : Prop :=
  ∀ (s : State) (r : Reg) (w : EWidth) (e : Nat) (v : Wide), s.elemsSized = true → e < s.params.vlmax →
    (s.putElem r w e v).elemCell r e = (if r = 0 ∧ s.params.v0Hardwired = true then 0 else lowWide w.bits v) ∧
    (s.putElem r w e v).elem r w e = (s.putElem r w e v).elemCell r e ∧
    (∀ (q : Reg) (e' : Nat), (q ≠ r ∨ e' ≠ e) → (s.putElem r w e v).elemCell q e' = s.elemCell q e') ∧
    (∀ rep, effLen s ⟨.scalar, w, rep⟩ = 1 ∧ effLen s ⟨.vector, w, rep⟩ = s.vl) ∧
    (∀ rep, s.operandElem r ⟨.scalar, w, rep⟩ e = s.elem r w 0 ∧ s.operandElem r ⟨.vector, w, rep⟩ e = s.elem r w e)

/-- Type resolution of one or more operands: all float gives 128-bit float, a mixture is a fault, all integer gives the
first operand's width and representation (41_vector_engine.md R209; of no operand at all: log 30). -/
def Obligations.TypeResolution : Prop :=
  ∀ (t : Tag) (ts : List Tag),
    ((∀ u ∈ t :: ts, u.rep = .float) → resolveType (t :: ts) = some ⟨.w128, .float⟩) ∧
    ((∃ u ∈ t :: ts, u.rep = .float) → (∃ u ∈ t :: ts, u.rep ≠ .float) → resolveType (t :: ts) = none) ∧
    ((∀ u ∈ t :: ts, u.rep ≠ .float) → resolveType (t :: ts) = some ⟨t.width, t.rep⟩)

/-- Extension of a `w`-bit payload: an integer keeps its own value, by its own signedness, modulo `2^T.width`; a float
is widened; equal widths leave it; everything else is illegal-instruction (41_vector_engine.md R210). -/
def Obligations.ExtensionRules : Prop :=
  ∀ (t : Tag) (ty : VType) (v : Wide), v.toNat < 2 ^ t.width.bits →
    (t.rep = .sint → ty.rep ≠ .float → t.width.bits ≤ ty.width.bits →
      ∃ r, extendValue t ty v = some (r, .none) ∧ r.toNat < 2 ^ ty.width.bits ∧
        (r.setWidth ty.width.bits).toInt = (v.setWidth t.width.bits).toInt) ∧
    (t.rep = .uint → ty.rep ≠ .float → t.width.bits ≤ ty.width.bits → extendValue t ty v = some (v, .none)) ∧
    (t.rep ≠ .float → ty.rep ≠ .float → t.width.bits > ty.width.bits → extendValue t ty v = none) ∧
    (∀ w1 w2, t.rep = .float → ty.rep = .float → floatFormat t.width = some w1 → floatFormat ty.width = some w2 →
      (w1.bits < w2.bits → extendValue t ty v = some (fwiden w1 w2 v)) ∧
      (w1 = w2 → extendValue t ty v = some (v, .none)) ∧ (w1.bits > w2.bits → extendValue t ty v = none)) ∧
    (t.rep = .float → t.width = .w8 → extendValue t ty v = none) ∧
    (t.rep = .float → ty.rep ≠ .float → extendValue t ty v = none) ∧
    (t.rep ≠ .float → ty.rep = .float → extendValue t ty v = none)

/-- Truncation of a result: an integer is masked to the destination's width, a float is narrowed under the resolved
mode (illegal when that is out of range), equal widths leave it; everything else is illegal-instruction
(41_vector_engine.md R211). -/
def Obligations.TruncationRules : Prop :=
  ∀ (ty : VType) (d : Tag) (m : Option RMode) (r : Wide),
    (d.rep ≠ .float → ty.rep ≠ .float → d.width.bits ≤ ty.width.bits →
      ∃ v, truncateValue ty d m r = some (v, .none) ∧ v.toNat = r.toNat % 2 ^ d.width.bits) ∧
    (d.rep ≠ .float → ty.rep ≠ .float → d.width.bits > ty.width.bits → truncateValue ty d m r = none) ∧
    (∀ wd wt, d.rep = .float → ty.rep = .float → floatFormat d.width = some wd → floatFormat ty.width = some wt →
      (wd.bits < wt.bits → (∀ mode, m = some mode → truncateValue ty d m r = some (fnarrow wt wd mode r)) ∧
        (m = none → truncateValue ty d m r = none)) ∧
      (wd = wt → truncateValue ty d m r = some (r, .none)) ∧ (wd.bits > wt.bits → truncateValue ty d m r = none)) ∧
    (d.rep = .float → d.width = .w8 → truncateValue ty d m r = none) ∧
    (d.rep = .float → ty.rep ≠ .float → truncateValue ty d m r = none) ∧
    (d.rep ≠ .float → ty.rep = .float → truncateValue ty d m r = none)

/-- Extending and truncating at the same width is the identity (41_vector_engine.md R218). -/
def Obligations.EqualWidthIdentity : Prop :=
  ∀ (t : Tag) (m : Option RMode) (v : Wide), routable t = true → v.toNat < 2 ^ t.width.bits →
    extendValue t ⟨t.width, t.rep⟩ v = some (v, .none) ∧ truncateValue ⟨t.width, t.rep⟩ t m v = some (v, .none)

/-- The element loop, when it completes: every element below the effective length holds the truncated result of the
operation on the OLD extended source elements, also in place; every other element, every tag and all other state are
unchanged (41_vector_engine.md R214, 70_reset_and_hazards.md R447). -/
def Obligations.ElementLoopResult : Prop :=
  ∀ (s t : State) (field : BitVec 3) (op : VectorOp) (d : Reg) (srcs : List Reg) (ts : List Tag) (dt : Tag)
    (ty : VType) (fl : FFlags),
    s.elemsSized = true → effLen s dt ≤ s.params.vlmax → s.tagOf d = .configured dt →
    srcs.map s.tagOf = ts.map VTag.configured → resolveType ts = some ty →
    vop field op d srcs s = .ok fl t →
    (∀ e, e < effLen s dt → ∃ (as : List (Wide × FFlags)) (r : Wide) (v : Wide × FFlags),
      (srcs.zip ts).map (fun p => extendValue p.2 ty (s.operandElem p.1 p.2 e)) = as.map some ∧
      op (as.map (·.1)) = .ok r ∧ truncateValue ty dt (selectMode field s.inputs.frm) r = some v ∧
      t.elemCell d e = storedElem s.params d dt.width v.1) ∧
    (∀ (q : Reg) (e : Nat), (q ≠ d ∨ effLen s dt ≤ e) → t.elemCell q e = s.elemCell q e) ∧
    t = { s with velem := t.velem }

/-- The element loop completes: when the tags are compatible and the arithmetic and the conversions of elements
`0 .. k-1` answer, those elements are written, from the OLD sources, and nothing else is; when that is all of them the
operation completes with the conversions' flags, which the body of the instruction accrues; when the arithmetic of
element `k` stops, or its truncation finds the rounding mode out of range, the operation stops so, with elements
`0 .. k-1` written. The body of a word does so on `rd(insn)` and the sources its accessors name (41_vector_engine.md
R211, R214; 30_encoding.md R104 to R108, R135; 60_exceptions.md R404; 10_state.md R35; the arithmetic as a function of
the operands: log 22; when the body accrues: log 21; what an opcode fixes: log 34; that a vector word's rounding mode
is the field `rm(insn)` reads: log 35). -/
def Obligations.ElementLoopCompletes : Prop :=
  ∀ (s : State) (insn : Word) (op : VectorOp) (d : Reg) (srcs : List Reg) (ts : List Tag) (dt : Tag) (ty : VType)
    (k : Nat) (as : Nat → List (Wide × FFlags)) (r : Nat → Wide) (v : Nat → Wide × FFlags),
    supports s .v = .yes → s.elemsSized = true → effLen s dt ≤ s.params.vlmax → s.tagOf d = .configured dt →
    srcs.map s.tagOf = ts.map VTag.configured → resolveType ts = some ty → combinationAllowed ty ts dt = true →
    k ≤ effLen s dt →
    (∀ e, e ≤ k → e < effLen s dt →
      (srcs.zip ts).map (fun p => extendValue p.2 ty (s.operandElem p.1 p.2 e)) = (as e).map some) →
    (∀ e, e < k → op ((as e).map (·.1)) = .ok (r e) ∧
      truncateValue ty dt (selectMode (rm insn) s.inputs.frm) (r e) = some (v e)) →
    ∃ u, u = { s with velem := u.velem } ∧
      (∀ e, e < k → u.elemCell d e = storedElem s.params d dt.width (v e).1) ∧
      (∀ (q : Reg) (e : Nat), (q ≠ d ∨ k ≤ e) → u.elemCell q e = s.elemCell q e) ∧
      (k = effLen s dt → vop (rm insn) op d srcs s = .ok (loopFlags k as v) u) ∧
      (∀ x, k < effLen s dt → op ((as k).map (·.1)) = .error x → vop (rm insn) op d srcs s = .error x u) ∧
      (k < effLen s dt → op ((as k).map (·.1)) = .ok (r k) →
        truncateValue ty dt (selectMode (rm insn) s.inputs.frm) (r k) = none →
        vop (rm insn) op d srcs s = .error .illegal u) ∧
      (∀ (opOf : (Nat → Word) → VectorOp) (fs : List RegField),
        opOf (vectorImms insn) = op → rd insn = d → fs.map (regIndex insn) = srcs →
        (k = effLen s dt →
          vopBody insn opOf fs s = .ok () { u with fflags := s.fflags.merge (loopFlags k as v) }) ∧
        (∀ x, k < effLen s dt → op ((as k).map (·.1)) = .error x → vopBody insn opOf fs s = .error x u) ∧
        (k < effLen s dt → op ((as k).map (·.1)) = .ok (r k) →
          truncateValue ty dt (selectMode (rm insn) s.inputs.frm) (r k) = none →
          vopBody insn opOf fs s = .error .illegal u))

/-- A vector load fills the elements in increasing order from `base + e * (W / 8)`: all of them when no access faults;
when the access of element `k` faults, elements `0 .. k-1` stay written and the fault passes through. The body of a word
does so with destination `rd(insn)` and base `x[rs1(insn)]` (41_vector_engine.md R215; 30_encoding.md R104, R105, R135;
60_exceptions.md R404). -/
def Obligations.VectorLoadResult : Prop :=
  ∀ (s : State) (d : Reg) (base : Word) (t : Tag) (val : Nat → Wide) (k : Nat),
    supports s .v = .yes → s.elemsSized = true → effLen s t ≤ s.params.vlmax → s.tagOf d = .configured t →
    routable t = true → k ≤ effLen s t →
    (∀ e, e < k → routeLoad t (base + BitVec.ofNat 64 (e * (t.width.bits / 8))) s = .ok (val e) s) →
    ∃ u, u = { s with velem := u.velem } ∧
      (∀ e, e < k → u.elemCell d e = storedElem s.params d t.width (val e)) ∧
      (∀ (q : Reg) (e : Nat), (q ≠ d ∨ k ≤ e) → u.elemCell q e = s.elemCell q e) ∧
      (k = effLen s t → vload d base s = .ok () u) ∧
      (∀ r, k < effLen s t →
        routeLoad t (base + BitVec.ofNat 64 (k * (t.width.bits / 8))) s = .error (.collaborator r) s →
        vload d base s = .error (.collaborator r) u) ∧
      (∀ insn : Word, rd insn = d → s.hasX (rs1 insn) = true → s.x (rs1 insn) = base →
        (k = effLen s t → vloadBody insn s = .ok () u) ∧
        (∀ r, k < effLen s t →
          routeLoad t (base + BitVec.ofNat 64 (k * (t.width.bits / 8))) s = .error (.collaborator r) s →
          vloadBody insn s = .error (.collaborator r) u))

/-- The memory accessor of each element width and representation. A width of 8 to 64 bits is one access: a load answers
the little-endian bytes, sign-extended for SINT and zero-extended otherwise; a store writes the element's bytes. 128
bits is a pair of 64-bit accesses, the low half at the address first, then the high half 8 bytes on: the first fault
stops it, and what a store wrote before stays. FLOAT of 8 bits is illegal (41_vector_engine.md R217; 20_memory.md R71,
R75). Which accesses fault, and how much of a faulting store is made, are the model's choices (log 10, 11). -/
def Obligations.VectorWidthRouting : Prop :=
  ∀ (s : State) (t : Tag) (a : Word) (v : Wide),
    (t.width ≠ .w128 →
      (accessFault s.params .load (t.width.bits / 8) a = none →
        routeLoad t a s = .ok ((if t.rep = .sint
            then ((leWord (readBytes s.mem a (t.width.bits / 8))).setWidth t.width.bits).signExtend 64
            else ((leWord (readBytes s.mem a (t.width.bits / 8))).setWidth t.width.bits).setWidth 64).setWidth 128) s) ∧
      (∀ f, accessFault s.params .load (t.width.bits / 8) a = some f → routeLoad t a s = .error (.collaborator f) s)) ∧
    (t.width = .w128 →
      (accessFault s.params .load 8 a = none → accessFault s.params .load 8 (a + 8) = none →
        routeLoad t a s = .ok (leWord (readBytes s.mem (a + 8) 8) ++ leWord (readBytes s.mem a 8)) s) ∧
      (∀ f, accessFault s.params .load 8 a = some f → routeLoad t a s = .error (.collaborator f) s) ∧
      (∀ f, accessFault s.params .load 8 a = none → accessFault s.params .load 8 (a + 8) = some f →
        routeLoad t a s = .error (.collaborator f) s)) ∧
    (elemStop s.params t.width a = none →
      routeStore t a v s = .ok () (s.withMem (writeBytes s.mem a (elemBytes t.width v)))) ∧
    (∀ q, elemStop s.params t.width a = some q →
      routeStore t a v s = .error (.collaborator q.2)
        (s.withMem (writeBytes s.mem a ((elemBytes t.width v).take q.1)))) ∧
    (∀ (d : Reg) (base : Word), supports s .v = .yes → t.rep = .float → t.width = .w8 → s.tagOf d = .configured t →
      vload d base s = .error .illegal s ∧ vstore d base s = .error .illegal s)

/-- A vector store writes the elements in increasing order at `base + e * (W / 8)`, at every width, a 128-bit element as
its low half and then its high half; when the store of element `k` faults, those of elements `0 .. k-1` are done, of
element `k` the bytes before the fault are written (none of a single whole access, the low half of a pair whose high
half faults), and the fault passes through. The body of a word is that with base `x[rs1(insn)]` and the source its
accessor names (41_vector_engine.md R216, R217; 20_memory.md R75; 30_encoding.md R105, R135; 60_exceptions.md R404; how
a single access is made: log 10, 11; which accessor: log 34). -/
def Obligations.VectorStoreResult : Prop :=
  ∀ (s : State) (r : Reg) (base : Word) (t : Tag) (k : Nat),
    supports s .v = .yes → s.tagOf r = .configured t → routable t = true → k ≤ effLen s t →
    (∀ e, e < k → elemStop s.params t.width (base + BitVec.ofNat 64 (e * (t.width.bits / 8))) = none) →
    ∃ u, u = s.withMem ((List.range k).foldl (fun m e =>
        writeBytes m (base + BitVec.ofNat 64 (e * (t.width.bits / 8))) (elemBytes t.width (s.elem r t.width e)))
          s.mem) ∧
      (k = effLen s t → vstore r base s = .ok () u) ∧
      (∀ q, k < effLen s t → elemStop s.params t.width (base + BitVec.ofNat 64 (k * (t.width.bits / 8))) = some q →
        vstore r base s = .error (.collaborator q.2)
          (u.withMem (writeBytes u.mem (base + BitVec.ofNat 64 (k * (t.width.bits / 8)))
            ((elemBytes t.width (s.elem r t.width k)).take q.1)))) ∧
      (∀ (insn : Word) (f : RegField), regIndex insn f = r → s.hasX (rs1 insn) = true → s.x (rs1 insn) = base →
        vstoreBody insn f s = vstore r base s)

/-- The gates of the vector operations, each of which stops with nothing changed. Without the vector extension they raise
illegal-instruction; a fault of the capability query passes through; with the extension they raise illegal-instruction
on an Unconfigured register, or with tags that do not go together, whatever the vector length. So do the bodies of words,
which also raise it for an integer operand outside the file, once the gate has passed; and the block records the word's
own ILLEGAL_TVAL, or the query's cause and value (41_vector_engine.md R206, R207, R214; 40_register_access.md R160;
30_encoding.md R135; 00_scope.md R8; 60_exceptions.md R402, R403, R405; which operand an opcode's body reads first, and
from which field: log 34). -/
def Obligations.VectorGates : Prop :=
  ∀ (s : State) (avl base : Word) (g : Groups) (field : BitVec 3) (op : VectorOp) (d : Reg) (srcs : List Reg)
    (insn : Word) (f : RegField) (gs : (Nat → Word) → Groups) (opOf : (Nat → Word) → VectorOp) (fs : List RegField),
    (supports s .v = .no →
      configure avl g s = .error .illegal s ∧ vop field op d srcs s = .error .illegal s ∧
      vload d base s = .error .illegal s ∧ vstore d base s = .error .illegal s ∧
      ∀ b ∈ [configureBody insn f gs, vopBody insn opOf fs, vloadBody insn, vstoreBody insn f],
        wordIllegal insn b s) ∧
    (∀ r, supports s .v = .faults r →
      configure avl g s = .error (.collaborator r) s ∧ vop field op d srcs s = .error (.collaborator r) s ∧
      vload d base s = .error (.collaborator r) s ∧ vstore d base s = .error (.collaborator r) s ∧
      ∀ b ∈ [configureBody insn f gs, vopBody insn opOf fs, vloadBody insn, vstoreBody insn f],
        wordFaults insn r b s) ∧
    (supports s .v = .yes →
      ((∃ r ∈ d :: srcs, s.tagOf r = .unconfigured) → vop field op d srcs s = .error .illegal s) ∧
      (∀ dt ts, s.tagOf d = .configured dt → srcs.map s.tagOf = ts.map VTag.configured →
        (resolveType ts = none ∨ ∃ ty, resolveType ts = some ty ∧ combinationAllowed ty ts dt = false) →
        vop field op d srcs s = .error .illegal s) ∧
      (s.tagOf d = .unconfigured → vload d base s = .error .illegal s ∧ vstore d base s = .error .illegal s) ∧
      (s.hasX (regIndex insn f) = false → wordIllegal insn (configureBody insn f gs) s) ∧
      ((s.hasX (rs1 insn) = false ∨ s.tagOf (rd insn) = .unconfigured) → wordIllegal insn (vloadBody insn) s) ∧
      ((s.hasX (rs1 insn) = false ∨ s.tagOf (regIndex insn f) = .unconfigured) →
        wordIllegal insn (vstoreBody insn f) s) ∧
      ((∃ r ∈ rd insn :: fs.map (regIndex insn), s.tagOf r = .unconfigured) →
        wordIllegal insn (vopBody insn opOf fs) s))

/-- The vector operations and the bodies over them keep the invariant, and sign-extended integer registers at XLEN 32,
whether they complete or stop (10_state.md R39 to R42; 00_scope.md R21; 41_vector_engine.md R200 to R216). -/
def Obligations.VectorOperationsKeepInvariant : Prop :=
  ∀ (s t : State) (avl base : Word) (g : Groups) (field : BitVec 3) (op : VectorOp) (d : Reg) (srcs : List Reg)
    (insn : Word) (f : RegField) (gs : (Nat → Word) → Groups) (opOf : (Nat → Word) → VectorOp) (fs : List RegField),
    ((∃ v, configure avl g s = .ok v t) ∨ (∃ e, configure avl g s = .error e t) ∨
      (∃ fl, vop field op d srcs s = .ok fl t) ∨ (∃ e, vop field op d srcs s = .error e t) ∨
      vload d base s = .ok () t ∨ (∃ e, vload d base s = .error e t) ∨
      vstore d base s = .ok () t ∨ (∃ e, vstore d base s = .error e t) ∨
      (∃ b ∈ [configureBody insn f gs, vopBody insn opOf fs, vloadBody insn, vstoreBody insn f],
        b s = .ok () t ∨ ∃ e, b s = .error e t)) →
    (s.Inv → t.Inv) ∧ (s.xSignExtended = true → t.xSignExtended = true)

/-! ## The CSR gate -/

/-- The gate after serialisation: a write of a CSR with `a[11:10] = 3` faults at every level, a read at or above
`a[9:8]` passes, a read below it faults, and so does a write; otherwise a write passes. `serialized` is false after it
in each case, and nothing else changes (42_csr_gate.md R260, R261, R266). -/
def Obligations.CsrGateLaws : Prop :=
  ∀ (s : State) (a : CsrAddr) (isWrite : Bool), (s.serialized = true ∨ a ∈ s.params.noSerialize) →
    (s.inputs.prv.toNat < a.toNat / 256 % 4 → validateCsr a isWrite s = .error .illegal { s with serialized := false }) ∧
    (isWrite = true → a.toNat / 1024 = 3 → validateCsr a isWrite s = .error .illegal { s with serialized := false }) ∧
    (a.toNat / 256 % 4 ≤ s.inputs.prv.toNat → (isWrite = true → a.toNat / 1024 ≠ 3) →
      validateCsr a isWrite s = .ok a { s with serialized := false })

/-- A CSR access made while `serialized` is false does nothing and returns SERIALIZE_BEFORE at its own pc; the step
sets `serialized` and changes nothing but the outcome and what the fetch unit sees of earlier stores (42_csr_gate.md
R260, 43_dispatch_shell.md R287, 70_reset_and_hazards.md R444; the fetch unit's view: log 12). -/
def Obligations.CsrAccessSerializesFirst : Prop :=
  ∀ (s : State) (i : Instr) (f : CsrForm), csrForm i = some f → s.serialized = false → f.addr ∉ s.params.noSerialize →
    exec i s = .next { s with outcome := .next s.pc .serializeBefore } ∧
    settle (exec i s) =
      .next ({ s with outcome := .next s.pc .serializeBefore, serialized := true } : State).advanceFetch

/-- The CSR accesses complete: `serialized` is cleared, the CSR takes the new value when the access is a write, the
destination takes the old value extended to XLEN, and the outcome is SERIALIZE_AFTER at the default next PC
(45_reference_rv.md R320 to R325). -/
def Obligations.CsrAccessResults : Prop :=
  ∀ (s : State) (i : Instr) (f : CsrForm), csrForm i = some f →
    (s.serialized = true ∨ f.addr ∈ s.params.noSerialize) → csrDenied s f.addr f.isWrite = false →
    csrReadFault s.params f.addr = none →
    (f.isWrite = true → csrWriteFault s.params f.addr (csrNew i s (s.csrAt f.addr)) = none) →
    (∀ r, f.src = some r → s.hasX r = true) → s.hasX f.rd = true → targetFault s (npcDefault s 4) = none →
    targetMisaligned s (npcDefault s 4) = false →
    exec i s = .next
      (((if f.isWrite then (s.withSerialized false).putCsr f.addr (csrNew i s (s.csrAt f.addr))
          else s.withSerialized false).putX f.rd (sextXlen s.inputs.xlen (s.csrAt f.addr))).withOutcome
        (.next (npcDefault s 4) .serializeAfter))

/-- Where a CSR access traps, and what it has written by then. One that the gate denies raises illegal-instruction with
`serialized` cleared and nothing else changed; a fault of the CSR store passes through with the store's own cause and
value; a source or destination outside the file raises illegal-instruction, and a CSR written before the destination's
check stays written; a default next PC that fails the PC gate raises misaligned, and one whose capability query faults
takes that fault, with the CSR and the destination written, the model's deduction from the body's last statement (log
31) (42_csr_gate.md R260, R262; 43_dispatch_shell.md R283; 60_exceptions.md R403 to R405; what the CSR store faults, by
the address or by the value written, and what it keeps: log 7; that the gate asks only when bit 1 is set: log 32). -/
def Obligations.CsrAccessTraps : Prop :=
  ∀ (s : State) (i : Instr) (f : CsrForm), csrForm i = some f → (s.serialized = true ∨ f.addr ∈ s.params.noSerialize) →
    (csrDenied s f.addr f.isWrite = true → exec i s = .next ((s.withSerialized false).illegalAt i)) ∧
    (∀ r, csrDenied s f.addr f.isWrite = false → csrReadFault s.params f.addr = some r →
      exec i s = .next ((s.withSerialized false).traps (.collaborator r.cause) r.tval)) ∧
    (∀ r, csrDenied s f.addr f.isWrite = false → csrReadFault s.params f.addr = none → f.isWrite = true →
      (∀ q, f.src = some q → s.hasX q = true) →
      csrWriteFault s.params f.addr (csrNew i s (s.csrAt f.addr)) = some r →
      exec i s = .next ((s.withSerialized false).traps (.collaborator r.cause) r.tval)) ∧
    (∀ q, csrDenied s f.addr f.isWrite = false → csrReadFault s.params f.addr = none → f.isWrite = true →
      f.src = some q → s.hasX q = false → exec i s = .next ((s.withSerialized false).illegalAt i)) ∧
    (csrDenied s f.addr f.isWrite = false → csrReadFault s.params f.addr = none →
      (f.isWrite = true → csrWriteFault s.params f.addr (csrNew i s (s.csrAt f.addr)) = none ∧
        ∀ r, f.src = some r → s.hasX r = true) →
      s.hasX f.rd = false →
      exec i s = .next ((if f.isWrite then (s.withSerialized false).putCsr f.addr (csrNew i s (s.csrAt f.addr))
        else s.withSerialized false).illegalAt i)) ∧
    (csrDenied s f.addr f.isWrite = false → csrReadFault s.params f.addr = none →
      (f.isWrite = true → csrWriteFault s.params f.addr (csrNew i s (s.csrAt f.addr)) = none ∧
        ∀ r, f.src = some r → s.hasX r = true) →
      s.hasX f.rd = true → targetMisaligned s (npcDefault s 4) = true →
      exec i s = .next
        (((if f.isWrite then (s.withSerialized false).putCsr f.addr (csrNew i s (s.csrAt f.addr))
            else s.withSerialized false).putX f.rd (sextXlen s.inputs.xlen (s.csrAt f.addr))).traps
          .instructionAddressMisaligned (npcDefault s 4))) ∧
    (∀ q, csrDenied s f.addr f.isWrite = false → csrReadFault s.params f.addr = none →
      (f.isWrite = true → csrWriteFault s.params f.addr (csrNew i s (s.csrAt f.addr)) = none ∧
        ∀ r, f.src = some r → s.hasX r = true) →
      s.hasX f.rd = true → targetFault s (npcDefault s 4) = some q →
      exec i s = .next
        (((if f.isWrite then (s.withSerialized false).putCsr f.addr (csrNew i s (s.csrAt f.addr))
            else s.withSerialized false).putX f.rd (sextXlen s.inputs.xlen (s.csrAt f.addr))).faultsAt q))

/-! ## The dispatch shell -/

/-- The PC gate and the next PC: a target with bit 1 set and no compressed extension raises misaligned with the target
as value, another sets the next PC to its extension to XLEN, bit 0 unchecked; at XLEN 32 the next PC is the sign
extension of its low 32 bits; a fault of the gate's capability query passes through, and a target with bit 1 clear does
not ask it (43_dispatch_shell.md R280, R282, R283; 00_scope.md R8; that it does not ask: log 32). -/
def Obligations.PcGate : Prop :=
  ∀ (s : State) (t : Word) (len : Nat),
    (t.getLsbD 1 = true → s.inputs.caps.c = .no →
      setPc t s = .error (.misaligned t) s ∧ setPcAndSerialize t s = .error (.misaligned t) s) ∧
    (∀ r, t.getLsbD 1 = true → s.inputs.caps.c = .faults r →
      setPc t s = .error (.collaborator r) s ∧ setPcAndSerialize t s = .error (.collaborator r) s) ∧
    ((t.getLsbD 1 = false ∨ s.inputs.caps.c = .yes) →
      setPc t s = .ok () { s with outcome := .next (sextXlen s.inputs.xlen t) .normal } ∧
      setPcAndSerialize t s = .ok () { s with outcome := .next (sextXlen s.inputs.xlen t) .serializeAfter }) ∧
    (s.inputs.xlen = .x64 → sextXlen s.inputs.xlen t = t ∧ npcDefault s len = s.pc + BitVec.ofNat 64 len) ∧
    (s.inputs.xlen = .x32 → (npcDefault s len).toInt = (s.pc.toInt + len).bmod (2 ^ 32) ∧
      (sextXlen s.inputs.xlen t).toInt = t.toInt.bmod (2 ^ 32))

/-- A step with no trap waiting runs the instruction its bytes decode to: the block, then the loop
(43_dispatch_shell.md R281, R287). -/
def Obligations.StepRunsDecodedInstruction : Prop :=
  ∀ (s : State) (npc : Word) (act : NextAction) (bytes rest : List Byte) (i : Instr),
    s.outcome = .next npc act → fetchBytes s = .ok bytes → decodeBytes s.inputs.xlen bytes = .ok (i, rest) →
    step s = settle (exec i s)

/-- When the bytes of a well-formed instruction stand at the pc in the memory the fetch unit reads, and no parcel's
fetch faults, the step runs that instruction (20_memory.md R72, 30_encoding.md R101, 43_dispatch_shell.md R281). -/
def Obligations.StepRunsBytesAtPc : Prop :=
  ∀ (s : State) (npc : Word) (act : NextAction) (i : Instr),
    s.outcome = .next npc act → i.wf = true → (rv64Only i = true → s.inputs.xlen = .x64) →
    readBytes (fetchMemory s) s.pc (instrLength i) = encodeBytes i →
    (∀ k, k < instrLength i / 2 → accessFault s.params .fetch 2 (s.pc + BitVec.ofNat 64 (2 * k)) = none) →
    step s = settle (exec i s)

/-- The loop after the block: NORMAL and SERIALIZE_AFTER store the next PC, SERIALIZE_BEFORE also sets `serialized`, a
trap changes nothing (43_dispatch_shell.md R287). Every step that goes on ends with the fetch unit's view of memory
advanced, and nothing else: `none` sees every store at once; a view keeps what it sees while its schedule reveals
nothing, and sees the data memory when it reveals every step (20_memory.md R83 leaves open whether and when; log 12).
After a trap the step takes the handler's next queued decision (the model's choice, log 9; 60_exceptions.md R406 leaves
resumption to the handler). -/
def Obligations.LoopFollowsOutcome : Prop :=
  ∀ (s : State) (npc v : Word) (c : Cause) (r : Resume) (rest : List Resume),
    (s.outcome = .next npc .normal → settle (.next s) = .next ({ s with pc := npc } : State).advanceFetch) ∧
    (s.outcome = .next npc .serializeAfter → settle (.next s) = .next ({ s with pc := npc } : State).advanceFetch) ∧
    (s.outcome = .next npc .serializeBefore →
      settle (.next s) = .next ({ s with pc := npc, serialized := true } : State).advanceFetch) ∧
    (s.outcome = .trap c v → settle (.next s) = .next s.advanceFetch) ∧
    s.advanceFetch = { s with fetchView := s.advanceFetch.fetchView } ∧
    (s.fetchView = none → s.advanceFetch = s ∧ fetchMemory s = s.mem) ∧
    (∀ w, s.fetchView = some w →
      (w.reveals.headD w.thereafter = 0 → fetchMemory s.advanceFetch = fetchMemory s) ∧
      (w.pending.length < w.reveals.headD w.thereafter → fetchMemory s.advanceFetch = s.mem)) ∧
    (s.outcome = .trap c v → s.resumes = r :: rest → ∃ t, step s = .next t ∧ t.pc = r.pc ∧ t.inputs = r.inputs ∧
      t.resumes = rest ∧ t.outcome = .next r.pc .normal ∧ t.xpr = s.xpr ∧ t.fpr = s.fpr ∧ t.mem = s.mem ∧
      t.serialized = s.serialized) ∧
    (s.outcome = .trap c v → s.resumes = [] → step s = .fault .noHandlerDecision)

/-! ## The instructions -/

/-- Integer computation: the words of each row, its result, and illegal-instruction for a register outside the file or
a shift amount of XLEN or more (45_reference_rv.md R300 to R304). -/
def Obligations.IntegerComputation : Prop :=
  (∀ x : XLen,
    spells x 0x00000033 0xfe00707f (fun w => .add (rd w) (rs1 w) (rs2 w)) ∧
    spells x 0x00000013 0x0000707f (fun w => .addi (rd w) (rs1 w) (iImm w)) ∧
    spells x 0x00000037 0x0000007f (fun w => .lui (rd w) (uImm w)) ∧
    spells x 0x00001013 0xfc00707f (fun w => .slli (rd w) (rs1 w) (shamt w)) ∧
    spells x 0x00000017 0x0000007f (fun w => .auipc (rd w) (uImm w))) ∧
  ∀ (s : State) (rd rs1 rs2 : Reg) (imm : Word) (sh : BitVec 6),
    (s.hasXs [rs1, rs2, rd] = true →
      exec (.add rd rs1 rs2) s = .next ((s.putX rd (sextXlen s.inputs.xlen (s.x rs1 + s.x rs2))).completes 4)) ∧
    (s.hasXs [rs1, rs2, rd] = false → exec (.add rd rs1 rs2) s = .next (s.illegalAt (.add rd rs1 rs2))) ∧
    (s.hasXs [rs1, rd] = true →
      exec (.addi rd rs1 imm) s = .next ((s.putX rd (sextXlen s.inputs.xlen (s.x rs1 + imm))).completes 4)) ∧
    (s.hasXs [rs1, rd] = false → exec (.addi rd rs1 imm) s = .next (s.illegalAt (.addi rd rs1 imm))) ∧
    (s.hasX rd = true → exec (.lui rd imm) s = .next ((s.putX rd imm).completes 4)) ∧
    (s.hasX rd = false → exec (.lui rd imm) s = .next (s.illegalAt (.lui rd imm))) ∧
    (sh.toNat < xlenBits s.inputs.xlen → s.hasXs [rs1, rd] = true →
      exec (.slli rd rs1 sh) s = .next ((s.putX rd (sextXlen s.inputs.xlen (s.x rs1 <<< sh.toNat))).completes 4)) ∧
    ((sh.toNat ≥ xlenBits s.inputs.xlen ∨ s.hasXs [rs1, rd] = false) →
      exec (.slli rd rs1 sh) s = .next (s.illegalAt (.slli rd rs1 sh))) ∧
    (s.hasX rd = true →
      exec (.auipc rd imm) s = .next ((s.putX rd (sextXlen s.inputs.xlen (imm + s.pc))).completes 4)) ∧
    (s.hasX rd = false → exec (.auipc rd imm) s = .next (s.illegalAt (.auipc rd imm)))

/-- Jumps: the words of each row; the link is the default next PC and the target is relative to the jump, or the base
plus offset with bit 0 cleared; a misaligned target, or a fault of the PC gate's capability query, traps before the link
register is looked at (45_reference_rv.md R306, R307; 60_exceptions.md R405; 00_scope.md R8; that the query is asked
only when bit 1 of the target is set: log 32). -/
def Obligations.Jumps : Prop :=
  (∀ x : XLen,
    spells x 0x0000006f 0x0000007f (fun w => .jal (rd w) (ujImm w)) ∧
    spells x 0x00000067 0x0000707f (fun w => .jalr (rd w) (rs1 w) (iImm w))) ∧
  ∀ (s : State) (rd rs1 : Reg) (imm t : Word),
    (t = s.pc + imm →
      (targetFault s t = none → targetMisaligned s t = false → s.hasX rd = true →
        exec (.jal rd imm) s = .next ((s.putX rd (npcDefault s 4)).redirects t)) ∧
      (targetMisaligned s t = true →
        exec (.jal rd imm) s = .next (s.traps .instructionAddressMisaligned t)) ∧
      (∀ r, targetFault s t = some r → exec (.jal rd imm) s = .next (s.faultsAt r)) ∧
      (targetFault s t = none → targetMisaligned s t = false → s.hasX rd = false →
        exec (.jal rd imm) s = .next (s.illegalAt (.jal rd imm)))) ∧
    (t = (s.x rs1 + imm) &&& ~~~1 →
      (s.hasX rs1 = true → targetFault s t = none → targetMisaligned s t = false → s.hasX rd = true →
        exec (.jalr rd rs1 imm) s = .next ((s.putX rd (npcDefault s 4)).redirects t)) ∧
      (s.hasX rs1 = true → targetMisaligned s t = true →
        exec (.jalr rd rs1 imm) s = .next (s.traps .instructionAddressMisaligned t)) ∧
      (∀ r, s.hasX rs1 = true → targetFault s t = some r → exec (.jalr rd rs1 imm) s = .next (s.faultsAt r)) ∧
      ((s.hasX rs1 = false ∨ (targetFault s t = none ∧ targetMisaligned s t = false ∧ s.hasX rd = false)) →
        exec (.jalr rd rs1 imm) s = .next (s.illegalAt (.jalr rd rs1 imm))))

/-- The six branches, from the words of their rows: taken, the next PC is the target, and a misaligned target, or a fault
of the PC gate's capability query, traps; not taken, the next PC is the default one and nothing faults
(45_reference_rv.md R308 to R313; 00_scope.md R8; that the query is asked only when bit 1 of the target is set: log
32). -/
def Obligations.Branches : Prop :=
  (∀ x : XLen,
    spells x 0x00000063 0x0000707f (fun w => .beq (rs1 w) (rs2 w) (sbImm w)) ∧
    spells x 0x00001063 0x0000707f (fun w => .bne (rs1 w) (rs2 w) (sbImm w)) ∧
    spells x 0x00004063 0x0000707f (fun w => .blt (rs1 w) (rs2 w) (sbImm w)) ∧
    spells x 0x00005063 0x0000707f (fun w => .bge (rs1 w) (rs2 w) (sbImm w)) ∧
    spells x 0x00006063 0x0000707f (fun w => .bltu (rs1 w) (rs2 w) (sbImm w)) ∧
    spells x 0x00007063 0x0000707f (fun w => .bgeu (rs1 w) (rs2 w) (sbImm w))) ∧
  ∀ (s : State) (i : Instr) (f : BranchForm), branchForm i = some f →
    (s.hasXs [f.rs1, f.rs2] = false → exec i s = .next (s.illegalAt i)) ∧
    (s.hasXs [f.rs1, f.rs2] = true →
      (¬branchTaken i (s.x f.rs1) (s.x f.rs2) → exec i s = .next (s.completes 4)) ∧
      (branchTaken i (s.x f.rs1) (s.x f.rs2) → targetFault s (s.pc + f.off) = none →
        targetMisaligned s (s.pc + f.off) = false →
        exec i s = .next (s.redirects (s.pc + f.off))) ∧
      (branchTaken i (s.x f.rs1) (s.x f.rs2) → targetMisaligned s (s.pc + f.off) = true →
        exec i s = .next (s.traps .instructionAddressMisaligned (s.pc + f.off))) ∧
      (∀ r, branchTaken i (s.x f.rs1) (s.x f.rs2) → targetFault s (s.pc + f.off) = some r →
        exec i s = .next (s.faultsAt r)))

/-- The loads, from the words of their rows: the destination takes the little-endian value at base plus offset,
sign-extended from its width; a fault of the memory subsystem or of the capability query passes through with nothing
written; a failed precondition or a register outside the file raises illegal-instruction (45_reference_rv.md R314, R315; 46_reference_rvc.md R351,
R352, R363, R364; 60_exceptions.md R403; 00_scope.md R8). The model's own choices: which accesses fault and with what report is a
parameter (log 10, 11); exec of an RV64-only row is refused at XLEN 32 (log 18; 30_encoding.md R139 has the decoder
refuse it). -/
def Obligations.LoadResults : Prop :=
  (∀ x : XLen,
    spells x 0x00002003 0x0000707f (fun w => .lw (rd w) (rs1 w) (iImm w)) ∧
    spells x 0x00003003 0x0000707f (fun w => .ld (rd w) (rs1 w) (iImm w)) ∧
    spells x 0x4000 0xe003 (fun w => .cLw (rvcRs2s w) (rvcRs1s w) (rvcLwImm w)) ∧
    spells .x64 0x6000 0xe003 (fun w => .cLd (rvcRs2s w) (rvcRs1s w) (rvcLdImm w)) ∧
    spells x 0x4002 0xe003 (fun w => .cLwsp (rvcRd w) (rvcLwspImm w)) ∧
    spells .x64 0x6002 0xe003 (fun w => .cLdsp (rvcRd w) (rvcLdspImm w))) ∧
  ∀ (s : State) (i : Instr) (f : LoadForm) (ea : Word), loadForm i = some f → ea = s.x f.base + f.off →
    (rv64Only i = true → s.inputs.xlen = .x32 → exec i s = .refused .rv64OnlyRow) ∧
    ((rv64Only i = true → s.inputs.xlen = .x64) →
      (legalIn s i = true → s.hasX f.base = true → accessFault s.params .load f.bytes ea = none → s.hasX f.rd = true →
        exec i s = .next ((s.putX f.rd
          (((leWord (readBytes s.mem ea f.bytes)).setWidth (8 * f.bytes)).signExtend 64)).completes (instrLength i))) ∧
      (∀ r, legalIn s i = true → s.hasX f.base = true → accessFault s.params .load f.bytes ea = some r →
        exec i s = .next (s.traps (.collaborator r.cause) r.tval)) ∧
      (∀ r, capFault s i = some r → exec i s = .next (s.faultsAt r)) ∧
      (capFault s i = none → (legalIn s i = false ∨ s.hasX f.base = false ∨
          (accessFault s.params .load f.bytes ea = none ∧ s.hasX f.rd = false)) →
        exec i s = .next (s.illegalAt i)))

/-- The stores, from the words of their rows: the low bytes of the source go to base plus offset, least significant
first; a fault of the memory subsystem or of the capability query passes through; a failed precondition or a register
outside the file raises illegal-instruction (45_reference_rv.md R316, R317; 46_reference_rvc.md R353, R354, R365, R366; 60_exceptions.md R403,
R404; 00_scope.md R8). The model's own choices: a faulting store has written nothing when it is one access (log 10), and the parts
before the one that faults when it is misaligned and MISALIGNED_DATA splits it (log 11); exec of an RV64-only row is
refused at XLEN 32 (log 18; 30_encoding.md R139 has the decoder refuse it). -/
def Obligations.StoreResults : Prop :=
  (∀ x : XLen,
    spells x 0x00002023 0x0000707f (fun w => .sw (rs2 w) (rs1 w) (sImm w)) ∧
    spells x 0x00003023 0x0000707f (fun w => .sd (rs2 w) (rs1 w) (sImm w)) ∧
    spells x 0xc000 0xe003 (fun w => .cSw (rvcRs2s w) (rvcRs1s w) (rvcLwImm w)) ∧
    spells .x64 0xe000 0xe003 (fun w => .cSd (rvcRs2s w) (rvcRs1s w) (rvcLdImm w)) ∧
    spells x 0xc002 0xe003 (fun w => .cSwsp (rvcRs2 w) (rvcSwspImm w)) ∧
    spells .x64 0xe002 0xe003 (fun w => .cSdsp (rvcRs2 w) (rvcSdspImm w))) ∧
  ∀ (s : State) (i : Instr) (f : StoreForm) (ea : Word), storeForm i = some f → ea = s.x f.base + f.off →
    (rv64Only i = true → s.inputs.xlen = .x32 → exec i s = .refused .rv64OnlyRow) ∧
    ((rv64Only i = true → s.inputs.xlen = .x64) →
      (legalIn s i = true → s.hasXs [f.base, f.src] = true → accessFault s.params .store f.bytes ea = none →
        exec i s = .next ((s.withMem (writeBytes s.mem ea (leBytes f.bytes (s.x f.src)))).completes (instrLength i))) ∧
      (∀ q, legalIn s i = true → s.hasXs [f.base, f.src] = true → accessStop s.params .store f.bytes ea = some q →
        exec i s = .next ((s.withMem (writeBytes s.mem ea (leBytes q.1 (s.x f.src)))).traps
          (.collaborator q.2.cause) q.2.tval) ∧
        q.1 ≤ f.bytes ∧ ((∀ unit, s.params.misaligned ≠ .splits unit) → q.1 = 0) ∧
        (ea.toNat % f.bytes = 0 → q.1 = 0)) ∧
      (∀ r, capFault s i = some r → exec i s = .next (s.faultsAt r)) ∧
      (capFault s i = none → (legalIn s i = false ∨ s.hasXs [f.base, f.src] = false) →
        exec i s = .next (s.illegalAt i)))

/-- The nine sign injections, from the words of their rows: the destination cell takes the injected, boxed value;
without the extension or with the FP unit off they raise illegal-instruction; a fault of the capability query passes
through (45_reference_rv.md R330 to R338; 40_register_access.md R164; 00_scope.md R8). -/
def Obligations.SignInjectionInstructions : Prop :=
  (∀ x : XLen,
    spells x 0x20000053 0xfe00707f (fun w => .fsgnjS (rd w) (rs1 w) (rs2 w)) ∧
    spells x 0x20001053 0xfe00707f (fun w => .fsgnjnS (rd w) (rs1 w) (rs2 w)) ∧
    spells x 0x20002053 0xfe00707f (fun w => .fsgnjxS (rd w) (rs1 w) (rs2 w)) ∧
    spells x 0x22000053 0xfe00707f (fun w => .fsgnjD (rd w) (rs1 w) (rs2 w)) ∧
    spells x 0x22001053 0xfe00707f (fun w => .fsgnjnD (rd w) (rs1 w) (rs2 w)) ∧
    spells x 0x22002053 0xfe00707f (fun w => .fsgnjxD (rd w) (rs1 w) (rs2 w)) ∧
    spells x 0x26000053 0xfe00707f (fun w => .fsgnjQ (rd w) (rs1 w) (rs2 w)) ∧
    spells x 0x26001053 0xfe00707f (fun w => .fsgnjnQ (rd w) (rs1 w) (rs2 w)) ∧
    spells x 0x26002053 0xfe00707f (fun w => .fsgnjxQ (rd w) (rs1 w) (rs2 w))) ∧
  ∀ (s : State) (i : Instr) (f : SignForm), signForm i = some f →
    (supports s f.ext = .yes → s.inputs.fpEnabled = true →
      exec i s = .next ((s.putF f.rd (fsgnj f.width f.n f.xr (s.f f.rs1) (s.f f.rs2))).completes 4)) ∧
    ((supports s f.ext = .no ∨ (supports s f.ext = .yes ∧ s.inputs.fpEnabled = false)) →
      exec i s = .next (s.illegalAt i)) ∧
    (∀ r, supports s f.ext = .faults r → exec i s = .next (s.faultsAt r))

/-- The compressed computations: the words of each row, its result, and illegal-instruction without the compressed
extension, for a zero immediate, a shift amount of XLEN or more, or a register outside the file; a fault of the
capability query passes through (46_reference_rvc.md R350, R355 to R358, R362; 00_scope.md R8). -/
def Obligations.CompressedComputation : Prop :=
  (∀ x : XLen,
    spells x 0x0000 0xe003 (fun w => .cAddi4spn (rvcRs2s w) (rvcAddi4spnImm w)) ∧
    spells x 0x0001 0xe003 (fun w => .cAddi (rvcRd w) (rvcImm w)) ∧
    spells x 0x4001 0xe003 (fun w => .cLi (rvcRd w) (rvcImm w)) ∧
    spells x 0x6101 0xef83 (fun w => .cAddi16sp (rvcAddi16spImm w)) ∧
    spells x 0x0002 0xe003 (fun w => .cSlli (rvcRd w) (rvcZimm w)) ∧
    (∀ w, w &&& 0xe003 = 0x6001 → rvcRd w ≠ 2 → decodeWord x w = .ok (.cLui (rvcRd w) (rvcImm w)))) ∧
  ∀ (s : State) (rd : Reg) (imm : Word) (sh : BitVec 6),
    (∀ i ∈ [Instr.cAddi4spn rd imm, .cAddi rd imm, .cLi rd imm, .cAddi16sp imm, .cLui rd imm, .cSlli rd sh],
      (supports s .c = .no → exec i s = .next (s.illegalAt i)) ∧
      (∀ r, supports s .c = .faults r → exec i s = .next (s.faultsAt r))) ∧
    (supports s .c = .yes →
    (imm ≠ 0 → s.hasX rd = true →
      exec (.cAddi4spn rd imm) s = .next ((s.putX rd (sextXlen s.inputs.xlen (s.x 2 + imm))).completes 2)) ∧
    ((imm = 0 ∨ s.hasX rd = false) → exec (.cAddi4spn rd imm) s = .next (s.illegalAt (.cAddi4spn rd imm))) ∧
    (s.hasX rd = true →
      exec (.cAddi rd imm) s = .next ((s.putX rd (sextXlen s.inputs.xlen (s.x rd + imm))).completes 2)) ∧
    (s.hasX rd = false → exec (.cAddi rd imm) s = .next (s.illegalAt (.cAddi rd imm))) ∧
    (s.hasX rd = true → exec (.cLi rd imm) s = .next ((s.putX rd imm).completes 2)) ∧
    (s.hasX rd = false → exec (.cLi rd imm) s = .next (s.illegalAt (.cLi rd imm))) ∧
    (imm ≠ 0 → exec (.cAddi16sp imm) s = .next ((s.putX 2 (sextXlen s.inputs.xlen (s.x 2 + imm))).completes 2)) ∧
    (imm = 0 → exec (.cAddi16sp imm) s = .next (s.illegalAt (.cAddi16sp imm))) ∧
    (imm ≠ 0 → s.hasX rd = true →
      exec (.cLui rd imm) s = .next ((s.putX rd (sextXlen s.inputs.xlen (imm <<< 12))).completes 2)) ∧
    ((imm = 0 ∨ s.hasX rd = false) → exec (.cLui rd imm) s = .next (s.illegalAt (.cLui rd imm))) ∧
    (sh.toNat < xlenBits s.inputs.xlen → s.hasX rd = true →
      exec (.cSlli rd sh) s = .next ((s.putX rd (sextXlen s.inputs.xlen (s.x rd <<< sh.toNat))).completes 2)) ∧
    ((sh.toNat ≥ xlenBits s.inputs.xlen ∨ s.hasX rd = false) →
      exec (.cSlli rd sh) s = .next (s.illegalAt (.cSlli rd sh))))

/-- The compressed jump and branches, from the words of their rows: no target is misaligned with the compressed
extension, and without it they raise illegal-instruction; a fault of the capability query passes through
(46_reference_rvc.md R359 to R361; 00_scope.md R8). -/
def Obligations.CompressedControl : Prop :=
  (∀ x : XLen,
    spells x 0xa001 0xe003 (fun w => .cJ (rvcJImm w)) ∧
    spells x 0xc001 0xe003 (fun w => .cBeqz (rvcRs1s w) (rvcBImm w)) ∧
    spells x 0xe001 0xe003 (fun w => .cBnez (rvcRs1s w) (rvcBImm w))) ∧
  ∀ (s : State) (rs1 : Reg) (off : Word),
    (∀ i ∈ [Instr.cJ off, .cBeqz rs1 off, .cBnez rs1 off],
      (supports s .c = .no → exec i s = .next (s.illegalAt i)) ∧
      (∀ r, supports s .c = .faults r → exec i s = .next (s.faultsAt r))) ∧
    (supports s .c = .yes →
    exec (.cJ off) s = .next (s.redirects (s.pc + off)) ∧
    (s.hasX rs1 = true → s.x rs1 = 0 → exec (.cBeqz rs1 off) s = .next (s.redirects (s.pc + off))) ∧
    (s.hasX rs1 = true → s.x rs1 ≠ 0 → exec (.cBeqz rs1 off) s = .next (s.completes 2)) ∧
    (s.hasX rs1 = true → s.x rs1 ≠ 0 → exec (.cBnez rs1 off) s = .next (s.redirects (s.pc + off))) ∧
    (s.hasX rs1 = true → s.x rs1 = 0 → exec (.cBnez rs1 off) s = .next (s.completes 2)) ∧
    (s.hasX rs1 = false → exec (.cBeqz rs1 off) s = .next (s.illegalAt (.cBeqz rs1 off)) ∧
      exec (.cBnez rs1 off) s = .next (s.illegalAt (.cBnez rs1 off))))

/-- An instruction whose capability or encoding precondition fails raises illegal-instruction and changes nothing
else: a compressed one without C, a zero immediate, rd = 0 of `c.lwsp` and `c.ldsp`, a shift amount of XLEN or more,
`ld` and `sd` at XLEN 32, an FP one without its extension or with the unit off. When its capability query faults, that
fault passes through instead, before any other check, and nothing else changes (30_encoding.md R139, 43_dispatch_shell.md
R284, 60_exceptions.md R403, R405; 00_scope.md R8). -/
def Obligations.FailedPreconditionTraps : Prop :=
  ∀ (s : State) (i : Instr), (rv64Only i = true → s.inputs.xlen = .x64) →
    (capFault s i = none → legalIn s i = false → exec i s = .next (s.illegalAt i)) ∧
    (∀ r, capFault s i = some r → exec i s = .next (s.faultsAt r))

/-- At XLEN 32 the rows `c.ld`, `c.sd`, `c.ldsp` and `c.sdsp` are refused by the decoder and by their meanings
(30_encoding.md R139). -/
def Obligations.Rv64RowsRefusedAtXlen32 : Prop :=
  ∀ (s : State) (i : Instr), rv64Only i = true → i.wf = true →
    decodeWord .x32 (encode i) = .error .rv64OnlyRow ∧
    (s.inputs.xlen = .x32 → exec i s = .refused .rv64OnlyRow)

/-! ## Whole-machine rules -/

/-- Every instruction answers a next state, but for the four RV64-only rows at XLEN 32: a trap is a next state, and no
ordinary data stops the machine (00_scope.md R6, R7; 60_exceptions.md R415). -/
def Obligations.ExecAlwaysAnswersNext : Prop :=
  ∀ (s : State) (i : Instr), (rv64Only i = true → s.inputs.xlen = .x64) → ∃ t, exec i s = .next t

/-- What every instruction leaves unchanged when it answers a next state: the registers it does not name as destination,
every CSR but the one it addresses, `serialized` unless it is a CSR access, the dirty signal unless it writes an FP
register, the commit log unless it writes a register, and always the pc, the parameters and inputs, the whole vector
unit, the accrued flags, the fetch unit's memory and the handler's queue (45_reference_rv.md, 46_reference_rvc.md: what
the bodies write). Three of these are the model's choices about collaborators: that a CSR write leaves every other CSR
(log 7), that it leaves the inputs frm, fp_enabled, XLEN and the capabilities (log 14), and that no CSR write changes
the dirty signal (log 25). -/
def Obligations.ExecFrame : Prop :=
  ∀ (s t : State) (i : Instr), exec i s = .next t →
    (∀ r, destX i ≠ some r → t.x r = s.x r) ∧ (∀ r, destF i ≠ some r → t.f r = s.f r) ∧
    (∀ a, (∀ f, csrForm i = some f → f.addr ≠ a) → t.csrAt a = s.csrAt a) ∧
    (csrForm i = none → t.serialized = s.serialized) ∧ (destF i = none → t.fsDirty = s.fsDirty) ∧
    (destX i = none → destF i = none → t.log = s.log) ∧
    t.pc = s.pc ∧ t.params = s.params ∧ t.inputs = s.inputs ∧ t.vtag = s.vtag ∧ t.vl = s.vl ∧ t.velem = s.velem ∧
    t.fflags = s.fflags ∧ t.fetchView = s.fetchView ∧ t.resumes = s.resumes

/-- Memory: an instruction that is no store leaves every byte; a store leaves every byte outside the ones at base plus
offset (45_reference_rv.md R316, R317; 46_reference_rvc.md R353, R354, R365, R366; 20_memory.md R71). -/
def Obligations.MemoryFrame : Prop :=
  ∀ (s t : State) (i : Instr), exec i s = .next t →
    (storeForm i = none → ∀ a, readByte t.mem a = readByte s.mem a) ∧
    (∀ f, storeForm i = some f → ∀ a, (∀ k, k < f.bytes → a ≠ s.x f.base + f.off + BitVec.ofNat 64 k) →
      readByte t.mem a = readByte s.mem a)

/-- Bytes of memory in canonical form: a write of `n` bytes puts byte `k` of the value at `a + k` and leaves every
other address; a read of them gives the value's low bytes back (20_memory.md R71). -/
def Obligations.MemoryIsLittleEndian : Prop :=
  ∀ (m : Memory) (a v : Word) (n : Nat), m.wf = true → n ≤ 8 →
    (∀ k, k < n → readByte (writeBytes m a (leBytes n v)) (a + BitVec.ofNat 64 k) = v.extractLsb' (8 * k) 8) ∧
    (∀ b, (∀ k, k < n → b ≠ a + BitVec.ofNat 64 k) →
      readByte (writeBytes m a (leBytes n v)) b = readByte m b) ∧
    leWord (readBytes (writeBytes m a (leBytes n v)) a n) = (v.setWidth (8 * n)).setWidth 64

/-- The commit log is an observation: a step with the hook enabled and a step with it disabled give the same outcome
and the same state but for the log (60_exceptions.md R414). -/
def Obligations.CommitLogHasNoInfluence : Prop :=
  ∀ s : State, mapNext State.unlogged (step s) = mapNext State.unlogged (step s.unlogged)

/-- The privilege level is used by the CSR gate alone: an instruction that is no CSR access does the same at every
level, and no instruction changes the level (60_exceptions.md R409). -/
def Obligations.PrivilegeReachesOnlyTheCsrGate : Prop :=
  ∀ (s : State) (i : Instr) (p : BitVec 2),
    (csrForm i = none → exec i (s.atLevel p) = mapNext (·.atLevel p) (exec i s)) ∧
    (∀ t, exec i s = .next t → t.inputs.prv = s.inputs.prv)

/-- Every step keeps the invariant: canonical memory and CSR store, the vector unit within its sizes, cell 0 at 0; and
sign-extended integer registers at XLEN 32, unless the handler changes XLEN from 64 to 32 (00_scope.md R21; 10_state.md
R32, R39 to R42, R46; the canonical forms are the model's, log 6 and 7). -/
def Obligations.StepKeepsInvariant : Prop :=
  ∀ s t : State, step s = .next t →
    (s.Inv → t.Inv) ∧
    ((t.inputs.xlen = .x32 → s.inputs.xlen = .x32) → s.xSignExtended = true → t.xSignExtended = true)

/-- The reset state meets the invariant, and so does every constructed context; its integer registers are sign-extended
when its draws are (the model's reset values: log 1 to 8). -/
def Obligations.ResetMeetsInvariant : Prop :=
  State.reset.Inv ∧ State.reset.xSignExtended = true ∧
  ∀ (p : Params) (inp : Inputs) (pc : Word) (xs : Vector Word 32) (fs : Vector Wide 32),
    (State.construct p inp pc xs fs).Inv ∧
    ((inp.xlen = .x32 → ∀ k (h : k < 32), sext32 xs[k] = xs[k]) →
      (State.construct p inp pc xs fs).xSignExtended = true)

/-- The reset table, for every draw: x0 is 0 and the other registers are the draw, every tag is Unconfigured, VL is 0,
every element is 0, `serialized` is false (70_reset_and_hazards.md R440). -/
def Obligations.ResetTable : Prop :=
  ∀ (p : Params) (inp : Inputs) (pc : Word) (xs : Vector Word 32) (fs : Vector Wide 32) (s : State),
    s = State.construct p inp pc xs fs →
    s.x 0 = 0 ∧ (∀ r : Reg, r ≠ 0 → s.x r = xs[r.toNat]'r.isLt) ∧ (∀ r : Reg, s.f r = fs[r.toNat]'r.isLt) ∧
    (∀ r : Reg, s.tagOf r = .unconfigured) ∧ s.vl = 0 ∧ (∀ (r : Reg) (e : Nat), s.elemCell r e = 0) ∧
    s.serialized = false
end

