-- ==== Sys2Proof/Laws/State.lean ====
section
/-! SUPPORT. One lemma per field per update, true by unfolding it: no later proof unfolds a record update. Then the views
(`x`, `f`, `csrAt`, …) through the updates that do not touch what they read. -/

namespace Sys2Proof.Machine

variable (s : State)

/-! ## withOutcome -/

@[simp] theorem State.withOutcome_params (o : BlockOutcome) :
    (s.withOutcome o).params = s.params := rfl

@[simp] theorem State.withOutcome_inputs (o : BlockOutcome) :
    (s.withOutcome o).inputs = s.inputs := rfl

@[simp] theorem State.withOutcome_pc (o : BlockOutcome) :
    (s.withOutcome o).pc = s.pc := rfl

@[simp] theorem State.withOutcome_xpr (o : BlockOutcome) :
    (s.withOutcome o).xpr = s.xpr := rfl

@[simp] theorem State.withOutcome_fpr (o : BlockOutcome) :
    (s.withOutcome o).fpr = s.fpr := rfl

@[simp] theorem State.withOutcome_vtag (o : BlockOutcome) :
    (s.withOutcome o).vtag = s.vtag := rfl

@[simp] theorem State.withOutcome_vl (o : BlockOutcome) :
    (s.withOutcome o).vl = s.vl := rfl

@[simp] theorem State.withOutcome_velem (o : BlockOutcome) :
    (s.withOutcome o).velem = s.velem := rfl

@[simp] theorem State.withOutcome_serialized (o : BlockOutcome) :
    (s.withOutcome o).serialized = s.serialized := rfl

@[simp] theorem State.withOutcome_mem (o : BlockOutcome) :
    (s.withOutcome o).mem = s.mem := rfl

@[simp] theorem State.withOutcome_fetchView (o : BlockOutcome) :
    (s.withOutcome o).fetchView = s.fetchView := rfl

@[simp] theorem State.withOutcome_csrs (o : BlockOutcome) :
    (s.withOutcome o).csrs = s.csrs := rfl

@[simp] theorem State.withOutcome_fflags (o : BlockOutcome) :
    (s.withOutcome o).fflags = s.fflags := rfl

@[simp] theorem State.withOutcome_fsDirty (o : BlockOutcome) :
    (s.withOutcome o).fsDirty = s.fsDirty := rfl

@[simp] theorem State.withOutcome_log (o : BlockOutcome) :
    (s.withOutcome o).log = s.log := rfl

@[simp] theorem State.withOutcome_resumes (o : BlockOutcome) :
    (s.withOutcome o).resumes = s.resumes := rfl

@[simp] theorem State.withOutcome_outcome (o : BlockOutcome) :
    (s.withOutcome o).outcome = o := rfl

/-! ## withSerialized -/

@[simp] theorem State.withSerialized_params (b : Bool) :
    (s.withSerialized b).params = s.params := rfl

@[simp] theorem State.withSerialized_inputs (b : Bool) :
    (s.withSerialized b).inputs = s.inputs := rfl

@[simp] theorem State.withSerialized_pc (b : Bool) :
    (s.withSerialized b).pc = s.pc := rfl

@[simp] theorem State.withSerialized_xpr (b : Bool) :
    (s.withSerialized b).xpr = s.xpr := rfl

@[simp] theorem State.withSerialized_fpr (b : Bool) :
    (s.withSerialized b).fpr = s.fpr := rfl

@[simp] theorem State.withSerialized_vtag (b : Bool) :
    (s.withSerialized b).vtag = s.vtag := rfl

@[simp] theorem State.withSerialized_vl (b : Bool) :
    (s.withSerialized b).vl = s.vl := rfl

@[simp] theorem State.withSerialized_velem (b : Bool) :
    (s.withSerialized b).velem = s.velem := rfl

@[simp] theorem State.withSerialized_serialized (b : Bool) :
    (s.withSerialized b).serialized = b := rfl

@[simp] theorem State.withSerialized_mem (b : Bool) :
    (s.withSerialized b).mem = s.mem := rfl

@[simp] theorem State.withSerialized_fetchView (b : Bool) :
    (s.withSerialized b).fetchView = s.fetchView := rfl

@[simp] theorem State.withSerialized_csrs (b : Bool) :
    (s.withSerialized b).csrs = s.csrs := rfl

@[simp] theorem State.withSerialized_fflags (b : Bool) :
    (s.withSerialized b).fflags = s.fflags := rfl

@[simp] theorem State.withSerialized_fsDirty (b : Bool) :
    (s.withSerialized b).fsDirty = s.fsDirty := rfl

@[simp] theorem State.withSerialized_log (b : Bool) :
    (s.withSerialized b).log = s.log := rfl

@[simp] theorem State.withSerialized_resumes (b : Bool) :
    (s.withSerialized b).resumes = s.resumes := rfl

@[simp] theorem State.withSerialized_outcome (b : Bool) :
    (s.withSerialized b).outcome = s.outcome := rfl

/-! ## withMem -/

@[simp] theorem State.withMem_params (m : Memory) :
    (s.withMem m).params = s.params := rfl

@[simp] theorem State.withMem_inputs (m : Memory) :
    (s.withMem m).inputs = s.inputs := rfl

@[simp] theorem State.withMem_pc (m : Memory) :
    (s.withMem m).pc = s.pc := rfl

@[simp] theorem State.withMem_xpr (m : Memory) :
    (s.withMem m).xpr = s.xpr := rfl

@[simp] theorem State.withMem_fpr (m : Memory) :
    (s.withMem m).fpr = s.fpr := rfl

@[simp] theorem State.withMem_vtag (m : Memory) :
    (s.withMem m).vtag = s.vtag := rfl

@[simp] theorem State.withMem_vl (m : Memory) :
    (s.withMem m).vl = s.vl := rfl

@[simp] theorem State.withMem_velem (m : Memory) :
    (s.withMem m).velem = s.velem := rfl

@[simp] theorem State.withMem_serialized (m : Memory) :
    (s.withMem m).serialized = s.serialized := rfl

@[simp] theorem State.withMem_mem (m : Memory) :
    (s.withMem m).mem = m := rfl

@[simp] theorem State.withMem_fetchView (m : Memory) :
    (s.withMem m).fetchView = s.fetchView := rfl

@[simp] theorem State.withMem_csrs (m : Memory) :
    (s.withMem m).csrs = s.csrs := rfl

@[simp] theorem State.withMem_fflags (m : Memory) :
    (s.withMem m).fflags = s.fflags := rfl

@[simp] theorem State.withMem_fsDirty (m : Memory) :
    (s.withMem m).fsDirty = s.fsDirty := rfl

@[simp] theorem State.withMem_log (m : Memory) :
    (s.withMem m).log = s.log := rfl

@[simp] theorem State.withMem_resumes (m : Memory) :
    (s.withMem m).resumes = s.resumes := rfl

@[simp] theorem State.withMem_outcome (m : Memory) :
    (s.withMem m).outcome = s.outcome := rfl

/-! ## withCsrs -/

@[simp] theorem State.withCsrs_params (c : CsrStore) :
    (s.withCsrs c).params = s.params := rfl

@[simp] theorem State.withCsrs_inputs (c : CsrStore) :
    (s.withCsrs c).inputs = s.inputs := rfl

@[simp] theorem State.withCsrs_pc (c : CsrStore) :
    (s.withCsrs c).pc = s.pc := rfl

@[simp] theorem State.withCsrs_xpr (c : CsrStore) :
    (s.withCsrs c).xpr = s.xpr := rfl

@[simp] theorem State.withCsrs_fpr (c : CsrStore) :
    (s.withCsrs c).fpr = s.fpr := rfl

@[simp] theorem State.withCsrs_vtag (c : CsrStore) :
    (s.withCsrs c).vtag = s.vtag := rfl

@[simp] theorem State.withCsrs_vl (c : CsrStore) :
    (s.withCsrs c).vl = s.vl := rfl

@[simp] theorem State.withCsrs_velem (c : CsrStore) :
    (s.withCsrs c).velem = s.velem := rfl

@[simp] theorem State.withCsrs_serialized (c : CsrStore) :
    (s.withCsrs c).serialized = s.serialized := rfl

@[simp] theorem State.withCsrs_mem (c : CsrStore) :
    (s.withCsrs c).mem = s.mem := rfl

@[simp] theorem State.withCsrs_fetchView (c : CsrStore) :
    (s.withCsrs c).fetchView = s.fetchView := rfl

@[simp] theorem State.withCsrs_csrs (c : CsrStore) :
    (s.withCsrs c).csrs = c := rfl

@[simp] theorem State.withCsrs_fflags (c : CsrStore) :
    (s.withCsrs c).fflags = s.fflags := rfl

@[simp] theorem State.withCsrs_fsDirty (c : CsrStore) :
    (s.withCsrs c).fsDirty = s.fsDirty := rfl

@[simp] theorem State.withCsrs_log (c : CsrStore) :
    (s.withCsrs c).log = s.log := rfl

@[simp] theorem State.withCsrs_resumes (c : CsrStore) :
    (s.withCsrs c).resumes = s.resumes := rfl

@[simp] theorem State.withCsrs_outcome (c : CsrStore) :
    (s.withCsrs c).outcome = s.outcome := rfl

/-! ## withPc -/

@[simp] theorem State.withPc_params (a : Word) :
    (s.withPc a).params = s.params := rfl

@[simp] theorem State.withPc_inputs (a : Word) :
    (s.withPc a).inputs = s.inputs := rfl

@[simp] theorem State.withPc_pc (a : Word) :
    (s.withPc a).pc = a := rfl

@[simp] theorem State.withPc_xpr (a : Word) :
    (s.withPc a).xpr = s.xpr := rfl

@[simp] theorem State.withPc_fpr (a : Word) :
    (s.withPc a).fpr = s.fpr := rfl

@[simp] theorem State.withPc_vtag (a : Word) :
    (s.withPc a).vtag = s.vtag := rfl

@[simp] theorem State.withPc_vl (a : Word) :
    (s.withPc a).vl = s.vl := rfl

@[simp] theorem State.withPc_velem (a : Word) :
    (s.withPc a).velem = s.velem := rfl

@[simp] theorem State.withPc_serialized (a : Word) :
    (s.withPc a).serialized = s.serialized := rfl

@[simp] theorem State.withPc_mem (a : Word) :
    (s.withPc a).mem = s.mem := rfl

@[simp] theorem State.withPc_fetchView (a : Word) :
    (s.withPc a).fetchView = s.fetchView := rfl

@[simp] theorem State.withPc_csrs (a : Word) :
    (s.withPc a).csrs = s.csrs := rfl

@[simp] theorem State.withPc_fflags (a : Word) :
    (s.withPc a).fflags = s.fflags := rfl

@[simp] theorem State.withPc_fsDirty (a : Word) :
    (s.withPc a).fsDirty = s.fsDirty := rfl

@[simp] theorem State.withPc_log (a : Word) :
    (s.withPc a).log = s.log := rfl

@[simp] theorem State.withPc_resumes (a : Word) :
    (s.withPc a).resumes = s.resumes := rfl

@[simp] theorem State.withPc_outcome (a : Word) :
    (s.withPc a).outcome = s.outcome := rfl

/-! ## logged -/

@[simp] theorem State.logged_params (e : LogEntry) :
    (s.logged e).params = s.params := rfl

@[simp] theorem State.logged_inputs (e : LogEntry) :
    (s.logged e).inputs = s.inputs := rfl

@[simp] theorem State.logged_pc (e : LogEntry) :
    (s.logged e).pc = s.pc := rfl

@[simp] theorem State.logged_xpr (e : LogEntry) :
    (s.logged e).xpr = s.xpr := rfl

@[simp] theorem State.logged_fpr (e : LogEntry) :
    (s.logged e).fpr = s.fpr := rfl

@[simp] theorem State.logged_vtag (e : LogEntry) :
    (s.logged e).vtag = s.vtag := rfl

@[simp] theorem State.logged_vl (e : LogEntry) :
    (s.logged e).vl = s.vl := rfl

@[simp] theorem State.logged_velem (e : LogEntry) :
    (s.logged e).velem = s.velem := rfl

@[simp] theorem State.logged_serialized (e : LogEntry) :
    (s.logged e).serialized = s.serialized := rfl

@[simp] theorem State.logged_mem (e : LogEntry) :
    (s.logged e).mem = s.mem := rfl

@[simp] theorem State.logged_fetchView (e : LogEntry) :
    (s.logged e).fetchView = s.fetchView := rfl

@[simp] theorem State.logged_csrs (e : LogEntry) :
    (s.logged e).csrs = s.csrs := rfl

@[simp] theorem State.logged_fflags (e : LogEntry) :
    (s.logged e).fflags = s.fflags := rfl

@[simp] theorem State.logged_fsDirty (e : LogEntry) :
    (s.logged e).fsDirty = s.fsDirty := rfl

@[simp] theorem State.logged_log (e : LogEntry) :
    (s.logged e).log = if s.params.logEnabled then s.log ++ [e] else s.log := rfl

@[simp] theorem State.logged_resumes (e : LogEntry) :
    (s.logged e).resumes = s.resumes := rfl

@[simp] theorem State.logged_outcome (e : LogEntry) :
    (s.logged e).outcome = s.outcome := rfl

/-! ## putX -/

@[simp] theorem State.putX_params (i : Reg) (v : Word) :
    (s.putX i v).params = s.params := rfl

@[simp] theorem State.putX_inputs (i : Reg) (v : Word) :
    (s.putX i v).inputs = s.inputs := rfl

@[simp] theorem State.putX_pc (i : Reg) (v : Word) :
    (s.putX i v).pc = s.pc := rfl

@[simp] theorem State.putX_xpr (i : Reg) (v : Word) :
    (s.putX i v).xpr = if i = 0 then s.xpr else s.xpr.set i.toNat v i.isLt := rfl

@[simp] theorem State.putX_fpr (i : Reg) (v : Word) :
    (s.putX i v).fpr = s.fpr := rfl

@[simp] theorem State.putX_vtag (i : Reg) (v : Word) :
    (s.putX i v).vtag = s.vtag := rfl

@[simp] theorem State.putX_vl (i : Reg) (v : Word) :
    (s.putX i v).vl = s.vl := rfl

@[simp] theorem State.putX_velem (i : Reg) (v : Word) :
    (s.putX i v).velem = s.velem := rfl

@[simp] theorem State.putX_serialized (i : Reg) (v : Word) :
    (s.putX i v).serialized = s.serialized := rfl

@[simp] theorem State.putX_mem (i : Reg) (v : Word) :
    (s.putX i v).mem = s.mem := rfl

@[simp] theorem State.putX_fetchView (i : Reg) (v : Word) :
    (s.putX i v).fetchView = s.fetchView := rfl

@[simp] theorem State.putX_csrs (i : Reg) (v : Word) :
    (s.putX i v).csrs = s.csrs := rfl

@[simp] theorem State.putX_fflags (i : Reg) (v : Word) :
    (s.putX i v).fflags = s.fflags := rfl

@[simp] theorem State.putX_fsDirty (i : Reg) (v : Word) :
    (s.putX i v).fsDirty = s.fsDirty := rfl

@[simp] theorem State.putX_log (i : Reg) (v : Word) :
    (s.putX i v).log = if s.params.logEnabled then s.log ++ [.int i v] else s.log := rfl

@[simp] theorem State.putX_resumes (i : Reg) (v : Word) :
    (s.putX i v).resumes = s.resumes := rfl

@[simp] theorem State.putX_outcome (i : Reg) (v : Word) :
    (s.putX i v).outcome = s.outcome := rfl

/-! ## putF -/

@[simp] theorem State.putF_params (i : Reg) (c : Wide) :
    (s.putF i c).params = s.params := rfl

@[simp] theorem State.putF_inputs (i : Reg) (c : Wide) :
    (s.putF i c).inputs = s.inputs := rfl

@[simp] theorem State.putF_pc (i : Reg) (c : Wide) :
    (s.putF i c).pc = s.pc := rfl

@[simp] theorem State.putF_xpr (i : Reg) (c : Wide) :
    (s.putF i c).xpr = s.xpr := rfl

@[simp] theorem State.putF_fpr (i : Reg) (c : Wide) :
    (s.putF i c).fpr = s.fpr.set i.toNat c i.isLt := rfl

@[simp] theorem State.putF_vtag (i : Reg) (c : Wide) :
    (s.putF i c).vtag = s.vtag := rfl

@[simp] theorem State.putF_vl (i : Reg) (c : Wide) :
    (s.putF i c).vl = s.vl := rfl

@[simp] theorem State.putF_velem (i : Reg) (c : Wide) :
    (s.putF i c).velem = s.velem := rfl

@[simp] theorem State.putF_serialized (i : Reg) (c : Wide) :
    (s.putF i c).serialized = s.serialized := rfl

@[simp] theorem State.putF_mem (i : Reg) (c : Wide) :
    (s.putF i c).mem = s.mem := rfl

@[simp] theorem State.putF_fetchView (i : Reg) (c : Wide) :
    (s.putF i c).fetchView = s.fetchView := rfl

@[simp] theorem State.putF_csrs (i : Reg) (c : Wide) :
    (s.putF i c).csrs = s.csrs := rfl

@[simp] theorem State.putF_fflags (i : Reg) (c : Wide) :
    (s.putF i c).fflags = s.fflags := rfl

@[simp] theorem State.putF_fsDirty (i : Reg) (c : Wide) :
    (s.putF i c).fsDirty = true := rfl

@[simp] theorem State.putF_log (i : Reg) (c : Wide) :
    (s.putF i c).log = if s.params.logEnabled then s.log ++ [.float i c] else s.log := rfl

@[simp] theorem State.putF_resumes (i : Reg) (c : Wide) :
    (s.putF i c).resumes = s.resumes := rfl

@[simp] theorem State.putF_outcome (i : Reg) (c : Wide) :
    (s.putF i c).outcome = s.outcome := rfl

/-! ## putCsr -/

@[simp] theorem State.putCsr_params (a : CsrAddr) (v : Word) :
    (s.putCsr a v).params = s.params := rfl

@[simp] theorem State.putCsr_inputs (a : CsrAddr) (v : Word) :
    (s.putCsr a v).inputs = s.inputs := rfl

@[simp] theorem State.putCsr_pc (a : CsrAddr) (v : Word) :
    (s.putCsr a v).pc = s.pc := rfl

@[simp] theorem State.putCsr_xpr (a : CsrAddr) (v : Word) :
    (s.putCsr a v).xpr = s.xpr := rfl

@[simp] theorem State.putCsr_fpr (a : CsrAddr) (v : Word) :
    (s.putCsr a v).fpr = s.fpr := rfl

@[simp] theorem State.putCsr_vtag (a : CsrAddr) (v : Word) :
    (s.putCsr a v).vtag = s.vtag := rfl

@[simp] theorem State.putCsr_vl (a : CsrAddr) (v : Word) :
    (s.putCsr a v).vl = s.vl := rfl

@[simp] theorem State.putCsr_velem (a : CsrAddr) (v : Word) :
    (s.putCsr a v).velem = s.velem := rfl

@[simp] theorem State.putCsr_serialized (a : CsrAddr) (v : Word) :
    (s.putCsr a v).serialized = s.serialized := rfl

@[simp] theorem State.putCsr_mem (a : CsrAddr) (v : Word) :
    (s.putCsr a v).mem = s.mem := rfl

@[simp] theorem State.putCsr_fetchView (a : CsrAddr) (v : Word) :
    (s.putCsr a v).fetchView = s.fetchView := rfl

@[simp] theorem State.putCsr_csrs (a : CsrAddr) (v : Word) :
    (s.putCsr a v).csrs = setCell unlistedCsr s.csrs a.toNat (csrMerge s.params a (s.csrAt a) v) := rfl

@[simp] theorem State.putCsr_fflags (a : CsrAddr) (v : Word) :
    (s.putCsr a v).fflags = s.fflags := rfl

@[simp] theorem State.putCsr_fsDirty (a : CsrAddr) (v : Word) :
    (s.putCsr a v).fsDirty = s.fsDirty := rfl

@[simp] theorem State.putCsr_log (a : CsrAddr) (v : Word) :
    (s.putCsr a v).log = s.log := rfl

@[simp] theorem State.putCsr_resumes (a : CsrAddr) (v : Word) :
    (s.putCsr a v).resumes = s.resumes := rfl

@[simp] theorem State.putCsr_outcome (a : CsrAddr) (v : Word) :
    (s.putCsr a v).outcome = s.outcome := rfl

/-! ## putElem -/

@[simp] theorem State.putElem_params (r : Reg) (w : EWidth) (e : Nat) (v : Wide) :
    (s.putElem r w e v).params = s.params := rfl

@[simp] theorem State.putElem_inputs (r : Reg) (w : EWidth) (e : Nat) (v : Wide) :
    (s.putElem r w e v).inputs = s.inputs := rfl

@[simp] theorem State.putElem_pc (r : Reg) (w : EWidth) (e : Nat) (v : Wide) :
    (s.putElem r w e v).pc = s.pc := rfl

@[simp] theorem State.putElem_xpr (r : Reg) (w : EWidth) (e : Nat) (v : Wide) :
    (s.putElem r w e v).xpr = s.xpr := rfl

@[simp] theorem State.putElem_fpr (r : Reg) (w : EWidth) (e : Nat) (v : Wide) :
    (s.putElem r w e v).fpr = s.fpr := rfl

@[simp] theorem State.putElem_vtag (r : Reg) (w : EWidth) (e : Nat) (v : Wide) :
    (s.putElem r w e v).vtag = s.vtag := rfl

@[simp] theorem State.putElem_vl (r : Reg) (w : EWidth) (e : Nat) (v : Wide) :
    (s.putElem r w e v).vl = s.vl := rfl

@[simp] theorem State.putElem_velem (r : Reg) (w : EWidth) (e : Nat) (v : Wide) :
    (s.putElem r w e v).velem = s.velem.set r.toNat ((s.velem[r.toNat]'r.isLt).set e (storedElem s.params r w v)) r.isLt := rfl

@[simp] theorem State.putElem_serialized (r : Reg) (w : EWidth) (e : Nat) (v : Wide) :
    (s.putElem r w e v).serialized = s.serialized := rfl

@[simp] theorem State.putElem_mem (r : Reg) (w : EWidth) (e : Nat) (v : Wide) :
    (s.putElem r w e v).mem = s.mem := rfl

@[simp] theorem State.putElem_fetchView (r : Reg) (w : EWidth) (e : Nat) (v : Wide) :
    (s.putElem r w e v).fetchView = s.fetchView := rfl

@[simp] theorem State.putElem_csrs (r : Reg) (w : EWidth) (e : Nat) (v : Wide) :
    (s.putElem r w e v).csrs = s.csrs := rfl

@[simp] theorem State.putElem_fflags (r : Reg) (w : EWidth) (e : Nat) (v : Wide) :
    (s.putElem r w e v).fflags = s.fflags := rfl

@[simp] theorem State.putElem_fsDirty (r : Reg) (w : EWidth) (e : Nat) (v : Wide) :
    (s.putElem r w e v).fsDirty = s.fsDirty := rfl

@[simp] theorem State.putElem_log (r : Reg) (w : EWidth) (e : Nat) (v : Wide) :
    (s.putElem r w e v).log = s.log := rfl

@[simp] theorem State.putElem_resumes (r : Reg) (w : EWidth) (e : Nat) (v : Wide) :
    (s.putElem r w e v).resumes = s.resumes := rfl

@[simp] theorem State.putElem_outcome (r : Reg) (w : EWidth) (e : Nat) (v : Wide) :
    (s.putElem r w e v).outcome = s.outcome := rfl

/-! ## configured -/

@[simp] theorem State.configured_params (avl : Word) (g : Groups) :
    (s.configured avl g).params = s.params := rfl

@[simp] theorem State.configured_inputs (avl : Word) (g : Groups) :
    (s.configured avl g).inputs = s.inputs := rfl

@[simp] theorem State.configured_pc (avl : Word) (g : Groups) :
    (s.configured avl g).pc = s.pc := rfl

@[simp] theorem State.configured_xpr (avl : Word) (g : Groups) :
    (s.configured avl g).xpr = s.xpr := rfl

@[simp] theorem State.configured_fpr (avl : Word) (g : Groups) :
    (s.configured avl g).fpr = s.fpr := rfl

@[simp] theorem State.configured_vtag (avl : Word) (g : Groups) :
    (s.configured avl g).vtag = tagFile g := rfl

@[simp] theorem State.configured_vl (avl : Word) (g : Groups) :
    (s.configured avl g).vl = min avl.toNat (maxVlOf s.params g) := rfl

@[simp] theorem State.configured_velem (avl : Word) (g : Groups) :
    (s.configured avl g).velem = Vector.replicate 32 (List.replicate s.params.vlmax 0) := rfl

@[simp] theorem State.configured_serialized (avl : Word) (g : Groups) :
    (s.configured avl g).serialized = s.serialized := rfl

@[simp] theorem State.configured_mem (avl : Word) (g : Groups) :
    (s.configured avl g).mem = s.mem := rfl

@[simp] theorem State.configured_fetchView (avl : Word) (g : Groups) :
    (s.configured avl g).fetchView = s.fetchView := rfl

@[simp] theorem State.configured_csrs (avl : Word) (g : Groups) :
    (s.configured avl g).csrs = s.csrs := rfl

@[simp] theorem State.configured_fflags (avl : Word) (g : Groups) :
    (s.configured avl g).fflags = s.fflags := rfl

@[simp] theorem State.configured_fsDirty (avl : Word) (g : Groups) :
    (s.configured avl g).fsDirty = s.fsDirty := rfl

@[simp] theorem State.configured_log (avl : Word) (g : Groups) :
    (s.configured avl g).log = s.log := rfl

@[simp] theorem State.configured_resumes (avl : Word) (g : Groups) :
    (s.configured avl g).resumes = s.resumes := rfl

@[simp] theorem State.configured_outcome (avl : Word) (g : Groups) :
    (s.configured avl g).outcome = s.outcome := rfl

/-! ## Views through the updates -/

@[simp] theorem State.withOutcome_x (o : BlockOutcome) (r : Reg) :
    (s.withOutcome o).x r = s.x r := rfl

@[simp] theorem State.withOutcome_hasX (o : BlockOutcome) (r : Reg) :
    (s.withOutcome o).hasX r = s.hasX r := rfl

@[simp] theorem State.withOutcome_f (o : BlockOutcome) (r : Reg) :
    (s.withOutcome o).f r = s.f r := rfl

@[simp] theorem State.withOutcome_csrAt (o : BlockOutcome) (k : CsrAddr) :
    (s.withOutcome o).csrAt k = s.csrAt k := rfl

@[simp] theorem State.withOutcome_tagOf (o : BlockOutcome) (r : Reg) :
    (s.withOutcome o).tagOf r = s.tagOf r := rfl

@[simp] theorem State.withOutcome_elemCell (o : BlockOutcome) (r : Reg) (n : Nat) :
    (s.withOutcome o).elemCell r n = s.elemCell r n := rfl

@[simp] theorem State.withOutcome_npcDefault (o : BlockOutcome) (n : Nat) :
    npcDefault (s.withOutcome o) n = npcDefault s n := rfl

@[simp] theorem State.withOutcome_relTarget (o : BlockOutcome) (d : Word) :
    relTarget (s.withOutcome o) d = relTarget s d := rfl

@[simp] theorem State.withOutcome_supports (o : BlockOutcome) (x : Ext) :
    supports (s.withOutcome o) x = supports s x := by cases x <;> rfl

@[simp] theorem State.withOutcome_targetMisaligned (o : BlockOutcome) (t : Word) :
    targetMisaligned (s.withOutcome o) t = targetMisaligned s t := rfl

@[simp] theorem State.withOutcome_targetFault (o : BlockOutcome) (t : Word) :
    targetFault (s.withOutcome o) t = targetFault s t := rfl

@[simp] theorem State.withOutcome_effLen (o : BlockOutcome) (t : Tag) :
    effLen (s.withOutcome o) t = effLen s t := rfl

@[simp] theorem State.withSerialized_x (b : Bool) (r : Reg) :
    (s.withSerialized b).x r = s.x r := rfl

@[simp] theorem State.withSerialized_hasX (b : Bool) (r : Reg) :
    (s.withSerialized b).hasX r = s.hasX r := rfl

@[simp] theorem State.withSerialized_f (b : Bool) (r : Reg) :
    (s.withSerialized b).f r = s.f r := rfl

@[simp] theorem State.withSerialized_csrAt (b : Bool) (k : CsrAddr) :
    (s.withSerialized b).csrAt k = s.csrAt k := rfl

@[simp] theorem State.withSerialized_tagOf (b : Bool) (r : Reg) :
    (s.withSerialized b).tagOf r = s.tagOf r := rfl

@[simp] theorem State.withSerialized_elemCell (b : Bool) (r : Reg) (n : Nat) :
    (s.withSerialized b).elemCell r n = s.elemCell r n := rfl

@[simp] theorem State.withSerialized_npcDefault (b : Bool) (n : Nat) :
    npcDefault (s.withSerialized b) n = npcDefault s n := rfl

@[simp] theorem State.withSerialized_relTarget (b : Bool) (d : Word) :
    relTarget (s.withSerialized b) d = relTarget s d := rfl

@[simp] theorem State.withSerialized_supports (b : Bool) (x : Ext) :
    supports (s.withSerialized b) x = supports s x := by cases x <;> rfl

@[simp] theorem State.withSerialized_targetMisaligned (b : Bool) (t : Word) :
    targetMisaligned (s.withSerialized b) t = targetMisaligned s t := rfl

@[simp] theorem State.withSerialized_targetFault (b : Bool) (t : Word) :
    targetFault (s.withSerialized b) t = targetFault s t := rfl

@[simp] theorem State.withSerialized_effLen (b : Bool) (t : Tag) :
    effLen (s.withSerialized b) t = effLen s t := rfl

@[simp] theorem State.withMem_x (m : Memory) (r : Reg) :
    (s.withMem m).x r = s.x r := rfl

@[simp] theorem State.withMem_hasX (m : Memory) (r : Reg) :
    (s.withMem m).hasX r = s.hasX r := rfl

@[simp] theorem State.withMem_f (m : Memory) (r : Reg) :
    (s.withMem m).f r = s.f r := rfl

@[simp] theorem State.withMem_csrAt (m : Memory) (k : CsrAddr) :
    (s.withMem m).csrAt k = s.csrAt k := rfl

@[simp] theorem State.withMem_tagOf (m : Memory) (r : Reg) :
    (s.withMem m).tagOf r = s.tagOf r := rfl

@[simp] theorem State.withMem_elemCell (m : Memory) (r : Reg) (n : Nat) :
    (s.withMem m).elemCell r n = s.elemCell r n := rfl

@[simp] theorem State.withMem_npcDefault (m : Memory) (n : Nat) :
    npcDefault (s.withMem m) n = npcDefault s n := rfl

@[simp] theorem State.withMem_relTarget (m : Memory) (d : Word) :
    relTarget (s.withMem m) d = relTarget s d := rfl

@[simp] theorem State.withMem_supports (m : Memory) (x : Ext) :
    supports (s.withMem m) x = supports s x := by cases x <;> rfl

@[simp] theorem State.withMem_targetMisaligned (m : Memory) (t : Word) :
    targetMisaligned (s.withMem m) t = targetMisaligned s t := rfl

@[simp] theorem State.withMem_targetFault (m : Memory) (t : Word) :
    targetFault (s.withMem m) t = targetFault s t := rfl

@[simp] theorem State.withMem_effLen (m : Memory) (t : Tag) :
    effLen (s.withMem m) t = effLen s t := rfl

@[simp] theorem State.withCsrs_x (c : CsrStore) (r : Reg) :
    (s.withCsrs c).x r = s.x r := rfl

@[simp] theorem State.withCsrs_hasX (c : CsrStore) (r : Reg) :
    (s.withCsrs c).hasX r = s.hasX r := rfl

@[simp] theorem State.withCsrs_f (c : CsrStore) (r : Reg) :
    (s.withCsrs c).f r = s.f r := rfl

@[simp] theorem State.withCsrs_tagOf (c : CsrStore) (r : Reg) :
    (s.withCsrs c).tagOf r = s.tagOf r := rfl

@[simp] theorem State.withCsrs_elemCell (c : CsrStore) (r : Reg) (n : Nat) :
    (s.withCsrs c).elemCell r n = s.elemCell r n := rfl

@[simp] theorem State.withCsrs_npcDefault (c : CsrStore) (n : Nat) :
    npcDefault (s.withCsrs c) n = npcDefault s n := rfl

@[simp] theorem State.withCsrs_relTarget (c : CsrStore) (d : Word) :
    relTarget (s.withCsrs c) d = relTarget s d := rfl

@[simp] theorem State.withCsrs_supports (c : CsrStore) (x : Ext) :
    supports (s.withCsrs c) x = supports s x := by cases x <;> rfl

@[simp] theorem State.withCsrs_targetMisaligned (c : CsrStore) (t : Word) :
    targetMisaligned (s.withCsrs c) t = targetMisaligned s t := rfl

@[simp] theorem State.withCsrs_targetFault (c : CsrStore) (t : Word) :
    targetFault (s.withCsrs c) t = targetFault s t := rfl

@[simp] theorem State.withCsrs_effLen (c : CsrStore) (t : Tag) :
    effLen (s.withCsrs c) t = effLen s t := rfl

@[simp] theorem State.withPc_x (a : Word) (r : Reg) :
    (s.withPc a).x r = s.x r := rfl

@[simp] theorem State.withPc_hasX (a : Word) (r : Reg) :
    (s.withPc a).hasX r = s.hasX r := rfl

@[simp] theorem State.withPc_f (a : Word) (r : Reg) :
    (s.withPc a).f r = s.f r := rfl

@[simp] theorem State.withPc_csrAt (a : Word) (k : CsrAddr) :
    (s.withPc a).csrAt k = s.csrAt k := rfl

@[simp] theorem State.withPc_tagOf (a : Word) (r : Reg) :
    (s.withPc a).tagOf r = s.tagOf r := rfl

@[simp] theorem State.withPc_elemCell (a : Word) (r : Reg) (n : Nat) :
    (s.withPc a).elemCell r n = s.elemCell r n := rfl

@[simp] theorem State.withPc_supports (a : Word) (x : Ext) :
    supports (s.withPc a) x = supports s x := by cases x <;> rfl

@[simp] theorem State.withPc_targetMisaligned (a : Word) (t : Word) :
    targetMisaligned (s.withPc a) t = targetMisaligned s t := rfl

@[simp] theorem State.withPc_targetFault (a : Word) (t : Word) :
    targetFault (s.withPc a) t = targetFault s t := rfl

@[simp] theorem State.withPc_effLen (a : Word) (t : Tag) :
    effLen (s.withPc a) t = effLen s t := rfl

@[simp] theorem State.logged_x (e : LogEntry) (r : Reg) :
    (s.logged e).x r = s.x r := rfl

@[simp] theorem State.logged_hasX (e : LogEntry) (r : Reg) :
    (s.logged e).hasX r = s.hasX r := rfl

@[simp] theorem State.logged_f (e : LogEntry) (r : Reg) :
    (s.logged e).f r = s.f r := rfl

@[simp] theorem State.logged_csrAt (e : LogEntry) (k : CsrAddr) :
    (s.logged e).csrAt k = s.csrAt k := rfl

@[simp] theorem State.logged_tagOf (e : LogEntry) (r : Reg) :
    (s.logged e).tagOf r = s.tagOf r := rfl

@[simp] theorem State.logged_elemCell (e : LogEntry) (r : Reg) (n : Nat) :
    (s.logged e).elemCell r n = s.elemCell r n := rfl

@[simp] theorem State.logged_npcDefault (e : LogEntry) (n : Nat) :
    npcDefault (s.logged e) n = npcDefault s n := rfl

@[simp] theorem State.logged_relTarget (e : LogEntry) (d : Word) :
    relTarget (s.logged e) d = relTarget s d := rfl

@[simp] theorem State.logged_supports (e : LogEntry) (x : Ext) :
    supports (s.logged e) x = supports s x := by cases x <;> rfl

@[simp] theorem State.logged_targetMisaligned (e : LogEntry) (t : Word) :
    targetMisaligned (s.logged e) t = targetMisaligned s t := rfl

@[simp] theorem State.logged_targetFault (e : LogEntry) (t : Word) :
    targetFault (s.logged e) t = targetFault s t := rfl

@[simp] theorem State.logged_effLen (e : LogEntry) (t : Tag) :
    effLen (s.logged e) t = effLen s t := rfl

@[simp] theorem State.putX_hasX (i : Reg) (v : Word) (r : Reg) :
    (s.putX i v).hasX r = s.hasX r := rfl

@[simp] theorem State.putX_f (i : Reg) (v : Word) (r : Reg) :
    (s.putX i v).f r = s.f r := rfl

@[simp] theorem State.putX_csrAt (i : Reg) (v : Word) (k : CsrAddr) :
    (s.putX i v).csrAt k = s.csrAt k := rfl

@[simp] theorem State.putX_tagOf (i : Reg) (v : Word) (r : Reg) :
    (s.putX i v).tagOf r = s.tagOf r := rfl

@[simp] theorem State.putX_elemCell (i : Reg) (v : Word) (r : Reg) (n : Nat) :
    (s.putX i v).elemCell r n = s.elemCell r n := rfl

@[simp] theorem State.putX_npcDefault (i : Reg) (v : Word) (n : Nat) :
    npcDefault (s.putX i v) n = npcDefault s n := rfl

@[simp] theorem State.putX_relTarget (i : Reg) (v : Word) (d : Word) :
    relTarget (s.putX i v) d = relTarget s d := rfl

@[simp] theorem State.putX_supports (i : Reg) (v : Word) (x : Ext) :
    supports (s.putX i v) x = supports s x := by cases x <;> rfl

@[simp] theorem State.putX_targetMisaligned (i : Reg) (v : Word) (t : Word) :
    targetMisaligned (s.putX i v) t = targetMisaligned s t := rfl

@[simp] theorem State.putX_targetFault (i : Reg) (v : Word) (t : Word) :
    targetFault (s.putX i v) t = targetFault s t := rfl

@[simp] theorem State.putX_effLen (i : Reg) (v : Word) (t : Tag) :
    effLen (s.putX i v) t = effLen s t := rfl

@[simp] theorem State.putF_x (i : Reg) (c : Wide) (r : Reg) :
    (s.putF i c).x r = s.x r := rfl

@[simp] theorem State.putF_hasX (i : Reg) (c : Wide) (r : Reg) :
    (s.putF i c).hasX r = s.hasX r := rfl

@[simp] theorem State.putF_csrAt (i : Reg) (c : Wide) (k : CsrAddr) :
    (s.putF i c).csrAt k = s.csrAt k := rfl

@[simp] theorem State.putF_tagOf (i : Reg) (c : Wide) (r : Reg) :
    (s.putF i c).tagOf r = s.tagOf r := rfl

@[simp] theorem State.putF_elemCell (i : Reg) (c : Wide) (r : Reg) (n : Nat) :
    (s.putF i c).elemCell r n = s.elemCell r n := rfl

@[simp] theorem State.putF_npcDefault (i : Reg) (c : Wide) (n : Nat) :
    npcDefault (s.putF i c) n = npcDefault s n := rfl

@[simp] theorem State.putF_relTarget (i : Reg) (c : Wide) (d : Word) :
    relTarget (s.putF i c) d = relTarget s d := rfl

@[simp] theorem State.putF_supports (i : Reg) (c : Wide) (x : Ext) :
    supports (s.putF i c) x = supports s x := by cases x <;> rfl

@[simp] theorem State.putF_targetMisaligned (i : Reg) (c : Wide) (t : Word) :
    targetMisaligned (s.putF i c) t = targetMisaligned s t := rfl

@[simp] theorem State.putF_targetFault (i : Reg) (c : Wide) (t : Word) :
    targetFault (s.putF i c) t = targetFault s t := rfl

@[simp] theorem State.putF_effLen (i : Reg) (c : Wide) (t : Tag) :
    effLen (s.putF i c) t = effLen s t := rfl

@[simp] theorem State.putCsr_x (a : CsrAddr) (v : Word) (r : Reg) :
    (s.putCsr a v).x r = s.x r := rfl

@[simp] theorem State.putCsr_hasX (a : CsrAddr) (v : Word) (r : Reg) :
    (s.putCsr a v).hasX r = s.hasX r := rfl

@[simp] theorem State.putCsr_f (a : CsrAddr) (v : Word) (r : Reg) :
    (s.putCsr a v).f r = s.f r := rfl

@[simp] theorem State.putCsr_tagOf (a : CsrAddr) (v : Word) (r : Reg) :
    (s.putCsr a v).tagOf r = s.tagOf r := rfl

@[simp] theorem State.putCsr_elemCell (a : CsrAddr) (v : Word) (r : Reg) (n : Nat) :
    (s.putCsr a v).elemCell r n = s.elemCell r n := rfl

@[simp] theorem State.putCsr_npcDefault (a : CsrAddr) (v : Word) (n : Nat) :
    npcDefault (s.putCsr a v) n = npcDefault s n := rfl

@[simp] theorem State.putCsr_relTarget (a : CsrAddr) (v : Word) (d : Word) :
    relTarget (s.putCsr a v) d = relTarget s d := rfl

@[simp] theorem State.putCsr_supports (a : CsrAddr) (v : Word) (x : Ext) :
    supports (s.putCsr a v) x = supports s x := by cases x <;> rfl

@[simp] theorem State.putCsr_targetMisaligned (a : CsrAddr) (v : Word) (t : Word) :
    targetMisaligned (s.putCsr a v) t = targetMisaligned s t := rfl

@[simp] theorem State.putCsr_targetFault (a : CsrAddr) (v : Word) (t : Word) :
    targetFault (s.putCsr a v) t = targetFault s t := rfl

@[simp] theorem State.putCsr_effLen (a : CsrAddr) (v : Word) (t : Tag) :
    effLen (s.putCsr a v) t = effLen s t := rfl

@[simp] theorem State.putElem_x (r : Reg) (w : EWidth) (e : Nat) (v : Wide) (q : Reg) :
    (s.putElem r w e v).x q = s.x q := rfl

@[simp] theorem State.putElem_hasX (r : Reg) (w : EWidth) (e : Nat) (v : Wide) (q : Reg) :
    (s.putElem r w e v).hasX q = s.hasX q := rfl

@[simp] theorem State.putElem_f (r : Reg) (w : EWidth) (e : Nat) (v : Wide) (q : Reg) :
    (s.putElem r w e v).f q = s.f q := rfl

@[simp] theorem State.putElem_csrAt (r : Reg) (w : EWidth) (e : Nat) (v : Wide) (k : CsrAddr) :
    (s.putElem r w e v).csrAt k = s.csrAt k := rfl

@[simp] theorem State.putElem_tagOf (r : Reg) (w : EWidth) (e : Nat) (v : Wide) (q : Reg) :
    (s.putElem r w e v).tagOf q = s.tagOf q := rfl

@[simp] theorem State.putElem_npcDefault (r : Reg) (w : EWidth) (e : Nat) (v : Wide) (n : Nat) :
    npcDefault (s.putElem r w e v) n = npcDefault s n := rfl

@[simp] theorem State.putElem_relTarget (r : Reg) (w : EWidth) (e : Nat) (v : Wide) (d : Word) :
    relTarget (s.putElem r w e v) d = relTarget s d := rfl

@[simp] theorem State.putElem_supports (r : Reg) (w : EWidth) (e : Nat) (v : Wide) (x : Ext) :
    supports (s.putElem r w e v) x = supports s x := by cases x <;> rfl

@[simp] theorem State.putElem_targetMisaligned (r : Reg) (w : EWidth) (e : Nat) (v : Wide) (t : Word) :
    targetMisaligned (s.putElem r w e v) t = targetMisaligned s t := rfl

@[simp] theorem State.putElem_targetFault (r : Reg) (w : EWidth) (e : Nat) (v : Wide) (t : Word) :
    targetFault (s.putElem r w e v) t = targetFault s t := rfl

@[simp] theorem State.putElem_effLen (r : Reg) (w : EWidth) (e : Nat) (v : Wide) (t : Tag) :
    effLen (s.putElem r w e v) t = effLen s t := rfl

@[simp] theorem State.configured_x (avl : Word) (g : Groups) (r : Reg) :
    (s.configured avl g).x r = s.x r := rfl

@[simp] theorem State.configured_hasX (avl : Word) (g : Groups) (r : Reg) :
    (s.configured avl g).hasX r = s.hasX r := rfl

@[simp] theorem State.configured_f (avl : Word) (g : Groups) (r : Reg) :
    (s.configured avl g).f r = s.f r := rfl

@[simp] theorem State.configured_csrAt (avl : Word) (g : Groups) (k : CsrAddr) :
    (s.configured avl g).csrAt k = s.csrAt k := rfl

@[simp] theorem State.configured_npcDefault (avl : Word) (g : Groups) (n : Nat) :
    npcDefault (s.configured avl g) n = npcDefault s n := rfl

@[simp] theorem State.configured_relTarget (avl : Word) (g : Groups) (d : Word) :
    relTarget (s.configured avl g) d = relTarget s d := rfl

@[simp] theorem State.configured_supports (avl : Word) (g : Groups) (x : Ext) :
    supports (s.configured avl g) x = supports s x := by cases x <;> rfl

@[simp] theorem State.configured_targetMisaligned (avl : Word) (g : Groups) (t : Word) :
    targetMisaligned (s.configured avl g) t = targetMisaligned s t := rfl

@[simp] theorem State.configured_targetFault (avl : Word) (g : Groups) (t : Word) :
    targetFault (s.configured avl g) t = targetFault s t := rfl

/-! ## The outcome is written last: any other update commutes with it, and the later outcome wins -/

@[simp] theorem State.withOutcome_withOutcome (o p : BlockOutcome) :
    (s.withOutcome o).withOutcome p = s.withOutcome p := rfl

@[simp] theorem State.putX_of_withOutcome (o : BlockOutcome) (r : Reg) (v : Word) :
    (s.withOutcome o).putX r v = (s.putX r v).withOutcome o := rfl

@[simp] theorem State.putF_of_withOutcome (o : BlockOutcome) (r : Reg) (c : Wide) :
    (s.withOutcome o).putF r c = (s.putF r c).withOutcome o := rfl

@[simp] theorem State.withMem_of_withOutcome (o : BlockOutcome) (m : Memory) :
    (s.withOutcome o).withMem m = (s.withMem m).withOutcome o := rfl

@[simp] theorem State.withSerialized_of_withOutcome (o : BlockOutcome) (b : Bool) :
    (s.withOutcome o).withSerialized b = (s.withSerialized b).withOutcome o := rfl

@[simp] theorem State.putCsr_of_withOutcome (o : BlockOutcome) (a : CsrAddr) (v : Word) :
    (s.withOutcome o).putCsr a v = (s.putCsr a v).withOutcome o := rfl

@[simp] theorem State.withPc_of_withOutcome (o : BlockOutcome) (a : Word) :
    (s.withOutcome o).withPc a = (s.withPc a).withOutcome o := rfl

end Sys2Proof.Machine
end

