-- ==== Sys2Proof/Laws/Body.lean ====
section
/-! SUPPORT. What each shared operation answers from a state: one lemma per operation, which callers cite instead of
unfolding it. Simplifying a body with these lemmas runs it symbolically. -/

namespace Sys2Proof.Machine

/-! ## Sequencing -/

@[simp] theorem pure_run {α : Type} (a : α) (s : State) : (pure a : Body α) s = .ok a s := rfl

@[simp] theorem bind_run {α β : Type} (b : Body α) (f : α → Body β) (s : State) :
    (b >>= f) s = match b s with
      | .ok a t => f a t
      | .error e t => .error e t := by
  simp only [bind, EStateM.bind]
  cases b s <;> rfl

@[simp] theorem map_run {α β : Type} (g : α → β) (b : Body α) (s : State) :
    (g <$> b) s = match b s with
      | .ok a t => .ok (g a) t
      | .error e t => .error e t := by
  simp only [Functor.map, EStateM.map]
  cases b s <;> rfl

@[simp] theorem look_run {α : Type} (f : State → α) (s : State) : look f s = .ok (f s) s := rfl

@[simp] theorem change_run (f : State → State) (s : State) : change f s = .ok () (f s) := rfl

@[simp] theorem stopIf_run (c : Bool) (e : Stop) (s : State) :
    stopIf c e s = if c = true then .error e s else .ok () s := rfl

@[simp] theorem illegalIf_run (f : State → Bool) (s : State) :
    illegalIf f s = if f s = true then .error .illegal s else .ok () s := rfl

@[simp] theorem when_run (c : Bool) (b : Body Unit) (s : State) :
    when c b s = if c = true then b s else .ok () s := rfl

/-! ## The shell around a body -/

/-- A body that ends by its last statement gives a next state as the body left it. -/
theorem runBody_of_ok {i : Instr} {b : Body Unit} {s t : State}
    (h : b (s.withOutcome (.next (npcDefault s (instrLength i)) .normal)) = .ok () t) : runBody i b s = .next t := by
  simp [runBody, runShell, h]

/-- A body that stops gives a next state with the outcome of the stop, all else as the body left it. -/
theorem runBody_of_error {i : Instr} {b : Body Unit} {s t : State} {e : Stop}
    (h : b (s.withOutcome (.next (npcDefault s (instrLength i)) .normal)) = .error e t) :
    runBody i b s = .next (t.withOutcome (stopOutcome (instrLength i) (encode i) t e)) := by
  simp [runBody, runShell, h]

/-- A word's body that ends by its last statement. -/
theorem runWord_of_ok {insn : Word} {b : Body Unit} {s t : State}
    (h : b (s.withOutcome (.next (npcDefault s (insnLength insn)) .normal)) = .ok () t) : runWord insn b s = .next t := by
  simp [runWord, runShell, h]

/-- A word's body that stops. -/
theorem runWord_of_error {insn : Word} {b : Body Unit} {s t : State} {e : Stop}
    (h : b (s.withOutcome (.next (npcDefault s (insnLength insn)) .normal)) = .error e t) :
    runWord insn b s = .next (t.withOutcome (stopOutcome (insnLength insn) insn t e)) := by
  simp [runWord, runShell, h]

/-- A body always answers a next state. -/
theorem runShell_next (n : Nat) (w : Word) (b : Body Unit) (s : State) : ∃ t, runShell n w b s = .next t := by
  unfold runShell
  split <;> exact ⟨_, rfl⟩

theorem runBody_next (i : Instr) (b : Body Unit) (s : State) : ∃ t, runBody i b s = .next t := runShell_next _ _ b s

theorem runWord_next (insn : Word) (b : Body Unit) (s : State) : ∃ t, runWord insn b s = .next t :=
  runShell_next _ _ b s

theorem runBody64_of_x64 {i : Instr} {b : Body Unit} {s : State} (h : s.inputs.xlen = .x64) :
    runBody64 i b s = runBody i b s := by simp [runBody64, h]

theorem runBody64_of_x32 {i : Instr} {b : Body Unit} {s : State} (h : s.inputs.xlen = .x32) :
    runBody64 i b s = .refused .rv64OnlyRow := by simp [runBody64, h]

/-! ## Gates -/

/-- A capability query answers, or its fault ends the body. -/
theorem querySupports_run (e : Ext) (s : State) :
    querySupports e s = match supports s e with
      | .yes => .ok true s
      | .no => .ok false s
      | .faults r => .error (.collaborator r) s := rfl

@[simp] theorem requireExt_run (e : Ext) (s : State) :
    requireExt e s = match supports s e with
      | .yes => .ok () s
      | .no => .error .illegal s
      | .faults r => .error (.collaborator r) s := by
  cases h : supports s e <;> simp [requireExt, querySupports, h]

@[simp] theorem requireFp_run (e : Ext) (s : State) :
    requireFp e s = match supports s e with
      | .yes => if s.inputs.fpEnabled = true then .ok () s else .error .illegal s
      | .no => .error .illegal s
      | .faults r => .error (.collaborator r) s := by
  cases h : supports s e <;> cases h' : s.inputs.fpEnabled <;> simp [requireFp, h, h']

/-! ## Registers -/

@[simp] theorem readX_run (i : Reg) (s : State) :
    readX i s = if s.hasX i = true then .ok (s.x i) s else .error .illegal s := by
  cases h : s.hasX i <;> simp [readX, checkX, h]

@[simp] theorem writeX_run (i : Reg) (v : Word) (s : State) :
    writeX i v s = if s.hasX i = true then .ok () (s.putX i v) else .error .illegal s := by
  cases h : s.hasX i <;> simp [writeX, checkX, h]

@[simp] theorem writeSext_run (i : Reg) (v : Word) (s : State) :
    writeSext i v s =
      if s.hasX i = true then .ok () (s.putX i (sextXlen s.inputs.xlen v)) else .error .illegal s := by
  simp [writeSext]

@[simp] theorem readF_run (i : Reg) (s : State) : readF i s = .ok (s.f i) s := rfl

@[simp] theorem writeF_run (i : Reg) (c : Wide) (s : State) : writeF i c s = .ok () (s.putF i c) := rfl

/-- The three widths of the reference instructions are boxed whatever the capabilities. -/
@[simp] theorem boxable_f32 (s : State) : boxable s .f32 = true := rfl

@[simp] theorem boxable_f64 (s : State) : boxable s .f64 = true := rfl

@[simp] theorem boxable_f128 (s : State) : boxable s .f128 = true := rfl

/-- Half precision is boxed exactly where it is supported. -/
@[simp] theorem boxable_f16 (s : State) : boxable s .f16 = (supports s .h == .yes) := by
  cases h : supports s .h <;> simp [boxable, boxWidths, h]

/-- A width that is boxed whatever the capabilities passes; the other one asks for half precision. -/
@[simp] theorem requireBoxable_run (w : FWidth) (s : State) :
    requireBoxable w s = if w = .f16 then requireExt .h s else .ok () s := by
  cases w <;> rfl

theorem requireBoxable_of_boxable {w : FWidth} {s : State} (h : boxable s w = true) :
    requireBoxable w s = .ok () s := by
  cases w with
  | f16 =>
    rw [boxable_f16, beq_iff_eq] at h
    simp [h]
  | f32 => rfl
  | f64 => rfl
  | f128 => rfl

theorem readFAt_of_boxable {w : FWidth} {s : State} (h : boxable s w = true) (i : Reg) :
    readFAt w i s = .ok (unbox w (s.f i)) s := by
  simp only [readFAt, bind_run, requireBoxable_of_boxable h, readF, look_run, pure_run]

theorem writeFAt_of_boxable {w : FWidth} {s : State} (h : boxable s w = true) (i : Reg) (v : Wide) :
    writeFAt w i v s = .ok () (s.putF i (box w v)) := by
  simp only [writeFAt, bind_run, requireBoxable_of_boxable h, writeF, change_run]

/-- The sign injections at the widths of the reference instructions. -/
@[simp] theorem injectSign_run (ext : Ext) {w : FWidth} (hw : w ≠ .f16) (n xr : Bool) (rd rs1 rs2 : Reg) (s : State) :
    injectSign ext w n xr rd rs1 rs2 s =
      match supports s ext with
      | .yes =>
        if s.inputs.fpEnabled = true then .ok () (s.putF rd (fsgnj w n xr (s.f rs1) (s.f rs2))) else .error .illegal s
      | .no => .error .illegal s
      | .faults r => .error (.collaborator r) s := by
  cases h : supports s ext <;> cases h' : s.inputs.fpEnabled <;> simp [injectSign, h, h', hw, readF, writeF]

/-! ## Memory -/

@[simp] theorem readAddr_run (b : Reg) (off : Word) (s : State) :
    readAddr b off s = if s.hasX b = true then .ok (effAddr (s.x b) off) s else .error .illegal s := by
  cases h : s.hasX b <;> simp [readAddr, h]

/-- An access faults as the memory subsystem says, or leaves the state. -/
theorem checkAccess_run (k : AccessKind) (n : Nat) (a : Word) (s : State) :
    checkAccess k n a s = match accessFault s.params k n a with
      | some r => .error (.collaborator r) s
      | none => .ok () s := rfl

@[simp] theorem memLoad_run (sg : Bool) (w : MWidth) (a : Word) (s : State) :
    memLoad sg w a s = match accessFault s.params .load w.bytes a with
      | some r => .error (.collaborator r) s
      | none => .ok (extendLoad sg w (leWord (readBytes s.mem a w.bytes))) s := by
  cases h : accessFault s.params .load w.bytes a <;> simp [memLoad, checkAccess, h]

@[simp] theorem memStore_run (w : MWidth) (a v : Word) (s : State) :
    memStore w a v s = match accessStop s.params .store w.bytes a with
      | some q => .error (.collaborator q.2) (s.withMem (writeBytes s.mem a (leBytes q.1 v)))
      | none => .ok () (s.withMem (writeBytes s.mem a (leBytes w.bytes v))) := by
  unfold memStore
  cases accessStop s.params .store w.bytes a <;> rfl

/-! ## CSR store and gate -/

@[simp] theorem csrRead_run (a : CsrAddr) (s : State) :
    csrRead a s = match csrReadFault s.params a with
      | some r => .error (.collaborator r) s
      | none => .ok (s.csrAt a) s := rfl

@[simp] theorem csrWrite_run (a : CsrAddr) (v : Word) (s : State) :
    csrWrite a v s = match csrWriteFault s.params a v with
      | some r => .error (.collaborator r) s
      | none => .ok () (s.putCsr a v) := rfl

@[simp] theorem requireSerialized_run (a : CsrAddr) (s : State) :
    requireSerialized a s =
      if (needsSerialize s.params a && !s.serialized) = true then .error .serializeBefore s else .ok () s := rfl

/-- The gate: SERIALIZE_BEFORE with nothing changed, or `serialized` cleared and then a fault or the address. -/
@[simp] theorem validateCsr_run (a : CsrAddr) (w : Bool) (s : State) :
    validateCsr a w s =
      if (needsSerialize s.params a && !s.serialized) = true then .error .serializeBefore s
      else if csrDenied s a w = true then .error .illegal (s.withSerialized false)
      else .ok a (s.withSerialized false) := by
  have hd : csrDenied (s.withSerialized false) a w = csrDenied s a w := rfl
  by_cases h : (needsSerialize s.params a && !s.serialized) = true
  · simp [validateCsr, h]
  · cases h' : csrDenied s a w <;> simp [validateCsr, h, h', hd]

/-! ## The PC gate -/

@[simp] theorem setPc_run (t : Word) (s : State) :
    setPc t s = match targetFault s t with
      | some r => .error (.collaborator r) s
      | none =>
        if targetMisaligned s t = true then .error (.misaligned t) s
        else .ok () (s.withOutcome (.next (sextXlen s.inputs.xlen t) .normal)) := rfl

/-- A target that is misaligned is one whose query answered. -/
theorem targetFault_of_misaligned {s : State} {t : Word} (h : targetMisaligned s t = true) : targetFault s t = none := by
  simp only [targetMisaligned, Bool.and_eq_true, beq_iff_eq] at h
  simp [targetFault, h.2]

@[simp] theorem setPcAndSerialize_run (t : Word) (s : State) :
    setPcAndSerialize t s = match targetFault s t with
      | some r => .error (.collaborator r) s
      | none =>
        if targetMisaligned s t = true then .error (.misaligned t) s
        else .ok () (s.withOutcome (.next (sextXlen s.inputs.xlen t) .serializeAfter)) := by
  cases h : targetMisaligned s t <;> cases h' : targetFault s t <;> simp [setPcAndSerialize, h, h', State.withOutcome]

@[simp] theorem jumpRel_run (off : Word) (s : State) : jumpRel off s = setPc (relTarget s off) s := rfl

@[simp] theorem branchIf_run (taken : Bool) (off : Word) (s : State) :
    branchIf taken off s = if taken = true then setPc (relTarget s off) s else .ok () s := rfl

@[simp] theorem sextXlen_x64 (v : Word) : sextXlen .x64 v = v := rfl

@[simp] theorem sextXlen_idem (x : XLen) (v : Word) : sextXlen x (sextXlen x v) = sextXlen x v := by
  cases x
  · simp only [sextXlen]
    congr 1
    ext k hk
    have h64 : k < 64 := by omega
    simp [BitVec.getElem_signExtend, hk, h64]
  · rfl

end Sys2Proof.Machine
end

