-- ==== Sys2Proof/Laws/Memory.lean ====
section
/-! SUPPORT. Sparse contents and memory: reading after writing, the canonical form, little-endian values, and that
every operation of a body keeps the canonical form of memory and of the CSR store. -/

namespace Sys2Proof.Machine

variable {β : Type} [DecidableEq β] {d : β}

/-! ## Cells -/

/-- The canonical form from a later key on is one from an earlier key on. -/
theorem cellsWf_mono {bound lo lo' : Nat} {m : List (Nat × β)} (h : cellsWf d bound lo m = true) (hl : lo' ≤ lo) :
    cellsWf d bound lo' m = true := by
  cases m with
  | nil => rfl
  | cons c m =>
    simp only [cellsWf, Bool.and_eq_true, decide_eq_true_eq] at h ⊢
    exact ⟨⟨⟨by omega, h.1.1.2⟩, h.1.2⟩, h.2⟩

/-- Below the first key allowed, every key reads as unlisted. -/
theorem lookCell_of_lt {bound lo a : Nat} {m : List (Nat × β)} (h : cellsWf d bound lo m = true) (ha : a < lo) :
    lookCell d m a = d := by
  induction m generalizing lo with
  | nil => rfl
  | cons c m ih =>
    simp only [cellsWf, Bool.and_eq_true, decide_eq_true_eq] at h
    simp only [lookCell]
    rw [if_neg (by omega)]
    exact ih h.2 (by omega)

/-- A key other than the one set keeps its value. -/
theorem lookCell_setCell_ne (m : List (Nat × β)) {a b : Nat} (v : β) (h : b ≠ a) :
    lookCell d (setCell d m a v) b = lookCell d m b := by
  induction m with
  | nil => by_cases hv : v = d <;> simp [setCell, lookCell, hv, Ne.symm h]
  | cons c m ih =>
    obtain ⟨k, w⟩ := c
    simp only [setCell]
    split
    · split <;> simp [lookCell, Ne.symm h]
    · split
      · rename_i he
        have hk : k ≠ b := fun e => h (e ▸ he.symm)
        split <;> simp [lookCell, hk, Ne.symm h]
      · simp only [lookCell, ih]

/-- In canonical form, the key set holds the value. -/
theorem lookCell_setCell_self {bound lo : Nat} {m : List (Nat × β)} (a : Nat) (v : β)
    (h : cellsWf d bound lo m = true) : lookCell d (setCell d m a v) a = v := by
  induction m generalizing lo with
  | nil => by_cases hv : v = d <;> simp [setCell, lookCell, hv]
  | cons c m ih =>
    obtain ⟨k, w⟩ := c
    simp only [cellsWf, Bool.and_eq_true, decide_eq_true_eq] at h
    simp only [setCell]
    split
    · split
      · rename_i hlt hv
        subst hv
        simp only [lookCell]
        rw [if_neg (by omega)]
        exact lookCell_of_lt h.2 (by omega)
      · simp [lookCell]
    · split
      · split
        · rename_i he hv
          subst hv
          subst he
          exact lookCell_of_lt h.2 (by omega)
        · simp [lookCell]
      · rename_i hne
        simp only [lookCell]
        rw [if_neg (by omega)]
        exact ih h.2

/-- Setting a key in range keeps the canonical form. -/
theorem cellsWf_setCell {bound lo a : Nat} {m : List (Nat × β)} (v : β) (h : cellsWf d bound lo m = true)
    (hlo : lo ≤ a) (hb : a < bound) : cellsWf d bound lo (setCell d m a v) = true := by
  induction m generalizing lo with
  | nil => by_cases hv : v = d <;> simp [setCell, cellsWf, hv, hlo, hb]
  | cons c m ih =>
    obtain ⟨k, w⟩ := c
    have h0 := h
    simp only [cellsWf, Bool.and_eq_true, decide_eq_true_eq] at h
    simp only [setCell]
    split
    · split
      · exact h0
      · simp only [cellsWf, Bool.and_eq_true, decide_eq_true_eq]
        exact ⟨⟨⟨hlo, hb⟩, by assumption⟩, ⟨⟨by omega, h.1.1.2⟩, h.1.2⟩, h.2⟩
    · split
      · split
        · exact cellsWf_mono h.2 (by omega)
        · simp only [cellsWf, Bool.and_eq_true, decide_eq_true_eq]
          rename_i he hv
          subst he
          exact ⟨⟨⟨hlo, hb⟩, hv⟩, h.2⟩
      · simp only [cellsWf, Bool.and_eq_true, decide_eq_true_eq]
        exact ⟨h.1, ih h.2 (by omega)⟩

/-- Two canonical contents that read the same everywhere are equal data. -/
theorem cells_ext {bound lo : Nat} {m n : List (Nat × β)} (hm : cellsWf d bound lo m = true)
    (hn : cellsWf d bound lo n = true) (h : ∀ a, lookCell d m a = lookCell d n a) : m = n := by
  induction m generalizing lo n with
  | nil =>
    cases n with
    | nil => rfl
    | cons c n =>
      have := h c.1
      simp_all [cellsWf, lookCell]
  | cons c m ih =>
    obtain ⟨k, v⟩ := c
    cases n with
    | nil =>
      have := h k
      simp_all [cellsWf, lookCell]
    | cons e n =>
      obtain ⟨l, w⟩ := e
      simp only [cellsWf, Bool.and_eq_true, decide_eq_true_eq] at hm hn
      have hkl : k = l := by
        rcases Nat.lt_trichotomy k l with hlt | heq | hgt
        · have := h k
          simp only [lookCell, if_true] at this
          rw [if_neg (by omega), lookCell_of_lt hn.2 (by omega)] at this
          exact absurd this hm.1.2
        · exact heq
        · have := h l
          simp only [lookCell, if_true] at this
          rw [if_neg (by omega), lookCell_of_lt hm.2 (by omega)] at this
          exact absurd this.symm hn.1.2
      subst hkl
      have hvw : v = w := by simpa [lookCell] using h k
      subst hvw
      have : m = n := by
        refine ih hm.2 hn.2 fun a => ?_
        by_cases ha : k = a
        · subst ha
          rw [lookCell_of_lt hm.2 (by omega), lookCell_of_lt hn.2 (by omega)]
        · simpa [lookCell, ha] using h a
      rw [this]

/-! ## Bytes of memory -/

theorem Memory.wf_nil : Memory.wf [] = true := rfl

/-- A byte write keeps the canonical form. -/
theorem Memory.wf_writeByte {m : Memory} (a : Word) (b : Byte) (h : m.wf = true) : (writeByte m a b).wf = true :=
  cellsWf_setCell b h (Nat.zero_le _) a.isLt

/-- A write of bytes keeps the canonical form. -/
theorem Memory.wf_writeBytes {m : Memory} (a : Word) (bs : List Byte) (h : m.wf = true) :
    (writeBytes m a bs).wf = true := by
  induction bs generalizing m a with
  | nil => exact h
  | cons b bs ih => exact ih (a + 1) (Memory.wf_writeByte a b h)

theorem readByte_writeByte_self {m : Memory} (a : Word) (b : Byte) (h : m.wf = true) :
    readByte (writeByte m a b) a = b := lookCell_setCell_self _ _ h

theorem readByte_writeByte_ne (m : Memory) {a c : Word} (b : Byte) (h : c ≠ a) :
    readByte (writeByte m a b) c = readByte m c :=
  lookCell_setCell_ne m b fun e => h (BitVec.eq_of_toNat_eq e)

/-- An address outside the bytes written keeps its byte. -/
theorem readByte_writeBytes_ne (m : Memory) (a c : Word) (bs : List Byte)
    (h : ∀ k, k < bs.length → c ≠ a + BitVec.ofNat 64 k) : readByte (writeBytes m a bs) c = readByte m c := by
  induction bs generalizing m a with
  | nil => rfl
  | cons b bs ih =>
    simp only [writeBytes]
    rw [ih, readByte_writeByte_ne]
    · simpa using h 0 (by simp)
    · intro k hk
      have := h (k + 1) (by simpa using hk)
      rwa [show a + 1 + BitVec.ofNat 64 k = a + BitVec.ofNat 64 (k + 1) by
        rw [BitVec.add_assoc, BitVec.add_right_inj]
        apply BitVec.eq_of_toNat_eq
        simp [BitVec.toNat_add, Nat.add_comm]]

@[simp] theorem leBytes_length (n : Nat) (v : Word) : (leBytes n v).length = n := by
  induction n generalizing v with
  | zero => rfl
  | succ n ih => simp [leBytes, ih]

@[simp] theorem readBytes_length (m : Memory) (a : Word) (n : Nat) : (readBytes m a n).length = n := by
  induction n generalizing a with
  | zero => rfl
  | succ n ih => simp [readBytes, ih]

/-! ## Loaded and stored values -/

/-- The sign extension of `lw` over a signed 32-bit load is the one the load made. -/
@[simp] theorem sext32_extendLoad (v : Word) : sext32 (extendLoad true .b32 v) = extendLoad true .b32 v := by
  simp only [sext32, extendLoad, MWidth.bytes, if_true]
  congr 1
  apply BitVec.eq_of_getLsbD_eq
  intro k hk
  have h64 : k < 64 := by omega
  simp [BitVec.getElem_signExtend, hk, h64]

@[simp] theorem extendLoad_b64 (sg : Bool) (v : Word) : extendLoad sg .b64 v = v := by
  cases sg <;> simp [extendLoad, MWidth.bytes]

/-- Bit `k` of the byte list's entry `j` is bit `8j + k` of the value. -/
theorem leBytes_getElem (n : Nat) (v : Word) (j : Nat) (h : j < (leBytes n v).length) :
    (leBytes n v)[j] = (v >>> (8 * j)).setWidth 8 := by
  induction n generalizing v j with
  | zero => simp at h
  | succ n ih =>
    cases j with
    | zero => simp [leBytes]
    | succ j =>
      simp only [leBytes, List.getElem_cons_succ]
      rw [ih _ _ (by simpa [leBytes] using h), ← BitVec.shiftRight_add]
      congr 2
      omega

/-- `sw` stores the low 32 bits of its source: the same bytes, as many of the four as are made. -/
theorem leBytes_low32_of_le {m : Nat} (v : Word) (hm : m ≤ 4) : leBytes m (low32 v) = leBytes m v := by
  refine List.ext_getElem (by simp) fun j h1 h2 => ?_
  rw [leBytes_getElem, leBytes_getElem]
  have hj : j < m := by simpa using h1
  apply BitVec.eq_of_getLsbD_eq
  intro k hk
  have h : 8 * j + k < 32 := by omega
  have h' : 8 * j + k < 64 := by omega
  simp [low32, h, h', hk]

@[simp] theorem leBytes_low32 (v : Word) : leBytes 4 (low32 v) = leBytes 4 v := leBytes_low32_of_le v (Nat.le_refl 4)

/-! ## The CSR store -/

theorem CsrStore.wf_nil : CsrStore.wf [] = true := rfl

/-- A CSR write keeps the canonical form. -/
theorem CsrStore.wf_putCsr {s : State} (a : CsrAddr) (v : Word) (h : CsrStore.wf s.csrs = true) :
    CsrStore.wf (s.putCsr a v).csrs = true :=
  cellsWf_setCell _ h (Nat.zero_le _) a.isLt

theorem csrAt_putCsr_self {s : State} (a : CsrAddr) (v : Word) (h : CsrStore.wf s.csrs = true) :
    (s.putCsr a v).csrAt a = csrMerge s.params a (s.csrAt a) v := lookCell_setCell_self _ _ h

/-- An address without a rule keeps what is written, and faults no write. -/
theorem csrMerge_of_noRule {p : Params} {a : CsrAddr} (h : csrRule p a = none) (old v : Word) :
    csrMerge p a old v = v := by simp only [csrMerge, h]

theorem csrWriteFault_of_noRule {p : Params} {a : CsrAddr} (h : csrRule p a = none) (v : Word) :
    csrWriteFault p a v = none := by simp only [csrWriteFault, h]

/-- A field that admits the value keeps it. -/
@[simp] theorem csrKept_of_admits {f : CsrField} {v : Word} (h : csrAdmits f v = true) (old : Word) :
    csrKept f old v = v &&& f.mask := by simp only [csrKept, h, if_true]

@[simp] theorem csrFieldFault_of_admits {f : CsrField} {v : Word} (h : csrAdmits f v = true) : csrFieldFault f v = none := by
  simp only [csrFieldFault, h, if_true]

theorem csrAt_putCsr_ne (s : State) {a b : CsrAddr} (v : Word) (h : b ≠ a) :
    (s.putCsr a v).csrAt b = s.csrAt b :=
  lookCell_setCell_ne s.csrs _ fun e => h (BitVec.eq_of_toNat_eq e)

/-- The handler's stores keep the canonical form. -/
theorem CsrStore.wf_storeAll {c : CsrStore} (l : List (CsrAddr × Word)) (h : CsrStore.wf c = true) :
    CsrStore.wf (storeAll c l) = true := by
  induction l generalizing c with
  | nil => exact h
  | cons p l ih => exact ih (cellsWf_setCell p.2 h (Nat.zero_le _) p.1.isLt)

/-! ## Parts of an access -/

theorem splitParts_sum (unit fuel : Nat) (a : Word) (n : Nat) : ((splitParts unit fuel a n).map (·.2)).sum ≤ n := by
  induction fuel generalizing a n with
  | zero => simp [splitParts]
  | succ fuel ih =>
    by_cases hn : n = 0
    · simp [splitParts, hn]
    · have := ih (a + BitVec.ofNat 64 (min n (unit - a.toNat % unit))) (n - min n (unit - a.toNat % unit))
      simp only [splitParts, hn, if_false, List.map_cons, List.sum_cons]
      omega

/-- The parts hold no more bytes than the access. -/
theorem accessParts_sum (p : Params) (k : AccessKind) (n : Nat) (a : Word) :
    ((accessParts p k n a).map (·.2)).sum ≤ n := by
  unfold accessParts
  split
  · split
    · simp
    · exact splitParts_sum _ _ _ _
  · simp
  · simp

theorem partsStop_le {p : Params} {k : AccessKind} {l : List (Word × Nat)} {q : Nat × Report}
    (h : partsStop p k l = some q) : q.1 ≤ (l.map (·.2)).sum := by
  induction l generalizing q with
  | nil => simp [partsStop] at h
  | cons c l ih =>
    simp only [partsStop] at h
    split at h
    · injection h with h
      subst h
      exact Nat.zero_le _
    · obtain ⟨q', h', rfl⟩ := Option.map_eq_some_iff.mp h
      have := ih h'
      simp only [List.map_cons, List.sum_cons]
      omega

/-- No more bytes than the access has were accessed before its fault. -/
theorem accessStop_le {p : Params} {k : AccessKind} {n : Nat} {a : Word} {q : Nat × Report}
    (h : accessStop p k n a = some q) : q.1 ≤ n := by
  unfold accessStop at h
  split at h
  · injection h with h
    subst h
    exact Nat.zero_le _
  · exact Nat.le_trans (partsStop_le h) (accessParts_sum p k n a)

/-- An access that is not split stops before any of its bytes. -/
theorem accessStop_whole {p : Params} {k : AccessKind} {n : Nat} {a : Word} {q : Nat × Report}
    (hp : accessParts p k n a = [(a, n)]) (h : accessStop p k n a = some q) : q.1 = 0 := by
  unfold accessStop at h
  split at h
  · injection h with h
    subst h
    rfl
  · rw [hp] at h
    simp only [partsStop] at h
    split at h
    · injection h with h
      subst h
      rfl
    · cases h

/-- An aligned access is not split. -/
theorem accessParts_aligned (p : Params) (k : AccessKind) {n : Nat} {a : Word} (h : a.toNat % n = 0) :
    accessParts p k n a = [(a, n)] := by
  unfold accessParts
  split
  · rw [if_pos (.inr (.inr h))]
  · rfl
  · rfl

/-- Where the parameter is not a split, no access is split. -/
theorem accessParts_unsplit {p : Params} (k : AccessKind) (n : Nat) (a : Word)
    (h : ∀ unit, p.misaligned ≠ .splits unit) : accessParts p k n a = [(a, n)] := by
  unfold accessParts
  split
  · next unit hu => exact absurd hu (h unit)
  · rfl
  · rfl

theorem accessFault_eq_none {p : Params} {k : AccessKind} {n : Nat} {a : Word} :
    accessFault p k n a = none ↔ accessStop p k n a = none := by
  simp [accessFault]

/-- Where an access stops depends on the memory's parameters alone: MISALIGNED_DATA and MEMORY_MAP. -/
theorem accessStop_congr {p q : Params} (hm : p.misaligned = q.misaligned) (hr : p.memMap = q.memMap) (k : AccessKind)
    (n : Nat) (a : Word) : accessStop p k n a = accessStop q k n a := by
  have hp : ∀ l, partsStop p k l = partsStop q k l := by
    intro l
    induction l with
    | nil => rfl
    | cons c l ih => simp only [partsStop, hr, ih]
  simp only [accessStop, misalignedFault, accessParts, hm, hp]

/-! ## Operations of a body -/

/-- The context a body reached, by its last statement or by a stop. -/
def reached {α : Type} : EStateM.Result Stop State α → State
  | .ok _ t => t
  | .error _ t => t

/-- A store, done or faulted, keeps the canonical form of memory. -/
theorem memStore_keeps_wf (w : MWidth) (a v : Word) {s : State} (h : s.mem.wf = true) :
    (reached (memStore w a v s)).mem.wf = true := by
  rw [memStore_run]
  split <;> exact Memory.wf_writeBytes a _ h

/-- A paired store, done, half done or faulted, keeps the canonical form of memory. -/
theorem memStorePair_keeps_wf (a : Word) (v : Wide) {s : State} (h : s.mem.wf = true) :
    (reached (memStorePair a v s)).mem.wf = true := by
  simp only [memStorePair, bind_run]
  have h1 := memStore_keeps_wf .b64 a (v.extractLsb' 0 64) h
  cases hs : memStore .b64 a (v.extractLsb' 0 64) s with
  | ok u t => exact by rw [hs] at h1; exact memStore_keeps_wf .b64 (a + 8) _ h1
  | error e t => rw [hs] at h1; exact h1

/-- A load leaves the state. -/
theorem memLoad_state (sg : Bool) (w : MWidth) (a : Word) (s : State) : reached (memLoad sg w a s) = s := by
  rw [memLoad_run]
  split <;> rfl

/-- A CSR write, done or faulted, keeps the canonical form of the store. -/
theorem csrWrite_keeps_wf (a : CsrAddr) (v : Word) {s : State} (h : CsrStore.wf s.csrs = true) :
    CsrStore.wf (reached (csrWrite a v s)).csrs = true := by
  rw [csrWrite_run]
  split
  · exact h
  · exact CsrStore.wf_putCsr a v h

/-- The memory of the reset state is in canonical form, and so is its CSR store. -/
theorem reset_contents_wf : State.reset.mem.wf = true ∧ CsrStore.wf State.reset.csrs = true := ⟨rfl, rfl⟩

end Sys2Proof.Machine
end

