-- ==== Sys2Proof/Laws/Frame.lean ====
section
/-! SUPPORT. Frames of bodies: a relation between the context a body starts in and the one it reaches, whether it
completes or stops. One lemma per operation says which updates it can make; a body's frame follows from its parts. -/

namespace Sys2Proof.Machine

/-- Every run of the body, to its end or to a stop, relates the first context to the one reached. -/
def Keeps {α : Type} (R : State → State → Prop) (b : Body α) : Prop := ∀ s, R s (reached (b s))

/-- A relation that composes: every state with itself, and along two updates. -/
structure Composes (R : State → State → Prop) : Prop where
  refl : ∀ s, R s s
  trans : ∀ {s t u}, R s t → R t u → R s u

section

variable {α β : Type} {R : State → State → Prop}

theorem Keeps.pure (h : Composes R) (a : α) : Keeps R (Pure.pure a : Body α) := fun s => h.refl s

theorem Keeps.bind (h : Composes R) {b : Body α} {f : α → Body β} (hb : Keeps R b) (hf : ∀ a, Keeps R (f a)) :
    Keeps R (b >>= f) := by
  intro s
  have h1 := hb s
  simp only [bind_run]
  cases hs : b s with
  | ok a t =>
    rw [hs] at h1
    exact h.trans h1 (hf a t)
  | error e t =>
    rw [hs] at h1
    exact h1

theorem Keeps.look (h : Composes R) (f : State → α) : Keeps R (Machine.look f) := fun s => h.refl s

theorem Keeps.change {f : State → State} (hf : ∀ s, R s (f s)) : Keeps R (Machine.change f) := fun s => hf s

theorem Keeps.stopIf (h : Composes R) (c : Bool) (e : Stop) : Keeps R (Machine.stopIf c e) := by
  intro s
  rw [stopIf_run]
  split <;> exact h.refl s

theorem Keeps.illegalIf (h : Composes R) (f : State → Bool) : Keeps R (Machine.illegalIf f) := by
  intro s
  rw [illegalIf_run]
  split <;> exact h.refl s

theorem Keeps.when (h : Composes R) (c : Bool) {b : Body Unit} (hb : c = true → Keeps R b) :
    Keeps R (Machine.when c b) := by
  intro s
  rw [when_run]
  split
  · exact hb ‹_› s
  · exact h.refl s

theorem Keeps.requireExt (h : Composes R) (e : Ext) : Keeps R (Machine.requireExt e) := by
  intro s
  rw [requireExt_run]
  split <;> exact h.refl s

theorem Keeps.requireFp (h : Composes R) (e : Ext) : Keeps R (Machine.requireFp e) :=
  Keeps.bind h (Keeps.requireExt h e) fun _ => Keeps.illegalIf h _

theorem Keeps.readX (h : Composes R) (i : Reg) : Keeps R (Machine.readX i) :=
  Keeps.bind h (Keeps.illegalIf h _) fun _ => Keeps.look h _

theorem Keeps.writeX (h : Composes R) {i : Reg} {v : Word} (hp : ∀ s, R s (s.putX i v)) :
    Keeps R (Machine.writeX i v) :=
  Keeps.bind h (Keeps.illegalIf h _) fun _ => Keeps.change hp

theorem Keeps.writeSext (h : Composes R) {i : Reg} (v : Word) (hp : ∀ s v, R s (s.putX i v)) :
    Keeps R (Machine.writeSext i v) :=
  Keeps.bind h (Keeps.look h _) fun _ => Keeps.writeX h fun s => hp s _

theorem Keeps.readAddr (h : Composes R) (i : Reg) (off : Word) : Keeps R (Machine.readAddr i off) :=
  Keeps.bind h (Keeps.readX h i) fun _ => Keeps.pure h _

theorem Keeps.requireBoxable (h : Composes R) (w : FWidth) : Keeps R (Machine.requireBoxable w) := by
  intro s
  rw [requireBoxable_run]
  split
  · exact Keeps.requireExt h .h s
  · exact h.refl s

theorem Keeps.readF (h : Composes R) (i : Reg) : Keeps R (Machine.readF i) := Keeps.look h _

theorem Keeps.memLoad (h : Composes R) (sg : Bool) (w : MWidth) (a : Word) : Keeps R (Machine.memLoad sg w a) := by
  intro s
  rw [memLoad_state]
  exact h.refl s

/-- A store writes some of its bytes: all of them, or those before a fault. -/
theorem Keeps.memStore {w : MWidth} {a v : Word}
    (hp : ∀ s n, n ≤ w.bytes → R s (s.withMem (writeBytes s.mem a (leBytes n v)))) :
    Keeps R (Machine.memStore w a v) := by
  intro s
  rw [memStore_run]
  split
  · next hq => exact hp s _ (accessStop_le hq)
  · exact hp s _ (Nat.le_refl _)

theorem Keeps.csrRead (h : Composes R) (a : CsrAddr) : Keeps R (Machine.csrRead a) := by
  intro s
  rw [csrRead_run]
  split <;> exact h.refl s

theorem Keeps.csrWrite (h : Composes R) {a : CsrAddr} {v : Word} (hp : ∀ s, R s (s.putCsr a v)) :
    Keeps R (Machine.csrWrite a v) := by
  intro s
  rw [csrWrite_run]
  split
  · exact h.refl s
  · exact hp s

theorem Keeps.validateCsr (h : Composes R) (a : CsrAddr) (w : Bool) (hp : ∀ s, R s (s.withSerialized false)) :
    Keeps R (Machine.validateCsr a w) := by
  intro s
  rw [validateCsr_run]
  split
  · exact h.refl s
  · split <;> exact hp s

theorem Keeps.setPc (h : Composes R) (t : Word) (hp : ∀ s o, R s (s.withOutcome o)) : Keeps R (Machine.setPc t) := by
  intro s
  rw [setPc_run]
  split
  · exact h.refl s
  · split
    · exact h.refl s
    · exact hp s _

theorem Keeps.setPcAndSerialize (h : Composes R) (t : Word) (hp : ∀ s o, R s (s.withOutcome o)) :
    Keeps R (Machine.setPcAndSerialize t) :=
  Keeps.bind h (Keeps.setPc h t hp) fun _ => Keeps.change fun s => hp s _

theorem Keeps.jumpRel (h : Composes R) (off : Word) (hp : ∀ s o, R s (s.withOutcome o)) : Keeps R (Machine.jumpRel off) :=
  Keeps.bind h (Keeps.look h _) fun t => Keeps.setPc h t hp

theorem Keeps.branchIf (h : Composes R) (c : Bool) (off : Word) (hp : ∀ s o, R s (s.withOutcome o)) :
    Keeps R (Machine.branchIf c off) :=
  Keeps.when h c fun _ => Keeps.jumpRel h off hp

theorem Keeps.injectSign (h : Composes R) (ext : Ext) (w : FWidth) (n xr : Bool) (d a b : Reg)
    (hp : ∀ s c, R s (s.putF d c)) : Keeps R (Machine.injectSign ext w n xr d a b) :=
  Keeps.bind h (Keeps.requireFp h ext) fun _ => Keeps.bind h (Keeps.requireBoxable h w) fun _ =>
    Keeps.bind h (Keeps.readF h a) fun _ => Keeps.bind h (Keeps.readF h b) fun _ => Keeps.change fun s => hp s _

/-- The shape of every CSR body, in a relation that allows what it may update. -/
theorem Keeps.csrAccess (h : Composes R) (d : Reg) (a : CsrAddr) (w : Bool) {new : Word → Body Word}
    (hs : ∀ s, R s (s.withSerialized false)) (hc : w = true → ∀ s v, R s (s.putCsr a v)) (hn : ∀ o, Keeps R (new o))
    (hx : ∀ s v, R s (s.putX d v)) (ho : ∀ s o, R s (s.withOutcome o)) : Keeps R (Machine.csrAccess d a w new) := by
  intro s
  unfold Machine.csrAccess
  rw [bind_run, validateCsr_run]
  by_cases h1 : (needsSerialize s.params a && !s.serialized) = true
  · rw [if_pos h1]
    exact h.refl s
  · rw [if_neg h1]
    by_cases h2 : csrDenied s a w = true
    · rw [if_pos h2]
      exact hs s
    · rw [if_neg h2]
      exact h.trans (hs s) (Keeps.bind h (Keeps.csrRead h a) (fun old =>
        Keeps.bind h (Keeps.when h w fun hw => Keeps.bind h (hn old) fun v => Keeps.csrWrite h fun s => hc hw s v)
          fun _ => Keeps.bind h (Keeps.writeSext h old hx) fun _ =>
            Keeps.bind h (Keeps.look h _) fun npc => Keeps.setPcAndSerialize h npc ho) _)

/-- The frame of a body is the frame of what the shell answers for it. -/
theorem Keeps.runShell (h : Composes R) (ho : ∀ s o, R s (s.withOutcome o)) {n : Nat} {w : Word} {b : Body Unit}
    (hb : Keeps R b) {s t : State} (hr : Machine.runShell n w b s = .next t) : R s t := by
  have h1 := hb (s.withOutcome (.next (npcDefault s n) .normal))
  unfold Machine.runShell at hr
  split at hr
  · next ht =>
    rw [ht] at h1
    injection hr with hr
    subst hr
    exact h.trans (ho s _) h1
  · next ht =>
    rw [ht] at h1
    injection hr with hr
    subst hr
    exact h.trans (h.trans (ho s _) h1) (ho _ _)

theorem Keeps.runBody (h : Composes R) (ho : ∀ s o, R s (s.withOutcome o)) {i : Instr} {b : Body Unit}
    (hb : Keeps R b) {s t : State} (hr : Machine.runBody i b s = .next t) : R s t := Keeps.runShell h ho hb hr

theorem Keeps.runWord (h : Composes R) (ho : ∀ s o, R s (s.withOutcome o)) {insn : Word} {b : Body Unit}
    (hb : Keeps R b) {s t : State} (hr : Machine.runWord insn b s = .next t) : R s t := Keeps.runShell h ho hb hr

theorem Keeps.runBody64 (h : Composes R) (ho : ∀ s o, R s (s.withOutcome o)) {i : Instr} {b : Body Unit}
    (hb : Keeps R b) {s t : State} (hr : Machine.runBody64 i b s = .next t) : R s t := by
  unfold Machine.runBody64 at hr
  split at hr
  · exact Keeps.runBody h ho hb hr
  · cases hr

end

/-! ## Every instruction's frame from the updates its operations make -/

/-- What an instruction may update, given its destinations, its CSR and its store. -/
structure Allows (R : State → State → Prop) (i : Instr) : Prop extends Composes R where
  outcome : ∀ s o, R s (s.withOutcome o)
  intReg : ∀ d, destX i = some d → ∀ s v, R s (s.putX d v)
  floatReg : ∀ d, destF i = some d → ∀ s c, R s (s.putF d c)
  serialized : (csrForm i).isSome = true → ∀ s, R s (s.withSerialized false)
  csr : ∀ f, csrForm i = some f → f.isWrite = true → ∀ s v, R s (s.putCsr f.addr v)
  memory : (storeForm i).isSome = true → ∀ s m, R s (s.withMem m)

/-- A relation that allows an instruction's updates relates the state to every next state `exec` answers. -/
theorem exec_frame {R : State → State → Prop} {i : Instr} (h : Allows R i) {s t : State} (he : exec i s = .next t) :
    R s t := by
  have hc := h.toComposes
  have ho := h.outcome
  cases i
  case add => exact Keeps.runBody hc ho (Keeps.bind hc (Keeps.readX hc _) fun _ => Keeps.bind hc (Keeps.readX hc _)
    fun _ => Keeps.writeSext hc _ (h.intReg _ rfl)) he
  case addi => exact Keeps.runBody hc ho (Keeps.bind hc (Keeps.readX hc _) fun _ =>
    Keeps.writeSext hc _ (h.intReg _ rfl)) he
  case lui => exact Keeps.runBody hc ho (Keeps.writeX hc fun s => h.intReg _ rfl s _) he
  case slli => exact Keeps.runBody hc ho (Keeps.bind hc (Keeps.illegalIf hc _) fun _ =>
    Keeps.bind hc (Keeps.readX hc _) fun _ => Keeps.writeSext hc _ (h.intReg _ rfl)) he
  case auipc => exact Keeps.runBody hc ho (Keeps.bind hc (Keeps.look hc _) fun _ =>
    Keeps.writeSext hc _ (h.intReg _ rfl)) he
  case jal => exact Keeps.runBody hc ho (Keeps.bind hc (Keeps.look hc _) fun _ => Keeps.bind hc (Keeps.jumpRel hc _ ho)
    fun _ => Keeps.writeX hc fun s => h.intReg _ rfl s _) he
  case jalr => exact Keeps.runBody hc ho (Keeps.bind hc (Keeps.look hc _) fun _ => Keeps.bind hc (Keeps.readX hc _)
    fun _ => Keeps.bind hc (Keeps.setPc hc _ ho) fun _ => Keeps.writeX hc fun s => h.intReg _ rfl s _) he
  case beq | bne | blt | bge | bltu | bgeu =>
    exact Keeps.runBody hc ho (Keeps.bind hc (Keeps.readX hc _) fun _ => Keeps.bind hc (Keeps.readX hc _)
      fun _ => Keeps.branchIf hc _ _ ho) he
  case lw => exact Keeps.runBody hc ho (Keeps.bind hc (Keeps.readAddr hc _ _) fun _ =>
    Keeps.bind hc (Keeps.memLoad hc _ _ _) fun _ => Keeps.writeX hc fun s => h.intReg _ rfl s _) he
  case ld => exact Keeps.runBody hc ho (Keeps.bind hc (Keeps.illegalIf hc _) fun _ =>
    Keeps.bind hc (Keeps.readAddr hc _ _) fun _ =>
    Keeps.bind hc (Keeps.memLoad hc _ _ _) fun _ => Keeps.writeX hc fun s => h.intReg _ rfl s _) he
  case sw => exact Keeps.runBody hc ho (Keeps.bind hc (Keeps.readAddr hc _ _) fun _ =>
    Keeps.bind hc (Keeps.readX hc _) fun _ => Keeps.memStore fun s _ _ => h.memory rfl s _) he
  case sd => exact Keeps.runBody hc ho (Keeps.bind hc (Keeps.illegalIf hc _) fun _ =>
    Keeps.bind hc (Keeps.readAddr hc _ _) fun _ =>
    Keeps.bind hc (Keeps.readX hc _) fun _ => Keeps.memStore fun s _ _ => h.memory rfl s _) he
  case csrrw => exact Keeps.runBody hc ho (Keeps.csrAccess hc _ _ _ (h.serialized rfl) (h.csr _ rfl)
    (fun _ => Keeps.readX hc _) (h.intReg _ rfl) ho) he
  case csrrs | csrrc => exact Keeps.runBody hc ho (Keeps.csrAccess hc _ _ _ (h.serialized rfl) (h.csr _ rfl)
    (fun _ => Keeps.bind hc (Keeps.readX hc _) fun _ => Keeps.pure hc _) (h.intReg _ rfl) ho) he
  case csrrwi | csrrsi | csrrci => exact Keeps.runBody hc ho (Keeps.csrAccess hc _ _ _ (h.serialized rfl)
    (h.csr _ rfl) (fun _ => Keeps.pure hc _) (h.intReg _ rfl) ho) he
  case fsgnjS | fsgnjnS | fsgnjxS | fsgnjD | fsgnjnD | fsgnjxD | fsgnjQ | fsgnjnQ | fsgnjxQ =>
    exact Keeps.runBody hc ho (Keeps.injectSign hc _ _ _ _ _ _ _ (h.floatReg _ rfl)) he
  case cAddi4spn => exact Keeps.runBody hc ho (Keeps.bind hc (Keeps.requireExt hc _) fun _ =>
    Keeps.bind hc (Keeps.stopIf hc _ _) fun _ => Keeps.bind hc (Keeps.readX hc _) fun _ =>
    Keeps.writeSext hc _ (h.intReg _ rfl)) he
  case cLw => exact Keeps.runBody hc ho (Keeps.bind hc (Keeps.requireExt hc _) fun _ =>
    Keeps.bind hc (Keeps.readAddr hc _ _) fun _ => Keeps.bind hc (Keeps.memLoad hc _ _ _) fun _ =>
    Keeps.writeX hc fun s => h.intReg _ rfl s _) he
  case cLd => exact Keeps.runBody64 hc ho (Keeps.bind hc (Keeps.requireExt hc _) fun _ =>
    Keeps.bind hc (Keeps.readAddr hc _ _) fun _ => Keeps.bind hc (Keeps.memLoad hc _ _ _) fun _ =>
    Keeps.writeX hc fun s => h.intReg _ rfl s _) he
  case cSw | cSwsp => exact Keeps.runBody hc ho (Keeps.bind hc (Keeps.requireExt hc _) fun _ =>
    Keeps.bind hc (Keeps.readAddr hc _ _) fun _ => Keeps.bind hc (Keeps.readX hc _) fun _ =>
    Keeps.memStore fun s _ _ => h.memory rfl s _) he
  case cSd | cSdsp => exact Keeps.runBody64 hc ho (Keeps.bind hc (Keeps.requireExt hc _) fun _ =>
    Keeps.bind hc (Keeps.readAddr hc _ _) fun _ => Keeps.bind hc (Keeps.readX hc _) fun _ =>
    Keeps.memStore fun s _ _ => h.memory rfl s _) he
  case cAddi => exact Keeps.runBody hc ho (Keeps.bind hc (Keeps.requireExt hc _) fun _ =>
    Keeps.bind hc (Keeps.readX hc _) fun _ => Keeps.writeSext hc _ (h.intReg _ rfl)) he
  case cLi => exact Keeps.runBody hc ho (Keeps.bind hc (Keeps.requireExt hc _) fun _ =>
    Keeps.writeX hc fun s => h.intReg _ rfl s _) he
  case cAddi16sp => exact Keeps.runBody hc ho (Keeps.bind hc (Keeps.requireExt hc _) fun _ =>
    Keeps.bind hc (Keeps.stopIf hc _ _) fun _ => Keeps.bind hc (Keeps.readX hc _) fun _ =>
    Keeps.writeSext hc _ (h.intReg _ rfl)) he
  case cLui => exact Keeps.runBody hc ho (Keeps.bind hc (Keeps.requireExt hc _) fun _ =>
    Keeps.bind hc (Keeps.stopIf hc _ _) fun _ => Keeps.writeSext hc _ (h.intReg _ rfl)) he
  case cJ => exact Keeps.runBody hc ho (Keeps.bind hc (Keeps.requireExt hc _) fun _ => Keeps.jumpRel hc _ ho) he
  case cBeqz | cBnez => exact Keeps.runBody hc ho (Keeps.bind hc (Keeps.requireExt hc _) fun _ =>
    Keeps.bind hc (Keeps.readX hc _) fun _ => Keeps.branchIf hc _ _ ho) he
  case cSlli => exact Keeps.runBody hc ho (Keeps.bind hc (Keeps.requireExt hc _) fun _ =>
    Keeps.bind hc (Keeps.illegalIf hc _) fun _ => Keeps.bind hc (Keeps.readX hc _) fun _ =>
    Keeps.writeSext hc _ (h.intReg _ rfl)) he
  case cLwsp => exact Keeps.runBody hc ho (Keeps.bind hc (Keeps.requireExt hc _) fun _ =>
    Keeps.bind hc (Keeps.stopIf hc _ _) fun _ =>
    Keeps.bind hc (Keeps.readAddr hc _ _) fun _ => Keeps.bind hc (Keeps.memLoad hc _ _ _) fun _ =>
    Keeps.writeX hc fun s => h.intReg _ rfl s _) he
  case cLdsp => exact Keeps.runBody64 hc ho (Keeps.bind hc (Keeps.requireExt hc _) fun _ =>
    Keeps.bind hc (Keeps.stopIf hc _ _) fun _ =>
    Keeps.bind hc (Keeps.readAddr hc _ _) fun _ => Keeps.bind hc (Keeps.memLoad hc _ _ _) fun _ =>
    Keeps.writeX hc fun s => h.intReg _ rfl s _) he

end Sys2Proof.Machine
end

