-- ==== Sys2Proof/Laws/Commute.lean ====
section
/-! SUPPORT. Changes of the state that a body does not see: a change that commutes with every update and hides from
every reading commutes with every instruction. -/

namespace Sys2Proof.Machine

/-- A result with the context changed. -/
def mapReached {α : Type} (f : State → State) : EStateM.Result Stop State α → EStateM.Result Stop State α
  | .ok a t => .ok a (f t)
  | .error e t => .error e (f t)

/-- Running the body after the change is changing what the body reached. -/
def Commutes {α : Type} (f : State → State) (b : Body α) : Prop := ∀ s, b (f s) = mapReached f (b s)

/-- The change commutes with every update and hides from every reading, but for the CSR gate's privilege test. -/
structure Blind (f : State → State) : Prop where
  outcome : ∀ s o, (f s).withOutcome o = f (s.withOutcome o)
  putX : ∀ s i v, (f s).putX i v = f (s.putX i v)
  putF : ∀ s i c, (f s).putF i c = f (s.putF i c)
  withMem : ∀ s m, (f s).withMem m = f (s.withMem m)
  withSerialized : ∀ s b, (f s).withSerialized b = f (s.withSerialized b)
  putCsr : ∀ s a v, (f s).putCsr a v = f (s.putCsr a v)
  x : ∀ s i, (f s).x i = s.x i
  hasX : ∀ s i, (f s).hasX i = s.hasX i
  floatCell : ∀ s i, (f s).f i = s.f i
  mem : ∀ s, (f s).mem = s.mem
  pc : ∀ s, (f s).pc = s.pc
  serialized : ∀ s, (f s).serialized = s.serialized
  csrAt : ∀ s a, (f s).csrAt a = s.csrAt a
  xlen : ∀ s, (f s).inputs.xlen = s.inputs.xlen
  caps : ∀ s, (f s).inputs.caps = s.inputs.caps
  fpEnabled : ∀ s, (f s).inputs.fpEnabled = s.inputs.fpEnabled
  access : ∀ s k n a, accessStop (f s).params k n a = accessStop s.params k n a
  csrRead : ∀ s a, csrReadFault (f s).params a = csrReadFault s.params a
  csrWrite : ∀ s a v, csrWriteFault (f s).params a v = csrWriteFault s.params a v
  needs : ∀ s a, needsSerialize (f s).params a = needsSerialize s.params a
  tval : ∀ s n w, wordTval (f s).params n w = wordTval s.params n w

section

variable {α β : Type} {f : State → State}

theorem Blind.supports (h : Blind f) (s : State) (e : Ext) : Machine.supports (f s) e = Machine.supports s e := by
  cases e <;> simp only [Machine.supports, h.caps]

theorem Blind.npcDefault (h : Blind f) (s : State) (n : Nat) : Machine.npcDefault (f s) n = Machine.npcDefault s n := by
  simp only [Machine.npcDefault, h.xlen, h.pc]

theorem Blind.misaligned (h : Blind f) (s : State) (t : Word) : targetMisaligned (f s) t = targetMisaligned s t := by
  simp only [targetMisaligned, h.supports]

theorem Blind.targetFault (h : Blind f) (s : State) (t : Word) :
    Machine.targetFault (f s) t = Machine.targetFault s t := by
  simp only [Machine.targetFault, h.supports]

theorem Commutes.pure (a : α) : Commutes f (Pure.pure a : Body α) := fun _ => rfl

theorem Commutes.bind {b : Body α} {g : α → Body β} (hb : Commutes f b) (hg : ∀ a, Commutes f (g a)) :
    Commutes f (b >>= g) := by
  intro s
  simp only [bind_run, hb s]
  cases b s with
  | ok a t => exact hg a t
  | error e t => rfl

theorem Commutes.look {g : State → α} (hg : ∀ s, g (f s) = g s) : Commutes f (Machine.look g) := by
  intro s
  simp only [look_run, hg, mapReached]

theorem Commutes.change {g : State → State} (hg : ∀ s, g (f s) = f (g s)) : Commutes f (Machine.change g) := by
  intro s
  simp only [change_run, hg, mapReached]

theorem Commutes.stopIf (c : Bool) (e : Stop) : Commutes f (Machine.stopIf c e) := by
  intro s
  cases c <;> rfl

theorem Commutes.illegalIf {g : State → Bool} (hg : ∀ s, g (f s) = g s) : Commutes f (Machine.illegalIf g) := by
  intro s
  simp only [illegalIf_run, hg]
  split <;> rfl

theorem Commutes.when (c : Bool) {b : Body Unit} (hb : Commutes f b) : Commutes f (Machine.when c b) := by
  intro s
  cases c
  · rfl
  · exact hb s

theorem Commutes.requireExt (h : Blind f) (e : Ext) : Commutes f (Machine.requireExt e) := by
  intro s
  simp only [requireExt_run, h.supports]
  split <;> rfl

theorem Commutes.requireFp (h : Blind f) (e : Ext) : Commutes f (Machine.requireFp e) :=
  Commutes.bind (Commutes.requireExt h e) fun _ => Commutes.illegalIf fun s => by rw [h.fpEnabled]

theorem Commutes.requireBoxable (h : Blind f) (w : FWidth) : Commutes f (Machine.requireBoxable w) := by
  intro s
  simp only [requireBoxable_run, Commutes.requireExt h .h s]
  split <;> rfl

theorem Commutes.checkX (h : Blind f) (i : Reg) : Commutes f (Machine.checkX i) :=
  Commutes.illegalIf fun s => by rw [h.hasX]

theorem Commutes.readX (h : Blind f) (i : Reg) : Commutes f (Machine.readX i) :=
  Commutes.bind (Commutes.checkX h i) fun _ => Commutes.look fun s => h.x s i

theorem Commutes.writeX (h : Blind f) (i : Reg) (v : Word) : Commutes f (Machine.writeX i v) :=
  Commutes.bind (Commutes.checkX h i) fun _ => Commutes.change fun s => h.putX s i v

theorem Commutes.writeSext (h : Blind f) (i : Reg) (v : Word) : Commutes f (Machine.writeSext i v) :=
  Commutes.bind (Commutes.look h.xlen) fun _ => Commutes.writeX h i _

theorem Commutes.readAddr (h : Blind f) (i : Reg) (off : Word) : Commutes f (Machine.readAddr i off) :=
  Commutes.bind (Commutes.readX h i) fun _ => Commutes.pure _

theorem Commutes.checkAccess (h : Blind f) (k : AccessKind) (n : Nat) (a : Word) :
    Commutes f (Machine.checkAccess k n a) := by
  intro s
  simp only [checkAccess_run, accessFault, h.access]
  split <;> rfl

theorem Commutes.memLoad (h : Blind f) (sg : Bool) (w : MWidth) (a : Word) : Commutes f (Machine.memLoad sg w a) :=
  Commutes.bind (Commutes.checkAccess h _ _ _) fun _ => Commutes.look fun s => by simp only [h.mem]

theorem Commutes.memStore (h : Blind f) (w : MWidth) (a v : Word) : Commutes f (Machine.memStore w a v) := by
  intro s
  simp only [memStore_run, h.access, h.mem, h.withMem]
  split <;> rfl

theorem Commutes.csrRead (h : Blind f) (a : CsrAddr) : Commutes f (Machine.csrRead a) := by
  intro s
  simp only [csrRead_run, h.csrRead, h.csrAt]
  split <;> rfl

theorem Commutes.csrWrite (h : Blind f) (a : CsrAddr) (v : Word) : Commutes f (Machine.csrWrite a v) := by
  intro s
  simp only [csrWrite_run, h.csrWrite, h.putCsr]
  split <;> rfl

theorem Commutes.setPc (h : Blind f) (t : Word) : Commutes f (Machine.setPc t) := by
  intro s
  simp only [setPc_run, h.targetFault, h.misaligned, h.xlen, h.outcome]
  split
  · rfl
  · split <;> rfl

theorem Commutes.setPcAndSerialize (h : Blind f) (t : Word) : Commutes f (Machine.setPcAndSerialize t) :=
  Commutes.bind (Commutes.setPc h t) fun _ => Commutes.change fun s => by simp only [h.xlen, h.outcome]

theorem Commutes.jumpRel (h : Blind f) (off : Word) : Commutes f (Machine.jumpRel off) :=
  Commutes.bind (Commutes.look fun s => by simp only [relTarget, h.pc]) fun t => Commutes.setPc h t

theorem Commutes.branchIf (h : Blind f) (c : Bool) (off : Word) : Commutes f (Machine.branchIf c off) :=
  Commutes.when c (Commutes.jumpRel h off)

theorem Commutes.injectSign (h : Blind f) (ext : Ext) (w : FWidth) (n xr : Bool) (d a b : Reg) :
    Commutes f (Machine.injectSign ext w n xr d a b) :=
  Commutes.bind (Commutes.requireFp h ext) fun _ => Commutes.bind (Commutes.requireBoxable h w) fun _ =>
    Commutes.bind (Commutes.look fun s => h.floatCell s a) fun _ => Commutes.bind (Commutes.look fun s => h.floatCell s b) fun _ => Commutes.change fun s => h.putF s d _

/-- The gate commutes when the privilege test does. -/
theorem Commutes.validateCsr (h : Blind f) (a : CsrAddr) (w : Bool) (hd : ∀ s, csrDenied (f s) a w = csrDenied s a w) :
    Commutes f (Machine.validateCsr a w) := by
  refine Commutes.bind ?_ fun _ => Commutes.bind (Commutes.change fun s => h.withSerialized s false) fun _ =>
    Commutes.bind (Commutes.illegalIf hd) fun _ => Commutes.pure _
  intro s
  simp only [requireSerialized_run, h.needs, h.serialized]
  split <;> rfl

theorem Commutes.csrAccess (h : Blind f) (d : Reg) (a : CsrAddr) (w : Bool) {new : Word → Body Word}
    (hd : ∀ s, csrDenied (f s) a w = csrDenied s a w) (hn : ∀ o, Commutes f (new o)) :
    Commutes f (Machine.csrAccess d a w new) :=
  Commutes.bind (Commutes.validateCsr h a w hd) fun a => Commutes.bind (Commutes.csrRead h a) fun old =>
    Commutes.bind (Commutes.when w (Commutes.bind (hn old) fun v => Commutes.csrWrite h a v)) fun _ =>
      Commutes.bind (Commutes.writeSext h d old) fun _ =>
        Commutes.bind (Commutes.look fun s => h.npcDefault s 4) fun npc => Commutes.setPcAndSerialize h npc

/-- The shell commutes when the body does. -/
theorem Commutes.runShell (h : Blind f) (n : Nat) (w : Word) {b : Body Unit} (hb : Commutes f b) (s : State) :
    Machine.runShell n w b (f s) = mapNext f (Machine.runShell n w b s) := by
  unfold Machine.runShell
  rw [h.npcDefault, h.outcome, hb]
  cases b (s.withOutcome (.next (Machine.npcDefault s n) .normal)) with
  | ok a t => rfl
  | error e t =>
    simp only [mapReached, mapNext, h.outcome]
    cases e <;> simp only [stopOutcome, h.tval, h.pc]

theorem Commutes.runBody (h : Blind f) {i : Instr} {b : Body Unit} (hb : Commutes f b) (s : State) :
    Machine.runBody i b (f s) = mapNext f (Machine.runBody i b s) := Commutes.runShell h _ _ hb s

theorem Commutes.runWord (h : Blind f) {insn : Word} {b : Body Unit} (hb : Commutes f b) (s : State) :
    Machine.runWord insn b (f s) = mapNext f (Machine.runWord insn b s) := Commutes.runShell h _ _ hb s

theorem Commutes.runBody64 (h : Blind f) {i : Instr} {b : Body Unit} (hb : Commutes f b) (s : State) :
    Machine.runBody64 i b (f s) = mapNext f (Machine.runBody64 i b s) := by
  unfold Machine.runBody64
  rw [h.xlen]
  split
  · exact Commutes.runBody h hb s
  · rfl

/-- A blind change commutes with every instruction; with a CSR access, when the gate's test does not see it. -/
theorem exec_commutes (h : Blind f) (i : Instr)
    (hd : ∀ c, csrForm i = some c → ∀ s, csrDenied (f s) c.addr c.isWrite = csrDenied s c.addr c.isWrite) (s : State) :
    exec i (f s) = mapNext f (exec i s) := by
  have hx := Commutes.readX h
  have ha := Commutes.readAddr h
  have hw := Commutes.writeSext h
  have hv := Commutes.writeX h
  have hl := Commutes.memLoad h
  have hm := Commutes.memStore h
  have hc := Commutes.requireExt h .c
  cases i
  case add =>
    refine Commutes.runBody h ?_ s
    exact Commutes.bind (hx _) fun _ => Commutes.bind (hx _) fun _ => hw _ _
  case addi =>
    refine Commutes.runBody h ?_ s
    exact Commutes.bind (hx _) fun _ => hw _ _
  case lui =>
    refine Commutes.runBody h ?_ s
    exact hv _ _
  case slli =>
    refine Commutes.runBody h ?_ s
    exact Commutes.bind (Commutes.illegalIf fun s => by simp only [h.xlen]) fun _ => Commutes.bind (hx _) fun _
      => hw _ _
  case auipc =>
    refine Commutes.runBody h ?_ s
    exact Commutes.bind (Commutes.look h.pc) fun _ => hw _ _
  case jal =>
    refine Commutes.runBody h ?_ s
    exact Commutes.bind (Commutes.look fun s => h.npcDefault s 4) fun _ => Commutes.bind (Commutes.jumpRel h _)
      fun _ => hv _ _
  case jalr =>
    refine Commutes.runBody h ?_ s
    exact Commutes.bind (Commutes.look fun s => h.npcDefault s 4) fun _ => Commutes.bind (hx _) fun _ =>
      Commutes.bind (Commutes.setPc h _) fun _ => hv _ _
  case beq | bne | blt | bge | bltu | bgeu =>
    refine Commutes.runBody h ?_ s
    exact Commutes.bind (hx _) fun _ => Commutes.bind (hx _) fun _ => Commutes.branchIf h _ _
  case lw =>
    refine Commutes.runBody h ?_ s
    exact Commutes.bind (ha _ _) fun _ => Commutes.bind (hl _ _ _) fun _ => hv _ _
  case ld =>
    refine Commutes.runBody h ?_ s
    exact Commutes.bind (Commutes.illegalIf fun s => by simp only [h.xlen]) fun _ => Commutes.bind (ha _ _) fun
      _ => Commutes.bind (hl _ _ _) fun _ => hv _ _
  case sw =>
    refine Commutes.runBody h ?_ s
    exact Commutes.bind (ha _ _) fun _ => Commutes.bind (hx _) fun _ => hm _ _ _
  case sd =>
    refine Commutes.runBody h ?_ s
    exact Commutes.bind (Commutes.illegalIf fun s => by simp only [h.xlen]) fun _ => Commutes.bind (ha _ _) fun
      _ => Commutes.bind (hx _) fun _ => hm _ _ _
  case csrrw =>
    refine Commutes.runBody h ?_ s
    exact Commutes.csrAccess h _ _ _ (hd _ rfl) fun _ => hx _
  case csrrs | csrrc =>
    refine Commutes.runBody h ?_ s
    exact Commutes.csrAccess h _ _ _ (hd _ rfl) fun _ => Commutes.bind (hx _) fun _ => Commutes.pure _
  case csrrwi | csrrsi | csrrci =>
    refine Commutes.runBody h ?_ s
    exact Commutes.csrAccess h _ _ _ (hd _ rfl) fun _ => Commutes.pure _
  case fsgnjS | fsgnjnS | fsgnjxS | fsgnjD | fsgnjnD | fsgnjxD | fsgnjQ | fsgnjnQ | fsgnjxQ =>
    refine Commutes.runBody h ?_ s
    exact Commutes.injectSign h _ _ _ _ _ _ _
  case cAddi4spn =>
    refine Commutes.runBody h ?_ s
    exact Commutes.bind hc fun _ => Commutes.bind (Commutes.stopIf _ _) fun _ => Commutes.bind (hx _) fun _ =>
      hw _ _
  case cLw =>
    refine Commutes.runBody h ?_ s
    exact Commutes.bind hc fun _ => Commutes.bind (ha _ _) fun _ => Commutes.bind (hl _ _ _) fun _ => hv _ _
  case cLd =>
    refine Commutes.runBody64 h ?_ s
    exact Commutes.bind hc fun _ => Commutes.bind (ha _ _) fun _ => Commutes.bind (hl _ _ _) fun _ => hv _ _
  case cSw | cSwsp =>
    refine Commutes.runBody h ?_ s
    exact Commutes.bind hc fun _ => Commutes.bind (ha _ _) fun _ => Commutes.bind (hx _) fun _ => hm _ _ _
  case cSd | cSdsp =>
    refine Commutes.runBody64 h ?_ s
    exact Commutes.bind hc fun _ => Commutes.bind (ha _ _) fun _ => Commutes.bind (hx _) fun _ => hm _ _ _
  case cAddi =>
    refine Commutes.runBody h ?_ s
    exact Commutes.bind hc fun _ => Commutes.bind (hx _) fun _ => hw _ _
  case cLi =>
    refine Commutes.runBody h ?_ s
    exact Commutes.bind hc fun _ => hv _ _
  case cAddi16sp =>
    refine Commutes.runBody h ?_ s
    exact Commutes.bind hc fun _ => Commutes.bind (Commutes.stopIf _ _) fun _ => Commutes.bind (hx _) fun _ =>
      hw _ _
  case cLui =>
    refine Commutes.runBody h ?_ s
    exact Commutes.bind hc fun _ => Commutes.bind (Commutes.stopIf _ _) fun _ => hw _ _
  case cJ =>
    refine Commutes.runBody h ?_ s
    exact Commutes.bind hc fun _ => Commutes.jumpRel h _
  case cBeqz | cBnez =>
    refine Commutes.runBody h ?_ s
    exact Commutes.bind hc fun _ => Commutes.bind (hx _) fun _ => Commutes.branchIf h _ _
  case cSlli =>
    refine Commutes.runBody h ?_ s
    exact Commutes.bind hc fun _ => Commutes.bind (Commutes.illegalIf fun s => by simp only [h.xlen]) fun _ =>
      Commutes.bind (hx _) fun _ => hw _ _
  case cLwsp =>
    refine Commutes.runBody h ?_ s
    exact Commutes.bind hc fun _ => Commutes.bind (Commutes.stopIf _ _) fun _ => Commutes.bind (ha _ _) fun _
      => Commutes.bind (hl _ _ _) fun _ => hv _ _
  case cLdsp =>
    refine Commutes.runBody64 h ?_ s
    exact Commutes.bind hc fun _ => Commutes.bind (Commutes.stopIf _ _) fun _ => Commutes.bind (ha _ _) fun _
      => Commutes.bind (hl _ _ _) fun _ => hv _ _

end

end Sys2Proof.Machine
end

