-- ==== Sys2Proof/Laws/Encoding.lean ====
section
/-! SUPPORT. From a word's masked bits to its fields: what reading one row of the opcode table off a word comes to
(30_encoding.md R137). -/

namespace Sys2Proof

/-- A field of a masked word is the field masked. -/
theorem bits_and (a b : Word) (hi lo : Nat) : bits (a &&& b) hi lo = bits a hi lo &&& bits b hi lo := by
  apply BitVec.eq_of_getLsbD_eq
  intro k hk
  simp [bits, hk]

/-- A field the mask covers is the pattern's. -/
theorem bits_of_masked {w mask pattern : Word} (h : w &&& mask = pattern) (hi lo : Nat)
    (hm : bits mask hi lo = BitVec.allOnes _) : bits w hi lo = bits pattern hi lo := by
  rw [← h, bits_and, hm, BitVec.and_allOnes]

end Sys2Proof
end

