-- ==== Sys2Proof/Laws/Fetch.lean ====
section
/-! SUPPORT. The fetch unit's view at the end of a step: what `State.advanceFetch` leaves, what it reveals, and that
every copy of memory keeps its canonical form. -/

namespace Sys2Proof.Machine

variable (s : State)

/-! ## What the end of a step leaves -/

@[simp] theorem State.advanceFetch_params : s.advanceFetch.params = s.params := rfl

@[simp] theorem State.advanceFetch_inputs : s.advanceFetch.inputs = s.inputs := rfl

@[simp] theorem State.advanceFetch_pc : s.advanceFetch.pc = s.pc := rfl

@[simp] theorem State.advanceFetch_xpr : s.advanceFetch.xpr = s.xpr := rfl

@[simp] theorem State.advanceFetch_fpr : s.advanceFetch.fpr = s.fpr := rfl

@[simp] theorem State.advanceFetch_vtag : s.advanceFetch.vtag = s.vtag := rfl

@[simp] theorem State.advanceFetch_vl : s.advanceFetch.vl = s.vl := rfl

@[simp] theorem State.advanceFetch_velem : s.advanceFetch.velem = s.velem := rfl

@[simp] theorem State.advanceFetch_serialized : s.advanceFetch.serialized = s.serialized := rfl

@[simp] theorem State.advanceFetch_mem : s.advanceFetch.mem = s.mem := rfl

@[simp] theorem State.advanceFetch_csrs : s.advanceFetch.csrs = s.csrs := rfl

@[simp] theorem State.advanceFetch_fflags : s.advanceFetch.fflags = s.fflags := rfl

@[simp] theorem State.advanceFetch_fsDirty : s.advanceFetch.fsDirty = s.fsDirty := rfl

@[simp] theorem State.advanceFetch_log : s.advanceFetch.log = s.log := rfl

@[simp] theorem State.advanceFetch_resumes : s.advanceFetch.resumes = s.resumes := rfl

@[simp] theorem State.advanceFetch_outcome : s.advanceFetch.outcome = s.outcome := rfl

@[simp] theorem State.advanceFetch_fetchView :
    s.advanceFetch.fetchView = s.fetchView.map (advanceView s.mem) := rfl

/-- The view alone distinguishes the state at the end of a step. -/
theorem State.advanceFetch_eq : s.advanceFetch = { s with fetchView := s.advanceFetch.fetchView } := rfl

/-- A fetch unit that sees the data memory at once has no view to advance. -/
theorem State.advanceFetch_of_none (h : s.fetchView = none) : s.advanceFetch = s := by
  rw [State.advanceFetch_eq, State.advanceFetch_fetchView, h, Option.map_none, ← h]

/-! ## What becomes visible -/

/-- The schedule reveals nothing: the step's stores join those not yet seen. -/
theorem advanceView_of_zero {m : Memory} {v : FetchView} (h : v.reveals.headD v.thereafter = 0) :
    advanceView m v = { v with pending := v.pending ++ [m], reveals := v.reveals.tail } := by
  simp only [advanceView, h, List.take_zero, List.drop_zero, List.getLastD_nil]

/-- The schedule reveals the stores of every step so far: fetches see the data memory. -/
theorem advanceView_of_all {m : Memory} {v : FetchView} (h : v.pending.length < v.reveals.headD v.thereafter) :
    advanceView m v = { v with seen := m, pending := [], reveals := v.reveals.tail } := by
  have hl : (v.pending ++ [m]).length ≤ v.reveals.headD v.thereafter := by simpa using h
  simp only [advanceView, List.take_of_length_le hl, List.drop_of_length_le hl]
  simp

/-! ## Canonical form -/

/-- The view after a step holds only copies that it held and the step's memory. -/
theorem advanceView_wf {m : Memory} {v : FetchView} (hm : m.wf = true)
    (hv : (v.seen.wf && v.pending.all Memory.wf) = true) :
    ((advanceView m v).seen.wf && (advanceView m v).pending.all Memory.wf) = true := by
  simp only [Bool.and_eq_true, List.all_eq_true] at hv ⊢
  have hall : ∀ x ∈ v.pending ++ [m], x.wf = true := by
    simp only [List.mem_append, List.mem_singleton]
    rintro x (hx | rfl)
    · exact hv.2 x hx
    · exact hm
  refine ⟨?_, fun x hx => hall x (List.mem_of_mem_drop hx)⟩
  simp only [advanceView, List.getLastD_eq_getLast?]
  cases hg : ((v.pending ++ [m]).take (v.reveals.headD v.thereafter)).getLast? with
  | none => exact hv.1
  | some x => exact hall x (List.mem_of_mem_take (List.mem_of_getLast? hg))

theorem advanceFetch_keeps_memWf {s : State} (h : s.memWf = true) : s.advanceFetch.memWf = true := by
  simp only [State.memWf, State.advanceFetch_mem, State.advanceFetch_fetchView, Bool.and_eq_true] at h ⊢
  refine ⟨h.1, ?_⟩
  cases hv : s.fetchView with
  | none => rfl
  | some v => exact advanceView_wf h.1 (by simpa [hv] using h.2)

end Sys2Proof.Machine
end

