-- ==== Sys2Proof/Laws/Float.lean ====
section
/-! SUPPORT. Cells of the floating-point file bit by bit, and the two register files after one write. -/

namespace Sys2Proof.Machine

/-! ## Bits of a cell -/

theorem lowWide_getLsbD (n : Nat) (v : Wide) (k : Nat) (hk : k < 128) :
    (lowWide n v).getLsbD k = (decide (k < n) && v.getLsbD k) := by
  simp [lowWide, hk]

theorem onesAbove_getLsbD (n k : Nat) (hk : k < 128) : (onesAbove n).getLsbD k = decide (n ≤ k) := by
  rw [onesAbove, BitVec.getLsbD_shiftLeft, BitVec.getLsbD_allOnes]
  by_cases h : n ≤ k
  · simp [hk, h, Nat.not_lt.mpr h, show k - n < 128 by omega]
  · simp [h, Nat.lt_of_not_le h]

/-- A slice is all ones exactly when each of its bits is 1. -/
theorem slice_ones_iff (c : Wide) (a n : Nat) :
    c.extractLsb' a n = BitVec.allOnes n ↔ ∀ k, k < n → c.getLsbD (a + k) = true := by
  constructor
  · intro h k hk
    have h' := congrArg (fun v => v.getLsbD k) h
    simpa [hk] using h'
  · intro h
    apply BitVec.eq_of_getLsbD_eq
    intro k hk
    simpa [hk] using h k hk

/-- The width-by-width boxing test is the test of all bits above the width (40_register_access.md R169). -/
theorem isBoxed_iff (w : FWidth) (c : Wide) :
    isBoxed w c = true ↔ ∀ k, w.bits ≤ k → k < 128 → c.getLsbD k = true := by
  have top (h1 : ∀ k, k < 64 → c.getLsbD (64 + k) = true) (k : Nat) (hk : 64 ≤ k) (hk' : k < 128) :
      c.getLsbD k = true := by
    have := h1 (k - 64) (by omega)
    rwa [show 64 + (k - 64) = k by omega] at this
  have mid (h2 : ∀ k, k < 32 → c.getLsbD (32 + k) = true) (k : Nat) (hk : 32 ≤ k) (hk' : k < 64) :
      c.getLsbD k = true := by
    have := h2 (k - 32) (by omega)
    rwa [show 32 + (k - 32) = k by omega] at this
  cases w <;> simp only [isBoxed, FWidth.bits, Bool.and_eq_true, beq_iff_eq, slice_ones_iff]
  · constructor
    · rintro ⟨⟨h1, h2⟩, h3⟩ k hk hk'
      rcases Nat.lt_or_ge k 64 with h | h
      · rcases Nat.lt_or_ge k 32 with h' | h'
        · have := h3 (k - 16) (by omega)
          rwa [show 16 + (k - 16) = k by omega] at this
        · exact mid h2 k h' h
      · exact top h1 k h hk'
    · intro h
      exact ⟨⟨fun k hk => h _ (by omega) (by omega), fun k hk => h _ (by omega) (by omega)⟩,
        fun k hk => h _ (by omega) (by omega)⟩
  · constructor
    · rintro ⟨h1, h2⟩ k hk hk'
      rcases Nat.lt_or_ge k 64 with h | h
      · exact mid h2 k hk h
      · exact top h1 k h hk'
    · intro h
      exact ⟨fun k hk => h _ (by omega) (by omega), fun k hk => h _ (by omega) (by omega)⟩
  · exact ⟨fun h1 k hk hk' => top h1 k hk hk', fun h k hk => h _ (by omega) (by omega)⟩
  · exact ⟨fun _ k hk hk' => by omega, fun _ => trivial⟩

/-- A boxed value tests as boxed. -/
theorem isBoxed_box (w : FWidth) (v : Wide) : isBoxed w (box w v) = true := by
  rw [isBoxed_iff]
  intro k h1 h2
  rw [box, BitVec.getLsbD_or, onesAbove_getLsbD _ _ h2]
  simp [h1]

/-! ## The register files after one write -/

/-- The register written, unless it is x0, holds the value. -/
theorem x_putX_self (s : State) {i : Reg} (v : Word) (h : i ≠ 0) : (s.putX i v).x i = v := by
  simp only [State.x, State.putX, State.logged, if_neg h]
  simp

/-- Another register keeps its value. -/
theorem x_putX_ne (s : State) {i j : Reg} (v : Word) (h : j ≠ i) : (s.putX i v).x j = s.x j := by
  simp only [State.x, State.putX, State.logged]
  by_cases hi : i = 0
  · simp only [if_pos hi]
  · have hn : ¬i.toNat = j.toNat := fun e => h (BitVec.eq_of_toNat_eq e.symm)
    simp only [if_neg hi, Vector.getElem_set, if_neg hn]

theorem f_putF_self (s : State) (i : Reg) (c : Wide) : (s.putF i c).f i = c := by
  simp [State.f, State.putF, State.logged]

theorem f_putF_ne (s : State) {i j : Reg} (c : Wide) (h : j ≠ i) : (s.putF i c).f j = s.f j := by
  have hn : ¬i.toNat = j.toNat := fun e => h (BitVec.eq_of_toNat_eq e.symm)
  simp only [State.f, State.putF, State.logged, Vector.getElem_set, if_neg hn]

end Sys2Proof.Machine
end

