-- ==== Sys2Proof/Laws/PerInstr.lean ====
section
/-! SUPPORT. The family EncodedLength: the length the low bits of an encoded instruction say is the length of the
instruction (30_encoding.md R102, R117, R118), one lemma per constructor of `Instr`. -/

namespace Sys2Proof

/-- The length of a 4-byte word shows in its major opcode alone. -/
theorem insnLength_word32 (hi : BitVec 25) (op : BitVec 7) (h1 : op.extractLsb 1 0 = 3#2)
    (h2 : op.extractLsb 4 0 ≠ 31#5) : insnLength (word32 (hi ++ op)) = 4 := by
  have e1 : bits (word32 (hi ++ op)) 1 0 = op.extractLsb 1 0 := by
    apply BitVec.eq_of_getLsbD_eq
    intro k hk
    have h7 : k < 7 := by omega
    have h64 : k < 64 := by omega
    simp only [bits, word32, BitVec.getLsbD_extractLsb, BitVec.getLsbD_signExtend, BitVec.getLsbD_append]
    simp [h7, h64, show k < 32 by omega]
  have e2 : bits (word32 (hi ++ op)) 4 0 = op.extractLsb 4 0 := by
    apply BitVec.eq_of_getLsbD_eq
    intro k hk
    have h7 : k < 7 := by omega
    have h64 : k < 64 := by omega
    simp only [bits, word32, BitVec.getLsbD_extractLsb, BitVec.getLsbD_signExtend, BitVec.getLsbD_append]
    simp [h7, h64, show k < 32 by omega]
  unfold insnLength
  rw [e1, e2, if_neg (not_not.mpr h1), if_pos h2]

/-- The length of a 2-byte word shows in its quadrant alone. -/
theorem insnLength_word16 (hi : BitVec 14) (q : BitVec 2) (h : q ≠ 3#2) : insnLength (word16 (hi ++ q)) = 2 := by
  have e : bits (word16 (hi ++ q)) 1 0 = q := by
    apply BitVec.eq_of_getLsbD_eq
    intro k hk
    have h64 : k < 64 := by omega
    simp only [bits, word16, BitVec.getLsbD_extractLsb, BitVec.getLsbD_signExtend, BitVec.getLsbD_append]
    simp [h64, show k < 2 by omega, show k < 16 by omega]
  unfold insnLength
  rw [e, if_pos h]

end Sys2Proof

namespace Sys2Proof.Laws.EncodedLength

/-- The encoded word says its own length. -/
def Statement (i : Instr) : Prop := insnLength (encode i) = instrLength i

theorem add (rd rs1 rs2 : Reg) : Statement (.add rd rs1 rs2) :=
  insnLength_word32 _ _ (by decide) (by decide)

theorem addi (rd rs1 : Reg) (imm : Word) : Statement (.addi rd rs1 imm) :=
  insnLength_word32 _ _ (by decide) (by decide)

theorem lui (rd : Reg) (imm : Word) : Statement (.lui rd imm) :=
  insnLength_word32 _ _ (by decide) (by decide)

theorem slli (rd rs1 : Reg) (shamt : BitVec 6) : Statement (.slli rd rs1 shamt) :=
  insnLength_word32 _ _ (by decide) (by decide)

theorem auipc (rd : Reg) (imm : Word) : Statement (.auipc rd imm) :=
  insnLength_word32 _ _ (by decide) (by decide)

theorem jal (rd : Reg) (off : Word) : Statement (.jal rd off) :=
  insnLength_word32 _ _ (by decide) (by decide)

theorem jalr (rd rs1 : Reg) (imm : Word) : Statement (.jalr rd rs1 imm) :=
  insnLength_word32 _ _ (by decide) (by decide)

theorem beq (rs1 rs2 : Reg) (off : Word) : Statement (.beq rs1 rs2 off) :=
  insnLength_word32 _ _ (by decide) (by decide)

theorem bne (rs1 rs2 : Reg) (off : Word) : Statement (.bne rs1 rs2 off) :=
  insnLength_word32 _ _ (by decide) (by decide)

theorem blt (rs1 rs2 : Reg) (off : Word) : Statement (.blt rs1 rs2 off) :=
  insnLength_word32 _ _ (by decide) (by decide)

theorem bge (rs1 rs2 : Reg) (off : Word) : Statement (.bge rs1 rs2 off) :=
  insnLength_word32 _ _ (by decide) (by decide)

theorem bltu (rs1 rs2 : Reg) (off : Word) : Statement (.bltu rs1 rs2 off) :=
  insnLength_word32 _ _ (by decide) (by decide)

theorem bgeu (rs1 rs2 : Reg) (off : Word) : Statement (.bgeu rs1 rs2 off) :=
  insnLength_word32 _ _ (by decide) (by decide)

theorem lw (rd rs1 : Reg) (imm : Word) : Statement (.lw rd rs1 imm) :=
  insnLength_word32 _ _ (by decide) (by decide)

theorem ld (rd rs1 : Reg) (imm : Word) : Statement (.ld rd rs1 imm) :=
  insnLength_word32 _ _ (by decide) (by decide)

theorem sw (rs2 rs1 : Reg) (imm : Word) : Statement (.sw rs2 rs1 imm) :=
  insnLength_word32 _ _ (by decide) (by decide)

theorem sd (rs2 rs1 : Reg) (imm : Word) : Statement (.sd rs2 rs1 imm) :=
  insnLength_word32 _ _ (by decide) (by decide)

theorem csrrw (rd : Reg) (csr : CsrAddr) (rs1 : Reg) : Statement (.csrrw rd csr rs1) :=
  insnLength_word32 _ _ (by decide) (by decide)

theorem csrrs (rd : Reg) (csr : CsrAddr) (rs1 : Reg) : Statement (.csrrs rd csr rs1) :=
  insnLength_word32 _ _ (by decide) (by decide)

theorem csrrc (rd : Reg) (csr : CsrAddr) (rs1 : Reg) : Statement (.csrrc rd csr rs1) :=
  insnLength_word32 _ _ (by decide) (by decide)

theorem csrrwi (rd : Reg) (csr : CsrAddr) (zimm : BitVec 5) : Statement (.csrrwi rd csr zimm) :=
  insnLength_word32 _ _ (by decide) (by decide)

theorem csrrsi (rd : Reg) (csr : CsrAddr) (zimm : BitVec 5) : Statement (.csrrsi rd csr zimm) :=
  insnLength_word32 _ _ (by decide) (by decide)

theorem csrrci (rd : Reg) (csr : CsrAddr) (zimm : BitVec 5) : Statement (.csrrci rd csr zimm) :=
  insnLength_word32 _ _ (by decide) (by decide)

theorem fsgnjS (rd rs1 rs2 : Reg) : Statement (.fsgnjS rd rs1 rs2) :=
  insnLength_word32 _ _ (by decide) (by decide)

theorem fsgnjnS (rd rs1 rs2 : Reg) : Statement (.fsgnjnS rd rs1 rs2) :=
  insnLength_word32 _ _ (by decide) (by decide)

theorem fsgnjxS (rd rs1 rs2 : Reg) : Statement (.fsgnjxS rd rs1 rs2) :=
  insnLength_word32 _ _ (by decide) (by decide)

theorem fsgnjD (rd rs1 rs2 : Reg) : Statement (.fsgnjD rd rs1 rs2) :=
  insnLength_word32 _ _ (by decide) (by decide)

theorem fsgnjnD (rd rs1 rs2 : Reg) : Statement (.fsgnjnD rd rs1 rs2) :=
  insnLength_word32 _ _ (by decide) (by decide)

theorem fsgnjxD (rd rs1 rs2 : Reg) : Statement (.fsgnjxD rd rs1 rs2) :=
  insnLength_word32 _ _ (by decide) (by decide)

theorem fsgnjQ (rd rs1 rs2 : Reg) : Statement (.fsgnjQ rd rs1 rs2) :=
  insnLength_word32 _ _ (by decide) (by decide)

theorem fsgnjnQ (rd rs1 rs2 : Reg) : Statement (.fsgnjnQ rd rs1 rs2) :=
  insnLength_word32 _ _ (by decide) (by decide)

theorem fsgnjxQ (rd rs1 rs2 : Reg) : Statement (.fsgnjxQ rd rs1 rs2) :=
  insnLength_word32 _ _ (by decide) (by decide)

theorem cAddi4spn (rd : Reg) (imm : Word) : Statement (.cAddi4spn rd imm) :=
  insnLength_word16 _ _ (by decide)

theorem cLw (rd rs1 : Reg) (imm : Word) : Statement (.cLw rd rs1 imm) :=
  insnLength_word16 _ _ (by decide)

theorem cLd (rd rs1 : Reg) (imm : Word) : Statement (.cLd rd rs1 imm) :=
  insnLength_word16 _ _ (by decide)

theorem cSw (rs2 rs1 : Reg) (imm : Word) : Statement (.cSw rs2 rs1 imm) :=
  insnLength_word16 _ _ (by decide)

theorem cSd (rs2 rs1 : Reg) (imm : Word) : Statement (.cSd rs2 rs1 imm) :=
  insnLength_word16 _ _ (by decide)

theorem cAddi (rd : Reg) (imm : Word) : Statement (.cAddi rd imm) :=
  insnLength_word16 _ _ (by decide)

theorem cLi (rd : Reg) (imm : Word) : Statement (.cLi rd imm) :=
  insnLength_word16 _ _ (by decide)

theorem cAddi16sp (imm : Word) : Statement (.cAddi16sp imm) :=
  insnLength_word16 _ _ (by decide)

theorem cLui (rd : Reg) (imm : Word) : Statement (.cLui rd imm) :=
  insnLength_word16 _ _ (by decide)

theorem cJ (off : Word) : Statement (.cJ off) :=
  insnLength_word16 _ _ (by decide)

theorem cBeqz (rs1 : Reg) (off : Word) : Statement (.cBeqz rs1 off) :=
  insnLength_word16 _ _ (by decide)

theorem cBnez (rs1 : Reg) (off : Word) : Statement (.cBnez rs1 off) :=
  insnLength_word16 _ _ (by decide)

theorem cSlli (rd : Reg) (shamt : BitVec 6) : Statement (.cSlli rd shamt) :=
  insnLength_word16 _ _ (by decide)

theorem cLwsp (rd : Reg) (imm : Word) : Statement (.cLwsp rd imm) :=
  insnLength_word16 _ _ (by decide)

theorem cLdsp (rd : Reg) (imm : Word) : Statement (.cLdsp rd imm) :=
  insnLength_word16 _ _ (by decide)

theorem cSwsp (rs2 : Reg) (imm : Word) : Statement (.cSwsp rs2 imm) :=
  insnLength_word16 _ _ (by decide)

theorem cSdsp (rs2 : Reg) (imm : Word) : Statement (.cSdsp rs2 imm) :=
  insnLength_word16 _ _ (by decide)

end Sys2Proof.Laws.EncodedLength
end

