-- ==== Sys2Proof/Laws/Vector.lean ====
section
/-! SUPPORT. The vector engine: what its gates answer, reading an element after writing one, and the rules of the
element loop, which a vector proof cites instead of unfolding the loop. -/

namespace Sys2Proof.Machine

/-! ## Gates -/

theorem requireConfigured_of_configured {s : State} {r : Reg} {t : Tag} (h : s.tagOf r = .configured t) :
    requireConfigured r s = .ok t s := by
  simp only [requireConfigured, h]

theorem requireConfigured_of_unconfigured {s : State} {r : Reg} (h : s.tagOf r = .unconfigured) :
    requireConfigured r s = .error .illegal s := by
  simp only [requireConfigured, h]

/-- The gate leaves the state, whatever it answers. -/
theorem requireConfigured_state (r : Reg) (s : State) : reached (requireConfigured r s) = s := by
  unfold requireConfigured
  split <;> rfl

/-- All registers configured: their tags, in order. -/
theorem requireAll_of_configured {s : State} {rs : List Reg} {ts : List Tag}
    (h : rs.map s.tagOf = ts.map VTag.configured) : requireAll rs s = .ok ts s := by
  induction rs generalizing ts with
  | nil =>
    cases ts with
    | nil => rfl
    | cons t ts => cases h
  | cons r rs ih =>
    cases ts with
    | nil => cases h
    | cons t ts =>
      simp only [List.map_cons, List.cons.injEq] at h
      simp only [requireAll, bind_run, requireConfigured_of_configured h.1, ih h.2, pure_run]

/-- Some register unconfigured: illegal-instruction. -/
theorem requireAll_of_unconfigured {s : State} {rs : List Reg} (h : ∃ r ∈ rs, s.tagOf r = .unconfigured) :
    requireAll rs s = .error .illegal s := by
  induction rs with
  | nil => simp at h
  | cons r rs ih =>
    cases hr : s.tagOf r with
    | unconfigured => simp only [requireAll, bind_run, requireConfigured_of_unconfigured hr]
    | configured t =>
      have h' : ∃ r ∈ rs, s.tagOf r = .unconfigured := by
        obtain ⟨q, hq, hu⟩ := h
        rcases List.mem_cons.mp hq with rfl | hq
        · rw [hr] at hu
          cases hu
        · exact ⟨q, hq, hu⟩
      simp only [requireAll, bind_run, requireConfigured_of_configured hr, ih h']

/-! ## Elements -/

/-- Each register's list has VLMAX cells. -/
theorem elemsSized_iff {s : State} :
    s.elemsSized = true ↔ ∀ r : Reg, (s.velem[r.toNat]'r.isLt).length = s.params.vlmax := by
  simp only [State.elemsSized, List.all_eq_true, beq_iff_eq]
  constructor
  · intro h r
    exact h _ (by simp)
  · intro h l hl
    obtain ⟨k, hk, rfl⟩ := List.getElem_of_mem hl
    have hk' : k < 32 := by simpa using hk
    have := h (BitVec.ofNat 5 k)
    simp only [BitVec.toNat_ofNat, Nat.mod_eq_of_lt (show k < 2 ^ 5 by omega)] at this
    simpa using this

/-- The list of a register after a write of one element. -/
theorem velem_putElem (s : State) (r q : Reg) (w : EWidth) (e : Nat) (v : Wide) :
    ((s.putElem r w e v).velem[q.toNat]'q.isLt) =
      if q = r then (s.velem[q.toNat]'q.isLt).set e (storedElem s.params r w v) else s.velem[q.toNat]'q.isLt := by
  simp only [State.putElem, Vector.getElem_set]
  by_cases h : q = r
  · subst h
    simp
  · have hn : ¬r.toNat = q.toNat := fun e => h (BitVec.eq_of_toNat_eq e.symm)
    simp [h, hn]

/-- A written element's cell, in range. -/
theorem elemCell_putElem_self {s : State} {r : Reg} {e : Nat} (w : EWidth) (v : Wide) (hs : s.elemsSized = true)
    (he : e < s.params.vlmax) : (s.putElem r w e v).elemCell r e = storedElem s.params r w v := by
  have hl := elemsSized_iff.mp hs r
  simp only [State.elemCell, velem_putElem, if_true]
  simp [hl, he]

/-- Every other cell keeps its value. -/
theorem elemCell_putElem_ne {s : State} {r q : Reg} {e e' : Nat} (w : EWidth) (v : Wide) (h : q ≠ r ∨ e' ≠ e) :
    (s.putElem r w e v).elemCell q e' = s.elemCell q e' := by
  simp only [State.elemCell, velem_putElem]
  by_cases hq : q = r
  · have he : e' ≠ e := h.resolve_left (not_not.mpr hq)
    simp [hq, List.getD_eq_getElem?_getD, Ne.symm he]
  · simp [hq]

theorem elemsSized_putElem {s : State} (r : Reg) (w : EWidth) (e : Nat) (v : Wide) (hs : s.elemsSized = true) :
    (s.putElem r w e v).elemsSized = true := by
  refine elemsSized_iff.mpr fun q => ?_
  rw [velem_putElem]
  have := elemsSized_iff.mp hs q
  split <;> simpa using this

/-- Hardwired register 0 stays 0. -/
theorem v0Zero_putElem {s : State} (r : Reg) (w : EWidth) (e : Nat) (v : Wide) (h : s.v0Zero = true) :
    (s.putElem r w e v).v0Zero = true := by
  simp only [State.v0Zero, Bool.or_eq_true, Bool.not_eq_true', State.putElem_params] at h ⊢
  rcases h with h | h
  · exact .inl h
  · by_cases hw : s.params.v0Hardwired = true
    · right
      have hz := velem_putElem s r 0 w e v
      simp only [BitVec.toNat_zero, BitVec.ofNat_eq_ofNat] at hz
      have hz' : (s.putElem r w e v).velem[0] = if (0 : Reg) = r then (s.velem[0]).set e (storedElem s.params r w v)
          else s.velem[0] := hz
      rw [hz']
      split
      · next hr =>
        subst hr
        simp only [storedElem, hw, and_self, if_true]
        simp only [List.all_eq_true, beq_iff_eq] at h ⊢
        intro x hx
        rcases List.mem_or_eq_of_mem_set hx with hx | hx
        · exact h x hx
        · exact hx
      · exact h
    · left
      simpa using hw

/-- The elements alone distinguish a state with one element written. -/
theorem putElem_eq (s : State) (r : Reg) (w : EWidth) (e : Nat) (v : Wide) :
    s.putElem r w e v = { s with velem := (s.putElem r w e v).velem } := rfl

/-! ## The element loop -/

/-- The loop rule: a property of the index and the context that every completed iteration takes to the next index
holds at the end; where an iteration stops, the context it reached has the stop's property. -/
theorem elementLoop_rule {iter : Nat → Body FFlags} {P : Nat → State → Prop} {Q : Nat → Stop → State → Prop} {e n : Nat}
    (hi : ∀ k s, e ≤ k → k < e + n → P k s →
      match iter k s with
      | .ok _ t => P (k + 1) t
      | .error x t => Q k x t)
    {s : State} (h : P e s) :
    match elementLoop iter e n s with
    | .ok _ t => P (e + n) t
    | .error x t => ∃ k, e ≤ k ∧ k < e + n ∧ Q k x t := by
  induction n generalizing e s with
  | zero => exact h
  | succ n ih =>
    simp only [elementLoop, bind_run]
    have h1 := hi e s (Nat.le_refl e) (by omega) h
    cases hs : iter e s with
    | error x t =>
      rw [hs] at h1
      exact ⟨e, by omega, by omega, h1⟩
    | ok a t =>
      rw [hs] at h1
      have h2 := ih (fun k s hk hk' => hi k s (by omega) (by omega)) h1
      simp only
      cases hl : elementLoop iter (e + 1) n t with
      | ok b u =>
        rw [hl] at h2
        simpa [Nat.add_comm 1 n, Nat.add_assoc] using h2
      | error x u =>
        rw [hl] at h2
        obtain ⟨k, hk, hk', hq⟩ := h2
        exact ⟨k, by omega, by omega, hq⟩

/-- The loop that completes, iteration by iteration: each iteration completed, from the context the one before it
left. -/
theorem elementLoop_succ_ok {iter : Nat → Body FFlags} {e n : Nat} {s t : State} {fl : FFlags}
    (h : elementLoop iter e (n + 1) s = .ok fl t) :
    ∃ a b u, iter e s = .ok a u ∧ elementLoop iter (e + 1) n u = .ok b t ∧ fl = a.merge b := by
  simp only [elementLoop, bind_run] at h
  cases hs : iter e s with
  | error x u =>
    rw [hs] at h
    cases h
  | ok a u =>
    rw [hs] at h
    simp only at h
    cases hl : elementLoop iter (e + 1) n u with
    | error x v =>
      rw [hl] at h
      cases h
    | ok b v =>
      rw [hl] at h
      injection h with h1 h2
      subst h2
      exact ⟨a, b, u, rfl, hl, h1.symm⟩

/-- The loop whose iterations complete, along the contexts they leave: it ends in the last context, with the flags of
all of them. -/
theorem elementLoop_ok {iter : Nat → Body FFlags} {fl : Nat → FFlags} {st : Nat → State} {e n : Nat}
    (h : ∀ j, j < n → iter (e + j) (st j) = .ok (fl j) (st (j + 1))) :
    elementLoop iter e n (st 0) =
      .ok ((List.range n).foldr (fun j acc => (fl j).merge acc) .none) (st n) := by
  induction n generalizing e fl st with
  | zero => rfl
  | succ n ih =>
    have h0 : iter e (st 0) = .ok (fl 0) (st 1) := h 0 (by omega)
    have h1 := ih (e := e + 1) (fl := fun j => fl (j + 1)) (st := fun j => st (j + 1)) fun j hj => by
      rw [show e + 1 + j = e + (j + 1) by omega]
      exact h (j + 1) (by omega)
    simp only [elementLoop, bind_run, h0, h1, pure_run, List.range_succ_eq_map, List.foldr_cons, List.foldr_map]

/-- The loop whose iteration `k` is the first to stop: it stops so, in the context that iteration reached. -/
theorem elementLoop_error {iter : Nat → Body FFlags} {fl : Nat → FFlags} {st : Nat → State} {e k n : Nat} {x : Stop}
    {t : State} (hk : k < n) (h : ∀ j, j < k → iter (e + j) (st j) = .ok (fl j) (st (j + 1)))
    (hx : iter (e + k) (st k) = .error x t) : elementLoop iter e n (st 0) = .error x t := by
  induction k generalizing e n fl st with
  | zero =>
    cases n with
    | zero => omega
    | succ n => simp only [elementLoop, bind_run, show iter e (st 0) = .error x t from hx]
  | succ k ih =>
    cases n with
    | zero => omega
    | succ n =>
      have h0 : iter e (st 0) = .ok (fl 0) (st 1) := h 0 (by omega)
      have h1 := ih (e := e + 1) (n := n) (fl := fun j => fl (j + 1)) (st := fun j => st (j + 1)) (by omega)
        (fun j hj => by
          rw [show e + 1 + j = e + (j + 1) by omega]
          exact h (j + 1) (by omega))
        (by rwa [show e + 1 + k = e + (k + 1) by omega])
      simp only [elementLoop, bind_run, h0, h1]

/-- A relation every iteration respects is respected by the loop. -/
theorem Keeps.elementLoop {R : State → State → Prop} (h : Composes R) {iter : Nat → Body FFlags} (e n : Nat)
    (hi : ∀ k, Keeps R (iter k)) : Keeps R (Machine.elementLoop iter e n) := by
  induction n generalizing e with
  | zero => exact Keeps.pure h _
  | succ n ih => exact Keeps.bind h (hi e) fun _ => Keeps.bind h (ih (e + 1)) fun _ => Keeps.pure h _

theorem Keeps.orIllegal {R : State → State → Prop} {α : Type} (h : Composes R) (o : Option α) :
    Keeps R (Machine.orIllegal o) := by
  intro s
  cases o <;> exact h.refl s

theorem Keeps.extendOperands {R : State → State → Prop} (h : Composes R) (ty : VType) (e : Nat)
    (l : List (Reg × Tag)) : Keeps R (Machine.extendOperands ty e l) := by
  induction l with
  | nil => exact Keeps.pure h _
  | cons p l ih =>
    exact Keeps.bind h (Keeps.look h _) fun _ => Keeps.bind h (Keeps.orIllegal h _) fun _ =>
      Keeps.bind h ih fun _ => Keeps.pure h _

/-- One iteration updates nothing but one element of the destination. -/
theorem Keeps.opElement {R : State → State → Prop} (h : Composes R) (field : BitVec 3) (op : VectorOp) (ty : VType)
    (d : Reg) (dt : Tag) (srcs : List (Reg × Tag)) (e : Nat) (hp : ∀ s v, R s (s.putElem d dt.width e v)) :
    Keeps R (Machine.opElement field op ty d dt srcs e) := by
  refine Keeps.bind h (Keeps.extendOperands h ty e srcs) fun _ => Keeps.bind h ?_ fun _ => Keeps.bind h ?_ fun _ =>
    Keeps.bind h (Keeps.change fun s => hp s _) fun _ => Keeps.pure h _
  · intro s
    unfold applyOp
    split <;> exact h.refl s
  · exact fun s => Keeps.orIllegal h _ s

theorem Keeps.memLoadPair {R : State → State → Prop} (h : Composes R) (a : Word) : Keeps R (Machine.memLoadPair a) :=
  Keeps.bind h (Keeps.memLoad h _ _ _) fun _ => Keeps.bind h (Keeps.memLoad h _ _ _) fun _ => Keeps.pure h _

theorem Keeps.routeLoad {R : State → State → Prop} (h : Composes R) (t : Tag) (a : Word) :
    Keeps R (Machine.routeLoad t a) := by
  unfold Machine.routeLoad
  split
  all_goals first
    | exact Keeps.bind h (Keeps.memLoad h _ _ _) fun _ => Keeps.pure h _
    | exact Keeps.memLoadPair h a

/-- A routed store updates nothing but memory, and that by writes of bytes. -/
theorem Keeps.routeStore {R : State → State → Prop} (h : Composes R) (t : Tag) (a : Word) (v : Wide)
    (hp : ∀ s a bs, R s (s.withMem (writeBytes s.mem a bs))) : Keeps R (Machine.routeStore t a v) := by
  unfold Machine.routeStore
  split
  all_goals first
    | exact Keeps.memStore fun s _ _ => hp s _ _
    | exact Keeps.bind h (Keeps.memStore fun s _ _ => hp s _ _) fun _ => Keeps.memStore fun s _ _ => hp s _ _

/-! ## The whole operations -/

/-- The element-wise operation updates nothing but elements of its destination. -/
theorem Keeps.vop {R : State → State → Prop} (h : Composes R) (field : BitVec 3) (op : VectorOp) (d : Reg)
    (srcs : List Reg) (hp : ∀ s w e v, R s (s.putElem d w e v)) : Keeps R (Machine.vop field op d srcs) := by
  refine Keeps.bind h (Keeps.requireExt h _) fun _ => Keeps.bind h ?_ fun dt => Keeps.bind h ?_ fun ts =>
    Keeps.bind h (Keeps.orIllegal h _) fun ty => Keeps.bind h (Keeps.stopIf h _ _) fun _ =>
      Keeps.bind h (Keeps.look h _) fun len => Keeps.elementLoop h _ _ fun e =>
        Keeps.opElement h _ _ _ _ _ _ _ fun s v => hp s _ _ v
  · intro s
    rw [requireConfigured_state]
    exact h.refl s
  · induction srcs with
    | nil => exact Keeps.pure h _
    | cons r rs ih =>
      refine Keeps.bind h ?_ fun _ => Keeps.bind h ih fun _ => Keeps.pure h _
      intro s
      rw [requireConfigured_state]
      exact h.refl s

/-- The vector load updates nothing but elements of its destination. -/
theorem Keeps.vload {R : State → State → Prop} (h : Composes R) (d : Reg) (base : Word)
    (hp : ∀ s w e v, R s (s.putElem d w e v)) : Keeps R (Machine.vload d base) := by
  refine Keeps.bind h (Keeps.requireExt h _) fun _ => Keeps.bind h ?_ fun t => Keeps.bind h (Keeps.stopIf h _ _)
    fun _ => Keeps.bind h (Keeps.look h _) fun len => Keeps.bind h (Keeps.elementLoop h _ _ fun e =>
      Keeps.bind h (Keeps.routeLoad h t _) fun _ => Keeps.bind h (Keeps.change fun s => hp s _ _ _) fun _ =>
        Keeps.pure h _) fun _ => Keeps.pure h _
  intro s
  rw [requireConfigured_state]
  exact h.refl s

/-- The vector store updates nothing but memory. -/
theorem Keeps.vstore {R : State → State → Prop} (h : Composes R) (r : Reg) (base : Word)
    (hp : ∀ s a bs, R s (s.withMem (writeBytes s.mem a bs))) : Keeps R (Machine.vstore r base) := by
  refine Keeps.bind h (Keeps.requireExt h _) fun _ => Keeps.bind h ?_ fun t => Keeps.bind h (Keeps.stopIf h _ _)
    fun _ => Keeps.bind h (Keeps.look h _) fun len => Keeps.bind h (Keeps.elementLoop h _ _ fun e =>
      Keeps.bind h (Keeps.look h _) fun _ => Keeps.bind h (Keeps.routeStore h t _ _ hp) fun _ =>
        Keeps.pure h _) fun _ => Keeps.pure h _
  intro s
  rw [requireConfigured_state]
  exact h.refl s

/-- The configuration updates nothing but the CSR it writes and what `State.configured` sets. -/
theorem Keeps.configure {R : State → State → Prop} (h : Composes R) (avl : Word) (g : Groups)
    (hc : ∀ s a v, R s (s.putCsr a v)) (hp : ∀ s, R s (s.configured avl g)) : Keeps R (Machine.configure avl g) :=
  Keeps.bind h (Keeps.requireExt h _) fun _ => Keeps.bind h (Keeps.stopIf h _ _) fun _ =>
    Keeps.bind h (Keeps.look h _) fun a => Keeps.bind h (Keeps.csrWrite h fun s => hc s a _) fun _ =>
      Keeps.bind h (Keeps.change hp) fun _ => Keeps.look h _

/-! ## The bodies over a word -/

@[simp] theorem vectorBase_run (insn : Word) (s : State) :
    vectorBase insn s = if s.hasX (rs1 insn) = true then .ok (s.x (rs1 insn)) s else .error .illegal s :=
  readX_run _ s

/-- The element-wise body is the operation on the registers its word names, and then its flags. -/
theorem vopBody_run (insn : Word) (op : (Nat → Word) → VectorOp) (srcs : List RegField) (s : State) :
    vopBody insn op srcs s =
      match vop (rm insn) (op (vectorImms insn)) (rd insn) (srcs.map (regIndex insn)) s with
      | .ok fl t => .ok () { t with fflags := t.fflags.merge fl }
      | .error e t => .error e t := by
  simp only [vopBody, bind_run]
  cases vop (rm insn) (op (vectorImms insn)) (rd insn) (srcs.map (regIndex insn)) s <;> rfl

/-- The load body: the gate, then the load of `rd(insn)` from `x[rs1(insn)]`, or illegal-instruction. -/
theorem vloadBody_run (insn : Word) (s : State) :
    vloadBody insn s =
      match supports s .v with
      | .yes =>
        if s.hasX (rs1 insn) = true then vload (rd insn) (s.x (rs1 insn)) s else .error .illegal s
      | .no => .error .illegal s
      | .faults r => .error (.collaborator r) s := by
  cases h : s.hasX (rs1 insn) <;> cases h' : supports s .v <;> simp [vloadBody, h, h']

/-- The store body: the gate, then the store of the register its opcode names at `x[rs1(insn)]`, or
illegal-instruction. -/
theorem vstoreBody_run (insn : Word) (src : RegField) (s : State) :
    vstoreBody insn src s =
      match supports s .v with
      | .yes =>
        if s.hasX (rs1 insn) = true then vstore (regIndex insn src) (s.x (rs1 insn)) s else .error .illegal s
      | .no => .error .illegal s
      | .faults r => .error (.collaborator r) s := by
  cases h : s.hasX (rs1 insn) <;> cases h' : supports s .v <;> simp [vstoreBody, h, h']

/-- The configuration body: the gate, the configuration, then its result in `x[rd(insn)]`, checked when it is written. -/
theorem configureBody_run (insn : Word) (avl : RegField) (gs : (Nat → Word) → Groups) (s : State) :
    configureBody insn avl gs s =
      match supports s .v with
      | .yes =>
        if s.hasX (regIndex insn avl) = true then
          match configure (s.x (regIndex insn avl)) (gs (vectorImms insn)) s with
          | .ok vl t => writeSext (rd insn) vl t
          | .error e t => .error e t
        else .error .illegal s
      | .no => .error .illegal s
      | .faults r => .error (.collaborator r) s := by
  cases h : s.hasX (regIndex insn avl) <;> cases h' : supports s .v
  case true.yes =>
    simp only [configureBody, bind_run, requireExt_run, h', readX_run, h, if_true]
    cases configure (s.x (regIndex insn avl)) (gs (vectorImms insn)) s <;> rfl
  all_goals simp [configureBody, h, h']

end Sys2Proof.Machine
end

