-- ==== Sys2Proof/Tests/Slice0.lean ====
section
/-! SUPPORT. The model's own tests. Expected results come from the spec: the field layouts of 30_encoding.md, the worked
example of each rule, and 95_test_vectors.md. At the end, for each obligation with hypotheses, a concrete state and
operands that meet them. -/

namespace Sys2Proof.Tests

open Sys2Proof.Machine

/-! ## Small states -/

/-- The settings of 95_test_vectors.md: no compressed extension. -/
def bare : State := { State.reset with inputs := { resetInputs with caps := { resetInputs.caps with c := .no } } }

/-- The same with the compressed extension. -/
def comp : State := State.reset

/-- At another pc. -/
def atPc (s : State) (a : Word) : State := { s with pc := a, outcome := .next a .normal }

/-- With some integer registers set. -/
def regs (s : State) (l : List (Reg × Word)) : State := l.foldl (fun t p => t.putX p.1 p.2) s

/-- With some floating-point cells set. -/
def cells (s : State) (l : List (Reg × Wide)) : State := l.foldl (fun t p => t.putF p.1 p.2) s

/-- With bytes in memory. -/
def bytesAt (s : State) (a : Word) (l : List Byte) : State := s.withMem (writeBytes s.mem a l)

/-- With one CSR set, serialized, at a privilege level. -/
def csrReady (s : State) (p : BitVec 2) (a : CsrAddr) (v : Word) : State := ((s.putCsr a v).withSerialized true).atLevel p

/-- At XLEN 32. -/
def narrow (s : State) : State := { s with inputs := { s.inputs with xlen := .x32 } }

/-- With the reduced register file. -/
def reduced (s : State) : State := { s with params := { s.params with nxpr := .reduced } }

/-- Every capability query faults with a report of its own (00_scope.md R8). -/
def asking (s : State) : State :=
  { s with inputs := { s.inputs with
      caps := { c := .faults ⟨24, 7⟩, f := .faults ⟨24, 7⟩, d := .faults ⟨24, 7⟩, q := .faults ⟨24, 7⟩,
                h := .faults ⟨24, 7⟩, v := .faults ⟨24, 7⟩ } } }

/-- ILLEGAL_TVAL records the instruction's bits. -/
def recording (s : State) : State := { s with params := { s.params with illegalTval := .insnBits } }

/-- What one step over a word answers has a property. -/
def runs (s : State) (nbits w : Nat) (p : State → Bool) : Bool :=
  match step (s.withFetchWord nbits w) with
  | .next t => p t
  | .fault _ => false
  | .refused _ => false

/-- One step over a word is refused for this reason. -/
def refuses (s : State) (nbits w : Nat) (r : Refusal) : Bool :=
  match step (s.withFetchWord nbits w) with
  | .next _ => false
  | .fault _ => false
  | .refused q => q == r

/-- The outcome is a normal next PC. -/
def normal (t : State) (a : Word) : Bool := t.outcome == .next a .normal && t.pc == a

/-- The outcome is the fault of a capability query, with its own cause and value, at the pc (60_exceptions.md R403). -/
def asked (t : State) (a : Word) : Bool := t.outcome == .trap (.collaborator 24) 7 && t.pc == a

/-- The outcome is an illegal-instruction trap with recorded value 0, at the pc. -/
def illegal (t : State) (a : Word) : Bool := t.outcome == .trap .illegalInstruction 0 && t.pc == a

/-! ## Ill-formed terms, one per check of WellFormed.lean (30_encoding.md R111 to R134) -/

theorem test_wf_signed_range : (Instr.addi 1 1 2048).wf = false ∧ (Instr.addi 1 1 2047).wf = true ∧
    (Instr.addi 1 1 (-2048)).wf = true := by decide
theorem test_wf_unsigned_range : (Instr.cLwsp 1 256).wf = false ∧ (Instr.cLwsp 1 252).wf = true := by decide
theorem test_wf_alignment : (Instr.beq 1 2 3).wf = false ∧ (Instr.beq 1 2 2).wf = true ∧
    (Instr.lui 1 0x800).wf = false ∧ (Instr.cLdsp 1 4).wf = false := by decide
theorem test_wf_compact_register : (Instr.cLw 7 8 0).wf = false ∧ (Instr.cLw 8 16 0).wf = false ∧
    (Instr.cLw 8 15 0).wf = true := by decide
theorem test_wf_clui_x2 : (Instr.cLui 2 1).wf = false ∧ (Instr.cLui 1 1).wf = true := by decide

/-! ## Decoding: words written field by field from the formats of 30_encoding.md R117 and R118 -/

theorem test_decode_integer :
    decodeTableWord 32 0b0000000_00010_00001_000_00011_0110011 = some (.add 3 1 2) ∧
    decodeTableWord 32 0b111111111111_00000_000_00001_0010011 = some (.addi 1 0 (-1)) ∧
    decodeTableWord 32 0b10000000000000000000_00101_0110111 = some (.lui 5 0xffffffff80000000) ∧
    decodeTableWord 32 0b000000_111111_00001_001_00001_0010011 = some (.slli 1 1 63) ∧
    decodeTableWord 32 0b00000000000000000001_00110_0010111 = some (.auipc 6 0x1000) := by decide

theorem test_decode_jumps_and_branches :
    decodeTableWord 32 0b1_1111111111_1_11111111_00001_1101111 = some (.jal 1 (-2)) ∧
    decodeTableWord 32 0b0_0000000100_0_00000000_00001_1101111 = some (.jal 1 8) ∧
    decodeTableWord 32 0b000000000000_00001_000_00000_1100111 = some (.jalr 0 1 0) ∧
    decodeTableWord 32 0b0_000000_00010_00001_000_1000_0_1100011 = some (.beq 1 2 16) ∧
    decodeTableWord 32 0b1_111111_00000_00001_001_1100_1_1100011 = some (.bne 1 0 (-8)) ∧
    decodeTableWord 32 0b0_000000_00010_00001_100_0100_0_1100011 = some (.blt 1 2 8) ∧
    decodeTableWord 32 0b0_000000_00010_00001_101_0100_0_1100011 = some (.bge 1 2 8) ∧
    decodeTableWord 32 0b0_000000_00010_00001_110_0100_0_1100011 = some (.bltu 1 2 8) ∧
    decodeTableWord 32 0b1_000000_00010_00001_111_0000_0_1100011 = some (.bgeu 1 2 (-4096)) := by decide

theorem test_decode_loads_and_stores :
    decodeTableWord 32 0b000000000100_01010_010_00101_0000011 = some (.lw 5 10 4) ∧
    decodeTableWord 32 0b000000001000_01010_011_00101_0000011 = some (.ld 5 10 8) ∧
    decodeTableWord 32 0b1111111_00010_00001_010_11111_0100011 = some (.sw 2 1 (-1)) ∧
    decodeTableWord 32 0b0000000_00101_01010_011_01000_0100011 = some (.sd 5 10 8) := by decide

theorem test_decode_csr :
    decodeTableWord 32 0b001101000000_00110_001_00101_1110011 = some (.csrrw 5 0x340 6) ∧
    decodeTableWord 32 0b110000000000_00000_010_00101_1110011 = some (.csrrs 5 0xc00 0) ∧
    decodeTableWord 32 0b001101000000_00111_011_00000_1110011 = some (.csrrc 0 0x340 7) ∧
    decodeTableWord 32 0b001101000000_11111_101_00101_1110011 = some (.csrrwi 5 0x340 31) ∧
    decodeTableWord 32 0b001101000000_00100_110_00000_1110011 = some (.csrrsi 0 0x340 4) ∧
    decodeTableWord 32 0b001101000000_00000_111_00101_1110011 = some (.csrrci 5 0x340 0) := by decide

theorem test_decode_sign :
    decodeTableWord 32 0b0010000_00011_00010_000_00001_1010011 = some (.fsgnjS 1 2 3) ∧
    decodeTableWord 32 0b0010000_00011_00010_001_00001_1010011 = some (.fsgnjnS 1 2 3) ∧
    decodeTableWord 32 0b0010000_00011_00010_010_00001_1010011 = some (.fsgnjxS 1 2 3) ∧
    decodeTableWord 32 0b0010001_00011_00010_000_00001_1010011 = some (.fsgnjD 1 2 3) ∧
    decodeTableWord 32 0b0010001_00011_00010_001_00001_1010011 = some (.fsgnjnD 1 2 3) ∧
    decodeTableWord 32 0b0010001_00011_00010_010_00001_1010011 = some (.fsgnjxD 1 2 3) ∧
    decodeTableWord 32 0b0010011_00011_00010_000_00001_1010011 = some (.fsgnjQ 1 2 3) ∧
    decodeTableWord 32 0b0010011_00011_00010_001_00001_1010011 = some (.fsgnjnQ 1 2 3) ∧
    decodeTableWord 32 0b0010011_00011_00010_010_00001_1010011 = some (.fsgnjxQ 1 2 3) := by decide

theorem test_decode_quadrant0 :
    decodeTableWord 16 0b000_11_1111_1_1_000_00 = some (.cAddi4spn 8 1020) ∧
    decodeTableWord 16 0b010_111_010_1_1_001_00 = some (.cLw 9 10 124) ∧
    decodeTableWord 16 0b011_001_010_00_001_00 = some (.cLd 9 10 8) ∧
    decodeTableWord 16 0b110_000_010_1_0_001_00 = some (.cSw 9 10 4) ∧
    decodeTableWord 16 0b111_111_010_11_001_00 = some (.cSd 9 10 248) := by decide

theorem test_decode_quadrant1 :
    decodeTableWord 16 0b000_1_00001_11111_01 = some (.cAddi 1 (-1)) ∧
    decodeTableWord 16 0b010_1_00001_00000_01 = some (.cLi 1 (-32)) ∧
    decodeTableWord 16 0b011_1_00010_1_1_11_1_01 = some (.cAddi16sp (-16)) ∧
    decodeTableWord 16 0b011_0_00101_00001_01 = some (.cLui 5 1) ∧
    decodeTableWord 16 0b101_0_1_11_1_1_1_111_1_01 = some (.cJ 2046) ∧
    decodeTableWord 16 0b101_1_0_00_0_0_0_000_0_01 = some (.cJ (-2048)) ∧
    decodeTableWord 16 0b110_0_01_000_00_00_0_01 = some (.cBeqz 8 8) ∧
    decodeTableWord 16 0b111_1_11_000_11_10_1_01 = some (.cBnez 8 (-4)) := by decide

theorem test_decode_quadrant2 :
    decodeTableWord 16 0b000_1_01010_00000_10 = some (.cSlli 10 32) ∧
    decodeTableWord 16 0b010_1_00001_111_11_10 = some (.cLwsp 1 252) ∧
    decodeTableWord 16 0b011_0_00001_01_000_10 = some (.cLdsp 1 8) ∧
    decodeTableWord 16 0b110_1111_11_00001_10 = some (.cSwsp 1 252) ∧
    decodeTableWord 16 0b111_001_000_00001_10 = some (.cSdsp 1 8) := by decide

/-- Words the model refuses (95_test_vectors.md section 2.12). -/
theorem test_decode_refused : decodeTableWord 32 0x0000000b = none ∧ decodeTableWord 32 0x00000073 = none ∧
    decodeTableWord 32 0x40208033 = none ∧ decodeTableWord 16 0x8082 = none ∧ decodeTableWord 48 0x1f = none ∧
    decodeTableWord 64 0x3f = none := by decide

theorem test_refused_by_name : refuses bare 32 0x0000000b .noReferenceInstruction = true ∧
    refuses bare 48 0x1f .longInstruction = true ∧ refuses bare 64 0x3f .longInstruction = true ∧
    refuses (narrow comp) 16 0x6504 .rv64OnlyRow = true := by decide

/-- Lengths (95_test_vectors.md section 2.1). -/
theorem test_length : insnLength 0xfffe = 2 ∧ insnLength 0x001b = 4 ∧ insnLength 0x001f = 6 ∧ insnLength 0x003f = 8 ∧
    insnLength 0x007f = 8 := by decide

/-- Canonical words (95_test_vectors.md section 2.3). -/
theorem test_canonical : canonical 0xfff00093 4 = 0xfffffffffff00093 ∧ canonical 0x8001 2 = 0xffffffffffff8001 ∧
    canonical 0x7001 2 = 0x7001 := by decide

/-- Accessors on words that are not canonical (95_test_vectors.md section 2.3). -/
theorem test_accessors_not_canonical : iImm 0xfff00093 = 4095 ∧ sbImm 0xfe000ee3 = 4092 ∧ uImm 0x800002b7 = 0x80000000 ∧
    ujImm 0x801ff0ef = 1046528 ∧ sImm 0x801ff0ef = -2047 := by decide

/-- Fields (95_test_vectors.md section 2.2). -/
theorem test_fields : rd 0x095471c3 = 3 ∧ rs1 0x095471c3 = 8 ∧ rs2 0x095471c3 = 21 ∧ rs3 0x095471c3 = 1 ∧
    rm 0x095471c3 = 7 ∧ csr 0x095471c3 = 0x095 ∧ shamt 0x095471c3 = 21 ∧ rvcRs2 0xdf8e = 3 := by decide

/-- The bytes of an instruction and back, with bytes after it (20_memory.md R71, R72). -/
theorem test_bytes : encodeBytes (.add 3 1 2) = [0xb3, 0x81, 0x20, 0x00] ∧
    decodeBytes .x64 [0xb3, 0x81, 0x20, 0x00, 0x99] = .ok (.add 3 1 2, [0x99]) := by decide

/-! ## One step of each instruction (the worked example of its rule in 45_reference_rv.md and 46_reference_rvc.md) -/

theorem test_add : runs (atPc (regs (bare) [(1, 5), (2, 7)]) 0x1000) 32 0x002081b3 (fun t => t.x 3 == 12 && normal t 0x1004) = true := by decide
/-- 95_test_vectors.md section 2.5. -/
theorem test_add_xlen32 : runs (narrow (regs (bare) [(1, 0x7fffffff), (2, 1)])) 32 0x002081b3 (fun t => t.x 3 == 0xffffffff80000000) = true := by decide
theorem test_addi : runs (bare) 32 0xfff00093 (fun t => t.x 1 == 0xffffffffffffffff && normal t 4) = true := by decide
/-- A write of x0 is discarded (40_register_access.md R162). -/
theorem test_addi_x0 : runs (bare) 32 0x02a00013 (fun t => t.x 0 == 0 && normal t 4) = true := by decide
theorem test_lui : runs (bare) 32 0x800002b7 (fun t => t.x 5 == 0xffffffff80000000 && normal t 4) = true := by decide
theorem test_slli : runs (regs (bare) [(1, 1)]) 32 0x03f09093 (fun t => t.x 1 == 0x8000000000000000 && normal t 4) = true := by decide
theorem test_slli_xlen32 : runs (narrow (regs (bare) [(1, 1)])) 32 0x02809093 (fun t => t.x 1 == 1 && illegal t 0) = true := by decide
theorem test_auipc : runs (atPc (bare) 0x1000) 32 0x00001317 (fun t => t.x 6 == 0x2000 && normal t 0x1004) = true := by decide
theorem test_jal : runs (atPc (bare) 0x1000) 32 0x008000ef (fun t => t.x 1 == 0x1004 && normal t 0x1008) = true := by decide
theorem test_jal_misaligned : runs (atPc (bare) 0x1000) 32 0x0060006f (fun t => t.outcome == .trap .instructionAddressMisaligned 0x1006 && t.pc == 0x1000) = true := by decide
theorem test_jalr : runs (regs (comp) [(1, 0x1003)]) 32 0x00008067 (fun t => t.x 0 == 0 && normal t 0x1002) = true := by decide
theorem test_jalr_misaligned : runs (regs (bare) [(1, 0x1003)]) 32 0x00008067 (fun t => t.outcome == .trap .instructionAddressMisaligned 0x1002) = true := by decide
theorem test_beq : runs (atPc (regs (bare) [(1, 9), (2, 9)]) 0x1000) 32 0x00208863 (fun t => normal t 0x1010) = true := by decide
/-- 95_test_vectors.md S-3. -/
theorem test_beq_misaligned : runs (atPc (bare) 0x1000) 32 0x00000363 (fun t => t.outcome == .trap .instructionAddressMisaligned 0x1006) = true := by decide
theorem test_bne : runs (atPc (regs (bare) [(1, 3)]) 0x10) 32 0xfe009ce3 (fun t => normal t 0x8) = true := by decide
theorem test_blt : runs (regs (bare) [(1, 0xffffffffffffffff), (2, 0)]) 32 0x0020c463 (fun t => normal t 8) = true := by decide
theorem test_bge : runs (regs (bare) [(1, 0xffffffffffffffff), (2, 0)]) 32 0x0020d463 (fun t => normal t 4) = true := by decide
theorem test_bltu : runs (regs (bare) [(1, 0xffffffffffffffff), (2, 0)]) 32 0x0020e463 (fun t => normal t 4) = true := by decide
theorem test_bgeu : runs (regs (bare) [(1, 0xffffffffffffffff), (2, 0)]) 32 0x0020f463 (fun t => normal t 8) = true := by decide
theorem test_lw : runs (atPc (bytesAt (regs (bare) [(10, 0x100)]) 0x104 [0, 0, 0, 0x80]) 0x1000) 32 0x00452283 (fun t => t.x 5 == 0xffffffff80000000 && normal t 0x1004) = true := by decide
theorem test_ld : runs (atPc (bytesAt (regs (bare) [(10, 0x100)]) 0x108 [1, 2, 3, 4, 5, 6, 7, 0x88]) 0x1000) 32 0x00853283 (fun t => t.x 5 == 0x8807060504030201 && normal t 0x1004) = true := by decide
theorem test_ld_xlen32 : runs (narrow (atPc (bare) 0x1000)) 32 0x00853283 (fun t => illegal t 0x1000) = true := by decide
theorem test_sw : runs (atPc (regs (bare) [(10, 0x100), (5, 0x1122334455667788)]) 0x1000) 32 0x00552223 (fun t => readBytes t.mem 0x103 6 == [0, 0x88, 0x77, 0x66, 0x55, 0] && normal t 0x1004) = true := by decide
theorem test_sd : runs (atPc (regs (bare) [(10, 0x100), (5, 0x1122334455667788)]) 0x1000) 32 0x00553423 (fun t => readBytes t.mem 0x108 8 == [0x88, 0x77, 0x66, 0x55, 0x44, 0x33, 0x22, 0x11] && normal t 0x1004) = true := by decide
theorem test_csrrw : runs (csrReady (regs (bare) [(6, 9)]) 3 0x340 7) 32 0x340312f3 (fun t => t.x 5 == 7 && t.csrAt 0x340 == 9 && t.outcome == .next 4 .serializeAfter && t.pc == 4 && !t.serialized) = true := by decide
/-- 95_test_vectors.md S-5. -/
theorem test_csrrw_read_only : runs (csrReady (bare) 3 0xc00 7) 32 0xc0009073 (fun t => illegal t 0 && !t.serialized && t.csrAt 0xc00 == 7) = true := by decide
theorem test_csrrs : runs (csrReady (bare) 0 0xc00 100) 32 0xc00022f3 (fun t => t.x 5 == 100 && t.outcome == .next 4 .serializeAfter && t.pc == 4 && !t.serialized) = true := by decide
theorem test_csrrs_level : runs (csrReady (bare) 0 0x300 1) 32 0x300022f3 (fun t => t.x 5 == 0 && illegal t 0 && !t.serialized) = true := by decide
theorem test_csrrc : runs (csrReady (regs (bare) [(7, 0x0f)]) 3 0x340 0xff) 32 0x3403b073 (fun t => t.csrAt 0x340 == 0xf0 && t.outcome == .next 4 .serializeAfter && t.pc == 4 && !t.serialized) = true := by decide
theorem test_csrrwi : runs (csrReady (bare) 3 0x340 7) 32 0x340fd2f3 (fun t => t.x 5 == 7 && t.csrAt 0x340 == 31 && t.outcome == .next 4 .serializeAfter && t.pc == 4 && !t.serialized) = true := by decide
theorem test_csrrsi : runs (csrReady (bare) 3 0x340 1) 32 0x34026073 (fun t => t.csrAt 0x340 == 5 && t.outcome == .next 4 .serializeAfter && t.pc == 4 && !t.serialized) = true := by decide
theorem test_csrrci : runs (csrReady (bare) 3 0x340 6) 32 0x340072f3 (fun t => t.x 5 == 6 && t.csrAt 0x340 == 6 && t.outcome == .next 4 .serializeAfter && t.pc == 4 && !t.serialized) = true := by decide
/-- 42_csr_gate.md R260, 95_test_vectors.md section 2.9. -/
theorem test_csr_serialize_first : runs (regs (atPc bare 0x100) [(6, 9)]) 32 0x340312f3 (fun t => t.outcome == .next 0x100 .serializeBefore && t.pc == 0x100 && t.serialized && t.x 5 == 0) = true := by decide
/-- 60_exceptions.md R404. -/
theorem test_csr_write_survives : runs (csrReady (reduced (regs bare [(6, 9)])) 3 0x340 7) 32 0x34031a73 (fun t => illegal t 0 && !t.serialized && t.csrAt 0x340 == 9) = true := by decide
theorem test_fsgnj_s : runs (cells (bare) [(2, 0xffffffffffffffffffffffff3f800000), (3, 0xffffffffffffffffffffffffc0000000)]) 32 0x203100d3 (fun t => t.f 1 == 0xffffffffffffffffffffffffbf800000 && t.fsDirty && normal t 4) = true := by decide
theorem test_fsgnj_s_off : runs ({ bare with inputs := { bare.inputs with fpEnabled := false } }) 32 0x203100d3 (fun t => t.f 1 == 0 && illegal t 0) = true := by decide
theorem test_fsgnjn_s : runs (cells (bare) [(2, 0xffffffffffffffffffffffff3f800000), (3, 0xffffffffffffffffffffffff3f800000)]) 32 0x203110d3 (fun t => t.f 1 == 0xffffffffffffffffffffffffbf800000 && normal t 4) = true := by decide
theorem test_fsgnjn_s_unboxed : runs (bare) 32 0x202110d3 (fun t => t.f 1 == 0xffffffffffffffffffffffffffc00000) = true := by decide
theorem test_fsgnjx_s : runs (cells (bare) [(2, 0xffffffffffffffffffffffffbf800000), (3, 0xffffffffffffffffffffffffbf800000)]) 32 0x203120d3 (fun t => t.f 1 == 0xffffffffffffffffffffffff3f800000 && normal t 4) = true := by decide
theorem test_fsgnj_d : runs (cells (bare) [(2, 0xffffffffffffffff4000000000000000), (3, 0xffffffffffffffff8000000000000000)]) 32 0x223100d3 (fun t => t.f 1 == 0xffffffffffffffffc000000000000000 && normal t 4) = true := by decide
theorem test_fsgnjn_d : runs (cells (bare) [(2, 0xffffffffffffffff3ff0000000000000), (3, 0xffffffffffffffff3ff0000000000000)]) 32 0x223110d3 (fun t => t.f 1 == 0xffffffffffffffffbff0000000000000 && normal t 4) = true := by decide
theorem test_fsgnjx_d : runs (cells (bare) [(1, 0xffffffffffffffffffffffffffc00000)]) 32 0x2210a1d3 (fun t => t.f 3 == 0xffffffffffffffff7fffffffffc00000 && normal t 4) = true := by decide
theorem test_fsgnj_q : runs (cells (bare) [(2, 0x3fff0000000000000000000000000000), (3, 0x80000000000000000000000000000000)]) 32 0x263100d3 (fun t => t.f 1 == 0xbfff0000000000000000000000000000 && normal t 4) = true := by decide
theorem test_fsgnjn_q : runs (bare) 32 0x263110d3 (fun t => t.f 1 == 0x80000000000000000000000000000000 && normal t 4) = true := by decide
theorem test_fsgnjx_q : runs (cells (bare) [(2, 0xbfff0000000000000000000000000000), (3, 0x80000000000000000000000000000000)]) 32 0x263120d3 (fun t => t.f 1 == 0x3fff0000000000000000000000000000 && normal t 4) = true := by decide
theorem test_c_addi4spn : runs (regs (comp) [(2, 0x1000)]) 16 0x0800 (fun t => t.x 8 == 0x1010 && normal t 2) = true := by decide
theorem test_c_addi4spn_zero : runs (comp) 16 0x0000 (fun t => illegal t 0) = true := by decide
theorem test_c_lw : runs (atPc (bytesAt (regs (comp) [(10, 0x100)]) 0x104 [0xff, 0xff, 0xff, 0x7f]) 0x1000) 16 0x4144 (fun t => t.x 9 == 0x7fffffff && normal t 0x1002) = true := by decide
theorem test_c_ld : runs (atPc (bytesAt (regs (comp) [(10, 0x100)]) 0x108 [1, 2, 3, 4, 5, 6, 7, 0x88]) 0x1000) 16 0x6504 (fun t => t.x 9 == 0x8807060504030201 && normal t 0x1002) = true := by decide
theorem test_c_sw : runs (atPc (regs (comp) [(10, 0x100), (9, 0xdeadbeef)]) 0x1000) 16 0xc144 (fun t => readBytes t.mem 0x103 6 == [0, 0xef, 0xbe, 0xad, 0xde, 0] && normal t 0x1002) = true := by decide
theorem test_c_sd : runs (atPc (regs (comp) [(10, 0x100), (9, 0x1122334455667788)]) 0x1000) 16 0xe504 (fun t => readBytes t.mem 0x108 8 == [0x88, 0x77, 0x66, 0x55, 0x44, 0x33, 0x22, 0x11] && normal t 0x1002) = true := by decide
theorem test_c_addi : runs (regs (comp) [(1, 1)]) 16 0x0095 (fun t => t.x 1 == 6 && normal t 2) = true := by decide
theorem test_c_addi_without_c : runs (regs (bare) [(1, 1)]) 16 0x10fd (fun t => t.x 1 == 1 && illegal t 0) = true := by decide
theorem test_c_li : runs (comp) 16 0x5081 (fun t => t.x 1 == 0xffffffffffffffe0 && normal t 2) = true := by decide
theorem test_c_addi16sp : runs (regs (comp) [(2, 0x1000)]) 16 0x7101 (fun t => t.x 2 == 0xe00 && normal t 2) = true := by decide
theorem test_c_addi16sp_zero : runs (comp) 16 0x6101 (fun t => illegal t 0) = true := by decide
theorem test_c_lui : runs (comp) 16 0x72fd (fun t => t.x 5 == 0xfffffffffffff000 && normal t 2) = true := by decide
theorem test_c_lui_zero : runs (comp) 16 0x6081 (fun t => illegal t 0) = true := by decide
theorem test_c_j : runs (atPc (comp) 0x1008) 16 0xbff5 (fun t => normal t 0x1004) = true := by decide
theorem test_c_beqz : runs (atPc (comp) 0x100) 16 0xc401 (fun t => normal t 0x108) = true := by decide
theorem test_c_beqz_not_taken : runs (atPc (regs (comp) [(8, 1)]) 0x100) 16 0xc401 (fun t => normal t 0x102) = true := by decide
theorem test_c_bnez : runs (atPc (regs (comp) [(8, 3)]) 0x104) 16 0xfc75 (fun t => normal t 0x100) = true := by decide
theorem test_c_slli : runs (regs (comp) [(10, 1)]) 16 0x050e (fun t => t.x 10 == 8 && normal t 2) = true := by decide
theorem test_c_slli_xlen32 : runs (narrow (regs (comp) [(10, 1)])) 16 0x1502 (fun t => t.x 10 == 1 && illegal t 0) = true := by decide
theorem test_c_lwsp : runs (atPc (bytesAt (regs (comp) [(2, 0x200)]) 0x208 [0xff, 0xff, 0xff, 0xff]) 0x1000) 16 0x40a2 (fun t => t.x 1 == 0xffffffffffffffff && normal t 0x1002) = true := by decide
theorem test_c_lwsp_x0 : runs (comp) 16 0x4002 (fun t => illegal t 0) = true := by decide
theorem test_c_ldsp : runs (atPc (bytesAt (regs (comp) [(2, 0x200)]) 0x208 [1, 2, 3, 4, 5, 6, 7, 0x88]) 0x1000) 16 0x60a2 (fun t => t.x 1 == 0x8807060504030201 && normal t 0x1002) = true := by decide
theorem test_c_swsp : runs (atPc (regs (comp) [(2, 0x200), (1, 0x1122334455667788)]) 0x1000) 16 0xc406 (fun t => readBytes t.mem 0x207 6 == [0, 0x88, 0x77, 0x66, 0x55, 0] && normal t 0x1002) = true := by decide
theorem test_c_sdsp : runs (atPc (regs (comp) [(2, 0x200), (1, 12)]) 0x1000) 16 0xe406 (fun t => readBytes t.mem 0x208 8 == [0x0c, 0, 0, 0, 0, 0, 0, 0] && normal t 0x1002) = true := by decide

/-! ## Traps, the reduced file, the loop (95_test_vectors.md sections 2.5, 2.10, 2.11) -/

theorem test_reduced_index : runs (reduced (regs bare [(1, 5)])) 32 0x011081b3 (fun t => t.x 3 == 0 && illegal t 0) = true := by decide
theorem test_jal_misaligned_first : runs (reduced (atPc bare 0x1000)) 32 0x006008ef (fun t => t.outcome == .trap .instructionAddressMisaligned 0x1006) = true := by decide
theorem test_jal_bad_link : runs (reduced (atPc bare 0x1000)) 32 0x008008ef (fun t => illegal t 0x1000) = true := by decide
theorem test_insn_bits : runs (recording (narrow bare)) 32 0x02809093 (fun t => t.outcome == .trap .illegalInstruction 0x02809093) = true := by decide
theorem test_insn_bits_compressed : runs (recording bare) 16 0x10fd (fun t => t.outcome == .trap .illegalInstruction 0x10fd) = true := by decide

/-- A memory fault passes through unchanged (60_exceptions.md R403). -/
def holed : State :=
  { regs bare [(10, 0x100), (5, 1)] with
    pc := 0x1000
    outcome := .next 0x1000 .normal
    params := { bare.params with
      memMap := [{ base := 0x104, size := 4, loads := true, stores := true, fetches := false, cause := 5,
                   tval := none }] } }

theorem test_load_fault : runs (holed) 32 0x00452283 (fun t => t.outcome == .trap (.collaborator 5) 0x104 && t.x 5 == 1 && t.pc == 0x1000) = true := by decide
theorem test_store_fault : runs (holed) 32 0x00552223 (fun t => t.outcome == .trap (.collaborator 5) 0x104 && readBytes t.mem 0x104 4 == [0, 0, 0, 0]) = true := by decide
/-- The same memory, where misaligned accesses are split at multiples of 4 bytes (20_memory.md R74). -/
def splitting : State :=
  { regs holed [(10, 0xfe), (5, 0x44332211)] with params := { holed.params with misaligned := .splits 4 } }

/-- The store's first part is made, and the second part's address is reported (20_memory.md R74, 60_exceptions.md
R404). -/
theorem test_split_store : runs splitting 32 0x00552223 (fun t =>
    t.outcome == .trap (.collaborator 5) 0x104 && readBytes t.mem 0x100 8 == [0, 0, 0x11, 0x22, 0, 0, 0, 0]) = true := by
  decide

theorem test_split_parts : accessParts splitting.params .store 8 0x103 = [(0x103, 1), (0x104, 4), (0x108, 3)] ∧
    accessParts splitting.params .store 8 0x108 = [(0x108, 8)] ∧ accessParts splitting.params .fetch 2 0x103 = [(0x103, 2)] := by
  decide

/-- The handler's decision, which can change XLEN, an input of each step (10_state.md R46). -/
def resuming : State :=
  { bare with outcome := .trap .illegalInstruction 0, resumes := [⟨0x80, { bare.inputs with xlen := .x32 }, []⟩] }

theorem test_handler_sets_xlen : (match step resuming with
    | .next t => t.inputs.xlen == .x32
    | .fault _ => false
    | .refused _ => false) = true := by decide

/-- Half precision is boxed only where it is supported (00_scope.md R20, FP_BOX_WIDTHS). -/
theorem test_box_widths : boxWidths bare = [.f32, .f64] ∧
    boxWidths { bare with inputs := { bare.inputs with caps := { bare.inputs.caps with h := .yes } } } =
      [.f32, .f64, .f16] := by decide

/-- 95_test_vectors.md section 2.5. -/
theorem test_log : runs ({ bare with params := { bare.params with logEnabled := true } }) 32 0x02a00013 (fun t => t.log == [.int 0 42]) = true := by decide

/-- After a trap the step takes the handler's decision, or stops when there is none (60_exceptions.md R406, log 9). -/
theorem test_handler_decides :
    step { bare with outcome := .trap .illegalInstruction 0 } = .fault .noHandlerDecision ∧
    step { bare with outcome := .trap .illegalInstruction 0, resumes := [⟨0x80, bare.inputs, [(0x341, 4)]⟩] } =
      .next (atPc (bare.putCsr 0x341 4) 0x80) := ⟨rfl, rfl⟩

/-- From reset with nothing placed, the word 0 is `c.addi4spn` with immediate 0 (log 26). -/
theorem test_reset_runs_empty_memory : (match step State.reset with
    | .next t => illegal t 0
    | .fault _ => false
    | .refused _ => false) = true := by decide

/-- The step fetches two parcels, so a fault of the second prevents it (20_memory.md R72, 60_exceptions.md R405). -/
theorem test_fetch_fault : runs { bare with params := { bare.params with
    memMap := [{ base := 2, size := 2, loads := false, stores := false, fetches := true, cause := 1, tval := none }] } }
    32 0x002081b3 (fun t => t.outcome == .trap (.collaborator 1) 2 && t.pc == 0) = true := by decide

/-- A capability query's fault passes through: at the gate of a compressed and of a floating-point instruction, and at the
PC gate, before the link is written; with bit 1 of the target clear the PC gate does not ask (00_scope.md R8,
90_conflicts.md C10; log 32). -/
theorem test_query_faults :
    runs (asking bare) 16 0x0095 (fun t => asked t 0 && t.x 1 == 0) = true ∧
    runs (asking bare) 32 0x203100d3 (fun t => asked t 0 && t.f 1 == 0) = true ∧
    runs (asking (atPc bare 0x1000)) 32 0x006000ef (fun t => asked t 0x1000 && t.x 1 == 0) = true ∧
    runs (asking (atPc bare 0x1000)) 32 0x008000ef (fun t => normal t 0x1008 && t.x 1 == 0x1004) = true := by decide

/-- A fetch unit that sees the stores of each step two steps later: `sw x5, 12(x10)` to 0x10c is visible to fetches after
the second further step, and no sooner (20_memory.md R83; log 12). -/
theorem test_delayed_fetch :
    runs { regs bare [(10, 0x100), (5, 1)] with fetchView := some ⟨[], [], [0, 0], 1⟩ } 32 0x00552623 (fun t =>
      readByte t.mem 0x10c == 1 && readByte (fetchMemory t) 0x10c == 0 &&
        readByte (fetchMemory t.advanceFetch) 0x10c == 0 &&
        readByte (fetchMemory t.advanceFetch.advanceFetch) 0x10c == 1) = true := by decide

/-- Stores that fetches never see, and the same store seen at once. -/
theorem test_fetch_coherence :
    runs { regs bare [(10, 0x100), (5, 1)] with fetchView := some ⟨[], [], [], 0⟩ } 32 0x00552623 (fun t =>
      readByte (fetchMemory t.advanceFetch) 0x10c == 0) = true ∧
    runs (regs bare [(10, 0x100), (5, 1)]) 32 0x00552623 (fun t => readByte (fetchMemory t) 0x10c == 1) = true := by
  decide

/-! ## Boxing, rounding modes, conversions (95_test_vectors.md sections 2.6 to 2.8) -/

theorem test_unbox : unbox .f32 0 = 0x7fc00000 ∧ unbox .f64 0 = 0x7ff8000000000000 ∧ unbox .f128 0 = 0 ∧
    unbox .f64 (box .f32 0x3f800000) = 0xffffffff3f800000 ∧ unbox .f32 0xffffffffffffffff000000003f800000 = 0x7fc00000 ∧
    unbox .f64 0xffffffffffffffff000000003f800000 = 0x3f800000 ∧
    unbox .f32 0x7fffffffffffffffffffffff3f800000 = 0x7fc00000 ∧ unbox .f16 (box .f16 0x3c00) = 0x3c00 ∧
    unbox .f16 (box .f32 0x3f800000) = 0x7e00 := by decide

theorem test_rounding_modes : selectMode 4 5 = some .rmm ∧ selectMode 5 0 = none ∧ selectMode 6 0 = none ∧
    selectMode 7 3 = some .rup ∧ selectMode 7 5 = none := by decide

theorem test_widen : fwiden .f32 .f128 0x3f800000 = (0x3fff0000000000000000000000000000, .none) ∧
    fwiden .f16 .f128 0x3c00 = (0x3fff0000000000000000000000000000, .none) ∧
    fwiden .f64 .f128 0x8000000000000000 = (0x80000000000000000000000000000000, .none) ∧
    fwiden .f32 .f128 1 = (0x3f6a0000000000000000000000000000, .none) ∧
    fwiden .f32 .f128 0x7fc00001 = (0x7fff8000000000000000000000000000, .none) ∧
    fwiden .f32 .f128 0x7f800001 = (0x7fff8000000000000000000000000000, invalidIf true) := by decide

/-- 1 + 2^-24 to 32 bits under the five modes. -/
theorem test_narrow_inexact :
    fnarrow .f128 .f32 .rne 0x3fff0000010000000000000000000000 = (0x3f800000, roundedFlags false true) ∧
    fnarrow .f128 .f32 .rtz 0x3fff0000010000000000000000000000 = (0x3f800000, roundedFlags false true) ∧
    fnarrow .f128 .f32 .rdn 0x3fff0000010000000000000000000000 = (0x3f800000, roundedFlags false true) ∧
    fnarrow .f128 .f32 .rup 0x3fff0000010000000000000000000000 = (0x3f800001, roundedFlags false true) ∧
    fnarrow .f128 .f32 .rmm 0x3fff0000010000000000000000000000 = (0x3f800001, roundedFlags false true) := by decide

/-- 2^128 to 32 bits overflows. -/
theorem test_narrow_overflow :
    fnarrow .f128 .f32 .rne 0x407f0000000000000000000000000000 = (0x7f800000, overflowFlags) ∧
    fnarrow .f128 .f32 .rtz 0x407f0000000000000000000000000000 = (0x7f7fffff, overflowFlags) ∧
    fnarrow .f128 .f32 .rdn 0x407f0000000000000000000000000000 = (0x7f7fffff, overflowFlags) ∧
    fnarrow .f128 .f64 .rne 0x7fff8000000000000000000000000000 = (0x7ff8000000000000, .none) := by decide

/-! ## The vector engine (95_test_vectors.md section 2.8) -/

/-- A tag of 32-bit signed integers. -/
def tagged (sh : Shape) : VTag := .configured ⟨sh, .w32, .sint⟩

/-- `v1`, `v3` vectors, `v2` a scalar of 32-bit signed integers, VL 4; `v1 = [1, 2, 3, 4]`, `v2 = [10]`. -/
def vec : State :=
  ((((({ bare with
    vl := 4
    vtag := ((bare.vtag.set 1 (tagged .vector)).set 2 (tagged .scalar)).set 3 (tagged .vector) }.putElem 1 .w32 0 1).putElem
      1 .w32 1 2).putElem 1 .w32 2 3).putElem 1 .w32 3 4).putElem 2 .w32 0 10)

/-- Addition, as a vector opcode's arithmetic. -/
def addOp : VectorOp := fun l => .ok (l.foldl (· + ·) 0)

/-- What a vector operation reaches has a property. -/
def vecOk {α : Type} (r : EStateM.Result Stop State α) (p : State → Bool) : Bool :=
  match r with
  | .ok _ t => p t
  | .error _ _ => false

/-- A vector operation stops. -/
def vecStops {α : Type} (r : EStateM.Result Stop State α) (e : Stop) (p : State → Bool) : Bool :=
  match r with
  | .ok _ _ => false
  | .error x t => x == e && p t

theorem test_vop : vecOk (vop 0 addOp 3 [1, 2] vec) (fun t =>
    (List.range 5).map (t.elem 3 .w32) == [11, 12, 13, 14, 0]) = true := by decide

theorem test_vop_in_place : vecOk (vop 0 addOp 1 [1, 1] vec) (fun t =>
    (List.range 5).map (t.elem 1 .w32) == [2, 4, 6, 8, 0]) = true := by decide

theorem test_vop_unconfigured : vecStops (vop 0 addOp 12 [1, 1] vec) .illegal (· == vec) = true := by decide

/-- A CSR store with legal values at 0x340: bits 1:0 keep their old value unless 0 or 3, bits 5:4 become 1 unless 0 or 1,
other bits are not writable; a fault for bits 9:8 unless 0 (42_csr_gate.md R262, log 7). -/
def csrLegal : State :=
  { csrReady bare 3 0x340 3 with
    params := { bare.params with
      csrRules := [{ addr := 0x340, onRead := none, onWrite := none, writable := 0x333,
                     fields := [⟨3, [0, 3], .keepsOld⟩, ⟨0x30, [0, 0x10], .becomes 0x10⟩, ⟨0x300, [0], .faults ⟨2, 4⟩⟩] }] } }

theorem test_csr_legal_values : runs (regs csrLegal [(6, 0xf2)]) 32 0x340312f3 (fun t => t.x 5 == 3 && t.csrAt 0x340 == 0x13) = true ∧
    runs (regs csrLegal [(6, 0xc0)]) 32 0x340312f3 (fun t => t.csrAt 0x340 == 0) = true ∧
    runs (regs csrLegal [(6, 0x100)]) 32 0x340312f3 (fun t =>
      t.outcome == .trap (.collaborator 2) 4 && t.csrAt 0x340 == 3 && t.x 5 == 0 && !t.serialized) = true := by decide

/-- `rd` 3, `rs1` 1, `rs2` 2: the register fields of a vector word (30_encoding.md R135, D46; 95_test_vectors.md section
2.8). -/
theorem test_vopBody : vecOk (vopBody 0x00208180 (fun _ => addOp) [.rs1, .rs2] vec) (fun t =>
    (List.range 5).map (t.elem 3 .w32) == [11, 12, 13, 14, 0]) = true := by decide

/-- Base in x1, destination v3, source v1. -/
theorem test_vector_bodies :
    vecOk (vloadBody 0x00008180 (bytesAt (regs vec [(1, 0x1000)]) 0x1000 [1, 0, 0, 0, 0xff, 0xff, 0xff, 0xff])) (fun t =>
      (List.range 3).map (t.elem 3 .w32) == [1, 0xffffffff, 0]) = true ∧
    vecOk (vstoreBody 0x00108000 .rs2 (regs vec [(1, 0x1000)])) (fun t =>
      readBytes t.mem 0x1000 8 == [1, 0, 0, 0, 2, 0, 0, 0]) = true := by decide

/-- A vector word's own bits are recorded where ILLEGAL_TVAL is INSN_BITS, 0 where it is ZERO, and a fault of the query
passes through with its own value (41_vector_engine.md R206, R207; 60_exceptions.md R402, R403). -/
theorem test_vector_tval :
    runVop 0x00208603 (fun _ => addOp) [.rs1, .rs2] (recording vec) =
      .next ((recording vec).withOutcome (.trap .illegalInstruction 0x00208603)) ∧
    runVload 0x00008603 vec = .next (vec.withOutcome (.trap .illegalInstruction 0)) ∧
    runVstore 0x00108003 .rs2 (asking vec) = .next ((asking vec).withOutcome (.trap (.collaborator 24) 7)) ∧
    runConfigure 0x00008183 .rs1 (fun _ => [(1, ⟨.vector, 24, some .sint⟩)]) (recording vec) =
      .next ((recording vec).withOutcome (.trap .illegalInstruction 0x00008183)) := ⟨rfl, rfl, rfl, rfl⟩

theorem test_type_resolution : resolveType [⟨.vector, .w16, .sint⟩, ⟨.scalar, .w32, .uint⟩] = some ⟨.w16, .sint⟩ ∧
    resolveType [⟨.vector, .w32, .float⟩, ⟨.vector, .w64, .float⟩] = some ⟨.w128, .float⟩ ∧
    resolveType [⟨.vector, .w32, .sint⟩, ⟨.vector, .w32, .float⟩] = none ∧ resolveType [] = some ⟨.w128, .float⟩ := by
  decide

theorem test_extend : extendValue ⟨.vector, .w8, .sint⟩ ⟨.w32, .sint⟩ 0xff = some (0xffffffff, .none) ∧
    extendValue ⟨.vector, .w8, .uint⟩ ⟨.w32, .sint⟩ 0xff = some (0xff, .none) ∧
    extendValue ⟨.vector, .w16, .sint⟩ ⟨.w64, .uint⟩ 0x8000 = some (0xffffffffffff8000, .none) ∧
    extendValue ⟨.vector, .w64, .sint⟩ ⟨.w32, .sint⟩ 1 = none := by decide

theorem test_truncate : truncateValue ⟨.w32, .sint⟩ ⟨.vector, .w8, .uint⟩ none 0x12345678 = some (0x78, .none) ∧
    truncateValue ⟨.w32, .sint⟩ ⟨.vector, .w32, .float⟩ none 0x12345678 = none ∧
    truncateValue ⟨.w32, .sint⟩ ⟨.vector, .w64, .sint⟩ none 1 = none ∧
    truncateValue ⟨.w128, .float⟩ ⟨.vector, .w16, .sint⟩ (some .rne) 0 = none := by decide

theorem test_putElem : (vec.putElem 3 .w32 0 0x100000005).elemCell 3 0 = 5 ∧ (vec.putElem 0 .w32 2 9).elemCell 0 2 = 0 ∧
    effLen vec ⟨.scalar, .w32, .sint⟩ = 1 ∧ effLen vec ⟨.vector, .w32, .sint⟩ = 4 := by decide

theorem test_groups : groupsValid [(20, ⟨.vector, 32, some .sint⟩), (13, ⟨.vector, 32, some .sint⟩)] = false ∧
    groupsValid [(4, ⟨.vector, 8, some .float⟩)] = false ∧ groupsValid [(1, ⟨.vector, 24, some .sint⟩)] = false ∧
    (tagFile [(2, ⟨.scalar, 64, some .uint⟩), (3, ⟨.vector, 16, some .float⟩)])[4] = .configured ⟨.vector, .w16, .float⟩ ∧
    (tagFile [(2, ⟨.scalar, 64, some .uint⟩), (3, ⟨.vector, 16, some .float⟩)])[5] = .unconfigured := by decide

/-- Memory in which the third element of a vector at 0x1000 faults. -/
def vecHoled : State :=
  { bytesAt vec 0x1000 [1, 0, 0, 0, 0xff, 0xff, 0xff, 0xff] with
    params := { vec.params with
      memMap := [{ base := 0x1008, size := 4, loads := true, stores := true, fetches := false, cause := 5,
                   tval := none }] } }

theorem test_vload : vecOk (vload 3 0x1000 (bytesAt vec 0x1000 [1, 0, 0, 0, 0xff, 0xff, 0xff, 0xff])) (fun t =>
    (List.range 3).map (t.elem 3 .w32) == [1, 0xffffffff, 0]) = true := by decide

theorem test_vstore_fault : vecStops (vstore 1 0x1000 vecHoled) (.collaborator ⟨5, 0x1008⟩) (fun t =>
    readBytes t.mem 0x1000 12 == [1, 0, 0, 0, 2, 0, 0, 0, 0, 0, 0, 0]) = true := by decide

/-! ## Witnesses: a concrete state and operands that meet each obligation's hypotheses -/

theorem witness_DecodeOfEncode : (Instr.cLdsp 31 504).wf = true ∧ (rv64Only (.cLdsp 31 504) = true → XLen.x64 = .x64) ∧
    (Instr.jal 31 0xfffffffffff00000).wf = true ∧ (rv64Only (.jal 31 0xfffffffffff00000) = true → XLen.x32 = .x64) := by
  decide

theorem witness_EncodeOfDecode : canonical 0xfffffffffff00093 (insnLength 0xfffffffffff00093) = 0xfffffffffff00093 ∧
    decodeWord .x32 0xfffffffffff00093 = .ok (.addi 1 0 (-1)) ∧ canonical 0x6504 (insnLength 0x6504) = 0x6504 ∧
    decodeWord .x64 0x6504 = .ok (.cLd 9 10 8) := by decide

theorem witness_OnlyOverlapIsAddi16sp : (opcodeTable.filter (·.takes 0x6101)).length = 2 ∧
    (opcodeTable[39]?.map (·.takes 0x6101)) = some true ∧ (opcodeTable[40]?.map (·.takes 0x6101)) = some true := by decide

theorem witness_LengthAndCanonicalForm : (0x0002 : Word).toNat % 4 ≠ 3 ∧ (0x001b : Word).toNat % 4 = 3 ∧
    (0x001b : Word).toNat % 32 ≠ 31 ∧ (0x001f : Word).toNat % 64 = 31 ∧ (0x007f : Word).toNat % 64 = 63 := by decide

theorem witness_ImmediatesOf32BitForms : canonical 0xffffffff800002b7 4 = 0xffffffff800002b7 := by decide

/-- A word of 4 bytes and one of 6 that no row takes. -/
theorem witness_UnmatchedWordIsRefused :
    ((bare.withFetchWord 32 0x0b).outcome = .next 0 .normal ∧
      fetchBytes (bare.withFetchWord 32 0x0b) = .ok [0x0b, 0, 0, 0] ∧
      (∀ r ∈ opcodeTable, r.takes (canonical (leWord [0x0b, 0, 0, 0]) (insnLength (leWord [0x0b, 0, 0, 0]))) = false) ∧
      insnLength (leWord [0x0b, 0, 0, 0]) ≤ 4) ∧
    ((bare.withFetchWord 48 0x1f).outcome = .next 0 .normal ∧
      fetchBytes (bare.withFetchWord 48 0x1f) = .ok [0x1f, 0, 0, 0, 0, 0] ∧
      (∀ r ∈ opcodeTable, r.takes (canonical (leWord [0x1f, 0, 0, 0, 0, 0])
        (insnLength (leWord [0x1f, 0, 0, 0, 0, 0]))) = false) ∧
      insnLength (leWord [0x1f, 0, 0, 0, 0, 0]) > 4) := by decide

/-- The file's bounds: 15 is in the reduced file and 16 is not, 31 is in the standard one. -/
theorem witness_RegisterIndexCheck : (16 : Reg).toNat ≥ (reduced bare).params.nxpr.count ∧
    (15 : Reg).toNat < (reduced bare).params.nxpr.count ∧ bare.params.nxpr = .standard ∧
    (reduced bare).params.nxpr = .reduced ∧ compactReg 8 = true ∧ compactReg 15 = true := by decide

theorem witness_BoxingLaws :
    (0xffff : Wide).toNat < 2 ^ FWidth.f16.bits ∧ (0xffffffffffffffffffffffffffffffff : Wide).toNat < 2 ^ FWidth.f128.bits ∧
    (∃ k, FWidth.f32.bits ≤ k ∧ k < 128 ∧ (0x7fffffffffffffffffffffff3f800000 : Wide).getLsbD k = false) ∧
    (∀ k, FWidth.f32.bits ≤ k → k < 128 → (0xffffffffffffffffffffffff3f800000 : Wide).getLsbD k = true) := by
  refine ⟨by decide, by decide, ⟨127, by decide⟩, ?_⟩
  have h : ∀ k : Fin 128, FWidth.f32.bits ≤ k.val → (0xffffffffffffffffffffffff3f800000 : Wide).getLsbD k.val = true := by
    decide
  exact fun k h1 h2 => h ⟨k, h2⟩ h1

/-- A magnitude bit, the sign bit and a bit above the width. -/
theorem witness_SignInjectionBits : 62 < FWidth.f64.bits - 1 ∧ 63 = FWidth.f64.bits - 1 ∧ FWidth.f64.bits - 1 < 127 ∧
    127 < 128 := by decide

theorem witness_RoundingModeResolution : ∀ r : BitVec 3,
    (r = if (7 : BitVec 3) = 7 then { bare with inputs := { bare.inputs with frm := r } }.inputs.frm else 7) ∧
    (5 : BitVec 3) = (if (5 : BitVec 3) = 7 then bare.inputs.frm else 5) := by decide

theorem witness_WideningIsExact : FWidth.f32.bits < FWidth.f128.bits ∧ (1 : Wide).toNat < 2 ^ FWidth.f32.bits ∧
    isFinite .f32 1 = true := by decide

theorem witness_ConvertedNaNsAreCanonical : isNaN .f32 0x7f800001 = true ∧ isNaN .f128 0xffff8000000000000000000000000000 = true := by
  decide

theorem witness_WideFloatRoundTrip : FWidth.f16 ≠ .f128 ∧ (0x8001 : Wide).toNat < 2 ^ FWidth.f16.bits ∧
    isNaN .f16 0x8001 = false := by decide

/-- To half precision: a tie (1 + 2^-11), an overflow (65520), the largest magnitude below it that does not, a tiny
and an exact subnormal result, and an infinity. -/
theorem witness_NarrowingRounds : FWidth.f16.bits < FWidth.f32.bits ∧ (0xff800000 : Wide).toNat < 2 ^ FWidth.f32.bits ∧
    isFinite .f32 0x477ff000 = true ∧
    fnarrow .f32 .f16 .rne 0x3f801000 = (0x3c00, ⟨false, false, false, false, true⟩) ∧
    fnarrow .f32 .f16 .rmm 0x3f801000 = (0x3c01, ⟨false, false, false, false, true⟩) ∧
    fnarrow .f32 .f16 .rne 0x477ff000 = (0x7c00, ⟨false, false, true, false, true⟩) ∧
    fnarrow .f32 .f16 .rtz 0x477ff000 = (0x7bff, ⟨false, false, false, false, true⟩) ∧
    fnarrow .f32 .f16 .rtz 0x47800000 = (0x7bff, ⟨false, false, true, false, true⟩) ∧
    fnarrow .f32 .f16 .rne 0x477fefff = (0x7bff, ⟨false, false, false, false, true⟩) ∧
    fnarrow .f32 .f16 .rup 0x33000000 = (0x0001, ⟨false, false, false, true, true⟩) ∧
    fnarrow .f32 .f16 .rne 0x33800000 = (0x0001, .none) ∧
    (expField .f32 0xff800000 = FWidth.f32.maxExp ∧ fracField .f32 0xff800000 = 0 ∧
      fnarrow .f32 .f16 .rne 0xff800000 = (0xfc00, .none)) := by decide

/-- All 32 registers in two groups. -/
theorem witness_ConfigureCompletes :
    let g : Groups := [(31, ⟨.vector, 32, some .sint⟩), (1, ⟨.scalar, 128, some .float⟩)]
    supports bare .v = .yes ∧ groupsValid g = true ∧ csrWriteFault bare.params bare.params.vcfgCsr (Config.vcfgEnc g) = none ∧
      g = [(31, ⟨.vector, 32, some .sint⟩)] ++ (1, ⟨.scalar, 128, some .float⟩) :: [] ∧ 0 < 1 ∧
      requestedTag ⟨.scalar, 128, some .float⟩ = some ⟨.scalar, .w128, .float⟩ ∧
      (([(3, ⟨.vector, 8, some .uint⟩)] : Groups).map (·.1)).sum ≤ (3 : Reg).toNat ∧
      (bare.hasX (regIndex 0x00308280 .rs1) = true ∧ (fun _ => g : (Nat → Word) → Groups) (vectorImms 0x00308280) = g ∧
        bare.hasX (rd 0x00308280) = true ∧ (reduced bare).hasX (rd 0x00000800) = false ∧
        (reduced bare).hasX (regIndex 0x00000800 .rs1) = true) :=
  ⟨by decide, by decide, rfl, by decide, by decide, by decide, by decide, by decide, rfl, by decide, by decide, by decide⟩

theorem witness_ConfigureRefuses :
    supports { bare with inputs := { bare.inputs with caps := { bare.inputs.caps with v := .no } } } .v = .no ∧
    (([(20, ⟨.vector, 32, some .sint⟩), (13, ⟨.vector, 32, some .sint⟩)] : Groups).map (·.1)).sum > 32 ∧
    (24 : Nat) ∉ [8, 16, 32, 64, 128] ∧ (⟨.vector, 32, none⟩ : TagRequest).rep = none ∧
    ((⟨.vector, 8, some .float⟩ : TagRequest).rep = some .float ∧ (⟨.vector, 8, some .float⟩ : TagRequest).width = 8) ∧
    ((8 : Nat) ∈ [8, 16, 32, 64, 128] ∧ (⟨.vector, 8, some .uint⟩ : TagRequest).rep ≠ none ∧
      ¬((⟨.vector, 8, some .uint⟩ : TagRequest).rep = some .float ∧ (⟨.vector, 8, some .uint⟩ : TagRequest).width = 8)) := by
  decide

theorem witness_VectorElements : bare.elemsSized = true ∧ 15 < bare.params.vlmax := by decide

theorem witness_TypeResolution :
    (∀ u ∈ [(⟨.vector, .w16, .float⟩ : Tag), ⟨.scalar, .w64, .float⟩], u.rep = .float) ∧
    ((∃ u ∈ [(⟨.vector, .w16, .sint⟩ : Tag), ⟨.scalar, .w64, .float⟩], u.rep = .float) ∧
      (∃ u ∈ [(⟨.vector, .w16, .sint⟩ : Tag), ⟨.scalar, .w64, .float⟩], u.rep ≠ .float)) ∧
    (∀ u ∈ [(⟨.vector, .w16, .sint⟩ : Tag), ⟨.scalar, .w64, .uint⟩], u.rep ≠ .float) := by decide

/-- One input for each clause of the extension rules. -/
theorem witness_ExtensionRules :
    let si : Tag := ⟨.vector, .w8, .sint⟩
    let ui : Tag := ⟨.vector, .w16, .uint⟩
    let fl : Tag := ⟨.vector, .w32, .float⟩
    let f8 : Tag := ⟨.vector, .w8, .float⟩
    (0xff : Wide).toNat < 2 ^ si.width.bits ∧ si.rep = .sint ∧ (⟨.w32, .uint⟩ : VType).rep ≠ .float ∧
      si.width.bits ≤ (⟨.w32, .uint⟩ : VType).width.bits ∧
    (0xffff : Wide).toNat < 2 ^ ui.width.bits ∧ ui.rep = .uint ∧ ui.width.bits ≤ (⟨.w16, .sint⟩ : VType).width.bits ∧
    ui.width.bits > (⟨.w8, .uint⟩ : VType).width.bits ∧
    (1 : Wide).toNat < 2 ^ fl.width.bits ∧ fl.rep = .float ∧ floatFormat fl.width = some .f32 ∧
      floatFormat .w128 = some .f128 ∧ FWidth.f32.bits < FWidth.f128.bits ∧ FWidth.f32.bits > FWidth.f16.bits ∧
      floatFormat .w16 = some .f16 ∧
    (1 : Wide).toNat < 2 ^ f8.width.bits ∧ f8.rep = .float ∧ f8.width = .w8 := by decide

/-- One input for each clause of the truncation rules. -/
theorem witness_TruncationRules :
    let ui : Tag := ⟨.vector, .w16, .uint⟩
    let fl : Tag := ⟨.vector, .w32, .float⟩
    ui.rep ≠ .float ∧ ui.width.bits ≤ (⟨.w16, .sint⟩ : VType).width.bits ∧ (⟨.w16, .sint⟩ : VType).rep ≠ .float ∧
    ui.width.bits > (⟨.w8, .sint⟩ : VType).width.bits ∧ fl.rep = .float ∧ (⟨.w128, .float⟩ : VType).rep = .float ∧
    floatFormat fl.width = some .f32 ∧ floatFormat .w128 = some .f128 ∧ FWidth.f32.bits < FWidth.f128.bits ∧
    selectMode 0 0 = some .rne ∧ selectMode 5 0 = none ∧ FWidth.f32.bits > FWidth.f16.bits := by decide

theorem witness_EqualWidthIdentity : routable ⟨.vector, .w8, .sint⟩ = true ∧
    (0x80 : Wide).toNat < 2 ^ (⟨.vector, .w8, .sint⟩ : Tag).width.bits := by decide

theorem witness_ElementLoopResult : ∃ fl t,
    vec.elemsSized = true ∧ effLen vec ⟨.vector, .w32, .sint⟩ ≤ vec.params.vlmax ∧
      vec.tagOf 1 = .configured ⟨.vector, .w32, .sint⟩ ∧
      [1, 2].map vec.tagOf = [(⟨.vector, .w32, .sint⟩ : Tag), ⟨.scalar, .w32, .sint⟩].map VTag.configured ∧
      resolveType [⟨.vector, .w32, .sint⟩, ⟨.scalar, .w32, .sint⟩] = some ⟨.w32, .sint⟩ ∧
      vop 0 addOp 1 [1, 2] vec = .ok fl t := by
  refine ⟨_, _, by decide, by decide, by decide, by decide, by decide, rfl⟩

/-- An operation that stops on the fourth element's operand. -/
def stopOp : VectorOp := fun l => if l.foldl (· + ·) 0 = 14 then .error .illegal else .ok (l.foldl (· + ·) 0)

/-- It completes over four elements; with `stopOp` it stops at the last one; a float result under mode 5 stops at the
first. -/
theorem witness_ElementLoopCompletes :
    let ts : List Tag := [⟨.vector, .w32, .sint⟩, ⟨.scalar, .w32, .sint⟩]
    let as : Nat → List (Wide × FFlags) := fun e => [(vec.operandElem 1 ⟨.vector, .w32, .sint⟩ e, .none), (10, .none)]
    let r : Nat → Wide := fun e => 11 + BitVec.ofNat 128 e
    (supports vec .v = .yes ∧ vec.elemsSized = true ∧ effLen vec ⟨.vector, .w32, .sint⟩ = 4 ∧ 4 ≤ vec.params.vlmax ∧
      vec.tagOf 3 = .configured ⟨.vector, .w32, .sint⟩ ∧ [1, 2].map vec.tagOf = ts.map VTag.configured ∧
      resolveType ts = some ⟨.w32, .sint⟩ ∧ combinationAllowed ⟨.w32, .sint⟩ ts ⟨.vector, .w32, .sint⟩ = true) ∧
    (∀ e, e < 4 → (([1, 2] : List Reg).zip ts).map (fun p => extendValue p.2 ⟨.w32, .sint⟩ (vec.operandElem p.1 p.2 e)) =
        (as e).map some ∧ addOp ((as e).map (·.1)) = .ok (r e) ∧
      truncateValue ⟨.w32, .sint⟩ ⟨.vector, .w32, .sint⟩ (selectMode (rm 0) vec.inputs.frm) (r e) = some (r e, .none)) ∧
    (∀ e, e < 3 → stopOp ((as e).map (·.1)) = .ok (r e)) ∧ stopOp ((as 3).map (·.1)) = .error .illegal ∧
    ((fun _ => addOp : (Nat → Word) → VectorOp) (vectorImms 0x00208180) = addOp ∧ rm 0x00208180 = rm 0 ∧
      rd 0x00208180 = 3 ∧ [RegField.rs1, .rs2].map (regIndex 0x00208180) = [1, 2]) ∧
    (truncateValue ⟨.w128, .float⟩ ⟨.vector, .w32, .float⟩ (selectMode (rm 0x5000) 0) 0 = none ∧
      combinationAllowed ⟨.w128, .float⟩ [⟨.vector, .w32, .float⟩] ⟨.vector, .w32, .float⟩ = true) := by
  refine ⟨⟨rfl, by decide, by decide, by decide, by decide, by decide, by decide, by decide⟩, ?_, ?_, rfl, ⟨rfl, by decide⟩, rfl, rfl⟩
  · intro e he
    match e, he with
    | 0, _ | 1, _ | 2, _ | 3, _ => exact ⟨by decide, rfl, by decide⟩
  · intro e he
    match e, he with
    | 0, _ | 1, _ | 2, _ => rfl

/-- A load whose third access faults, and one that completes. -/
theorem witness_VectorLoadResult :
    let s : State := vecHoled
    let t : Tag := ⟨.vector, .w32, .sint⟩
    supports s .v = .yes ∧ s.elemsSized = true ∧ effLen s t ≤ s.params.vlmax ∧ s.tagOf 3 = .configured t ∧
      routable t = true ∧ 2 ≤ effLen s t ∧ 2 < effLen s t ∧
      routeLoad t (0x1000 + BitVec.ofNat 64 (0 * (t.width.bits / 8))) s = .ok 1 s ∧
      routeLoad t (0x1000 + BitVec.ofNat 64 (1 * (t.width.bits / 8))) s = .ok 0xffffffffffffffff s ∧
      routeLoad t (0x1000 + BitVec.ofNat 64 (2 * (t.width.bits / 8))) s = .error (.collaborator ⟨5, 0x1008⟩) s ∧
      effLen { s with vl := 2 } t = 2 ∧
      (rd 0x00008180 = 3 ∧ s.hasX (rs1 0x00008180) = true ∧ (regs s [(1, 0x1000)]).x (rs1 0x00008180) = 0x1000) := by
  refine ⟨rfl, by decide, by decide, rfl, rfl, by decide, by decide, rfl, rfl, rfl, rfl, by decide⟩

theorem witness_VectorWidthRouting :
    let t : Tag := ⟨.vector, .w32, .sint⟩
    (t.width ≠ .w128 ∧ accessFault vecHoled.params .load 4 0x1004 = none ∧
      accessFault vecHoled.params .load 4 0x1008 = some ⟨5, 0x1008⟩ ∧ elemStop vecHoled.params .w32 0x1004 = none ∧
      elemStop vecHoled.params .w32 0x1008 = some (0, ⟨5, 0x1008⟩)) ∧
    (accessFault vecHoled.params .load 8 0x1010 = none ∧ accessFault vecHoled.params .load 8 (0x1010 + 8) = none ∧
      accessFault vecHoled.params .load 8 0x1008 = some ⟨5, 0x1008⟩ ∧ accessFault vecHoled.params .load 8 0x1000 = none ∧
      accessFault vecHoled.params .load 8 (0x1000 + 8) = some ⟨5, 0x1008⟩ ∧
      elemStop vecHoled.params .w128 0x1000 = some (8, ⟨5, 0x1008⟩) ∧ elemStop vecHoled.params .w128 0x1010 = none) ∧
    supports { vec with vtag := vec.vtag.set 3 (.configured ⟨.vector, .w8, .float⟩) } .v = .yes ∧
    ({ vec with vtag := vec.vtag.set 3 (.configured ⟨.vector, .w8, .float⟩) } : State).tagOf 3 =
      .configured ⟨.vector, .w8, .float⟩ := by decide

/-- The third of the 32-bit elements faults; and the second of two 128-bit elements, in its high half. -/
theorem witness_VectorStoreResult :
    let t : Tag := ⟨.vector, .w32, .sint⟩
    let s : State := { vecHoled with vtag := vecHoled.vtag.set 3 (.configured ⟨.vector, .w128, .uint⟩) }
    (supports vecHoled .v = .yes ∧ vecHoled.tagOf 1 = .configured t ∧ routable t = true ∧ 2 < effLen vecHoled t ∧
      (∀ e, e < 2 → elemStop vecHoled.params .w32 (0x1000 + BitVec.ofNat 64 (e * (t.width.bits / 8))) = none) ∧
      elemStop vecHoled.params .w32 (0x1000 + BitVec.ofNat 64 (2 * (t.width.bits / 8))) = some (0, ⟨5, 0x1008⟩) ∧
      effLen { vecHoled with vl := 2 } t = 2) ∧
    (regIndex 0x00108000 .rs2 = 1 ∧ vecHoled.hasX (rs1 0x00108000) = true ∧
      (regs vecHoled [(1, 0x1000)]).x (rs1 0x00108000) = 0x1000) ∧
    (s.tagOf 3 = .configured ⟨.vector, .w128, .uint⟩ ∧ routable ⟨.vector, .w128, .uint⟩ = true ∧
      1 < effLen s ⟨.vector, .w128, .uint⟩ ∧
      (∀ e, e < 1 → elemStop s.params .w128 (0xff0 + BitVec.ofNat 64 (e * (EWidth.w128.bits / 8))) = none) ∧
      elemStop s.params .w128 (0xff0 + BitVec.ofNat 64 (1 * (EWidth.w128.bits / 8))) = some (8, ⟨5, 0x1008⟩)) := by
  decide

theorem witness_VectorGates : supports vec .v = .yes ∧ supports (asking vec) .v = .faults ⟨24, 7⟩ ∧
    supports (reduced vec) .v = .yes ∧
    supports { bare with inputs := { bare.inputs with caps := { bare.inputs.caps with v := .no } } } .v = .no ∧
    (∃ r ∈ (3 : Reg) :: [1, 12], vec.tagOf r = .unconfigured) ∧ vec.tagOf 12 = .unconfigured ∧
    ([1, 2].map vec.tagOf = [(⟨.vector, .w32, .sint⟩ : Tag), ⟨.scalar, .w32, .sint⟩].map VTag.configured ∧
      resolveType [⟨.vector, .w32, .sint⟩, ⟨.scalar, .w32, .sint⟩] = some ⟨.w32, .sint⟩ ∧
      combinationAllowed ⟨.w32, .sint⟩ [⟨.vector, .w32, .sint⟩, ⟨.scalar, .w32, .sint⟩] ⟨.vector, .w64, .sint⟩ = false) ∧
    resolveType [⟨.vector, .w32, .sint⟩, ⟨.vector, .w32, .float⟩] = none ∧
    ((reduced vec).hasX (regIndex 0x00080180 .rs1) = false ∧ vec.tagOf (rd 0x00008600) = .unconfigured ∧
      vec.tagOf (regIndex 0x00c08000 .rs2) = .unconfigured ∧
      ∃ r ∈ rd 0x00208600 :: [RegField.rs1, .rs2].map (regIndex 0x00208600), vec.tagOf r = .unconfigured) := by decide

/-- A state of the invariant other than the reset one. -/
theorem vec_inv : vec.Inv := by
  refine ⟨by decide, by decide, by decide, by decide, by decide, by decide, by decide⟩

theorem witness_VectorOperationsKeepInvariant : vec.Inv ∧ (narrow vec).xSignExtended = true ∧ (∃ fl t, vop 0 addOp 3 [1, 2] vec = .ok fl t) ∧
    (∃ t, vload 3 0x1000 vec = .ok () t) ∧ (∃ t, vstore 3 0x1000 vec = .ok () t) ∧
    (∃ v t, configure 4 [(8, ⟨.vector, 32, some .sint⟩)] vec = .ok v t) ∧
    (∃ e t, vstore 12 0x1000 vec = .error e t) ∧ (∃ t, vopBody 0x00208180 (fun _ => addOp) [.rs1, .rs2] vec = .ok () t) ∧
    (∃ t, configureBody 0x00008180 .rs1 (fun _ => [(8, ⟨.vector, 32, some .sint⟩)]) vec = .ok () t) :=
  ⟨vec_inv, by decide, ⟨_, _, rfl⟩, ⟨_, rfl⟩, ⟨_, rfl⟩, ⟨_, _, rfl⟩, ⟨_, _, rfl⟩, ⟨_, rfl⟩, ⟨_, rfl⟩⟩

theorem witness_CsrGateLaws :
    let s : State := csrReady bare 0 0x340 7
    (s.serialized = true ∨ (0x340 : CsrAddr) ∈ s.params.noSerialize) ∧
      s.inputs.prv.toNat < (0x300 : CsrAddr).toNat / 256 % 4 ∧ (0xc00 : CsrAddr).toNat / 1024 = 3 ∧
      ((0xcff : CsrAddr).toNat / 256 % 4 ≤ s.inputs.prv.toNat ∧ (false = true → (0xcff : CsrAddr).toNat / 1024 ≠ 3)) ∧
      ((0x0ff : CsrAddr).toNat / 256 % 4 ≤ s.inputs.prv.toNat ∧ (true = true → (0x0ff : CsrAddr).toNat / 1024 ≠ 3)) := by
  decide

theorem witness_CsrAccessSerializesFirst : (csrForm (.csrrs 5 0x300 0)).isSome = true ∧ bare.serialized = false ∧
    (0x300 : CsrAddr) ∉ bare.params.noSerialize := by decide

theorem witness_CsrAccessResults :
    let s : State := csrReady bare 3 0x340 7
    (csrForm (.csrrw 5 0x340 6)).isSome = true ∧ (s.serialized = true ∨ (0x340 : CsrAddr) ∈ s.params.noSerialize) ∧
      csrDenied s 0x340 true = false ∧ csrReadFault s.params 0x340 = none ∧ csrWriteFault s.params 0x340 (csrNew (.csrrw 5 0x340 6) s 7) = none ∧
      s.hasX 6 = true ∧ s.hasX 5 = true ∧ targetFault s (npcDefault s 4) = none ∧
      targetMisaligned s (npcDefault s 4) = false := by decide

/-- A CSR store that faults reads of 0x340, writes of 0x341, and writes of 0x343 with a value that is not legal. -/
def csrFaulty : State :=
  { csrReady bare 3 0x342 7 with
    params := { bare.params with
      csrRules := [{ addr := 0x340, onRead := some ⟨2, 1⟩, onWrite := none, fields := [], writable := 0 },
        { addr := 0x341, onRead := none, onWrite := some ⟨2, 3⟩, fields := [], writable := 0 },
        { addr := 0x343, onRead := none, onWrite := none, fields := [⟨3, [0, 1], .faults ⟨2, 4⟩⟩], writable := 3 }] } }

/-- One input for each clause: denied, a read fault, a write fault, a bad source, a bad destination, a default next PC
that fails the gate, one whose query faults. -/
theorem witness_CsrAccessTraps : csrFaulty.serialized = true ∧ csrDenied csrFaulty 0xc00 true = true ∧
    (csrDenied csrFaulty 0x340 false = false ∧ csrReadFault csrFaulty.params 0x340 = some ⟨2, 1⟩) ∧
    (csrDenied csrFaulty 0x341 true = false ∧ csrReadFault csrFaulty.params 0x341 = none ∧
      csrFaulty.hasX 6 = true ∧
      csrWriteFault csrFaulty.params 0x341 (csrNew (.csrrw 5 0x341 6) csrFaulty 0) = some ⟨2, 3⟩) ∧
    (csrDenied csrFaulty 0x343 true = false ∧ csrReadFault csrFaulty.params 0x343 = none ∧
      csrWriteFault csrFaulty.params 0x343 (csrNew (.csrrwi 5 0x343 2) csrFaulty 0) = some ⟨2, 4⟩ ∧
      csrWriteFault csrFaulty.params 0x343 (csrNew (.csrrwi 5 0x343 1) csrFaulty 0) = none) ∧
    (csrDenied (reduced csrFaulty) 0x342 true = false ∧ csrReadFault (reduced csrFaulty).params 0x342 = none ∧
      (reduced csrFaulty).hasX 16 = false) ∧
    (csrDenied (reduced csrFaulty) 0x342 true = false ∧ csrReadFault (reduced csrFaulty).params 0x342 = none ∧
      csrWriteFault (reduced csrFaulty).params 0x342 (csrNew (.csrrw 31 0x342 15) (reduced csrFaulty) 7) = none ∧ (reduced csrFaulty).hasX 15 = true ∧
      (reduced csrFaulty).hasX 31 = false) ∧
    (csrDenied (atPc csrFaulty 2) 0x342 true = false ∧ csrReadFault csrFaulty.params 0x342 = none ∧
      csrWriteFault csrFaulty.params 0x342 (csrNew (.csrrw 5 0x342 6) (atPc csrFaulty 2) 7) = none ∧ (atPc csrFaulty 2).serialized = true ∧
      targetMisaligned (atPc csrFaulty 2) (npcDefault (atPc csrFaulty 2) 4) = true) ∧
    (csrDenied (asking (atPc csrFaulty 2)) 0x342 true = false ∧ csrReadFault (asking (atPc csrFaulty 2)).params 0x342 = none ∧
      csrWriteFault (asking (atPc csrFaulty 2)).params 0x342 (csrNew (.csrrw 5 0x342 6) (asking (atPc csrFaulty 2)) 7) = none ∧
      (asking (atPc csrFaulty 2)).hasX 6 = true ∧ (asking (atPc csrFaulty 2)).hasX 5 = true ∧
      (asking (atPc csrFaulty 2)).serialized = true ∧
      targetFault (asking (atPc csrFaulty 2)) (npcDefault (asking (atPc csrFaulty 2)) 4) = some ⟨24, 7⟩) := by decide

theorem witness_PcGate : (0x1006 : Word).getLsbD 1 = true ∧ (asking bare).inputs.caps.c = .faults ⟨24, 7⟩ ∧ bare.inputs.caps.c = .no ∧
    (0x1005 : Word).getLsbD 1 = false ∧ comp.inputs.caps.c = .yes ∧ bare.inputs.xlen = .x64 ∧
    (narrow bare).inputs.xlen = .x32 := by decide

theorem witness_StepRunsDecodedInstruction :
    (bare.withFetchWord 32 0x002081b3).outcome = .next 0 .normal ∧
    fetchBytes (bare.withFetchWord 32 0x002081b3) = .ok [0xb3, 0x81, 0x20, 0] ∧
    decodeBytes .x64 [0xb3, 0x81, 0x20, 0] = .ok (.add 3 1 2, []) := by decide

/-- A 4-byte and a 2-byte instruction. -/
theorem witness_StepRunsBytesAtPc :
    ((bare.withFetchWord 32 0x002081b3).outcome = .next 0 .normal ∧ (Instr.add 3 1 2).wf = true ∧
      readBytes (fetchMemory (bare.withFetchWord 32 0x002081b3)) 0 (instrLength (.add 3 1 2)) = encodeBytes (.add 3 1 2) ∧
      (∀ k, k < instrLength (.add 3 1 2) / 2 →
        accessFault bare.params .fetch 2 (0 + BitVec.ofNat 64 (2 * k)) = none)) ∧
    ((comp.withFetchWord 16 0x6504).outcome = .next 0 .normal ∧ (Instr.cLd 9 10 8).wf = true ∧
      comp.inputs.xlen = .x64 ∧
      readBytes (fetchMemory (comp.withFetchWord 16 0x6504)) 0 (instrLength (.cLd 9 10 8)) = encodeBytes (.cLd 9 10 8) ∧
      (∀ k, k < instrLength (.cLd 9 10 8) / 2 →
        accessFault comp.params .fetch 2 (0 + BitVec.ofNat 64 (2 * k)) = none)) := by decide

theorem witness_LoopFollowsOutcome : bare.outcome = .next 0 .normal ∧
    (bare.withOutcome (.next 4 .serializeAfter)).outcome = .next 4 .serializeAfter ∧
    (bare.withOutcome (.next 0 .serializeBefore)).outcome = .next 0 .serializeBefore ∧
    (bare.withOutcome (.trap .illegalInstruction 0)).outcome = .trap .illegalInstruction 0 ∧
    ({ bare with resumes := [⟨0x80, bare.inputs, []⟩] } : State).resumes = ⟨0x80, bare.inputs, []⟩ :: [] ∧
    bare.resumes = [] ∧ bare.fetchView = none ∧
    ([0, 1] : List Nat).headD 1 = 0 ∧ ([] : List Memory).length < ([] : List Nat).headD 1 := by decide

/-- The words of the rows, in the eight statements about instructions: each row's own match word is one. -/
theorem witness_RowWords : opcodeTable.all (fun r => r.pattern &&& r.mask == r.pattern) = true ∧
    (0x6001 : Word) &&& 0xe003 = 0x6001 ∧ rvcRd 0x6001 ≠ 2 := by decide

/-- Registers at the ends of both files, shift amounts at the ends of both ranges. -/
theorem witness_IntegerComputation : bare.hasXs [31, 31, 31] = true ∧ (reduced bare).hasXs [15, 16, 15] = false ∧
    (reduced bare).hasXs [15, 16] = false ∧ bare.hasX 31 = true ∧ (reduced bare).hasX 16 = false ∧
    (63 : BitVec 6).toNat < xlenBits bare.inputs.xlen ∧ (31 : BitVec 6).toNat < xlenBits (narrow bare).inputs.xlen ∧
    (32 : BitVec 6).toNat ≥ xlenBits (narrow bare).inputs.xlen := by decide

theorem witness_Jumps : (0x8 : Word) = bare.pc + 8 ∧ targetMisaligned bare 0x8 = false ∧ bare.hasX 31 = true ∧
    (0x6 : Word) = bare.pc + 6 ∧ targetMisaligned bare 0x6 = true ∧ (reduced bare).hasX 17 = false ∧
    targetMisaligned (reduced bare) 0x8 = false ∧ (0x1002 : Word) = ((regs bare [(1, 0x1003)]).x 1 + 0) &&& ~~~1 ∧
    (regs bare [(1, 0x1003)]).hasX 1 = true ∧ targetMisaligned (regs bare [(1, 0x1003)]) 0x1002 = true ∧
    (0x8 : Word) = (bare.x 0 + 9) &&& ~~~1 ∧ targetFault bare 0x8 = none ∧ targetFault (reduced bare) 0x8 = none ∧
    (0x6 : Word) = (asking bare).pc + 6 ∧ targetFault (asking bare) 0x6 = some ⟨24, 7⟩ ∧
    (0x6 : Word) = ((asking bare).x 0 + 7) &&& ~~~1 ∧ (asking bare).hasX 0 = true := by decide

theorem witness_Branches : (branchForm (.blt 1 2 8)).isSome = true ∧ bare.hasXs [1, 2] = true ∧
    (reduced bare).hasXs [1, 16] = false ∧ (0xffffffffffffffff : Word).toInt < (0 : Word).toInt ∧
    ¬(0 : Word).toInt < (0xffffffffffffffff : Word).toInt ∧ targetMisaligned bare (bare.pc + 8) = false ∧
    targetMisaligned bare (bare.pc + 6) = true ∧ targetFault bare (bare.pc + 8) = none ∧
    targetFault (asking bare) ((asking bare).pc + 6) = some ⟨24, 7⟩ := by decide

theorem witness_LoadResults : (loadForm (.lw 5 10 4)).isSome = true ∧ legalIn holed (.lw 5 10 4) = true ∧
    (0x104 : Word) = holed.x 10 + 4 ∧ holed.hasX 10 = true ∧ accessFault holed.params .load 4 0x104 = some ⟨5, 0x104⟩ ∧
    (0x108 : Word) = holed.x 10 + 8 ∧ accessFault holed.params .load 4 0x108 = none ∧ holed.hasX 5 = true ∧
    legalIn (reduced holed) (.lw 16 10 8) = true ∧ (reduced holed).hasX 16 = false ∧
    legalIn comp (.cLdsp 1 504) = true ∧ accessFault comp.params .load 8 (comp.x 2 + 504) = none ∧
    (rv64Only (.cLd 9 10 8) = true ∧ (narrow comp).inputs.xlen = .x32) ∧
    (rv64Only (.ld 5 10 8) = true → (narrow comp).inputs.xlen = .x64) ∧ legalIn (narrow comp) (.ld 5 10 8) = false ∧
    (rv64Only (.cLdsp 0 8) = true → comp.inputs.xlen = .x64) ∧ legalIn comp (.cLdsp 0 8) = false ∧
    (reduced comp).hasX 16 = false ∧ capFault (narrow comp) (.ld 5 10 8) = none ∧ capFault comp (.cLdsp 0 8) = none ∧
    capFault (asking comp) (.cLdsp 0 8) = some ⟨24, 7⟩ := by decide

theorem witness_StoreResults : (storeForm (.sw 5 10 4)).isSome = true ∧ legalIn holed (.sw 5 10 4) = true ∧
    (0x104 : Word) = holed.x 10 + 4 ∧ holed.hasXs [10, 5] = true ∧
    accessStop holed.params .store 4 0x104 = some (0, ⟨5, 0x104⟩) ∧ accessFault holed.params .store 4 0x108 = none ∧
    (0x102 : Word) = splitting.x 10 + 4 ∧ accessStop splitting.params .store 4 0x102 = some (2, ⟨5, 0x104⟩) ∧
    holed.params.misaligned = .succeeds ∧ (0x104 : Word).toNat % 4 = 0 ∧
    legalIn (reduced holed) (.sw 16 10 4) = true ∧ (reduced holed).hasXs [10, 16] = false ∧
    (rv64Only (.cSdsp 1 8) = true ∧ (narrow comp).inputs.xlen = .x32) ∧
    (rv64Only (.sd 5 10 8) = true → (narrow comp).inputs.xlen = .x64) ∧ legalIn (narrow comp) (.sd 5 10 8) = false ∧
    (rv64Only (.cSdsp 1 8) = true → comp.inputs.xlen = .x64) ∧ legalIn comp (.cSdsp 1 8) = true ∧
    capFault (narrow comp) (.sd 5 10 8) = none ∧ capFault (reduced holed) (.sw 16 10 4) = none ∧
    capFault (asking comp) (.cSw 8 9 124) = some ⟨24, 7⟩ := by decide

theorem witness_SignInjectionInstructions : (signForm (.fsgnjQ 0 31 31)).isSome = true ∧ supports bare .q = .yes ∧
    bare.inputs.fpEnabled = true ∧
    supports { bare with inputs := { bare.inputs with caps := { bare.inputs.caps with d := .no } } } .d = .no ∧
    ({ bare with inputs := { bare.inputs with fpEnabled := false } } : State).inputs.fpEnabled = false ∧
    supports (asking bare) .f = .faults ⟨24, 7⟩ := by decide

theorem witness_CompressedComputation : supports bare .c = .no ∧ supports comp .c = .yes ∧ (1020 : Word) ≠ 0 ∧ comp.hasX 31 = true ∧
    (reduced comp).hasX 16 = false ∧ supports (reduced comp) .c = .yes ∧ (63 : BitVec 6).toNat < xlenBits comp.inputs.xlen ∧
    (32 : BitVec 6).toNat ≥ xlenBits (narrow comp).inputs.xlen ∧ supports (narrow comp) .c = .yes ∧
    supports (asking comp) .c = .faults ⟨24, 7⟩ := by decide

theorem witness_CompressedControl : supports bare .c = .no ∧ supports comp .c = .yes ∧ comp.hasX 15 = true ∧ comp.x 15 = 0 ∧
    (regs comp [(15, 1)]).x 15 ≠ 0 ∧ (reduced comp).hasX 16 = false ∧
    supports (asking comp) .c = .faults ⟨24, 7⟩ := by decide

theorem witness_FailedPreconditionTraps : legalIn bare (.cAddi 1 1) = false ∧
    (rv64Only (.cAddi 1 1) = true → bare.inputs.xlen = .x64) ∧ legalIn (narrow bare) (.ld 5 10 8) = false ∧
    (rv64Only (.ld 5 10 8) = true → (narrow bare).inputs.xlen = .x64) ∧ legalIn comp (.cLdsp 0 8) = false ∧
    (rv64Only (.cLdsp 0 8) = true → comp.inputs.xlen = .x64) ∧ capFault bare (.cAddi 1 1) = none ∧
    capFault (narrow bare) (.ld 5 10 8) = none ∧ capFault comp (.cLdsp 0 8) = none ∧
    capFault (asking comp) (.fsgnjQ 1 2 3) = some ⟨24, 7⟩ ∧ capFault (asking comp) (.cSlli 1 63) = some ⟨24, 7⟩ := by
  decide

theorem witness_Rv64RowsRefusedAtXlen32 : rv64Only (.cSdsp 31 504) = true ∧ (Instr.cSdsp 31 504).wf = true ∧
    (narrow comp).inputs.xlen = .x32 := by decide

theorem witness_ExecAlwaysAnswersNext : (rv64Only (.cLd 8 8 0) = true → comp.inputs.xlen = .x64) ∧
    (rv64Only (.add 0 0 0) = true → (narrow comp).inputs.xlen = .x64) := by decide

/-- A computation, a store and a CSR access that answer a next state. -/
theorem witness_ExecFrame : (∃ t, exec (.add 3 1 2) bare = .next t) ∧ (∃ t, exec (.sw 5 10 8) holed = .next t) ∧
    (∃ t, exec (.csrrw 5 0x340 6) (csrReady bare 3 0x340 7) = .next t) := ⟨⟨_, rfl⟩, ⟨_, rfl⟩, ⟨_, rfl⟩⟩

theorem witness_MemoryFrame : (∃ t, exec (.sw 5 10 8) holed = .next t) ∧ (storeForm (.sw 5 10 8)).isSome = true ∧
    (∃ t, exec (.lw 5 10 8) holed = .next t) ∧ (storeForm (.lw 5 10 8)).isNone = true :=
  ⟨⟨_, rfl⟩, rfl, ⟨_, rfl⟩, rfl⟩

/-- A memory that lists the two ends of the address space, and an address outside a write there. -/
theorem witness_MemoryIsLittleEndian : Memory.wf [(0, 1), (0xffffffffffffffff, 2)] = true ∧ 8 ≤ 8 ∧
    (∀ k, k < 8 → (7 : Word) ≠ 0xffffffffffffffff + BitVec.ofNat 64 k) := by decide

theorem witness_PrivilegeReachesOnlyTheCsrGate : (csrForm (.add 1 2 3)).isNone = true ∧
    (∃ t, exec (.csrrw 5 0x340 6) bare = .next t) := ⟨rfl, ⟨_, rfl⟩⟩

theorem witness_StepKeepsInvariant : (vec.withFetchWord 32 0x002081b3).Inv ∧
    (∃ t, step (vec.withFetchWord 32 0x002081b3) = .next t) ∧
    (∃ t, step (narrow vec |>.withFetchWord 32 0x002081b3) = .next t) ∧
    (narrow vec |>.withFetchWord 32 0x002081b3).inputs.xlen = .x32 ∧
    (narrow vec |>.withFetchWord 32 0x002081b3).xSignExtended = true := by
  refine ⟨?_, ⟨_, rfl⟩, ⟨_, rfl⟩, rfl, by decide⟩
  refine ⟨by decide, by decide, by decide, by decide, by decide, by decide, by decide⟩

theorem witness_ResetMeetsInvariant : (narrow bare).inputs.xlen = .x32 ∧
    ∀ k : Fin 32, sext32 ((Vector.replicate 32 (0xffffffff80000000 : Word))[k.val]) =
      (Vector.replicate 32 (0xffffffff80000000 : Word))[k.val] := by decide

theorem witness_ResetTable : (31 : Reg) ≠ 0 := by decide

end Sys2Proof.Tests
end

section
/-! SUPPORT for the statements of 00_scope.md: what the decoder of bytes answers, and that the two immediates written
to a register as they are, `lui`'s and `c.li`'s, are sign-extended from 32 bits. -/

namespace Sys2Proof

/-! ## Length and canonical form of the decoded word -/

/-- The length shows in the low six bits. -/
theorem insnLength_congr {a b : Word} (h : bits a 5 0 = bits b 5 0) : insnLength a = insnLength b := by
  have hbit : ∀ k, k < 6 → a.getLsbD k = b.getLsbD k := fun k hk => by
    have := congrArg (BitVec.getLsbD · k) h
    simpa [bits, Nat.le_of_lt_succ hk] using this
  have hlow : ∀ n, n < 6 → bits a n 0 = bits b n 0 := fun n hn => by
    apply BitVec.eq_of_getLsbD_eq
    intro k hk
    simp [bits, hbit k (by omega)]
  simp only [insnLength, hlow 1 (by omega), hlow 4 (by omega), h]

theorem two_le_insnLength (w : Word) : 2 ≤ insnLength w := by
  unfold insnLength
  split_ifs <;> omega

theorem insnLength_canonical (raw : Word) {len : Nat} (hl : 1 ≤ len) :
    insnLength (canonical raw len) = insnLength raw := by
  apply insnLength_congr
  apply BitVec.eq_of_getLsbD_eq
  intro k hk
  have h8 : k < 8 * len := by omega
  have h64 : k < 64 := by omega
  simp [bits, canonical, BitVec.getElem_signExtend, h8, h64]

/-- The length shows in the first byte. -/
theorem insnLength_leWord_cons (b : Byte) (bs bs' : List Byte) :
    insnLength (leWord (b :: bs)) = insnLength (leWord (b :: bs')) := by
  apply insnLength_congr
  apply BitVec.eq_of_getLsbD_eq
  intro k hk
  have h8 : k < 8 := by omega
  simp [bits, leWord, h8]

theorem insnLength_leWord_take (bytes : List Byte) {m n : Nat} (hm : 1 ≤ m) (hn : 1 ≤ n) :
    insnLength (leWord (bytes.take m)) = insnLength (leWord (bytes.take n)) := by
  obtain ⟨m, rfl⟩ := Nat.exists_eq_add_of_le' hm
  obtain ⟨n, rfl⟩ := Nat.exists_eq_add_of_le' hn
  cases bytes with
  | nil => simp
  | cons b bs => exact insnLength_leWord_cons b _ _

theorem canonical_canonical (raw : Word) (len : Nat) : canonical (canonical raw len) len = canonical raw len := by
  unfold canonical
  congr 1
  apply BitVec.eq_of_getLsbD_eq
  intro k hk
  by_cases h64 : k < 64
  · simp [BitVec.getElem_signExtend, hk, h64]
  · simp [BitVec.getLsbD_of_ge _ _ (Nat.le_of_not_lt h64)]

/-- What the decoder of bytes answers is what the decoder of words answers for some canonical word. -/
theorem decodeBytes_canonical {x : XLen} {bytes rest : List Byte} {i : Instr}
    (h : decodeBytes x bytes = .ok (i, rest)) :
    ∃ w, canonical w (insnLength w) = w ∧ decodeWord x w = .ok i := by
  unfold decodeBytes at h
  extract_lets len at h
  have hpos : 1 ≤ len := Nat.le_of_succ_le (two_le_insnLength _)
  have hlen : insnLength (canonical (leWord (bytes.take len)) len) = len := by
    rw [insnLength_canonical _ hpos, insnLength_leWord_take bytes hpos (by omega : 1 ≤ 2)]
  split at h
  · cases h
  · split at h
    · next hdec =>
      cases h
      exact ⟨_, by rw [hlen, canonical_canonical], hdec⟩
    · cases h

/-! ## The immediates written as they are -/

/-- Bit by bit, the sign extension from 32 bits. -/
theorem getLsbD_sext32 (v : Word) {k : Nat} (hk : k < 64) :
    (Machine.sext32 v).getLsbD k = if k < 32 then v.getLsbD k else v.getLsbD 31 := by
  simp only [Machine.sext32, BitVec.getLsbD_signExtend, BitVec.getLsbD_setWidth, BitVec.msb_eq_getLsbD_last]
  by_cases h32 : k < 32 <;> simp [hk, h32]

/-- A value whose upper half repeats bit 31 is sign-extended from 32 bits. -/
theorem sext32_of_upper {v : Word} (h : ∀ k, 32 ≤ k → k < 64 → v.getLsbD k = v.getLsbD 31) :
    Machine.sext32 v = v := by
  apply BitVec.eq_of_getLsbD_eq
  intro k hk
  rw [getLsbD_sext32 v hk]
  split
  · rfl
  · exact (h k (by omega) hk).symm

theorem getLsbD_of_sext32 {w : Word} (h : Machine.sext32 w = w) {k : Nat} (h32 : 32 ≤ k) (h64 : k < 64) :
    w.getLsbD k = w.getLsbD 31 := by
  rw [← h, getLsbD_sext32 w h64, if_neg (by omega), getLsbD_sext32 w (by omega), if_pos (by omega)]

theorem getLsbD_uImm (w : Word) {k : Nat} (h12 : 12 ≤ k) (h64 : k < 64) : (uImm w).getLsbD k = w.getLsbD k := by
  have hk : 12 + (k - 12) = k := by omega
  have h : ¬ 64 ≤ k - 12 := by omega
  simp only [uImm, BitVec.getLsbD_shiftLeft, BitVec.getLsbD_sshiftRight, hk]
  simp [h64, h, Nat.not_lt_of_le h12]

theorem sext32_uImm {w : Word} (h : Machine.sext32 w = w) : Machine.sext32 (uImm w) = uImm w := by
  apply sext32_of_upper
  intro k h32 h64
  rw [getLsbD_uImm w (by omega) h64, getLsbD_uImm w (by omega) (by omega), getLsbD_of_sext32 h h32 h64]

theorem sext32_rvcImm (w : Word) : Machine.sext32 (rvcImm w) = rvcImm w := by
  apply sext32_of_upper
  intro k h32 h64
  have h6 : ¬ k < 6 := by omega
  simp [rvcImm, BitVec.getElem_signExtend, h64, h6]

/-- The immediate of `lui` and of `c.li`, which a body writes without extending it, is sign-extended from 32 bits. -/
def Instr.immExtended : Instr → Prop
  | .lui _ imm => Machine.sext32 imm = imm
  | .cLi _ imm => Machine.sext32 imm = imm
  | _ => True

theorem decode32_immExtended {w : Word} (hw : Machine.sext32 w = w) : ∀ i ∈ decode32 w, i.immExtended := by
  unfold decode32
  extract_lets op f3 f7
  repeat' refine iteInduction (motive := fun o : Option Instr => ∀ i ∈ o, i.immExtended) (fun _ => ?_) fun _ => ?_
  all_goals rintro i ⟨⟩
  any_goals exact trivial
  exact sext32_uImm hw

theorem decode16_immExtended (x : XLen) (w : Word) : ∀ i, decode16 x w = .ok i → i.immExtended := by
  unfold decode16
  extract_lets op f3 only64
  simp only [only64]
  repeat' refine iteInduction (motive := fun e : Except Reject Instr => ∀ i, e = .ok i → i.immExtended) (fun _ => ?_)
            fun _ => ?_
  all_goals rintro i ⟨⟩
  any_goals exact trivial
  exact sext32_rvcImm w

theorem decodeBytes_immExtended {x : XLen} {bytes rest : List Byte} {i : Instr}
    (h : decodeBytes x bytes = .ok (i, rest)) : i.immExtended := by
  obtain ⟨w, hw, hdec⟩ := decodeBytes_canonical h
  unfold decodeWord at hdec
  split_ifs at hdec with h2 h4
  · exact decode16_immExtended x w i hdec
  · rw [h4] at hw
    split at hdec
    · next hd =>
      cases hdec
      exact decode32_immExtended hw i hd
    · cases hdec

end Sys2Proof
end

section
/-! SUPPORT for the statements of 00_scope.md: what a step can do, and what keeps the invariant and the sign extension
of the integer registers: each update, every instruction, and the loop around it. -/

namespace Sys2Proof.Machine

/-! ## The cells of the integer file -/

/-- At XLEN 32 every cell is sign-extended from 32 bits. -/
theorem xSignExtended_iff {s : State} :
    s.xSignExtended = true ↔ (s.inputs.xlen = .x32 → ∀ k (h : k < 32), sext32 s.xpr[k] = s.xpr[k]) := by
  cases hx : s.inputs.xlen with
  | x64 => simp [State.xSignExtended, hx]
  | x32 =>
    simp only [State.xSignExtended, hx, Bool.or_eq_true, beq_iff_eq, List.all_eq_true, reduceCtorEq, false_or,
      forall_const, Vector.mem_toList_iff]
    exact Vector.forall_mem_iff_forall_getElem ..

/-- A register write leaves a cell or puts its value there; cell 0 it leaves. -/
theorem putX_cell (s : State) (r : Reg) (v : Word) {k : Nat} (hk : k < 32) :
    (s.putX r v).xpr[k] = s.xpr[k] ∨ k ≠ 0 ∧ (s.putX r v).xpr[k] = v := by
  rw [State.putX_xpr]
  split
  · exact .inl rfl
  · next hr =>
    rw [Vector.getElem_set]
    split
    · next hrk => exact .inr ⟨fun h0 => hr (BitVec.eq_of_toNat_eq (hrk.trans h0)), rfl⟩
    · exact .inl rfl

/-! ## Preserved predicates as relations -/

/-- The second context has the predicate if the first one has. -/
def Preserves (P : State → Prop) (s t : State) : Prop := P s → P t

theorem composes_preserves (P : State → Prop) : Composes (Preserves P) where
  refl := fun _ => id
  trans := fun hst htu => htu ∘ hst

/-! ## What a step can do -/

/-- A step that goes on is the handler's decision taken, a fetch fault, or an instruction executed and committed; the
fetch unit's view advances at its end. -/
theorem step_cases {s t : State} (h : step s = .next t) :
    (∃ c v r rest, s.outcome = .trap c v ∧ s.resumes = r :: rest ∧ t = (resumeWith r rest s).advanceFetch) ∨
    (∃ npc a r, s.outcome = .next npc a ∧ fetchBytes s = .error r ∧ t = (fetchFault r s).advanceFetch) ∨
    (∃ npc a bytes i rest u, s.outcome = .next npc a ∧ fetchBytes s = .ok bytes ∧
      decodeBytes s.inputs.xlen bytes = .ok (i, rest) ∧ exec i s = .next u ∧ t = (commit u).advanceFetch) := by
  unfold step at h
  split at h
  · next c v ho =>
    unfold resume at h
    split at h
    · cases h
    · next r rest hr =>
      cases h
      exact .inl ⟨c, v, r, rest, ho, hr, rfl⟩
  · next npc a ho =>
    split at h
    · next r hf =>
      cases h
      exact .inr (.inl ⟨npc, a, r, ho, hf, rfl⟩)
    · next bytes hf =>
      split at h
      · cases h
      · next i rest hd =>
        cases hx : exec i s with
        | next u =>
          rw [hx] at h
          cases h
          exact .inr (.inr ⟨npc, a, bytes, i, rest, u, ho, hf, hd, hx, rfl⟩)
        | fault r =>
          rw [hx] at h
          cases h
        | refused r =>
          rw [hx] at h
          cases h

/-- The loop updates the pc, and sets `serialized`. -/
theorem commit_frame {R : State → State → Prop} (h : Composes R) (hp : ∀ s a, R s (s.withPc a))
    (hs : ∀ s, R s (s.withSerialized true)) (s : State) : R s (commit s) := by
  unfold commit
  split
  · exact hp s _
  · exact h.trans (hp s _) (hs _)
  · exact hp s _
  · exact h.refl s

/-- The end of every store body: the address, the source register, then the store of what `f` makes of it. -/
theorem Keeps.storeReg {R : State → State → Prop} (hc : Composes R)
    (hm : ∀ s a bs, R s (s.withMem (writeBytes s.mem a bs))) (base src : Reg) (off : Word) (w : MWidth)
    (f : Word → Word) : Keeps R (do
      let ea ← Machine.readAddr base off
      let v ← Machine.readX src
      Machine.memStore w ea (f v)) :=
  Keeps.bind hc (Keeps.readAddr hc _ _) fun _ => Keeps.bind hc (Keeps.readX hc _) fun _ =>
    Keeps.memStore fun s _ _ => hm s _ _

/-- An instruction that stores updates memory by writes of bytes alone, where `exec_frame` asks for a relation that
allows any change of memory. -/
theorem exec_store_frame {R : State → State → Prop} {i : Instr} (hc : Composes R) (ho : ∀ s o, R s (s.withOutcome o))
    (hi : (storeForm i).isSome = true) (hm : ∀ s a bs, R s (s.withMem (writeBytes s.mem a bs))) {s t : State}
    (he : exec i s = .next t) : R s t := by
  have hst := Keeps.storeReg hc hm
  cases i
  case sw => exact Keeps.runBody hc ho (hst _ _ _ _ low32) he
  case sd => exact Keeps.runBody hc ho (Keeps.bind hc (Keeps.illegalIf hc _) fun _ => hst _ _ _ _ id) he
  case cSw | cSwsp =>
    exact Keeps.runBody hc ho (Keeps.bind hc (Keeps.requireExt hc _) fun _ => hst _ _ _ _ low32) he
  case cSd | cSdsp =>
    exact Keeps.runBody64 hc ho (Keeps.bind hc (Keeps.requireExt hc _) fun _ => hst _ _ _ _ id) he
  all_goals exact absurd hi Bool.false_ne_true

/-! ## The invariant -/

theorem inv_putX (s : State) (r : Reg) (v : Word) : Preserves State.Inv s (s.putX r v) := by
  rintro ⟨hm, hc, hl, he, hv, ht, hx⟩
  have h0 : (s.putX r v).xpr[0] = s.xpr[0] := (putX_cell s r v (by omega)).resolve_right fun h => h.1 rfl
  exact ⟨hm, hc, hl, he, hv, ht, h0.trans hx⟩

theorem inv_putCsr (s : State) (a : CsrAddr) (v : Word) : Preserves State.Inv s (s.putCsr a v) := by
  rintro ⟨hm, hc, hrest⟩
  exact ⟨hm, CsrStore.wf_putCsr a v hc, hrest⟩

theorem inv_writeBytes (s : State) (a : Word) (bs : List Byte) :
    Preserves State.Inv s (s.withMem (writeBytes s.mem a bs)) := by
  rintro ⟨hm, hrest⟩
  refine ⟨?_, hrest⟩
  simp only [State.memWf, Bool.and_eq_true] at hm ⊢
  exact ⟨Memory.wf_writeBytes a bs hm.1, hm.2⟩

theorem inv_advanceFetch (s : State) : Preserves State.Inv s s.advanceFetch := by
  rintro ⟨hm, hrest⟩
  exact ⟨advanceFetch_keeps_memWf hm, hrest⟩

theorem inv_resumeWith (r : Resume) (rest : List Resume) (s : State) :
    Preserves State.Inv s (resumeWith r rest s) := by
  rintro ⟨hm, hc, hrest⟩
  exact ⟨hm, CsrStore.wf_storeAll r.csrs hc, hrest⟩

/-- `Inv` reads neither the pc, nor the outcome, nor `serialized`, nor the floating-point file. -/
theorem inv_withOutcome (s : State) (o : BlockOutcome) : Preserves State.Inv s (s.withOutcome o) := id

theorem inv_withPc (s : State) (a : Word) : Preserves State.Inv s (s.withPc a) := id

theorem inv_withSerialized (s : State) (b : Bool) : Preserves State.Inv s (s.withSerialized b) := id

theorem inv_putF (s : State) (r : Reg) (c : Wide) : Preserves State.Inv s (s.putF r c) := id

theorem exec_keeps_inv {i : Instr} {s t : State} (he : exec i s = .next t) : Preserves State.Inv s t := by
  have hc := composes_preserves State.Inv
  by_cases hi : (storeForm i).isSome = true
  · exact exec_store_frame hc inv_withOutcome hi inv_writeBytes he
  · exact exec_frame
      { toComposes := hc
        outcome := inv_withOutcome
        intReg := fun d _ s v => inv_putX s d v
        floatReg := fun d _ s c => inv_putF s d c
        serialized := fun _ s => inv_withSerialized s false
        csr := fun f _ _ s v => inv_putCsr s f.addr v
        memory := fun h => absurd h hi } he

theorem step_keeps_inv {s t : State} (h : step s = .next t) : Preserves State.Inv s t := by
  have hc := composes_preserves State.Inv
  obtain ⟨c, v, r, rest, -, -, rfl⟩ | ⟨npc, a, r, -, -, rfl⟩ | ⟨npc, a, bytes, i, rest, u, -, -, -, hx, rfl⟩ :=
    step_cases h
  · exact hc.trans (inv_resumeWith r rest s) (inv_advanceFetch _)
  · exact hc.trans (inv_withOutcome s _) (inv_advanceFetch _)
  · exact hc.trans (hc.trans (exec_keeps_inv hx) (commit_frame hc inv_withPc (fun s => inv_withSerialized s true) u))
      (inv_advanceFetch _)

theorem construct_inv (p : Params) (inp : Inputs) (pc : Word) (xs : Vector Word 32) (fs : Vector Wide 32) :
    (State.construct p inp pc xs fs).Inv := by
  refine ⟨rfl, rfl, Nat.zero_le _, ?_, ?_, ?_, ?_⟩
  · simp [State.elemsSized, State.construct]
  · simp [State.v0Zero, State.construct]
  · simp [State.tagsLegal, State.construct]
  · simp [State.construct]

/-! ## Sign-extended integer registers at XLEN 32 -/

/-- XLEN is 32 and the integer registers are sign-extended. -/
def SignedAt32 (s : State) : Prop := s.inputs.xlen = .x32 ∧ s.xSignExtended = true

theorem composes_signed : Composes (Preserves SignedAt32) := composes_preserves SignedAt32

theorem signed_withOutcome (s : State) (o : BlockOutcome) : Preserves SignedAt32 s (s.withOutcome o) := id

theorem signed_putX {v : Word} (hv : sext32 v = v) (s : State) (r : Reg) : Preserves SignedAt32 s (s.putX r v) := by
  rintro ⟨hx, hs⟩
  refine ⟨hx, xSignExtended_iff.mpr fun _ k hk => ?_⟩
  rcases putX_cell s r v hk with h | ⟨-, h⟩ <;> rw [h]
  · exact xSignExtended_iff.mp hs hx k hk
  · exact hv

/-- `sext_xlen` at XLEN 32 gives a sign-extended value. -/
theorem sext32_sextXlen {x : XLen} (hx : x = .x32) (v : Word) : sext32 (sextXlen x v) = sextXlen x v := by
  subst hx
  exact sextXlen_idem .x32 v

theorem keepsSigned_writeX {v : Word} (hv : sext32 v = v) (r : Reg) : Keeps (Preserves SignedAt32) (writeX r v) :=
  Keeps.writeX composes_signed fun s => signed_putX hv s r

theorem keepsSigned_writeSext (r : Reg) (v : Word) : Keeps (Preserves SignedAt32) (writeSext r v) := by
  intro s hs
  rw [writeSext_run]
  split
  · exact signed_putX (sext32_sextXlen hs.1 v) s r hs
  · exact hs

/-- A loaded word is sign-extended as it is written. -/
theorem keepsSigned_loadWord (base d : Reg) (off : Word) : Keeps (Preserves SignedAt32) (do
    let ea ← readAddr base off
    let v ← memLoad true .b32 ea
    writeX d (sext32 v)) :=
  Keeps.bind composes_signed (Keeps.readAddr composes_signed _ _) fun _ =>
    Keeps.bind composes_signed (Keeps.memLoad composes_signed _ _ _) fun v =>
      keepsSigned_writeX (sextXlen_idem .x32 v) d

/-- The default next PC, which a jump writes as its link, is sign-extended. -/
theorem keepsSigned_npcDefault (n : Nat) {b : Word → Body Unit}
    (hb : ∀ link, sext32 link = link → Keeps (Preserves SignedAt32) (b link)) :
    Keeps (Preserves SignedAt32) (do
      let link ← look (npcDefault · n)
      b link) :=
  fun s hs => hb (npcDefault s n) (sext32_sextXlen hs.1 _) s hs

/-- Past the XLEN 64 gate nothing runs at XLEN 32. -/
theorem keepsSigned_requireXlen64 (b : Body Unit) : Keeps (Preserves SignedAt32) (do requireXlen64; b) := by
  intro s hs
  have hx : (s.inputs.xlen != .x64) = true := by rw [hs.1]; rfl
  rw [bind_run, requireXlen64, illegalIf_run, if_pos hx]
  exact hs

/-- A row at XLEN 64 alone does not go on at XLEN 32. -/
theorem runBody64_keeps_signed {i : Instr} {b : Body Unit} {s t : State} (he : runBody64 i b s = .next t) :
    Preserves SignedAt32 s t := by
  intro hs
  rw [runBody64_of_x32 hs.1] at he
  cases he

theorem keepsSigned_csrAccess (d : Reg) (a : CsrAddr) (w : Bool) {new : Word → Body Word}
    (hn : ∀ old, Keeps (Preserves SignedAt32) (new old)) : Keeps (Preserves SignedAt32) (csrAccess d a w new) :=
  have hc := composes_signed
  Keeps.bind hc (Keeps.validateCsr hc a w fun _ => id) fun _ => Keeps.bind hc (Keeps.csrRead hc _) fun old =>
    Keeps.bind hc (Keeps.when hc w fun _ => Keeps.bind hc (hn old) fun _ => Keeps.csrWrite hc fun _ => id) fun _ =>
      Keeps.bind hc (keepsSigned_writeSext d old) fun _ => Keeps.bind hc (Keeps.look hc _) fun npc =>
        Keeps.setPcAndSerialize hc npc signed_withOutcome

/-- An instruction without an integer destination leaves the integer registers. -/
theorem allows_signed_of_no_dest {i : Instr} (hd : destX i = none) : Allows (Preserves SignedAt32) i where
  toComposes := composes_signed
  outcome := signed_withOutcome
  intReg := fun d h => by rw [hd] at h; cases h
  floatReg := fun _ _ _ _ => id
  serialized := fun _ _ => id
  csr := fun _ _ _ _ _ => id
  memory := fun _ _ _ => id

/-- Every decoded instruction keeps the integer registers sign-extended at XLEN 32: what it writes is extended by
`sext_xlen`, by the load, or in the word itself. -/
theorem exec_keeps_signed {i : Instr} (himm : i.immExtended) {s t : State} (he : exec i s = .next t) :
    Preserves SignedAt32 s t := by
  have hc := composes_signed
  have ho := signed_withOutcome
  by_cases hd : destX i = none
  · exact exec_frame (allows_signed_of_no_dest hd) he
  cases i
  case add => exact Keeps.runBody hc ho (Keeps.bind hc (Keeps.readX hc _) fun _ => Keeps.bind hc (Keeps.readX hc _)
    fun _ => keepsSigned_writeSext _ _) he
  case addi => exact Keeps.runBody hc ho (Keeps.bind hc (Keeps.readX hc _) fun _ => keepsSigned_writeSext _ _) he
  case lui => exact Keeps.runBody hc ho (keepsSigned_writeX himm _) he
  case slli => exact Keeps.runBody hc ho (Keeps.bind hc (Keeps.illegalIf hc _) fun _ =>
    Keeps.bind hc (Keeps.readX hc _) fun _ => keepsSigned_writeSext _ _) he
  case auipc => exact Keeps.runBody hc ho (Keeps.bind hc (Keeps.look hc _) fun _ => keepsSigned_writeSext _ _) he
  case jal => exact Keeps.runBody hc ho (keepsSigned_npcDefault _ fun _ hv =>
    Keeps.bind hc (Keeps.jumpRel hc _ ho) fun _ => keepsSigned_writeX hv _) he
  case jalr => exact Keeps.runBody hc ho (keepsSigned_npcDefault _ fun _ hv => Keeps.bind hc (Keeps.readX hc _)
    fun _ => Keeps.bind hc (Keeps.setPc hc _ ho) fun _ => keepsSigned_writeX hv _) he
  case lw => exact Keeps.runBody hc ho (keepsSigned_loadWord _ _ _) he
  case ld => exact Keeps.runBody hc ho (keepsSigned_requireXlen64 _) he
  case csrrw => exact Keeps.runBody hc ho (keepsSigned_csrAccess _ _ _ fun _ => Keeps.readX hc _) he
  case csrrs | csrrc => exact Keeps.runBody hc ho (keepsSigned_csrAccess _ _ _ fun _ =>
    Keeps.bind hc (Keeps.readX hc _) fun _ => Keeps.pure hc _) he
  case csrrwi | csrrsi | csrrci => exact Keeps.runBody hc ho (keepsSigned_csrAccess _ _ _ fun _ => Keeps.pure hc _) he
  case cAddi4spn | cAddi16sp =>
    exact Keeps.runBody hc ho (Keeps.bind hc (Keeps.requireExt hc _) fun _ => Keeps.bind hc (Keeps.stopIf hc _ _)
      fun _ => Keeps.bind hc (Keeps.readX hc _) fun _ => keepsSigned_writeSext _ _) he
  case cLw => exact Keeps.runBody hc ho (Keeps.bind hc (Keeps.requireExt hc _) fun _ =>
    keepsSigned_loadWord _ _ _) he
  case cAddi => exact Keeps.runBody hc ho (Keeps.bind hc (Keeps.requireExt hc _) fun _ =>
    Keeps.bind hc (Keeps.readX hc _) fun _ => keepsSigned_writeSext _ _) he
  case cLi => exact Keeps.runBody hc ho (Keeps.bind hc (Keeps.requireExt hc _) fun _ => keepsSigned_writeX himm _) he
  case cLui => exact Keeps.runBody hc ho (Keeps.bind hc (Keeps.requireExt hc _) fun _ =>
    Keeps.bind hc (Keeps.stopIf hc _ _) fun _ => keepsSigned_writeSext _ _) he
  case cSlli => exact Keeps.runBody hc ho (Keeps.bind hc (Keeps.requireExt hc _) fun _ =>
    Keeps.bind hc (Keeps.illegalIf hc _) fun _ => Keeps.bind hc (Keeps.readX hc _) fun _ =>
    keepsSigned_writeSext _ _) he
  case cLwsp => exact Keeps.runBody hc ho (Keeps.bind hc (Keeps.requireExt hc _) fun _ =>
    Keeps.bind hc (Keeps.stopIf hc _ _) fun _ => keepsSigned_loadWord _ _ _) he
  case cLd | cLdsp => exact runBody64_keeps_signed he
  all_goals exact absurd rfl hd

/-- A step that starts and ends at XLEN 32 keeps the integer registers sign-extended; only the handler's decision can
change XLEN, and it leaves the registers. -/
theorem step_keeps_xSignExtended {s t : State} (h : step s = .next t)
    (hx : t.inputs.xlen = .x32 → s.inputs.xlen = .x32) (hs : s.xSignExtended = true) : t.xSignExtended = true := by
  refine xSignExtended_iff.mpr fun ht => ?_
  have hcells := xSignExtended_iff.mp hs (hx ht)
  obtain ⟨c, v, r, rest, -, -, rfl⟩ | ⟨npc, a, r, -, -, rfl⟩ | ⟨npc, a, bytes, i, rest, u, -, -, hd, he, rfl⟩ :=
    step_cases h
  · exact hcells
  · exact hcells
  · have hu := exec_keeps_signed (decodeBytes_immExtended hd) he ⟨hx ht, hs⟩
    exact xSignExtended_iff.mp (commit_frame composes_signed (fun _ _ => id) (fun _ => id) u hu).2 ht

theorem construct_xSignExtended {p : Params} {inp : Inputs} {pc : Word} {xs : Vector Word 32} {fs : Vector Wide 32}
    (h : inp.xlen = .x32 → ∀ k (hk : k < 32), sext32 xs[k] = xs[k]) :
    (State.construct p inp pc xs fs).xSignExtended = true := by
  refine xSignExtended_iff.mpr fun hx k hk => ?_
  simp only [State.construct, Vector.getElem_set]
  split
  · rfl
  · exact h hx k hk

end Sys2Proof.Machine
end

section
/-! PROOFS of the statements of 00_scope.md. -/

namespace Sys2Proof.Machine

/-- Settles O58: each update of a step keeps the invariant, and at XLEN 32 every integer register written takes a
sign-extended value. -/
theorem stepKeepsInvariant : Obligations.StepKeepsInvariant := by
  unfold Obligations.StepKeepsInvariant
  exact fun s t h => ⟨step_keeps_inv h, step_keeps_xSignExtended h⟩

/-- Settles O52: the shell around a body always answers a next state, and the four RV64-only rows reach it at XLEN
64. -/
theorem execAlwaysAnswersNext : Obligations.ExecAlwaysAnswersNext := by
  unfold Obligations.ExecAlwaysAnswersNext
  intro s i h
  have hrow {b : Body Unit} (hx : s.inputs.xlen = .x64) : ∃ t, runBody64 i b s = .next t := by
    rw [runBody64_of_x64 hx]
    exact runBody_next i b s
  cases i
  case cLd | cSd | cLdsp | cSdsp => exact hrow (h rfl)
  all_goals exact runBody_next _ _ s

/-- Settles O59: every component of the invariant, read off the construction. -/
theorem resetMeetsInvariant : Obligations.ResetMeetsInvariant := by
  unfold Obligations.ResetMeetsInvariant
  exact ⟨construct_inv .., construct_xSignExtended (fun h => by cases h),
    fun p inp pc xs fs => ⟨construct_inv p inp pc xs fs, construct_xSignExtended⟩⟩

end Sys2Proof.Machine
end

section
/-! SUPPORT for the statements of 10_state.md: what the bodies over a vector word update, and that each update the
vector unit makes keeps the invariant and the sign extension of the integer registers. -/

namespace Sys2Proof.Machine

/-! ## Frames of the bodies -/

/-- The frame of a body relates a context to the one it completes in. -/
theorem Keeps.of_ok {α : Type} {R : State → State → Prop} {b : Body α} (hb : Keeps R b) {a : α} {s t : State}
    (h : b s = .ok a t) : R s t := by
  have hr := hb s
  rwa [h] at hr

/-- The frame of a body relates a context to the one it stops in. -/
theorem Keeps.of_error {α : Type} {R : State → State → Prop} {b : Body α} (hb : Keeps R b) {e : Stop} {s t : State}
    (h : b s = .error e t) : R s t := by
  have hr := hb s
  rwa [h] at hr

/-- The element-wise body updates elements of `rd(insn)` and the flags. -/
theorem Keeps.vopBody {R : State → State → Prop} (h : Composes R) (insn : Word) (op : (Nat → Word) → VectorOp)
    (srcs : List RegField) (hp : ∀ s w e v, R s (s.putElem (rd insn) w e v))
    (hf : ∀ (s : State) fl, R s { s with fflags := s.fflags.merge fl }) : Keeps R (Machine.vopBody insn op srcs) :=
  Keeps.bind h (Keeps.vop h _ _ _ _ hp) fun fl => Keeps.change fun s => hf s fl

/-- The load body updates elements of `rd(insn)`. -/
theorem Keeps.vloadBody {R : State → State → Prop} (h : Composes R) (insn : Word)
    (hp : ∀ s w e v, R s (s.putElem (rd insn) w e v)) : Keeps R (Machine.vloadBody insn) :=
  Keeps.bind h (Keeps.requireExt h _) fun _ => Keeps.bind h (Keeps.readX h _) fun base => Keeps.vload h _ base hp

/-- The store body updates memory. -/
theorem Keeps.vstoreBody {R : State → State → Prop} (h : Composes R) (insn : Word) (src : RegField)
    (hp : ∀ s a bs, R s (s.withMem (writeBytes s.mem a bs))) : Keeps R (Machine.vstoreBody insn src) :=
  Keeps.bind h (Keeps.requireExt h _) fun _ => Keeps.bind h (Keeps.readX h _) fun base => Keeps.vstore h _ base hp

/-- The configuration body updates what the configuration does, and `rd(insn)` by a value extended to XLEN. -/
theorem Keeps.configureBody {R : State → State → Prop} (h : Composes R) (insn : Word) (avl : RegField)
    (gs : (Nat → Word) → Groups) (hc : ∀ s a v, R s (s.putCsr a v)) (hp : ∀ s a g, R s (s.configured a g))
    (hx : ∀ s v, R s (s.putX (rd insn) (sextXlen s.inputs.xlen v))) : Keeps R (Machine.configureBody insn avl gs) := by
  refine Keeps.bind h (Keeps.requireExt h _) fun _ => Keeps.bind h (Keeps.readX h _) fun a =>
    Keeps.bind h (Keeps.configure h a _ hc fun s => hp s a _) fun vl s => ?_
  rw [writeSext_run]
  split
  · exact hx s vl
  · exact h.refl s

/-! ## Legal tags -/

theorem tagsLegal_iff {s : State} :
    s.tagsLegal = true ↔ ∀ t, VTag.configured t ∈ s.vtag.toList → routable t = true := by
  simp only [State.tagsLegal, List.all_eq_true]
  constructor
  · exact fun h t ht => h _ ht
  · intro h x hx
    cases x with
    | unconfigured => rfl
    | configured t => exact h t hx

/-- `validate_config` refuses FLOAT of 8 bits, so a requested tag has a memory accessor. -/
theorem routable_of_requestedTag {q : TagRequest} {t : Tag} (h : requestedTag q = some t) : routable t = true := by
  unfold requestedTag at h
  split at h
  · split at h
    · cases h
    · next hn =>
      cases h
      simpa [routable, imp_iff_not_or] using hn
  · cases h

/-- A configured tag of the tag file is the tag of one of the groups. -/
theorem exists_requestedTag_of_mem_tagFile {g : Groups} {t : Tag} (h : VTag.configured t ∈ (tagFile g).toList) :
    ∃ p ∈ g, requestedTag p.2 = some t := by
  have hm : VTag.configured t ∈ assignedTags g ++ List.replicate 32 VTag.unconfigured := List.mem_of_mem_take h
  rcases List.mem_append.mp hm with ha | hu
  · obtain ⟨p, hp, hr⟩ := List.mem_flatMap.mp ha
    refine ⟨p, hp, ?_⟩
    have he := List.eq_of_mem_replicate hr
    split at he
    · next ht =>
      cases he
      exact ht
    · cases he
  · cases List.eq_of_mem_replicate hu

/-! ## The invariant -/

theorem inv_putElem (s : State) (r : Reg) (w : EWidth) (e : Nat) (v : Wide) :
    Preserves State.Inv s (s.putElem r w e v) := by
  rintro ⟨hm, hc, hl, he, hv, ht, hx⟩
  exact ⟨hm, hc, hl, elemsSized_putElem r w e v he, v0Zero_putElem r w e v hv, ht, hx⟩

/-- A configuration bounds VL by VLMAX, zeroes VLMAX elements per register and assigns requested tags alone. -/
theorem inv_configured (s : State) (avl : Word) (g : Groups) : Preserves State.Inv s (s.configured avl g) := by
  rintro ⟨hm, hc, -, -, -, -, hx⟩
  have hvl : min avl.toNat (maxVlOf s.params g) ≤ s.params.vlmax :=
    (Nat.min_le_right _ _).trans (Nat.min_le_left _ _)
  refine ⟨hm, hc, hvl, ?_, ?_, tagsLegal_iff.mpr fun t ht => ?_, hx⟩
  · exact elemsSized_iff.mpr fun r => by simp
  · simp [State.v0Zero]
  · obtain ⟨p, -, hp⟩ := exists_requestedTag_of_mem_tagFile ht
    exact routable_of_requestedTag hp

/-! ## Both properties at once -/

/-- A write of a value extended to XLEN keeps the integer registers sign-extended, at either XLEN. -/
theorem xSignExtended_putX_sextXlen {s : State} (r : Reg) (v : Word) (hs : s.xSignExtended = true) :
    (s.putX r (sextXlen s.inputs.xlen v)).xSignExtended = true := by
  refine xSignExtended_iff.mpr fun hx => ?_
  have hx' : s.inputs.xlen = .x32 := by simpa using hx
  exact xSignExtended_iff.mp (signed_putX (sext32_sextXlen hx' v) s r ⟨hx', hs⟩).2 hx

/-- The second context meets the invariant if the first does, and has its integer registers sign-extended if the first
has. -/
def KeepsInvAndSigns (s t : State) : Prop :=
  Preserves State.Inv s t ∧ Preserves (fun u => u.xSignExtended = true) s t

theorem composes_invAndSigns : Composes KeepsInvAndSigns where
  refl := fun _ => ⟨id, id⟩
  trans := fun hst htu => ⟨htu.1 ∘ hst.1, htu.2 ∘ hst.2⟩

theorem invAndSigns_putElem (s : State) (r : Reg) (w : EWidth) (e : Nat) (v : Wide) :
    KeepsInvAndSigns s (s.putElem r w e v) := ⟨inv_putElem s r w e v, id⟩

theorem invAndSigns_writeBytes (s : State) (a : Word) (bs : List Byte) :
    KeepsInvAndSigns s (s.withMem (writeBytes s.mem a bs)) := ⟨inv_writeBytes s a bs, id⟩

theorem invAndSigns_putCsr (s : State) (a : CsrAddr) (v : Word) : KeepsInvAndSigns s (s.putCsr a v) :=
  ⟨inv_putCsr s a v, id⟩

theorem invAndSigns_configured (s : State) (avl : Word) (g : Groups) : KeepsInvAndSigns s (s.configured avl g) :=
  ⟨inv_configured s avl g, id⟩

theorem invAndSigns_putX_sextXlen (r : Reg) (s : State) (v : Word) :
    KeepsInvAndSigns s (s.putX r (sextXlen s.inputs.xlen v)) :=
  ⟨inv_putX s r _, xSignExtended_putX_sextXlen r v⟩

end Sys2Proof.Machine
end

section
/-! PROOFS of the statements of 10_state.md. -/

namespace Sys2Proof.Machine

/-- Settles O33: every vector operation and body is made of updates that keep the invariant and the sign extension, so
every context it reaches, complete or stopped, keeps them. -/
theorem vectorOperationsKeepInvariant : Obligations.VectorOperationsKeepInvariant := by
  unfold Obligations.VectorOperationsKeepInvariant
  intro s t avl base g field op d srcs insn f gs opOf fs h
  have hc := composes_invAndSigns
  have hconf := Keeps.configure hc avl g invAndSigns_putCsr fun s => invAndSigns_configured s avl g
  have hvop := Keeps.vop hc field op d srcs fun s => invAndSigns_putElem s d
  have hload := Keeps.vload hc d base fun s => invAndSigns_putElem s d
  have hstore := Keeps.vstore hc d base invAndSigns_writeBytes
  have hbodies : ∀ b ∈ [configureBody insn f gs, vopBody insn opOf fs, vloadBody insn, vstoreBody insn f],
      Keeps KeepsInvAndSigns b := by
    simp only [List.forall_mem_cons]
    exact ⟨Keeps.configureBody hc insn f gs invAndSigns_putCsr invAndSigns_configured
        (invAndSigns_putX_sextXlen (rd insn)),
      Keeps.vopBody hc insn opOf fs (fun s => invAndSigns_putElem s (rd insn)) fun _ _ => ⟨id, id⟩,
      Keeps.vloadBody hc insn fun s => invAndSigns_putElem s (rd insn),
      Keeps.vstoreBody hc insn f invAndSigns_writeBytes, List.forall_mem_nil _⟩
  obtain ⟨v, h⟩ | ⟨e, h⟩ | ⟨fl, h⟩ | ⟨e, h⟩ | h | ⟨e, h⟩ | h | ⟨e, h⟩ | ⟨b, hb, h | ⟨e, h⟩⟩ := h
  · exact hconf.of_ok h
  · exact hconf.of_error h
  · exact hvop.of_ok h
  · exact hvop.of_error h
  · exact hload.of_ok h
  · exact hload.of_error h
  · exact hstore.of_ok h
  · exact hstore.of_error h
  · exact (hbodies b hb).of_ok h
  · exact (hbodies b hb).of_error h

end Sys2Proof.Machine
end

section
/-! SUPPORT for the statements of 20_memory.md: the bytes of memory one by one, a read of the bytes just written, and
little-endian assembly of the low bytes of a value (20_memory.md R71). -/

namespace Sys2Proof.Machine

/-! ## Bytes at consecutive addresses -/

theorem succ_add_ofNat (a : Word) (k : Nat) : a + 1 + BitVec.ofNat 64 k = a + BitVec.ofNat 64 (k + 1) := by
  rw [Nat.add_comm k 1, BitVec.ofNat_add, ← BitVec.add_assoc]
  rfl

theorem readBytes_getElem (m : Memory) (a : Word) (n k : Nat) (hk : k < (readBytes m a n).length) :
    (readBytes m a n)[k] = readByte m (a + BitVec.ofNat 64 k) := by
  induction n generalizing a k with
  | zero => simp at hk
  | succ n ih =>
    cases k with
    | zero => simp [readBytes]
    | succ k => simp only [readBytes, List.getElem_cons_succ, ih, succ_add_ofNat]

theorem take_readBytes (m : Memory) (a : Word) {k n : Nat} (h : k ≤ n) :
    (readBytes m a n).take k = readBytes m a k :=
  List.ext_getElem (by simp [h]) fun j _ _ => by simp only [List.getElem_take, readBytes_getElem]

theorem readBytes_add (m : Memory) (a : Word) (j n : Nat) :
    readBytes m a (j + n) = readBytes m a j ++ readBytes m (a + BitVec.ofNat 64 j) n := by
  induction j generalizing a with
  | zero => simp [readBytes]
  | succ j ih => simp only [Nat.succ_add, readBytes, List.cons_append, ih, succ_add_ofNat]

/-- A write of no more bytes than there are addresses puts each byte at its own address. -/
theorem readByte_writeBytes_getElem {m : Memory} (h : m.wf = true) (a : Word) (bs : List Byte)
    (hl : bs.length ≤ 2 ^ 64) (k : Nat) (hk : k < bs.length) :
    readByte (writeBytes m a bs) (a + BitVec.ofNat 64 k) = bs[k] := by
  induction bs generalizing m a k with
  | nil => simp at hk
  | cons b bs ih =>
    rw [List.length_cons] at hl hk
    cases k with
    | zero =>
      have hlater : ∀ j, j < bs.length → a ≠ a + 1 + BitVec.ofNat 64 j := by
        intro j hj
        rw [succ_add_ofNat]
        bv_omega
      rw [show a + BitVec.ofNat 64 0 = a from BitVec.add_zero a]
      exact (readByte_writeBytes_ne _ _ _ _ hlater).trans (readByte_writeByte_self a b h)
    | succ k =>
      rw [← succ_add_ofNat]
      exact ih (Memory.wf_writeByte a b h) (a + 1) (by omega) k (by omega)

/-- A read gives back the bytes just written. -/
theorem readBytes_writeBytes_self {m : Memory} (h : m.wf = true) (a : Word) (bs : List Byte)
    (hl : bs.length ≤ 2 ^ 64) : readBytes (writeBytes m a bs) a bs.length = bs :=
  List.ext_getElem (readBytes_length ..) fun k _ hk => by
    rw [readBytes_getElem, readByte_writeBytes_getElem h a bs hl k hk]

/-! ## Little-endian values -/

/-- Assembling the low bytes of a value gives its low bits. -/
theorem leWord_leBytes {n : Nat} (hn : n ≤ 8) (v : Word) :
    leWord (leBytes n v) = (v.setWidth (8 * n)).setWidth 64 := by
  induction n generalizing v with
  | zero => simp [leWord, leBytes, BitVec.of_length_zero]
  | succ n ih =>
    apply BitVec.eq_of_getLsbD_eq
    intro k hk
    rw [leBytes, leWord, ih (by omega)]
    by_cases h8 : k < 8
    · simp [h8, hk, show k < 8 * (n + 1) by omega]
    · have hiff : k - 8 < 8 * n ↔ k < 8 * (n + 1) := by omega
      simp [h8, hk, hiff, show k - 8 < 64 by omega, show 8 + (k - 8) = k by omega]

end Sys2Proof.Machine
end

section
/-! SUPPORT for the statements of 20_memory.md: each field of an instruction's word is the operand the encoder put
there, so the decoder answers the instruction (30_encoding.md R117, R118, R137). -/

namespace Sys2Proof

open BitVec (extractLsb extractLsb'_eq_self extractLsb'_append_eq_of_add_le extractLsb'_append_eq_of_le
  extractLsb'_append_extractLsb' extractLsb'_append_extractLsb'_eq_extractLsb' setWidth_eq_extractLsb')

/-! ## Slices of a word -/

/-- A field within the bits that are sign-extended is a field of what was extended. -/
theorem extractLsb'_signExtend {n lo len : Nat} (v : BitVec n) (hn : n ≤ 64) (h : lo + len ≤ n) :
    (v.signExtend 64).extractLsb' lo len = v.extractLsb' lo len := by
  apply BitVec.eq_of_getLsbD_eq
  intro k hk
  simp [BitVec.getElem_signExtend, hk, show lo + k < n by omega, show lo + k < 64 by omega]

/-- Bit 63 of a sign-extended 32-bit word is its sign. -/
theorem extractLsb'_signExtend_sign {len : Nat} (v : BitVec 32) (h : len = 1) :
    (v.signExtend 64).extractLsb' 63 len = v.extractLsb' 31 len := by
  subst h
  apply BitVec.eq_of_getLsbD_eq
  intro k hk
  obtain rfl : k = 0 := by omega
  simp [BitVec.getElem_signExtend, BitVec.msb_eq_getLsbD_last]

theorem extractLsb'_of_start_eq_zero {n lo : Nat} (v : BitVec n) (h : lo = 0) : v.extractLsb' lo n = v := by
  rw [h, extractLsb'_eq_self]

/-! ## Operands that fit their fields -/

/-- A value whose low bits are 0, above them. -/
theorem extractLsb'_append_zero {k : Nat} {v : Word} (hk : k ≤ 64) (h : lowZero k v = true) (n : Nat) :
    v.extractLsb' k n ++ 0#k = v.extractLsb' 0 (n + k) := by
  have hz : v.extractLsb' 0 k = 0#k := by
    rw [← setWidth_eq_extractLsb' hk]
    exact beq_iff_eq.mp h
  rw [← hz]
  exact extractLsb'_append_extractLsb'_eq_extractLsb' (Nat.zero_add k).symm

theorem signExtend_of_signedFits {n : Nat} {v : Word} (hn : n ≤ 64) (h : signedFits n v = true) :
    (v.extractLsb' 0 n).signExtend 64 = v := by
  rw [← setWidth_eq_extractLsb' hn]
  exact beq_iff_eq.mp h

theorem setWidth_of_unsignedFits {n : Nat} {v : Word} (hn : n ≤ 64) (h : unsignedFits n v = true) :
    (v.extractLsb' 0 n).setWidth 64 = v := by
  rw [← setWidth_eq_extractLsb' hn]
  exact beq_iff_eq.mp h

theorem append_compactBits {r : Reg} (h : compactReg r = true) : 1#2 ++ compactBits r = r := by
  have h2 : r.extractLsb' 3 2 = 1#2 := by simpa [compactReg] using h
  rw [← h2]
  exact extractLsb'_append_extractLsb'

/-! ## Fields of a 4-byte word (30_encoding.md R117) -/

/-- Bit by bit, the I immediate is the sign extension of the top 12 bits. -/
theorem iImm_signExtend (v : BitVec 32) : iImm (v.signExtend 64) = (v.extractLsb' 20 12).signExtend 64 := by
  apply BitVec.eq_of_getLsbD_eq
  intro k hk
  simp only [iImm, BitVec.getLsbD_sshiftRight, BitVec.getLsbD_signExtend, BitVec.getLsbD_extractLsb',
    BitVec.msb_eq_getLsbD_last]
  grind

/-- Bit by bit, the U immediate is the sign extension of the top 20 bits with 12 zeros below. -/
theorem uImm_signExtend (v : BitVec 32) : uImm (v.signExtend 64) = (v.extractLsb' 12 20 ++ 0#12).signExtend 64 := by
  apply BitVec.eq_of_getLsbD_eq
  intro k hk
  simp only [uImm, BitVec.getLsbD_shiftLeft, BitVec.getLsbD_sshiftRight, BitVec.getLsbD_signExtend,
    BitVec.getLsbD_append, BitVec.getLsbD_extractLsb', BitVec.msb_eq_getLsbD_last]
  grind

theorem encR_fields {w : Word} {f7 : BitVec 7} {r2 r1 d : Reg} {f3 : BitVec 3} {op : BitVec 7}
    (hw : w = word32 (encR f7 r2 r1 f3 d op)) :
    bits w 6 0 = op ∧ bits w 14 12 = f3 ∧ bits w 31 25 = f7 ∧ rd w = d ∧ rs1 w = r1 ∧ rs2 w = r2 := by
  subst hw
  simp (disch := decide) only [rd, rs1, rs2, bits, extractLsb, word32, encR, extractLsb'_signExtend,
    extractLsb'_append_eq_of_add_le, extractLsb'_append_eq_of_le, extractLsb'_of_start_eq_zero, and_self]

theorem encI_fields {w : Word} {top : BitVec 12} {r1 d : Reg} {f3 : BitVec 3} {op : BitVec 7}
    (hw : w = word32 (encI top r1 f3 d op)) :
    bits w 6 0 = op ∧ bits w 14 12 = f3 ∧ rd w = d ∧ rs1 w = r1 ∧ zimm w = r1 ∧ csr w = top ∧
      iImm w = top.signExtend 64 := by
  subst hw
  simp (disch := decide) only [rd, rs1, zimm, csr, iImm_signExtend, bits, extractLsb, word32, encI,
    extractLsb'_signExtend, extractLsb'_append_eq_of_add_le, extractLsb'_append_eq_of_le,
    extractLsb'_of_start_eq_zero, and_self]

/-- The shift amount is the low half of the field on top, below six bits that are 0. -/
theorem encI_shamt {w : Word} {sh : BitVec 6} {r1 d : Reg} {f3 : BitVec 3} {op : BitVec 7}
    (hw : w = word32 (encI (0#6 ++ sh) r1 f3 d op)) : bits w 31 26 = 0#6 ∧ shamt w = sh := by
  subst hw
  simp (disch := decide) only [shamt, bits, extractLsb, word32, encI,
    extractLsb'_signExtend, extractLsb'_append_eq_of_add_le, extractLsb'_append_eq_of_le,
    extractLsb'_of_start_eq_zero, and_self]

theorem encS_fields {w imm : Word} {r2 r1 : Reg} {f3 : BitVec 3} {op : BitVec 7}
    (hw : w = word32 (encS imm r2 r1 f3 op)) (hs : signedFits 12 imm = true) :
    bits w 6 0 = op ∧ bits w 14 12 = f3 ∧ rs1 w = r1 ∧ rs2 w = r2 ∧ sImm w = imm := by
  subst hw
  simp (disch := decide) only [rs1, rs2, sImm, bits, extractLsb, word32, encS, extractLsb'_signExtend,
    extractLsb'_append_eq_of_add_le, extractLsb'_append_eq_of_le, extractLsb'_of_start_eq_zero,
    extractLsb'_append_extractLsb'_eq_extractLsb', signExtend_of_signedFits _ hs, and_self]

theorem encSB_fields {w off : Word} {r2 r1 : Reg} {f3 : BitVec 3} {op : BitVec 7}
    (hw : w = word32 (encSB off r2 r1 f3 op)) (hs : signedFits 13 off = true) (h0 : lowZero 1 off = true) :
    bits w 6 0 = op ∧ bits w 14 12 = f3 ∧ rs1 w = r1 ∧ rs2 w = r2 ∧ sbImm w = off := by
  subst hw
  simp (disch := decide) only [rs1, rs2, sbImm, bits, extractLsb, word32, encSB, extractLsb'_signExtend,
    extractLsb'_signExtend_sign, extractLsb'_append_eq_of_add_le, extractLsb'_append_eq_of_le,
    extractLsb'_of_start_eq_zero, extractLsb'_append_extractLsb'_eq_extractLsb', extractLsb'_append_zero _ h0,
    signExtend_of_signedFits _ hs, and_self]

theorem encU_fields {w imm : Word} {d : Reg} {op : BitVec 7} (hw : w = word32 (encU imm d op))
    (hs : signedFits 32 imm = true) (h0 : lowZero 12 imm = true) :
    bits w 6 0 = op ∧ rd w = d ∧ uImm w = imm := by
  subst hw
  simp (disch := decide) only [rd, uImm_signExtend, bits, extractLsb, word32, encU, extractLsb'_signExtend,
    extractLsb'_append_eq_of_add_le, extractLsb'_append_eq_of_le, extractLsb'_of_start_eq_zero,
    extractLsb'_append_zero _ h0, signExtend_of_signedFits _ hs, and_self]

theorem encUJ_fields {w off : Word} {d : Reg} {op : BitVec 7} (hw : w = word32 (encUJ off d op))
    (hs : signedFits 21 off = true) (h0 : lowZero 1 off = true) :
    bits w 6 0 = op ∧ rd w = d ∧ ujImm w = off := by
  subst hw
  simp (disch := decide) only [rd, ujImm, bits, extractLsb, word32, encUJ, extractLsb'_signExtend,
    extractLsb'_signExtend_sign, extractLsb'_append_eq_of_add_le, extractLsb'_append_eq_of_le,
    extractLsb'_of_start_eq_zero, extractLsb'_append_extractLsb'_eq_extractLsb', extractLsb'_append_zero _ h0,
    signExtend_of_signedFits _ hs, and_self]

/-! ## Fields of a 2-byte word (30_encoding.md R118) -/

theorem encCI_fields {w : Word} {f3 : BitVec 3} {imm : BitVec 6} {d : Reg} {q : BitVec 2}
    (hw : w = word16 (encCI f3 imm d q)) :
    bits w 1 0 = q ∧ bits w 15 13 = f3 ∧ rvcRd w = d ∧ rvcZimm w = imm ∧ rvcImm w = imm.signExtend 64 := by
  subst hw
  simp (disch := decide) only [rvcRd, rvcZimm, rvcImm, bits, extractLsb, word16, encCI, extractLsb'_signExtend,
    extractLsb'_append_eq_of_add_le, extractLsb'_append_eq_of_le, extractLsb'_of_start_eq_zero,
    extractLsb'_append_extractLsb'_eq_extractLsb', and_self]

theorem encCLw_fields {w imm : Word} {f3 : BitVec 3} {r1 r : Reg} (hw : w = word16 (encCLw f3 imm r1 r))
    (hr : compactReg r = true) (hr1 : compactReg r1 = true) (hu : unsignedFits 7 imm = true)
    (h0 : lowZero 2 imm = true) :
    bits w 1 0 = 0#2 ∧ bits w 15 13 = f3 ∧ rvcRs2s w = r ∧ rvcRs1s w = r1 ∧ rvcLwImm w = imm := by
  subst hw
  simp (disch := decide) only [rvcRs1s, rvcRs2s, rvcLwImm, bits, extractLsb, word16, encCLw, extractLsb'_signExtend,
    extractLsb'_append_eq_of_add_le, extractLsb'_append_eq_of_le, extractLsb'_of_start_eq_zero,
    extractLsb'_append_extractLsb'_eq_extractLsb', extractLsb'_append_zero _ h0, setWidth_of_unsignedFits _ hu,
    append_compactBits hr, append_compactBits hr1, and_self]

theorem encCLd_fields {w imm : Word} {f3 : BitVec 3} {r1 r : Reg} (hw : w = word16 (encCLd f3 imm r1 r))
    (hr : compactReg r = true) (hr1 : compactReg r1 = true) (hu : unsignedFits 8 imm = true)
    (h0 : lowZero 3 imm = true) :
    bits w 1 0 = 0#2 ∧ bits w 15 13 = f3 ∧ rvcRs2s w = r ∧ rvcRs1s w = r1 ∧ rvcLdImm w = imm := by
  subst hw
  simp (disch := decide) only [rvcRs1s, rvcRs2s, rvcLdImm, bits, extractLsb, word16, encCLd, extractLsb'_signExtend,
    extractLsb'_append_eq_of_add_le, extractLsb'_append_eq_of_le, extractLsb'_of_start_eq_zero,
    extractLsb'_append_extractLsb'_eq_extractLsb', extractLsb'_append_zero _ h0, setWidth_of_unsignedFits _ hu,
    append_compactBits hr, append_compactBits hr1, and_self]

theorem encCB_fields {w off : Word} {f3 : BitVec 3} {r1 : Reg} (hw : w = word16 (encCB f3 off r1))
    (hr1 : compactReg r1 = true) (hs : signedFits 9 off = true) (h0 : lowZero 1 off = true) :
    bits w 1 0 = 1#2 ∧ bits w 15 13 = f3 ∧ rvcRs1s w = r1 ∧ rvcBImm w = off := by
  subst hw
  simp (disch := decide) only [rvcRs1s, rvcBImm, bits, extractLsb, word16, encCB, extractLsb'_signExtend,
    extractLsb'_append_eq_of_add_le, extractLsb'_append_eq_of_le, extractLsb'_of_start_eq_zero,
    extractLsb'_append_extractLsb'_eq_extractLsb', extractLsb'_append_zero _ h0, signExtend_of_signedFits _ hs,
    append_compactBits hr1, and_self]

theorem cAddi4spn_fields {w imm : Word} {d : Reg} (hw : w = encode (.cAddi4spn d imm)) (hr : compactReg d = true)
    (hu : unsignedFits 10 imm = true) (h0 : lowZero 2 imm = true) :
    bits w 1 0 = 0#2 ∧ bits w 15 13 = 0#3 ∧ rvcRs2s w = d ∧ rvcAddi4spnImm w = imm := by
  subst hw
  simp (disch := decide) only [rvcRs2s, rvcAddi4spnImm, bits, extractLsb, word16, encode, extractLsb'_signExtend,
    extractLsb'_append_eq_of_add_le, extractLsb'_append_eq_of_le, extractLsb'_of_start_eq_zero,
    extractLsb'_append_extractLsb'_eq_extractLsb', extractLsb'_append_zero _ h0, setWidth_of_unsignedFits _ hu,
    append_compactBits hr, and_self]

theorem cAddi16sp_fields {w imm : Word} (hw : w = encode (.cAddi16sp imm)) (hs : signedFits 10 imm = true)
    (h0 : lowZero 4 imm = true) :
    bits w 1 0 = 1#2 ∧ bits w 15 13 = 3#3 ∧ rvcRd w = 2#5 ∧ rvcAddi16spImm w = imm := by
  subst hw
  simp (disch := decide) only [rvcRd, rvcAddi16spImm, bits, extractLsb, word16, encode, extractLsb'_signExtend,
    extractLsb'_append_eq_of_add_le, extractLsb'_append_eq_of_le, extractLsb'_of_start_eq_zero,
    extractLsb'_append_extractLsb'_eq_extractLsb', extractLsb'_append_zero _ h0, signExtend_of_signedFits _ hs,
    and_self]

theorem cJ_fields {w off : Word} (hw : w = encode (.cJ off)) (hs : signedFits 12 off = true)
    (h0 : lowZero 1 off = true) : bits w 1 0 = 1#2 ∧ bits w 15 13 = 5#3 ∧ rvcJImm w = off := by
  subst hw
  simp (disch := decide) only [rvcJImm, bits, extractLsb, word16, encode, extractLsb'_signExtend,
    extractLsb'_append_eq_of_add_le, extractLsb'_append_eq_of_le, extractLsb'_of_start_eq_zero,
    extractLsb'_append_extractLsb'_eq_extractLsb', extractLsb'_append_zero _ h0, signExtend_of_signedFits _ hs,
    and_self]

theorem cLwsp_fields {w imm : Word} {d : Reg} (hw : w = encode (.cLwsp d imm)) (hu : unsignedFits 8 imm = true)
    (h0 : lowZero 2 imm = true) :
    bits w 1 0 = 2#2 ∧ bits w 15 13 = 2#3 ∧ rvcRd w = d ∧ rvcLwspImm w = imm := by
  subst hw
  simp (disch := decide) only [rvcRd, rvcLwspImm, bits, extractLsb, word16, encode, extractLsb'_signExtend,
    extractLsb'_append_eq_of_add_le, extractLsb'_append_eq_of_le, extractLsb'_of_start_eq_zero,
    extractLsb'_append_extractLsb'_eq_extractLsb', extractLsb'_append_zero _ h0, setWidth_of_unsignedFits _ hu,
    and_self]

theorem cLdsp_fields {w imm : Word} {d : Reg} (hw : w = encode (.cLdsp d imm)) (hu : unsignedFits 9 imm = true)
    (h0 : lowZero 3 imm = true) :
    bits w 1 0 = 2#2 ∧ bits w 15 13 = 3#3 ∧ rvcRd w = d ∧ rvcLdspImm w = imm := by
  subst hw
  simp (disch := decide) only [rvcRd, rvcLdspImm, bits, extractLsb, word16, encode, extractLsb'_signExtend,
    extractLsb'_append_eq_of_add_le, extractLsb'_append_eq_of_le, extractLsb'_of_start_eq_zero,
    extractLsb'_append_extractLsb'_eq_extractLsb', extractLsb'_append_zero _ h0, setWidth_of_unsignedFits _ hu,
    and_self]

theorem cSwsp_fields {w imm : Word} {r2 : Reg} (hw : w = encode (.cSwsp r2 imm)) (hu : unsignedFits 8 imm = true)
    (h0 : lowZero 2 imm = true) :
    bits w 1 0 = 2#2 ∧ bits w 15 13 = 6#3 ∧ rvcRs2 w = r2 ∧ rvcSwspImm w = imm := by
  subst hw
  simp (disch := decide) only [rvcRs2, rvcSwspImm, bits, extractLsb, word16, encode, extractLsb'_signExtend,
    extractLsb'_append_eq_of_add_le, extractLsb'_append_eq_of_le, extractLsb'_of_start_eq_zero,
    extractLsb'_append_extractLsb'_eq_extractLsb', extractLsb'_append_zero _ h0, setWidth_of_unsignedFits _ hu,
    and_self]

theorem cSdsp_fields {w imm : Word} {r2 : Reg} (hw : w = encode (.cSdsp r2 imm)) (hu : unsignedFits 9 imm = true)
    (h0 : lowZero 3 imm = true) :
    bits w 1 0 = 2#2 ∧ bits w 15 13 = 7#3 ∧ rvcRs2 w = r2 ∧ rvcSdspImm w = imm := by
  subst hw
  simp (disch := decide) only [rvcRs2, rvcSdspImm, bits, extractLsb, word16, encode, extractLsb'_signExtend,
    extractLsb'_append_eq_of_add_le, extractLsb'_append_eq_of_le, extractLsb'_of_start_eq_zero,
    extractLsb'_append_extractLsb'_eq_extractLsb', extractLsb'_append_zero _ h0, setWidth_of_unsignedFits _ hu,
    and_self]

/-! ## The round trip -/

/-- The word of an instruction is 2 bytes with its quadrant at the bottom, or 4 bytes with its major opcode there. -/
theorem encode_shape (i : Instr) :
    (instrLength i = 2 ∧ ∃ (hi : BitVec 14) (q : BitVec 2), q ≠ 3#2 ∧ encode i = word16 (hi ++ q)) ∨
    (instrLength i = 4 ∧ ∃ (hi : BitVec 25) (op : BitVec 7),
      op.extractLsb 1 0 = 3#2 ∧ op.extractLsb 4 0 ≠ 31#5 ∧ encode i = word32 (hi ++ op)) := by
  cases i
  case cAddi4spn | cLw | cLd | cSw | cSd | cAddi | cLi | cAddi16sp | cLui | cJ | cBeqz | cBnez | cSlli | cLwsp |
      cLdsp | cSwsp | cSdsp => exact .inl ⟨rfl, _, _, by decide, rfl⟩
  all_goals exact .inr ⟨rfl, _, _, by decide, by decide, rfl⟩

theorem instrLength_eq_two_or_four (i : Instr) : instrLength i = 2 ∨ instrLength i = 4 :=
  (encode_shape i).imp And.left And.left

theorem insnLength_encode (i : Instr) : insnLength (encode i) = instrLength i := by
  obtain ⟨hl, hi, q, hq, he⟩ | ⟨hl, hi, op, h1, h2, he⟩ := encode_shape i
  · rw [he, hl, insnLength_word16 hi q hq]
  · rw [he, hl, insnLength_word32 hi op h1 h2]

theorem canonical_signExtend {n len : Nat} (v : BitVec n) (hl : 8 * len = n) (hn : n ≤ 64) :
    canonical (v.signExtend 64) len = v.signExtend 64 := by
  subst hl
  unfold canonical
  congr 1
  apply BitVec.eq_of_getLsbD_eq
  intro k hk
  simp [BitVec.getElem_signExtend, hk, show k < 64 by omega]

theorem canonical_encode (i : Instr) : canonical (encode i) (instrLength i) = encode i := by
  obtain ⟨hl, _, _, _, he⟩ | ⟨hl, _, _, _, _, he⟩ := encode_shape i
  · rw [he, hl]
    exact canonical_signExtend _ rfl (by decide)
  · rw [he, hl]
    exact canonical_signExtend _ rfl (by decide)

theorem signExtend_bits {n : Nat} {v : Word} (hn : n < 64) (h : signedFits (n + 1) v = true) :
    (bits v n 0).signExtend 64 = v := signExtend_of_signedFits hn h

theorem decode32_encode {i : Instr} (hwf : i.wf = true) (h4 : instrLength i = 4) : decode32 (encode i) = some i := by
  cases i
  case add | fsgnjS | fsgnjnS | fsgnjxS | fsgnjD | fsgnjnD | fsgnjxD | fsgnjQ | fsgnjnQ | fsgnjxQ =>
    simp [decode32, encode, encR_fields rfl]
  case addi | jalr | lw | ld =>
    simp [decode32, encode, encI_fields rfl, signExtend_bits _ hwf]
  case slli => simp [decode32, encode, encI_fields rfl, encI_shamt rfl]
  case csrrw | csrrs | csrrc | csrrwi | csrrsi | csrrci => simp [decode32, encode, encI_fields rfl]
  case sw | sd => simp [decode32, encode, encS_fields rfl hwf]
  case beq | bne | blt | bge | bltu | bgeu =>
    obtain ⟨hs, h0⟩ := (Bool.and_eq_true _ _).mp hwf
    simp [decode32, encode, encSB_fields rfl hs h0]
  case lui | auipc =>
    obtain ⟨hs, h0⟩ := (Bool.and_eq_true _ _).mp hwf
    simp [decode32, encode, encU_fields rfl hs h0]
  case jal =>
    obtain ⟨hs, h0⟩ := (Bool.and_eq_true _ _).mp hwf
    simp [decode32, encode, encUJ_fields rfl hs h0]
  all_goals cases h4

theorem decode16_encode {x : XLen} {i : Instr} (hwf : i.wf = true) (h2 : instrLength i = 2)
    (hx : rv64Only i = true → x = .x64) : decode16 x (encode i) = .ok i := by
  cases i
  case cAddi4spn =>
    simp only [Instr.wf, Bool.and_eq_true] at hwf
    obtain ⟨⟨hr, hu⟩, h0⟩ := hwf
    simp [decode16, cAddi4spn_fields rfl hr hu h0]
  case cLw | cSw =>
    simp only [Instr.wf, Bool.and_eq_true] at hwf
    obtain ⟨⟨⟨hr, hr1⟩, hu⟩, h0⟩ := hwf
    simp [decode16, encode, encCLw_fields rfl hr hr1 hu h0]
  case cLd | cSd =>
    simp only [Instr.wf, Bool.and_eq_true] at hwf
    obtain ⟨⟨⟨hr, hr1⟩, hu⟩, h0⟩ := hwf
    simp [decode16, encode, encCLd_fields rfl hr hr1 hu h0, hx rfl]
  case cAddi | cLi => simp [decode16, encode, encCI_fields rfl, signExtend_bits _ hwf]
  case cLui =>
    simp only [Instr.wf, Bool.and_eq_true, bne_iff_ne] at hwf
    obtain ⟨hd, hs⟩ := hwf
    simp [decode16, encode, encCI_fields rfl, signExtend_bits _ hs, hd]
  case cAddi16sp =>
    obtain ⟨hs, h0⟩ := (Bool.and_eq_true _ _).mp hwf
    simp [decode16, cAddi16sp_fields rfl hs h0]
  case cJ =>
    obtain ⟨hs, h0⟩ := (Bool.and_eq_true _ _).mp hwf
    simp [decode16, cJ_fields rfl hs h0]
  case cBeqz | cBnez =>
    simp only [Instr.wf, Bool.and_eq_true] at hwf
    obtain ⟨⟨hr1, hs⟩, h0⟩ := hwf
    simp [decode16, encode, encCB_fields rfl hr1 hs h0]
  case cSlli => simp [decode16, encode, encCI_fields rfl]
  case cLwsp =>
    obtain ⟨hu, h0⟩ := (Bool.and_eq_true _ _).mp hwf
    simp [decode16, cLwsp_fields rfl hu h0]
  case cLdsp =>
    obtain ⟨hu, h0⟩ := (Bool.and_eq_true _ _).mp hwf
    simp [decode16, cLdsp_fields rfl hu h0, hx rfl]
  case cSwsp =>
    obtain ⟨hu, h0⟩ := (Bool.and_eq_true _ _).mp hwf
    simp [decode16, cSwsp_fields rfl hu h0]
  case cSdsp =>
    obtain ⟨hu, h0⟩ := (Bool.and_eq_true _ _).mp hwf
    simp [decode16, cSdsp_fields rfl hu h0, hx rfl]
  all_goals cases h2

/-- The decoder of words answers the instruction a well-formed instruction's word was made from. -/
theorem decodeWord_encode {x : XLen} {i : Instr} (hwf : i.wf = true) (hx : rv64Only i = true → x = .x64) :
    decodeWord x (encode i) = .ok i := by
  rw [decodeWord, insnLength_encode]
  obtain h2 | h4 := instrLength_eq_two_or_four i
  · rw [if_pos h2, decode16_encode hwf h2 hx]
  · rw [if_neg (by omega), if_pos h4, decode32_encode hwf h4]

/-! ## The bytes of an instruction (20_memory.md R72) -/

@[simp] theorem encodeBytes_length (i : Instr) : (encodeBytes i).length = instrLength i :=
  Machine.leBytes_length _ _

theorem canonical_leWord_encodeBytes (i : Instr) : canonical (leWord (encodeBytes i)) (instrLength i) = encode i := by
  have h8 : instrLength i ≤ 8 := by have := instrLength_eq_two_or_four i; omega
  have hlow : leWord (encodeBytes i) = ((encode i).setWidth (8 * instrLength i)).setWidth 64 :=
    Machine.leWord_leBytes h8 (encode i)
  calc canonical (leWord (encodeBytes i)) (instrLength i)
      = canonical (encode i) (instrLength i) := by
        rw [hlow, canonical, canonical, BitVec.setWidth_setWidth_of_le _ (by omega), BitVec.setWidth_eq]
    _ = encode i := canonical_encode i

/-- The first parcel alone says the length of the instruction. -/
theorem insnLength_leWord_take_encodeBytes (i : Instr) {n : Nat} (hn : 1 ≤ n) :
    insnLength (leWord ((encodeBytes i).take n)) = instrLength i := by
  have hpos : 1 ≤ instrLength i := by have := instrLength_eq_two_or_four i; omega
  calc insnLength (leWord ((encodeBytes i).take n))
      = insnLength (leWord ((encodeBytes i).take (instrLength i))) := insnLength_leWord_take _ hn hpos
    _ = insnLength (leWord (encodeBytes i)) := by rw [← encodeBytes_length, List.take_length]
    _ = insnLength (encode i) := by rw [← insnLength_canonical _ hpos, canonical_leWord_encodeBytes]
    _ = instrLength i := insnLength_encode i

theorem decodeBytes_encodeBytes {x : XLen} {i : Instr} (hwf : i.wf = true) (hx : rv64Only i = true → x = .x64) :
    decodeBytes x (encodeBytes i) = .ok (i, []) := by
  have hlen := insnLength_leWord_take_encodeBytes i (by omega : 1 ≤ 2)
  have htake : (encodeBytes i).take (instrLength i) = encodeBytes i := by rw [← encodeBytes_length, List.take_length]
  have hdrop : (encodeBytes i).drop (instrLength i) = [] := by rw [← encodeBytes_length, List.drop_length]
  have hlong : ¬ (instrLength i < 2 ∨ instrLength i < instrLength i) := by
    have := instrLength_eq_two_or_four i
    omega
  simp only [decodeBytes, hlen, encodeBytes_length, if_neg hlong, htake, hdrop, canonical_leWord_encodeBytes,
    decodeWord_encode hwf hx]

end Sys2Proof
end

section
/-! SUPPORT for the statements of 20_memory.md: what the fetch unit delivers when no parcel faults (20_memory.md R72,
30_encoding.md R102). -/

namespace Sys2Proof.Machine

/-- Parcels none of which faults are the bytes there. -/
theorem fetchParcels_eq_readBytes {s : State} {a : Word} {n : Nat}
    (h : ∀ k, k < n → accessFault s.params .fetch 2 (a + BitVec.ofNat 64 (2 * k)) = none) :
    fetchParcels s a n = .ok (readBytes (fetchMemory s) a (2 * n)) := by
  induction n generalizing a with
  | zero => rfl
  | succ n ih =>
    have hfirst : accessFault s.params .fetch 2 a = none := by simpa using h 0 (Nat.succ_pos n)
    have hrest : fetchParcels s (a + 2) n = .ok (readBytes (fetchMemory s) (a + 2) (2 * n)) := ih fun k hk => by
      have := h (k + 1) (Nat.succ_lt_succ hk)
      rwa [Nat.mul_succ, Nat.add_comm, BitVec.ofNat_add, ← BitVec.add_assoc] at this
    rw [fetchParcels, hfirst, hrest, Nat.mul_succ, Nat.add_comm, readBytes_add]
    rfl

/-- The instruction whose bytes stand at the pc is fetched whole. -/
theorem fetchBytes_eq_encodeBytes {s : State} {i : Instr}
    (hm : readBytes (fetchMemory s) s.pc (instrLength i) = encodeBytes i)
    (hf : ∀ k, k < instrLength i / 2 → accessFault s.params .fetch 2 (s.pc + BitVec.ofNat 64 (2 * k)) = none) :
    fetchBytes s = .ok (encodeBytes i) := by
  have hl := instrLength_eq_two_or_four i
  have hfirst : fetchParcels s s.pc 1 = .ok ((encodeBytes i).take 2) := by
    rw [fetchParcels_eq_readBytes fun k hk => hf k (by omega), ← hm, take_readBytes _ _ (by omega)]
  have hall : fetchParcels s s.pc (instrLength i / 2) = .ok (encodeBytes i) := by
    rw [fetchParcels_eq_readBytes hf, show 2 * (instrLength i / 2) = instrLength i by omega, hm]
  simp only [fetchBytes, hfirst, insnLength_leWord_take_encodeBytes i (by omega : 1 ≤ 2), hall]

end Sys2Proof.Machine
end

section
/-! PROOFS of the statements of 20_memory.md. -/

namespace Sys2Proof.Machine

/-- Settles O55: the bytes of a write, written one by one into canonical memory, stand at distinct addresses. -/
theorem memoryIsLittleEndian : Obligations.MemoryIsLittleEndian := by
  unfold Obligations.MemoryIsLittleEndian
  intro m a v n hm hn
  have hl : (leBytes n v).length ≤ 2 ^ 64 := by rw [leBytes_length]; omega
  refine ⟨fun k hk => ?_, fun b hb => ?_, ?_⟩
  · rw [readByte_writeBytes_getElem hm a _ hl k (by rwa [leBytes_length]), leBytes_getElem]
    rfl
  · exact readByte_writeBytes_ne m a b _ (by rwa [leBytes_length])
  · calc leWord (readBytes (writeBytes m a (leBytes n v)) a n)
        = leWord (leBytes n v) := by simpa using congrArg leWord (readBytes_writeBytes_self hm a _ hl)
      _ = (v.setWidth (8 * n)).setWidth 64 := leWord_leBytes hn v

/-- Settles O40: the parcels fetched are the instruction's bytes, the first of them says how many there are, and they
decode to it. As stated it also covers an odd pc, where that the fetch starts at that very address is the model's choice
(log 13). -/
theorem stepRunsBytesAtPc : Obligations.StepRunsBytesAtPc := by
  unfold Obligations.StepRunsBytesAtPc
  intro s npc act i ho hwf hx hm hf
  simp only [step, ho, fetchBytes_eq_encodeBytes hm hf, decodeBytes_encodeBytes hwf hx]

end Sys2Proof.Machine
end

section
/-! SUPPORT for the statements of 30_encoding.md: which row of the opcode table takes a word, which one wins, and that
the decoder answers for the row that wins (30_encoding.md R137 to R139). -/

namespace Sys2Proof

/-! ## Masks and fields -/

theorem bits_ofNat (n hi lo : Nat) : bits (BitVec.ofNat 64 n) hi lo = BitVec.ofNat _ ((n % 2 ^ 64) >>> lo) :=
  BitVec.extractLsb_ofNat n 64 hi lo

/-- A register field the mask covers is the pattern's. -/
theorem rvcRd_of_masked {w mask pattern : Word} (h : w &&& mask = pattern) (hm : bits mask 11 7 = BitVec.allOnes _) :
    rvcRd w = bits pattern 11 7 := bits_of_masked h 11 7 hm

/-- The mask that selects one field. -/
def fieldMask (hi lo : Nat) : Word := (BitVec.allOnes (hi - lo + 1)).setWidth 64 <<< lo

/-- A word masked to one field is that field in its place. -/
theorem and_fieldMask {w : Word} {hi lo : Nat} {f : BitVec (hi - lo + 1)} (h : bits w hi lo = f)
    (hhi : hi < 64 := by decide) (hlo : lo ≤ hi := by decide) : w &&& fieldMask hi lo = f.setWidth 64 <<< lo := by
  subst h
  apply BitVec.eq_of_getLsbD_eq
  intro k hk
  simp only [fieldMask, bits, BitVec.getLsbD_and, BitVec.getLsbD_shiftLeft, BitVec.getLsbD_setWidth,
    BitVec.getLsbD_allOnes, BitVec.getLsbD_extractLsb]
  revert hhi hlo
  grind

/-- A mask that selects one field more. -/
theorem and_or_fieldMask {w mask v : Word} {hi lo : Nat} {f : BitVec (hi - lo + 1)} (hv : w &&& mask = v)
    (h : bits w hi lo = f) (hhi : hi < 64 := by decide) (hlo : lo ≤ hi := by decide) :
    w &&& (mask ||| fieldMask hi lo) = v ||| f.setWidth 64 <<< lo := by
  rw [BitVec.and_or_distrib_left, hv, and_fieldMask h hhi hlo]

/-- A mask and a pattern of the table belong to a row of it, which takes every word with that pattern. -/
theorem exists_row_of_masked {w mask pattern : Word} (hw : w &&& mask = pattern)
    (hm : (mask, pattern) ∈ opcodeTable.map fun r => (r.mask, r.pattern)) :
    ∃ r ∈ opcodeTable, r.takes w = true ∧ r.mask = mask := by
  obtain ⟨r, hr, he⟩ := List.mem_map.mp hm
  cases he
  exact ⟨r, hr, beq_iff_eq.mpr hw, rfl⟩

/-- A word that no row takes has no pattern of the table under its mask. -/
theorem ne_of_untaken {w mask pattern : Word} (h : ∀ r ∈ opcodeTable, r.takes w = false)
    (hm : (mask, pattern) ∈ opcodeTable.map fun r => (r.mask, r.pattern)) : w &&& mask ≠ pattern := by
  intro hw
  obtain ⟨r, hr, ht, -⟩ := exists_row_of_masked hw hm
  rw [h r hr] at ht
  cases ht

/-! ## The length of a word that a row takes -/

theorem insnLength_eq_two_iff {w : Word} : insnLength w = 2 ↔ bits w 1 0 ≠ 3#2 := by
  unfold insnLength
  split_ifs <;> simp_all

theorem insnLength_cases (w : Word) : insnLength w = 2 ∨ insnLength w = 4 ∨ insnLength w > 4 := by
  unfold insnLength
  split_ifs <;> simp

/-- The mask of a 4-byte row covers the six bits that say the length. -/
theorem insnLength_of_takes32 {w : Word} {r : Row} (hr : r ∈ integerRows ++ memoryCsrRows ++ signRows)
    (h : r.takes w = true) : insnLength w = 4 := by
  have hrows : ∀ r ∈ integerRows ++ memoryCsrRows ++ signRows,
      bits r.mask 5 0 = BitVec.allOnes _ ∧ insnLength r.pattern = 4 := by decide
  obtain ⟨hm, hl⟩ := hrows r hr
  rw [insnLength_congr (bits_of_masked (beq_iff_eq.mp h) 5 0 hm), hl]

/-- The mask of a 2-byte row covers its quadrant. -/
theorem insnLength_of_takes16 {w : Word} {r : Row} (hr : r ∈ compressedRows) (h : r.takes w = true) :
    insnLength w = 2 := by
  have hrows : ∀ r ∈ compressedRows, bits r.mask 1 0 = BitVec.allOnes _ ∧ bits r.pattern 1 0 ≠ 3#2 := by decide
  obtain ⟨hm, hq⟩ := hrows r hr
  rw [insnLength_eq_two_iff, bits_of_masked (beq_iff_eq.mp h) 1 0 hm]
  exact hq

/-! ## The decoder on a word that a row takes -/

/-- What a row answers for a word it takes: its instruction, or the refusal of an RV64-only row at XLEN 32
(30_encoding.md R138, R139). -/
def Row.answer (r : Row) (x : XLen) (w : Word) : Except Reject Instr :=
  if r.only64 && x != .x64 then .error .rv64OnlyRow else .ok (r.build w)

/-- The fields a row fixes lead to its own leaf of the decoder. -/
theorem decode32_of_takes {w : Word} :
    ∀ r ∈ integerRows ++ memoryCsrRows ++ signRows, r.takes w = true → decode32 w = some (r.build w) := by
  simp only [integerRows, memoryCsrRows, signRows, List.cons_append, List.nil_append, List.forall_mem_cons,
    List.not_mem_nil, false_implies, implies_true, and_true]
  and_intros
  all_goals
    intro h
    simp [decode32, bits_of_masked (beq_iff_eq.mp h), bits_ofNat]

theorem answer_of_takes32 {w : Word} {r : Row} (hr : r ∈ integerRows ++ memoryCsrRows ++ signRows) (x : XLen) :
    r.answer x w = .ok (r.build w) := by
  have hrows : ∀ r ∈ integerRows ++ memoryCsrRows ++ signRows, r.only64 = false := by decide
  rw [Row.answer, hrows r hr]
  rfl

/-- The same in the 2-byte rows, where the words of `c.lui` with rd = x2 are `c.addi16sp`'s. -/
theorem decode16_of_takes {x : XLen} {w : Word} :
    ∀ r ∈ compressedRows, r.takes w = true → (r.mask = 0xe003#64 → r.pattern = 0x6001#64 → rvcRd w ≠ 2#5) →
      decode16 x w = r.answer x w := by
  simp only [compressedRows, List.forall_mem_cons, List.not_mem_nil, false_implies, implies_true, and_true]
  and_intros
  all_goals
    intro h hlui
    cases x <;> simp [decode16, bits_of_masked (beq_iff_eq.mp h), rvcRd_of_masked (beq_iff_eq.mp h), bits_ofNat,
      Row.answer, hlui]

/-! ## The decoder on a word that no row takes -/

/-- A leaf of the decoder that answers an instruction has the fields of a row, so none is reached. -/
theorem decode32_of_untaken {w : Word} (h : ∀ r ∈ opcodeTable, r.takes w = false) : decode32 w = none := by
  have hleaf {mask pattern : Word} (hw : w &&& mask = pattern)
      (hm : (mask, pattern) ∈ opcodeTable.map fun r => (r.mask, r.pattern)) {i : Instr} : some i = none :=
    absurd hw (ne_of_untaken h hm)
  unfold decode32
  extract_lets op f3 f7
  repeat' refine iteInduction (motive := (· = none)) (fun _ => ?_) fun _ => ?_
  any_goals rfl
  any_goals exact hleaf (and_or_fieldMask (and_or_fieldMask (and_fieldMask ‹op = _›) ‹f3 = _›) ‹f7 = _›) (by decide)
  any_goals exact hleaf (and_or_fieldMask (and_fieldMask ‹op = _›) ‹f3 = _›) (by decide)
  any_goals
    obtain ⟨h3, h67⟩ := ‹_ ∧ _›
    exact hleaf (and_or_fieldMask (and_or_fieldMask (and_fieldMask ‹op = _›) h3) h67) (by decide)
  any_goals exact hleaf (and_fieldMask ‹op = _›) (by decide)

/-- The same in the quadrants of the 2-byte words. -/
theorem decode16_of_untaken {x : XLen} {w : Word} (h : ∀ r ∈ opcodeTable, r.takes w = false)
    (hq3 : bits w 1 0 ≠ 3#2) : decode16 x w = .error .noReferenceInstruction := by
  have hleaf {mask pattern : Word} (hw : w &&& mask = pattern)
      (hm : (mask, pattern) ∈ opcodeTable.map fun r => (r.mask, r.pattern)) {e : Except Reject Instr} :
      e = .error .noReferenceInstruction :=
    absurd hw (ne_of_untaken h hm)
  have hquad : ∀ q : BitVec 2, q ≠ 3#2 → q ≠ 0#2 → q ≠ 1#2 → q = 2#2 := by decide
  unfold decode16
  extract_lets q f3 only64
  repeat' refine iteInduction (motive := (· = Except.error Reject.noReferenceInstruction)) (fun _ => ?_) fun _ => ?_
  any_goals rfl
  any_goals exact hleaf (and_or_fieldMask (and_fieldMask ‹q = _›) ‹f3 = _›) (by decide)
  all_goals exact hleaf (and_or_fieldMask (and_fieldMask (hquad q hq3 ‹_› ‹_›)) ‹f3 = _›) (by decide)

/-- A word that no row takes is refused, by name (30_encoding.md R138; 43_dispatch_shell.md R288). -/
theorem decodeWord_of_untaken {w : Word} (h : ∀ r ∈ opcodeTable, r.takes w = false) (x : XLen) :
    decodeWord x w = .error (if insnLength w > 4 then .longInstruction else .noReferenceInstruction) := by
  obtain h2 | h4 | hlong := insnLength_cases w
  · rw [decodeWord, if_pos h2, decode16_of_untaken h (insnLength_eq_two_iff.mp h2), if_neg (by omega)]
  · rw [decodeWord, if_neg (by omega), if_pos h4, decode32_of_untaken h, if_neg (by omega)]
  · rw [decodeWord, if_neg (by omega), if_neg (by omega), if_pos hlong]

/-! ## The row that wins (30_encoding.md R138) -/

theorem mostSpecific_eq_none {l : List Row} (h : mostSpecific l = none) : l = [] := by
  cases l with
  | nil => rfl
  | cons r rs =>
    unfold mostSpecific at h
    split at h
    · cases h
    · split at h <;> cases h

theorem mostSpecific_eq_some {l : List Row} {b : Row} (h : mostSpecific l = some b) :
    b ∈ l ∧ ∀ r ∈ l, onesBelow 32 r.mask ≤ onesBelow 32 b.mask := by
  induction l generalizing b with
  | nil => cases h
  | cons r rs ih =>
    rw [mostSpecific] at h
    cases hm : mostSpecific rs with
    | none =>
      rw [hm] at h
      cases h
      simp [mostSpecific_eq_none hm]
    | some q =>
      obtain ⟨hq, hle⟩ := ih hm
      simp only [hm] at h
      split at h
      · next hgt =>
        cases h
        exact ⟨List.mem_cons_of_mem _ hq, List.forall_mem_cons.mpr ⟨Nat.le_of_lt hgt, hle⟩⟩
      · next hgt =>
        cases h
        exact ⟨List.mem_cons_self,
          List.forall_mem_cons.mpr ⟨le_rfl, fun p hp => (hle p hp).trans (Nat.le_of_not_lt hgt)⟩⟩

/-- The row takes the word, and no row that takes it has more 1 bits in its mask. -/
def Row.wins (r : Row) (w : Word) : Prop :=
  r ∈ opcodeTable ∧ r.takes w = true ∧
    ∀ q ∈ opcodeTable, q.takes w = true → onesBelow 32 q.mask ≤ onesBelow 32 r.mask

/-- The procedure over the table answers for a row that wins, or refuses a word that no row takes. -/
theorem tableDecode_cases (x : XLen) (w : Word) :
    (∃ r : Row, r.wins w ∧ tableDecode x w = r.answer x w) ∨
    (∀ r ∈ opcodeTable, r.takes w = false) ∧
      tableDecode x w = .error (if insnLength w > 4 then .longInstruction else .noReferenceInstruction) := by
  unfold tableDecode
  cases hm : mostSpecific (opcodeTable.filter (·.takes w)) with
  | some r =>
    obtain ⟨hr, hmax⟩ := mostSpecific_eq_some hm
    obtain ⟨hmem, htakes⟩ := List.mem_filter.mp hr
    exact .inl ⟨r, ⟨hmem, htakes, fun q hq ht => hmax q (List.mem_filter.mpr ⟨hq, ht⟩)⟩, rfl⟩
  | none =>
    have hnone := List.filter_eq_nil_iff.mp (mostSpecific_eq_none hm)
    refine .inr ⟨fun r hr => Bool.eq_false_iff.mpr (hnone r hr), ?_⟩
    simp only [apply_ite Except.error]

/-- Where `c.lui` wins, its register is not x2: `c.addi16sp` takes those words, with more 1 bits in its mask. -/
theorem Row.wins.rvcRd_ne_two {r : Row} {w : Word} (h : r.wins w) (hm : r.mask = 0xe003#64)
    (hp : r.pattern = 0x6001#64) : rvcRd w ≠ 2#5 := by
  intro hrd
  obtain ⟨-, ht, hmax⟩ := h
  obtain ⟨q, hq, hqt, hqm⟩ := exists_row_of_masked (and_or_fieldMask (hi := 11) (lo := 7) (beq_iff_eq.mp ht) hrd)
    (by rw [hm, hp]; decide)
  have hle := hmax q hq hqt
  rw [hqm, hm] at hle
  exact absurd hle (by decide)

theorem decodeWord_of_wins {r : Row} {w : Word} (h : r.wins w) (x : XLen) : decodeWord x w = r.answer x w := by
  have ⟨hr, ht, _⟩ := h
  obtain h32 | h16 := List.mem_append.mp hr
  · rw [decodeWord, insnLength_of_takes32 h32 ht, if_neg (by decide), if_pos rfl, decode32_of_takes r h32 ht,
      answer_of_takes32 h32]
  · rw [decodeWord, if_pos (insnLength_of_takes16 h16 ht), decode16_of_takes r h16 ht h.rvcRd_ne_two]

theorem decodeWord_eq_tableDecode (x : XLen) (w : Word) : decodeWord x w = tableDecode x w := by
  obtain ⟨r, hr, htable⟩ | ⟨hnone, htable⟩ := tableDecode_cases x w
  · rw [htable, decodeWord_of_wins hr]
  · rw [htable, decodeWord_of_untaken hnone]

/-- An instruction the decoder answers is built by a row that wins. -/
theorem wins_of_decodeWord_eq_ok {x : XLen} {w : Word} {i : Instr} (h : decodeWord x w = .ok i) :
    ∃ r : Row, r.wins w ∧ r.build w = i ∧ (r.only64 = true → x = .x64) := by
  rw [decodeWord_eq_tableDecode] at h
  obtain ⟨r, hr, htable⟩ | ⟨-, htable⟩ := tableDecode_cases x w
  · rw [htable, Row.answer] at h
    split_ifs at h with hx
    cases h
    exact ⟨r, hr, rfl, by simpa using hx⟩
  · rw [htable] at h
    cases h

/-! ## Words that two rows take -/

/-- The union of two patterns that agree where both masks look has the first one under its mask. -/
theorem or_and_of_compatible {p m p' m' : Word} (h : p &&& m = p) (hpp : p &&& m' = p' &&& m) :
    (p ||| p') &&& m = p := by
  rw [BitVec.and_or_distrib_right, h, ← hpp]
  ext k
  simpa using fun hp _ => hp

/-- Two rows take a common word exactly if their patterns agree where both masks look. -/
theorem exists_common_word_iff {r q : Row} (hr : r.pattern &&& r.mask = r.pattern)
    (hq : q.pattern &&& q.mask = q.pattern) :
    (∃ w, r.takes w = true ∧ q.takes w = true) ↔ r.pattern &&& q.mask = q.pattern &&& r.mask := by
  simp only [Row.takes, beq_iff_eq]
  constructor
  · rintro ⟨w, hwr, hwq⟩
    rw [← hwr, ← hwq, BitVec.and_assoc, BitVec.and_assoc, BitVec.and_comm r.mask]
  · intro h
    exact ⟨r.pattern ||| q.pattern, or_and_of_compatible hr h,
      by rw [BitVec.or_comm, or_and_of_compatible hq h.symm]⟩

theorem pattern_and_mask : ∀ r ∈ opcodeTable, r.pattern &&& r.mask = r.pattern := by decide

/-- The pairs of rows whose patterns agree where both masks look, by position. -/
theorem compatible_rows_iff : ∀ j k : Fin opcodeTable.length, j < k →
    (opcodeTable[j].pattern &&& opcodeTable[k].mask = opcodeTable[k].pattern &&& opcodeTable[j].mask ↔
      j.val = 39 ∧ k.val = 40) := by decide

/-- The same by pattern and mask, for a list of rows taken from the table in its order. -/
theorem pairwise_compatible_rows : opcodeTable.Pairwise fun r q =>
    r.pattern &&& q.mask = q.pattern &&& r.mask → r.pattern = 0x6101#64 ∧ r.mask = 0xef83#64 := by decide

/-- Of two rows that take the word, the earlier one is `c.addi16sp`. -/
theorem masked_of_two_takers {w : Word} (h : (opcodeTable.filter (·.takes w)).length = 2) :
    w &&& 0xef83#64 = 0x6101#64 := by
  obtain ⟨r, q, hrq⟩ := List.length_eq_two.mp h
  have hmem : ∀ p ∈ [r, q], p ∈ opcodeTable ∧ p.takes w = true := fun p hp => List.mem_filter.mp (hrq ▸ hp)
  obtain ⟨hr, hrt⟩ := hmem r (by simp)
  obtain ⟨hq, hqt⟩ := hmem q (by simp)
  have hpair := pairwise_compatible_rows.filter (·.takes w)
  rw [hrq, List.pairwise_pair] at hpair
  obtain ⟨hp, hm⟩ := hpair
    ((exists_common_word_iff (pattern_and_mask r hr) (pattern_and_mask q hq)).mp ⟨w, hrt, hqt⟩)
  rw [← hp, ← hm]
  exact beq_iff_eq.mp hrt

theorem decodeWord_addi16sp {w : Word} (h : w &&& 0xef83#64 = 0x6101#64) (x : XLen) :
    decodeWord x w = .ok (.cAddi16sp (rvcAddi16spImm w)) := by
  have hl : insnLength w = 2 := insnLength_eq_two_iff.mpr (by simp [bits_of_masked h, bits_ofNat])
  simp [decodeWord, hl, decode16, bits_of_masked h, rvcRd_of_masked h, bits_ofNat]

end Sys2Proof
end

section
/-! SUPPORT for the statements of 30_encoding.md: a canonical word is its fields put together again, so encoding what a
row builds from it gives it back (30_encoding.md R101, R117, R118, R137). -/

namespace Sys2Proof

open BitVec (extractLsb extractLsb'_eq_self extractLsb'_append_eq_of_add_le extractLsb'_append_eq_of_le
  extractLsb'_append_extractLsb'_eq_extractLsb' setWidth_eq_extractLsb')

/-! ## What an accessor returns is an operand of a well-formed instruction -/

theorem signedFits_signExtend {n : Nat} (hn : n ≤ 64) (v : BitVec n) : signedFits n (v.signExtend 64) = true := by
  rw [signedFits, beq_iff_eq, setWidth_eq_extractLsb' hn, extractLsb'_signExtend v hn (by omega), extractLsb'_eq_self]

theorem unsignedFits_setWidth {n : Nat} (hn : n ≤ 64) (v : BitVec n) : unsignedFits n (v.setWidth 64) = true := by
  rw [unsignedFits, beq_iff_eq, BitVec.setWidth_setWidth_of_le _ hn, BitVec.setWidth_eq]

theorem lowZero_signExtend {m k : Nat} (h : m + k ≤ 64) (v : BitVec m) :
    lowZero k ((v ++ 0#k).signExtend 64) = true := by
  rw [lowZero, beq_iff_eq, setWidth_eq_extractLsb' (by omega), extractLsb'_signExtend _ h (by omega)]
  exact BitVec.extractLsb'_append_eq_right

theorem lowZero_setWidth {m k : Nat} (h : m + k ≤ 64) (v : BitVec m) : lowZero k ((v ++ 0#k).setWidth 64) = true := by
  rw [lowZero, beq_iff_eq, BitVec.setWidth_setWidth_of_le _ (by omega)]
  exact BitVec.setWidth_append_eq_right

theorem compactReg_append (v : BitVec 3) : compactReg (1#2 ++ v) = true := by
  revert v
  decide

/-- A canonical word is the sign extension of its low bits (30_encoding.md R101). -/
theorem exists_signExtend_of_canonical {w : Word} {len : Nat} (hc : canonical w len = w) :
    ∃ v : BitVec (8 * len), w = v.signExtend 64 := ⟨_, hc.symm⟩

theorem signedFits_iImm {w : Word} (hc : canonical w 4 = w) : signedFits 12 (iImm w) = true := by
  obtain ⟨v, rfl⟩ := exists_signExtend_of_canonical hc
  rw [iImm_signExtend]
  exact signedFits_signExtend (by decide) _

theorem uImm_fits {w : Word} (hc : canonical w 4 = w) :
    signedFits 32 (uImm w) = true ∧ lowZero 12 (uImm w) = true := by
  obtain ⟨v, rfl⟩ := exists_signExtend_of_canonical hc
  rw [uImm_signExtend]
  exact ⟨signedFits_signExtend (by decide) _, lowZero_signExtend (by decide) _⟩

theorem sImm_fits (w : Word) : signedFits 12 (sImm w) = true := signedFits_signExtend (by decide) _

theorem sbImm_fits (w : Word) : signedFits 13 (sbImm w) = true ∧ lowZero 1 (sbImm w) = true :=
  ⟨signedFits_signExtend (by decide) _, lowZero_signExtend (by decide) _⟩

theorem ujImm_fits (w : Word) : signedFits 21 (ujImm w) = true ∧ lowZero 1 (ujImm w) = true :=
  ⟨signedFits_signExtend (by decide) _, lowZero_signExtend (by decide) _⟩

theorem rvcImm_fits (w : Word) : signedFits 6 (rvcImm w) = true := signedFits_signExtend (by decide) _

theorem rvcAddi4spnImm_fits (w : Word) :
    unsignedFits 10 (rvcAddi4spnImm w) = true ∧ lowZero 2 (rvcAddi4spnImm w) = true :=
  ⟨unsignedFits_setWidth (by decide) _, lowZero_setWidth (by decide) _⟩

theorem rvcAddi16spImm_fits (w : Word) :
    signedFits 10 (rvcAddi16spImm w) = true ∧ lowZero 4 (rvcAddi16spImm w) = true :=
  ⟨signedFits_signExtend (by decide) _, lowZero_signExtend (by decide) _⟩

theorem rvcLwspImm_fits (w : Word) : unsignedFits 8 (rvcLwspImm w) = true ∧ lowZero 2 (rvcLwspImm w) = true :=
  ⟨unsignedFits_setWidth (by decide) _, lowZero_setWidth (by decide) _⟩

theorem rvcLdspImm_fits (w : Word) : unsignedFits 9 (rvcLdspImm w) = true ∧ lowZero 3 (rvcLdspImm w) = true :=
  ⟨unsignedFits_setWidth (by decide) _, lowZero_setWidth (by decide) _⟩

theorem rvcSwspImm_fits (w : Word) : unsignedFits 8 (rvcSwspImm w) = true ∧ lowZero 2 (rvcSwspImm w) = true :=
  ⟨unsignedFits_setWidth (by decide) _, lowZero_setWidth (by decide) _⟩

theorem rvcSdspImm_fits (w : Word) : unsignedFits 9 (rvcSdspImm w) = true ∧ lowZero 3 (rvcSdspImm w) = true :=
  ⟨unsignedFits_setWidth (by decide) _, lowZero_setWidth (by decide) _⟩

theorem rvcLwImm_fits (w : Word) : unsignedFits 7 (rvcLwImm w) = true ∧ lowZero 2 (rvcLwImm w) = true :=
  ⟨unsignedFits_setWidth (by decide) _, lowZero_setWidth (by decide) _⟩

theorem rvcLdImm_fits (w : Word) : unsignedFits 8 (rvcLdImm w) = true ∧ lowZero 3 (rvcLdImm w) = true :=
  ⟨unsignedFits_setWidth (by decide) _, lowZero_setWidth (by decide) _⟩

theorem rvcJImm_fits (w : Word) : signedFits 12 (rvcJImm w) = true ∧ lowZero 1 (rvcJImm w) = true :=
  ⟨signedFits_signExtend (by decide) _, lowZero_signExtend (by decide) _⟩

theorem rvcBImm_fits (w : Word) : signedFits 9 (rvcBImm w) = true ∧ lowZero 1 (rvcBImm w) = true :=
  ⟨signedFits_signExtend (by decide) _, lowZero_signExtend (by decide) _⟩

theorem compactReg_rvcRs1s (w : Word) : compactReg (rvcRs1s w) = true := compactReg_append _

theorem compactReg_rvcRs2s (w : Word) : compactReg (rvcRs2s w) = true := compactReg_append _

theorem wf_build32 {w : Word} (hc : canonical w 4 = w) :
    ∀ r ∈ integerRows ++ memoryCsrRows ++ signRows, (r.build w).wf = true := by
  simp [integerRows, memoryCsrRows, signRows, Instr.wf, signedFits_iImm hc, uImm_fits hc, sImm_fits, sbImm_fits,
    ujImm_fits]

theorem wf_build16 {w : Word} : ∀ r ∈ compressedRows,
    (r.mask = 0xe003#64 → r.pattern = 0x6001#64 → rvcRd w ≠ 2#5) → (r.build w).wf = true := by
  simp [compressedRows, Instr.wf, compactReg_rvcRs1s, compactReg_rvcRs2s, rvcImm_fits, rvcAddi4spnImm_fits,
    rvcAddi16spImm_fits, rvcLwspImm_fits, rvcLdspImm_fits, rvcSwspImm_fits, rvcSdspImm_fits, rvcLwImm_fits,
    rvcLdImm_fits, rvcJImm_fits, rvcBImm_fits]

/-! ## A word of 4 bytes from its fields (30_encoding.md R117)

Each format around the accessors' values, with the fields the row fixes read off its pattern. -/

section
variable {w p : Word} (hc : canonical w 4 = w)
include hc

theorem encR_of_masked (h : (w &&& 0xfe00707f == p) = true) :
    word32 (encR (bits p 31 25) (rs2 w) (rs1 w) (bits p 14 12) (rd w) (bits p 6 0)) = w := by
  rw [beq_iff_eq] at h
  rw [← bits_of_masked h 31 25 rfl, ← bits_of_masked h 14 12 rfl, ← bits_of_masked h 6 0 rfl]
  obtain ⟨v, rfl⟩ := exists_signExtend_of_canonical hc
  simp (disch := decide) only [word32, encR, rd, rs1, rs2, bits, extractLsb, extractLsb'_signExtend,
    extractLsb'_of_start_eq_zero, extractLsb'_append_extractLsb'_eq_extractLsb']

theorem encI_of_masked (h : (w &&& 0x707f == p) = true) :
    word32 (encI (csr w) (rs1 w) (bits p 14 12) (rd w) (bits p 6 0)) = w := by
  rw [beq_iff_eq] at h
  rw [← bits_of_masked h 14 12 rfl, ← bits_of_masked h 6 0 rfl]
  obtain ⟨v, rfl⟩ := exists_signExtend_of_canonical hc
  simp (disch := decide) only [word32, encI, csr, rd, rs1, bits, extractLsb, extractLsb'_signExtend,
    extractLsb'_of_start_eq_zero, extractLsb'_append_extractLsb'_eq_extractLsb']

/-- The I immediate stands where a CSR address stands. -/
theorem bits_iImm : bits (iImm w) 11 0 = csr w := by
  obtain ⟨v, rfl⟩ := exists_signExtend_of_canonical hc
  simp (disch := decide) only [iImm_signExtend, csr, bits, extractLsb, extractLsb'_signExtend,
    extractLsb'_of_start_eq_zero]

theorem encI_iImm_of_masked (h : (w &&& 0x707f == p) = true) :
    word32 (encI (bits (iImm w) 11 0) (rs1 w) (bits p 14 12) (rd w) (bits p 6 0)) = w := by
  rw [bits_iImm hc, encI_of_masked hc h]

theorem encI_shamt_of_masked (h : (w &&& 0xfc00707f == p) = true) :
    word32 (encI (bits p 31 26 ++ shamt w) (rs1 w) (bits p 14 12) (rd w) (bits p 6 0)) = w := by
  rw [beq_iff_eq] at h
  rw [← bits_of_masked h 31 26 rfl, ← bits_of_masked h 14 12 rfl, ← bits_of_masked h 6 0 rfl]
  obtain ⟨v, rfl⟩ := exists_signExtend_of_canonical hc
  simp (disch := decide) only [word32, encI, shamt, rd, rs1, bits, extractLsb, extractLsb'_signExtend,
    extractLsb'_of_start_eq_zero, extractLsb'_append_extractLsb'_eq_extractLsb']

theorem encS_of_masked (h : (w &&& 0x707f == p) = true) :
    word32 (encS (sImm w) (rs2 w) (rs1 w) (bits p 14 12) (bits p 6 0)) = w := by
  rw [beq_iff_eq] at h
  rw [← bits_of_masked h 14 12 rfl, ← bits_of_masked h 6 0 rfl]
  obtain ⟨v, rfl⟩ := exists_signExtend_of_canonical hc
  simp (disch := decide) only [word32, encS, sImm, rs1, rs2, bits, extractLsb, extractLsb'_signExtend,
    extractLsb'_append_eq_of_add_le, extractLsb'_append_eq_of_le, extractLsb'_of_start_eq_zero,
    extractLsb'_append_extractLsb'_eq_extractLsb']

theorem encSB_of_masked (h : (w &&& 0x707f == p) = true) :
    word32 (encSB (sbImm w) (rs2 w) (rs1 w) (bits p 14 12) (bits p 6 0)) = w := by
  rw [beq_iff_eq] at h
  rw [← bits_of_masked h 14 12 rfl, ← bits_of_masked h 6 0 rfl]
  obtain ⟨v, rfl⟩ := exists_signExtend_of_canonical hc
  simp (disch := decide) only [word32, encSB, sbImm, rs1, rs2, bits, extractLsb, extractLsb'_signExtend,
    extractLsb'_signExtend_sign, extractLsb'_append_eq_of_add_le, extractLsb'_append_eq_of_le,
    extractLsb'_of_start_eq_zero, extractLsb'_append_extractLsb'_eq_extractLsb']

theorem encU_of_masked (h : (w &&& 0x7f == p) = true) : word32 (encU (uImm w) (rd w) (bits p 6 0)) = w := by
  rw [beq_iff_eq] at h
  rw [← bits_of_masked h 6 0 rfl]
  obtain ⟨v, rfl⟩ := exists_signExtend_of_canonical hc
  simp (disch := decide) only [word32, encU, uImm_signExtend, rd, bits, extractLsb, extractLsb'_signExtend,
    extractLsb'_append_eq_of_le, extractLsb'_of_start_eq_zero, extractLsb'_append_extractLsb'_eq_extractLsb']

theorem encUJ_of_masked (h : (w &&& 0x7f == p) = true) : word32 (encUJ (ujImm w) (rd w) (bits p 6 0)) = w := by
  rw [beq_iff_eq] at h
  rw [← bits_of_masked h 6 0 rfl]
  obtain ⟨v, rfl⟩ := exists_signExtend_of_canonical hc
  simp (disch := decide) only [word32, encUJ, ujImm, rd, bits, extractLsb, extractLsb'_signExtend,
    extractLsb'_signExtend_sign, extractLsb'_append_eq_of_add_le, extractLsb'_append_eq_of_le,
    extractLsb'_of_start_eq_zero, extractLsb'_append_extractLsb'_eq_extractLsb']

/-- Row by row, the format of the row. -/
theorem encode_build32 :
    ∀ r ∈ integerRows ++ memoryCsrRows ++ signRows, r.takes w = true → encode (r.build w) = w := by
  have hR {p} := @encR_of_masked w p hc
  have hI {p} := @encI_iImm_of_masked w p hc
  have hB {p} := @encSB_of_masked w p hc
  have hC {p} := @encI_of_masked w p hc
  simp only [integerRows, memoryCsrRows, signRows, List.cons_append, List.nil_append, List.forall_mem_cons]
  exact ⟨hR, hI, encU_of_masked hc, encI_shamt_of_masked hc, encU_of_masked hc, encUJ_of_masked hc, hI,
    hB, hB, hB, hB, hB, hB, hI, hI, encS_of_masked hc, encS_of_masked hc,
    hC, hC, hC, hC, hC, hC, hR, hR, hR, hR, hR, hR, hR, hR, hR, List.forall_mem_nil _⟩

end

/-! ## A word of 2 bytes from its fields (30_encoding.md R118) -/

section
variable {w p : Word} (hc : canonical w 2 = w)
include hc

theorem encCI_of_masked (h : (w &&& 0xe003 == p) = true) :
    word16 (encCI (bits p 15 13) (rvcZimm w) (rvcRd w) (bits p 1 0)) = w := by
  rw [beq_iff_eq] at h
  rw [← bits_of_masked h 15 13 rfl, ← bits_of_masked h 1 0 rfl]
  obtain ⟨v, rfl⟩ := exists_signExtend_of_canonical hc
  simp (disch := decide) only [word16, encCI, rvcZimm, rvcRd, bits, extractLsb, extractLsb'_signExtend,
    extractLsb'_append_eq_of_add_le, extractLsb'_append_eq_of_le,
    extractLsb'_of_start_eq_zero, extractLsb'_append_extractLsb'_eq_extractLsb']

omit hc in
theorem bits_rvcImm (w : Word) : bits (rvcImm w) 5 0 = rvcZimm w := by
  simp (disch := decide) only [rvcImm, rvcZimm, bits, extractLsb, extractLsb'_signExtend, extractLsb'_of_start_eq_zero]

theorem encCI_rvcImm_of_masked (h : (w &&& 0xe003 == p) = true) :
    word16 (encCI (bits p 15 13) (bits (rvcImm w) 5 0) (rvcRd w) (bits p 1 0)) = w := by
  rw [bits_rvcImm, encCI_of_masked hc h]

theorem encCLw_of_masked (h : (w &&& 0xe003 == p) = true) (hq : bits p 1 0 = 0#2) :
    word16 (encCLw (bits p 15 13) (rvcLwImm w) (rvcRs1s w) (rvcRs2s w)) = w := by
  rw [beq_iff_eq] at h
  rw [encCLw, ← hq, ← bits_of_masked h 15 13 rfl, ← bits_of_masked h 1 0 rfl]
  obtain ⟨v, rfl⟩ := exists_signExtend_of_canonical hc
  simp (disch := decide) only [word16, compactBits, rvcLwImm, rvcRs1s, rvcRs2s, bits, extractLsb,
    extractLsb'_signExtend, BitVec.extractLsb'_setWidth_of_le, extractLsb'_append_eq_of_add_le,
    extractLsb'_append_eq_of_le, extractLsb'_of_start_eq_zero, extractLsb'_append_extractLsb'_eq_extractLsb']

theorem encCLd_of_masked (h : (w &&& 0xe003 == p) = true) (hq : bits p 1 0 = 0#2) :
    word16 (encCLd (bits p 15 13) (rvcLdImm w) (rvcRs1s w) (rvcRs2s w)) = w := by
  rw [beq_iff_eq] at h
  rw [encCLd, ← hq, ← bits_of_masked h 15 13 rfl, ← bits_of_masked h 1 0 rfl]
  obtain ⟨v, rfl⟩ := exists_signExtend_of_canonical hc
  simp (disch := decide) only [word16, compactBits, rvcLdImm, rvcRs1s, rvcRs2s, bits, extractLsb,
    extractLsb'_signExtend, BitVec.extractLsb'_setWidth_of_le, extractLsb'_append_eq_of_add_le,
    extractLsb'_append_eq_of_le, extractLsb'_of_start_eq_zero, extractLsb'_append_extractLsb'_eq_extractLsb']

theorem encCB_of_masked (h : (w &&& 0xe003 == p) = true) (hq : bits p 1 0 = 1#2) :
    word16 (encCB (bits p 15 13) (rvcBImm w) (rvcRs1s w)) = w := by
  rw [beq_iff_eq] at h
  rw [encCB, ← hq, ← bits_of_masked h 15 13 rfl, ← bits_of_masked h 1 0 rfl]
  obtain ⟨v, rfl⟩ := exists_signExtend_of_canonical hc
  simp (disch := decide) only [word16, compactBits, rvcBImm, rvcRs1s, bits, extractLsb, extractLsb'_signExtend,
    extractLsb'_append_eq_of_add_le, extractLsb'_append_eq_of_le,
    extractLsb'_of_start_eq_zero, extractLsb'_append_extractLsb'_eq_extractLsb']

theorem encode_cAddi4spn_of_masked (h : (w &&& 0xe003 == 0x0000) = true) :
    encode (.cAddi4spn (rvcRs2s w) (rvcAddi4spnImm w)) = w := by
  rw [beq_iff_eq] at h
  have h3 : bits w 15 13 = 0#3 := bits_of_masked h 15 13 rfl
  have hq : bits w 1 0 = 0#2 := bits_of_masked h 1 0 rfl
  rw [encode, ← h3, ← hq]
  obtain ⟨v, rfl⟩ := exists_signExtend_of_canonical hc
  simp (disch := decide) only [word16, compactBits, rvcRs2s, rvcAddi4spnImm, bits, extractLsb, extractLsb'_signExtend,
    BitVec.extractLsb'_setWidth_of_le, extractLsb'_append_eq_of_add_le, extractLsb'_append_eq_of_le,
    extractLsb'_of_start_eq_zero, extractLsb'_append_extractLsb'_eq_extractLsb']

theorem encode_cAddi16sp_of_masked (h : (w &&& 0xef83 == 0x6101) = true) :
    encode (.cAddi16sp (rvcAddi16spImm w)) = w := by
  rw [beq_iff_eq] at h
  have h3 : bits w 15 13 = 3#3 := bits_of_masked h 15 13 rfl
  have hq : bits w 1 0 = 1#2 := bits_of_masked h 1 0 rfl
  have hrd : bits w 11 7 = 2#5 := bits_of_masked h 11 7 rfl
  rw [encode, ← h3, ← hq, ← hrd]
  obtain ⟨v, rfl⟩ := exists_signExtend_of_canonical hc
  simp (disch := decide) only [word16, rvcAddi16spImm, bits, extractLsb, extractLsb'_signExtend,
    extractLsb'_append_eq_of_add_le, extractLsb'_append_eq_of_le,
    extractLsb'_of_start_eq_zero, extractLsb'_append_extractLsb'_eq_extractLsb']

theorem encode_cJ_of_masked (h : (w &&& 0xe003 == 0xa001) = true) :
    encode (.cJ (rvcJImm w)) = w := by
  rw [beq_iff_eq] at h
  have h3 : bits w 15 13 = 5#3 := bits_of_masked h 15 13 rfl
  have hq : bits w 1 0 = 1#2 := bits_of_masked h 1 0 rfl
  rw [encode, ← h3, ← hq]
  obtain ⟨v, rfl⟩ := exists_signExtend_of_canonical hc
  simp (disch := decide) only [word16, rvcJImm, bits, extractLsb, extractLsb'_signExtend,
    extractLsb'_append_eq_of_add_le, extractLsb'_append_eq_of_le,
    extractLsb'_of_start_eq_zero, extractLsb'_append_extractLsb'_eq_extractLsb']

theorem encode_cLwsp_of_masked (h : (w &&& 0xe003 == 0x4002) = true) :
    encode (.cLwsp (rvcRd w) (rvcLwspImm w)) = w := by
  rw [beq_iff_eq] at h
  have h3 : bits w 15 13 = 2#3 := bits_of_masked h 15 13 rfl
  have hq : bits w 1 0 = 2#2 := bits_of_masked h 1 0 rfl
  rw [encode, ← h3, ← hq]
  obtain ⟨v, rfl⟩ := exists_signExtend_of_canonical hc
  simp (disch := decide) only [word16, rvcRd, rvcLwspImm, bits, extractLsb, extractLsb'_signExtend,
    BitVec.extractLsb'_setWidth_of_le, extractLsb'_append_eq_of_add_le, extractLsb'_append_eq_of_le,
    extractLsb'_of_start_eq_zero, extractLsb'_append_extractLsb'_eq_extractLsb']

theorem encode_cLdsp_of_masked (h : (w &&& 0xe003 == 0x6002) = true) :
    encode (.cLdsp (rvcRd w) (rvcLdspImm w)) = w := by
  rw [beq_iff_eq] at h
  have h3 : bits w 15 13 = 3#3 := bits_of_masked h 15 13 rfl
  have hq : bits w 1 0 = 2#2 := bits_of_masked h 1 0 rfl
  rw [encode, ← h3, ← hq]
  obtain ⟨v, rfl⟩ := exists_signExtend_of_canonical hc
  simp (disch := decide) only [word16, rvcRd, rvcLdspImm, bits, extractLsb, extractLsb'_signExtend,
    BitVec.extractLsb'_setWidth_of_le, extractLsb'_append_eq_of_add_le, extractLsb'_append_eq_of_le,
    extractLsb'_of_start_eq_zero, extractLsb'_append_extractLsb'_eq_extractLsb']

theorem encode_cSwsp_of_masked (h : (w &&& 0xe003 == 0xc002) = true) :
    encode (.cSwsp (rvcRs2 w) (rvcSwspImm w)) = w := by
  rw [beq_iff_eq] at h
  have h3 : bits w 15 13 = 6#3 := bits_of_masked h 15 13 rfl
  have hq : bits w 1 0 = 2#2 := bits_of_masked h 1 0 rfl
  rw [encode, ← h3, ← hq]
  obtain ⟨v, rfl⟩ := exists_signExtend_of_canonical hc
  simp (disch := decide) only [word16, rvcRs2, rvcSwspImm, bits, extractLsb, extractLsb'_signExtend,
    BitVec.extractLsb'_setWidth_of_le, extractLsb'_append_eq_of_add_le, extractLsb'_append_eq_of_le,
    extractLsb'_of_start_eq_zero, extractLsb'_append_extractLsb'_eq_extractLsb']

theorem encode_cSdsp_of_masked (h : (w &&& 0xe003 == 0xe002) = true) :
    encode (.cSdsp (rvcRs2 w) (rvcSdspImm w)) = w := by
  rw [beq_iff_eq] at h
  have h3 : bits w 15 13 = 7#3 := bits_of_masked h 15 13 rfl
  have hq : bits w 1 0 = 2#2 := bits_of_masked h 1 0 rfl
  rw [encode, ← h3, ← hq]
  obtain ⟨v, rfl⟩ := exists_signExtend_of_canonical hc
  simp (disch := decide) only [word16, rvcRs2, rvcSdspImm, bits, extractLsb, extractLsb'_signExtend,
    BitVec.extractLsb'_setWidth_of_le, extractLsb'_append_eq_of_add_le, extractLsb'_append_eq_of_le,
    extractLsb'_of_start_eq_zero, extractLsb'_append_extractLsb'_eq_extractLsb']

/-- Row by row, the format of the row. -/
theorem encode_build16 : ∀ r ∈ compressedRows, r.takes w = true → encode (r.build w) = w := by
  simp only [compressedRows, List.forall_mem_cons]
  exact ⟨encode_cAddi4spn_of_masked hc, fun h => (encCLw_of_masked hc h rfl :), fun h => (encCLd_of_masked hc h rfl :),
    fun h => (encCLw_of_masked hc h rfl :), fun h => (encCLd_of_masked hc h rfl :), encCI_rvcImm_of_masked hc,
    encCI_rvcImm_of_masked hc, encode_cAddi16sp_of_masked hc, encCI_rvcImm_of_masked hc, encode_cJ_of_masked hc,
    fun h => (encCB_of_masked hc h rfl :), fun h => (encCB_of_masked hc h rfl :), encCI_of_masked hc,
    encode_cLwsp_of_masked hc, encode_cLdsp_of_masked hc, encode_cSwsp_of_masked hc, encode_cSdsp_of_masked hc,
    List.forall_mem_nil _⟩

end

/-! ## The round trip -/

/-- What a row that wins builds from a canonical word is well-formed, and its word is that word. -/
theorem wf_and_encode_of_wins {r : Row} {w : Word} (h : r.wins w) (hc : canonical w (insnLength w) = w) :
    (r.build w).wf = true ∧ encode (r.build w) = w := by
  have ⟨hr, ht, _⟩ := h
  obtain h32 | h16 := List.mem_append.mp hr
  · rw [insnLength_of_takes32 h32 ht] at hc
    exact ⟨wf_build32 hc r h32, encode_build32 hc r h32 ht⟩
  · rw [insnLength_of_takes16 h16 ht] at hc
    exact ⟨wf_build16 r h16 h.rvcRd_ne_two, encode_build16 hc r h16 ht⟩

theorem rv64Only_build (w : Word) : ∀ r ∈ opcodeTable, rv64Only (r.build w) = r.only64 := by
  simp only [opcodeTable, integerRows, memoryCsrRows, signRows, compressedRows, List.cons_append, List.nil_append,
    List.forall_mem_cons, List.not_mem_nil, false_implies, implies_true, and_true]
  and_intros <;> rfl

end Sys2Proof
end

section
/-! SUPPORT for the statements of 30_encoding.md: fields as numbers, the length and the canonical form bit by bit, and
an immediate as the sum of its shifted fields (30_encoding.md R101 to R134). -/

namespace Sys2Proof

open Machine (xField xsField)

/-! ## Fields as numbers -/

theorem toNat_bits (w : Word) (hi lo : Nat) : (bits w hi lo).toNat = w.toNat / 2 ^ lo % 2 ^ (hi - lo + 1) := by
  rw [bits, BitVec.extractLsb_toNat, Nat.shiftRight_eq_div_pow]

/-- A compact register specifier is 8 more than its three bits. -/
theorem toNat_compact (v : BitVec 3) : (1#2 ++ v).toNat = 8 + v.toNat := by
  revert v
  decide

theorem bits_low_eq_iff {w : Word} {hi : Nat} {c : BitVec (hi - 0 + 1)} :
    bits w hi 0 = c ↔ w.toNat % 2 ^ (hi + 1) = c.toNat := by
  rw [← BitVec.toNat_inj, toNat_bits, Nat.pow_zero, Nat.div_one]
  rfl

/-! ## Canonical form -/

/-- Bit by bit, with the sign bit at `8L - 1` (30_encoding.md R101). -/
theorem getLsbD_canonical (raw : Word) {len k : Nat} (hlen : 0 < len) (hk : k < 64) :
    (canonical raw len).getLsbD k = raw.getLsbD (if k < 8 * len then k else 8 * len - 1) := by
  have hsign : 8 * len - 1 < 8 * len := by omega
  simp only [canonical, BitVec.getLsbD_signExtend, BitVec.msb_eq_getLsbD_last, BitVec.getLsbD_setWidth, hk, hsign]
  split <;> simp_all

/-! ## Sums of shifted fields (00_scope.md R22) -/

theorem xField_eq_setWidth (w : Word) (lo len : Nat) :
    xField w lo len = (w.extractLsb' lo len).setWidth 64 := by
  apply BitVec.eq_of_getLsbD_eq
  intro k hk
  simp only [xField, BitVec.getLsbD_and, BitVec.getLsbD_ushiftRight, BitVec.getLsbD_ofNat, BitVec.getLsbD_setWidth,
    BitVec.getLsbD_extractLsb', Nat.testBit_two_pow_sub_one, hk, decide_true, Bool.true_and, Bool.and_comm]

theorem xsField_eq_signExtend (w : Word) {lo len : Nat} (hlen : 0 < len) (h : lo + len ≤ 64) :
    xsField w lo len = (w.extractLsb' lo len).signExtend 64 := by
  apply BitVec.eq_of_getLsbD_eq
  intro k hk
  simp only [xsField, BitVec.getLsbD_sshiftRight, BitVec.getLsbD_shiftLeft, BitVec.getLsbD_signExtend,
    BitVec.getLsbD_extractLsb', BitVec.msb_eq_getLsbD_last]
  by_cases hk' : k < len
  · simp [hk, hk', show 64 - len + k < 64 by omega, show ¬ 64 - len + k < 64 - lo - len by omega,
      show 64 - len + k - (64 - lo - len) = lo + k by omega]
  · simp [hk, hk', hlen, show ¬ 64 - len + k < 64 by omega, show ¬ 63 < 64 - lo - len by omega,
      show 63 - (64 - lo - len) = lo + (len - 1) by omega]

/-- The parts of a value in place do not overlap, so they add up. -/
theorem add_shiftLeft_eq_of_bits {n : Nat} {a b v : Word} (hb : ∀ k, n ≤ k → b.getLsbD k = false)
    (hv : ∀ k, k < 64 → v.getLsbD k = if k < n then b.getLsbD k else a.getLsbD (k - n)) : v = b + a <<< n := by
  rw [BitVec.add_eq_or_of_and_eq_zero]
  · apply BitVec.eq_of_getLsbD_eq
    intro k hk
    rw [hv k hk]
    by_cases hn : k < n
    · simp [hn]
    · simp only [BitVec.getLsbD_or, BitVec.getLsbD_shiftLeft, hb k (by omega), hk, hn, if_false, decide_true,
        decide_false, Bool.not_false, Bool.true_and, Bool.false_or]
  · apply BitVec.eq_of_getLsbD_eq
    intro k hk
    by_cases hn : k < n
    · simp [hn]
    · simp [hb k (by omega)]

/-- The parts of a zero-extended immediate add up. -/
theorem setWidth_append_eq_add {m n : Nat} (a : BitVec m) (b : BitVec n) :
    (a ++ b).setWidth 64 = b.setWidth 64 + a.setWidth 64 <<< n := by
  apply add_shiftLeft_eq_of_bits
  · intro k hk
    simp [BitVec.getLsbD_of_ge b k hk]
  · intro k hk
    by_cases hn : k < n <;> simp [hk, hn, BitVec.getLsbD_append, show k - n < 64 by omega]

/-- The parts of a sign-extended immediate add up, the topmost one signed. -/
theorem signExtend_append_eq_add {m n : Nat} (hm : 0 < m) (a : BitVec m) (b : BitVec n) :
    (a ++ b).signExtend 64 = b.setWidth 64 + a.signExtend 64 <<< n := by
  apply add_shiftLeft_eq_of_bits
  · intro k hk
    simp [BitVec.getLsbD_of_ge b k hk]
  · intro k hk
    have hlast : m + n - 1 - n = m - 1 := by omega
    have hlow : ¬ m + n - 1 < n := by omega
    simp only [BitVec.getLsbD_signExtend, BitVec.getLsbD_append, BitVec.getLsbD_setWidth, BitVec.msb_eq_getLsbD_last,
      hk, hlast, hlow]
    by_cases hn : k < n
    · simp [hn, show k < m + n by omega]
    · simp [hn, show k - n < 64 by omega, show k - n < m ↔ k < m + n by omega]

end Sys2Proof
end

section
/-! SUPPORT for the statements of 30_encoding.md: the word a fetch delivers (30_encoding.md R101, R102), and the stops
of the preconditions of R139. -/

namespace Sys2Proof

theorem insnLength_even (w : Word) : 2 * (insnLength w / 2) = insnLength w := by
  unfold insnLength
  split_ifs <;> rfl

/-- Bytes that are one instruction long decode as the canonical word they assemble to. -/
theorem decodeBytes_of_length {bytes : List Byte} (h : bytes.length = insnLength (leWord bytes)) (x : XLen) :
    decodeBytes x bytes =
      (decodeWord x (canonical (leWord bytes) (insnLength (leWord bytes)))).map fun i => (i, []) := by
  have h2 : 2 ≤ bytes.length := h ▸ two_le_insnLength _
  have hlen : insnLength (leWord (bytes.take 2)) = bytes.length := by
    rw [insnLength_leWord_take bytes (by omega) (by omega : 1 ≤ bytes.length), List.take_length, h]
  have hlong : ¬ (bytes.length < 2 ∨ bytes.length < bytes.length) := by omega
  simp only [decodeBytes, hlen, if_neg hlong, List.take_length, List.drop_length, ← h]
  cases decodeWord x (canonical (leWord bytes) bytes.length) <;> rfl

theorem decodeWord_rv64Only_x32 {i : Instr} (h : rv64Only i = true) (hwf : i.wf = true) :
    decodeWord .x32 (encode i) = .error .rv64OnlyRow := by
  obtain ⟨r, hr, hb, -⟩ := wins_of_decodeWord_eq_ok (decodeWord_encode hwf fun _ => rfl : decodeWord .x64 _ = _)
  have h64 : r.only64 = true := by rw [← rv64Only_build (encode i) r hr.1, hb, h]
  rw [decodeWord_of_wins hr, Row.answer, h64]
  rfl

end Sys2Proof

namespace Sys2Proof.Machine

/-! ## What a fetch delivers -/

theorem readBytes_of_fetchParcels {s : State} {a : Word} {n : Nat} {bytes : List Byte}
    (h : fetchParcels s a n = .ok bytes) : bytes = readBytes (fetchMemory s) a (2 * n) := by
  induction n generalizing a bytes with
  | zero =>
    cases h
    rfl
  | succ n ih =>
    rw [fetchParcels] at h
    split at h
    · cases h
    · split at h
      · cases h
      · next rest hrest =>
        cases h
        rw [ih hrest, Nat.mul_succ, Nat.add_comm, readBytes_add]
        rfl

/-- A fetch delivers one instruction: as many bytes as the first of them say. -/
theorem length_of_fetchBytes {s : State} {bytes : List Byte} (h : fetchBytes s = .ok bytes) :
    bytes.length = insnLength (leWord bytes) := by
  unfold fetchBytes at h
  split at h
  · cases h
  · next first hfirst =>
    have hbytes := readBytes_of_fetchParcels h
    rw [insnLength_even] at hbytes
    have h2 := two_le_insnLength (leWord first)
    have htake : bytes.take 2 = first := by
      rw [hbytes, take_readBytes _ _ h2, readBytes_of_fetchParcels hfirst]
    calc bytes.length
        = insnLength (leWord first) := by rw [hbytes, readBytes_length]
      _ = insnLength (leWord (bytes.take bytes.length)) := by
        rw [← htake]
        exact insnLength_leWord_take bytes (by omega) (by rw [hbytes, readBytes_length]; omega)
      _ = insnLength (leWord bytes) := by rw [List.take_length]

/-- A step over a word that the decoder refuses is refused by that name. -/
theorem step_of_decodeWord_error {s : State} {npc : Word} {act : NextAction} {bytes : List Byte} {r : Reject}
    (ho : s.outcome = .next npc act) (hf : fetchBytes s = .ok bytes)
    (h : decodeWord s.inputs.xlen (canonical (leWord bytes) (insnLength (leWord bytes))) = .error r) :
    step s = .refused (refusalOf r) := by
  simp only [step, ho, hf, decodeBytes_of_length (length_of_fetchBytes hf), h, Except.map]

/-! ## Stops of a body before it changes anything -/

/-- What a body of the instruction starts from: the outcome is the default next PC. -/
def State.started (s : State) (i : Instr) : State := s.withOutcome (.next (npcDefault s (instrLength i)) .normal)

theorem runBody_illegal {i : Instr} {b : Body Unit} {s : State}
    (h : b (s.started i) = .error .illegal (s.started i)) : runBody i b s = .next (s.illegalAt i) :=
  runBody_of_error h

theorem runBody_faults {i : Instr} {b : Body Unit} {s : State} {r : Report}
    (h : b (s.started i) = .error (.collaborator r) (s.started i)) : runBody i b s = .next (s.faultsAt r) :=
  runBody_of_error h

theorem bind_of_error {α β : Type} {b : Body α} {f : α → Body β} {e : Stop} {s t : State} (h : b s = .error e t) :
    (b >>= f) s = .error e t := by
  rw [bind_run, h]

/-- The extension is there, and the check after the query fails. -/
theorem runBody_illegal_of_supports {i : Instr} {e : Ext} {b : Body Unit} {f : Unit → Body Unit} {s : State}
    (hs : supports s e = .yes) (h : b (s.started i) = .error .illegal (s.started i)) :
    runBody i (requireExt e >>= fun _ => b >>= f) s = .next (s.illegalAt i) := by
  apply runBody_illegal
  rw [bind_run, requireExt_run, State.started, State.withOutcome_supports, hs]
  exact bind_of_error h

/-- An instruction that depends on an extension asks for it before anything else; a sign injection does so as the first
part of `require_fp`. -/
theorem exec_of_gateExt {i : Instr} {e : Ext} {s : State} (hg : gateExt i = some e)
    (hx : rv64Only i = true → s.inputs.xlen = .x64) :
    ∃ f : Unit → Body Unit, exec i s = runBody i (requireExt e >>= f) s := by
  cases i
  case fsgnjS | fsgnjnS | fsgnjxS | fsgnjD | fsgnjnD | fsgnjxD | fsgnjQ | fsgnjnQ | fsgnjxQ =>
    cases hg
    exact ⟨_, congrArg (runBody _ · s) (bind_assoc _ _ _)⟩
  case cLd | cSd | cLdsp | cSdsp =>
    cases hg
    exact ⟨_, runBody64_of_x64 (hx rfl)⟩
  case cAddi4spn | cLw | cSw | cAddi | cLi | cAddi16sp | cLui | cJ | cBeqz | cBnez | cSlli | cLwsp | cSwsp =>
    cases hg
    exact ⟨_, rfl⟩
  all_goals cases hg

/-- The capability query of an instruction faults exactly if it depends on an extension whose query does. -/
theorem capFault_eq_some_iff {i : Instr} {s : State} {r : Report} :
    capFault s i = some r ↔ ∃ e, gateExt i = some e ∧ supports s e = .faults r := by
  cases hg : gateExt i with
  | none => simp [capFault, hg]
  | some e => cases hs : supports s e <;> simp [capFault, hg, hs]

/-- The extension an instruction depends on is absent. -/
theorem exec_of_supports_no {i : Instr} {e : Ext} {s : State} (hg : gateExt i = some e)
    (hx : rv64Only i = true → s.inputs.xlen = .x64) (hs : supports s e = .no) : exec i s = .next (s.illegalAt i) := by
  obtain ⟨f, hf⟩ := exec_of_gateExt hg hx
  rw [hf]
  exact runBody_illegal (by simp [State.started, hs])

/-- The query for the extension an instruction depends on faults. -/
theorem exec_of_supports_faults {i : Instr} {e : Ext} {s : State} {r : Report} (hg : gateExt i = some e)
    (hx : rv64Only i = true → s.inputs.xlen = .x64) (hs : supports s e = .faults r) :
    exec i s = .next (s.faultsAt r) := by
  obtain ⟨f, hf⟩ := exec_of_gateExt hg hx
  rw [hf]
  exact runBody_faults (by simp [State.started, hs])

/-- Of the instructions that depend on no extension, `slli`, `ld` and `sd` have a precondition. -/
theorem exec_illegal_of_ungated {i : Instr} {s : State} (hg : gateExt i = none) (hl : legalIn s i = false) :
    exec i s = .next (s.illegalAt i) := by
  cases i
  case slli =>
    have hshamt := Nat.le_of_not_lt (of_decide_eq_false hl)
    exact runBody_illegal (bind_of_error (if_pos (decide_eq_true hshamt)))
  case ld | sd => exact runBody_illegal (bind_of_error (by simpa [State.started, legalIn, requireXlen64] using hl))
  case add | addi | lui | auipc | jal | jalr | beq | bne | blt | bge | bltu | bgeu | lw | sw | csrrw | csrrs | csrrc |
      csrrwi | csrrsi | csrrci => cases hl
  all_goals cases hg

/-- Of the instructions whose extension is there, the sign injections need the unit on, and some compressed ones have a
precondition on an operand. -/
theorem exec_illegal_of_supports_yes {i : Instr} {e : Ext} {s : State} (hg : gateExt i = some e)
    (hx : rv64Only i = true → s.inputs.xlen = .x64) (hs : supports s e = .yes) (hl : legalIn s i = false) :
    exec i s = .next (s.illegalAt i) := by
  cases i
  case fsgnjS | fsgnjnS | fsgnjxS | fsgnjD | fsgnjnD | fsgnjxD | fsgnjQ | fsgnjnQ | fsgnjxQ =>
    cases hg
    have hoff : s.inputs.fpEnabled = false := Bool.and_eq_false_imp.mp hl (beq_iff_eq.mpr hs)
    exact runBody_illegal (by simp [State.started, hs, hoff])
  case cAddi4spn | cAddi16sp | cLui | cLwsp =>
    cases hg
    have hzero := Bool.and_eq_false_imp.mp hl (beq_iff_eq.mpr hs)
    exact runBody_illegal_of_supports hs (if_pos (by simpa using hzero))
  case cSlli =>
    cases hg
    have hshamt := Nat.le_of_not_lt (of_decide_eq_false (Bool.and_eq_false_imp.mp hl (beq_iff_eq.mpr hs)))
    exact runBody_illegal_of_supports hs (if_pos (decide_eq_true hshamt))
  case cLdsp =>
    cases hg
    have hrow := Bool.and_eq_true_iff.mpr ⟨beq_iff_eq.mpr hs, beq_iff_eq.mpr (hx rfl)⟩
    have hzero := Bool.and_eq_false_imp.mp hl hrow
    exact (runBody64_of_x64 (hx rfl)).trans (runBody_illegal_of_supports hs (if_pos (by simpa using hzero)))
  case cLd | cSd | cSdsp =>
    cases hg
    have hlegal := Bool.and_eq_false_imp.mp hl (beq_iff_eq.mpr hs)
    simp [hx rfl] at hlegal
  case cLw | cSw | cAddi | cLi | cJ | cBeqz | cBnez | cSwsp =>
    cases hg
    exact absurd hs (beq_eq_false_iff_ne.mp hl)
  all_goals cases hg

end Sys2Proof.Machine
end

section
/-! PROOFS of the statements of 30_encoding.md. -/

namespace Sys2Proof.Machine

open BitVec (extractLsb)

/-- Settles O1: each field of the word is the operand the encoder put there. -/
theorem decodeOfEncode : Obligations.DecodeOfEncode := by
  unfold Obligations.DecodeOfEncode
  exact fun x i hwf hx => decodeWord_encode hwf hx

/-- Settles O2: the row that wins builds the instruction from the word's own fields, and each format puts them together
again. -/
theorem encodeOfDecode : Obligations.EncodeOfDecode := by
  unfold Obligations.EncodeOfDecode
  intro x w i hc hdec
  obtain ⟨r, hr, rfl, hx⟩ := wins_of_decodeWord_eq_ok hdec
  obtain ⟨hwf, he⟩ := wf_and_encode_of_wins hr hc
  refine ⟨hwf, he, ?_, fun h64 => hx ?_⟩
  · rw [← insnLength_encode, he]
  · rw [← rv64Only_build w r hr.1, h64]

/-- Settles O3: both answer for the row with the most 1 bits in its mask among those that take the word, and refuse a
word that no row takes. -/
theorem decoderFollowsOpcodeTable : Obligations.DecoderFollowsOpcodeTable := by
  unfold Obligations.DecoderFollowsOpcodeTable
  exact decodeWord_eq_tableDecode

/-- Settles O4: two rows take a common word exactly if their patterns agree where both masks look, which a look at all
pairs of rows decides. -/
theorem onlyOverlapIsAddi16sp : Obligations.OnlyOverlapIsAddi16sp := by
  unfold Obligations.OnlyOverlapIsAddi16sp
  refine ⟨fun j k r q hjk hr hq => ?_, fun w h => ?_⟩
  · obtain ⟨hj, rfl⟩ := List.getElem?_eq_some_iff.mp hr
    obtain ⟨hk, rfl⟩ := List.getElem?_eq_some_iff.mp hq
    rw [exists_common_word_iff (pattern_and_mask _ (List.getElem_mem hj)) (pattern_and_mask _ (List.getElem_mem hk))]
    exact compatible_rows_iff ⟨j, hj⟩ ⟨k, hk⟩ hjk
  · rw [← decodeWord_eq_tableDecode]
    exact decodeWord_addi16sp (masked_of_two_takers h) .x64

/-- Settles O5: the low fields as remainders, and the sign extension bit by bit. -/
theorem lengthAndCanonicalForm : Obligations.LengthAndCanonicalForm := by
  unfold Obligations.LengthAndCanonicalForm
  refine ⟨fun w => ?_, fun raw len k hlen hk => getLsbD_canonical raw (by omega) hk, fun raw => ?_⟩
  · have h4 : bits w 1 0 = 3#2 ↔ w.toNat % 4 = 3 := bits_low_eq_iff
    have h32 : bits w 4 0 = 31#5 ↔ w.toNat % 32 = 31 := bits_low_eq_iff
    have h64 : bits w 5 0 = 63#6 ↔ w.toNat % 64 = 63 := bits_low_eq_iff
    simp only [insnLength, ne_eq, h4, h32, h64]
    split_ifs <;> omega
  · rw [canonical, BitVec.setWidth_eq, BitVec.signExtend_eq]

/-- Settles O6: the parts of each immediate add up; on the canonical word of a 4-byte instruction bit 63 is bit 31. -/
theorem immediatesOf32BitForms : Obligations.ImmediatesOf32BitForms := by
  unfold Obligations.ImmediatesOf32BitForms
  refine fun w => ⟨rfl, ?sImm, ?sbImm, rfl, ?ujImm, fun hc => ?canonical⟩
  case sImm =>
    simp (disch := decide) only [sImm, bits, extractLsb, signExtend_append_eq_add, xField_eq_setWidth,
      xsField_eq_signExtend]
  case sbImm | ujImm =>
    simp (disch := decide) only [sbImm, ujImm, bits, extractLsb, signExtend_append_eq_add, xField_eq_setWidth,
      xsField_eq_signExtend, BitVec.shiftLeft_add_distrib, ← BitVec.shiftLeft_add, BitVec.add_assoc,
      BitVec.setWidth_zero, BitVec.zero_add]
  case canonical =>
    obtain ⟨v, rfl⟩ := exists_signExtend_of_canonical hc
    simp (disch := decide) only [iImm_signExtend, uImm_signExtend, sbImm, ujImm, bits, extractLsb,
      extractLsb'_signExtend, extractLsb'_signExtend_sign, signExtend_append_eq_add, xField_eq_setWidth,
      xsField_eq_signExtend, BitVec.shiftLeft_add_distrib, ← BitVec.shiftLeft_add, BitVec.add_assoc,
      BitVec.setWidth_zero, BitVec.zero_add, and_self]

/-- Settles O7: the parts of each immediate add up. -/
theorem immediatesOfCompressedForms : Obligations.ImmediatesOfCompressedForms := by
  unfold Obligations.ImmediatesOfCompressedForms
  intro w
  simp (disch := decide) only [rvcImm, rvcZimm, rvcAddi4spnImm, rvcAddi16spImm, rvcLwspImm, rvcLdspImm, rvcSwspImm,
    rvcSdspImm, rvcLwImm, rvcLdImm, rvcJImm, rvcBImm, bits, extractLsb, signExtend_append_eq_add,
    setWidth_append_eq_add, xField_eq_setWidth, xsField_eq_signExtend, BitVec.shiftLeft_add_distrib,
    ← BitVec.shiftLeft_add, BitVec.add_assoc, BitVec.setWidth_zero, BitVec.zero_add, and_self]

/-- Settles O8: a field is a remainder of a quotient of the word. -/
theorem fieldsOfWord : Obligations.FieldsOfWord := by
  unfold Obligations.FieldsOfWord
  intro w
  exact ⟨toNat_bits .., toNat_bits .., toNat_bits .., toNat_bits .., toNat_bits .., toNat_bits .., toNat_bits .., rfl,
    toNat_bits .., toNat_bits .., (toNat_compact _).trans (congrArg (8 + ·) (toNat_bits ..)),
    (toNat_compact _).trans (congrArg (8 + ·) (toNat_bits ..))⟩

/-- Settles O10: the fetch delivers the bytes of one word, and the decoder refuses it. -/
theorem unmatchedWordIsRefused : Obligations.UnmatchedWordIsRefused := by
  unfold Obligations.UnmatchedWordIsRefused
  intro s npc act bytes ho hf hno
  have hstep := step_of_decodeWord_error ho hf (decodeWord_of_untaken hno s.inputs.xlen)
  rw [insnLength_canonical _ (Nat.le_of_succ_le (two_le_insnLength _))] at hstep
  constructor
  · intro h
    rw [hstep, if_neg (Nat.not_lt.mpr h)]
    rfl
  · intro h
    rw [hstep, if_pos h]
    rfl

/-- Settles O50: an instruction that depends on an extension asks for it first, and what else it needs it checks before
it changes anything. -/
theorem failedPreconditionTraps : Obligations.FailedPreconditionTraps := by
  unfold Obligations.FailedPreconditionTraps
  intro s i hx
  refine ⟨fun hc hl => ?_, fun r hr => ?_⟩
  · cases hg : gateExt i with
    | none => exact exec_illegal_of_ungated hg hl
    | some e =>
      cases hs : supports s e with
      | yes => exact exec_illegal_of_supports_yes hg hx hs hl
      | no => exact exec_of_supports_no hg hx hs
      | faults r => exact absurd (capFault_eq_some_iff.mpr ⟨e, hg, hs⟩) (by simp [hc])
  · obtain ⟨e, hg, hs⟩ := capFault_eq_some_iff.mp hr
    exact exec_of_supports_faults hg hx hs

/-- Settles O51: at XLEN 64 a row that is a row there alone wins the word, and the four bodies run at XLEN 64 alone. -/
theorem rv64RowsRefusedAtXlen32 : Obligations.Rv64RowsRefusedAtXlen32 := by
  unfold Obligations.Rv64RowsRefusedAtXlen32
  intro s i h hwf
  refine ⟨decodeWord_rv64Only_x32 h hwf, fun hx => ?_⟩
  cases i
  case cLd | cSd | cLdsp | cSdsp => exact runBody64_of_x32 hx
  all_goals cases h

end Sys2Proof.Machine
end

section
/-! SUPPORT for the statements of 40_register_access.md: both register files after one write, what the index check
admits, boxed and sign-injected values bit by bit, and what a rounding-mode field resolves to. -/

namespace Sys2Proof.Machine

/-! ## Register files -/

theorem x_zero (s : State) : s.x 0 = 0 := rfl

theorem x_putX (s : State) (i j : Reg) (v : Word) :
    (s.putX i v).x j = if j = i ∧ i ≠ 0 then v else s.x j := by
  by_cases hji : j = i
  · subst hji
    by_cases hj : j = 0
    · rw [hj, x_zero, x_zero, if_neg fun h => h.2 rfl]
    · rw [x_putX_self s v hj, if_pos ⟨rfl, hj⟩]
  · rw [x_putX_ne s v hji, if_neg fun h => hji h.1]

theorem f_putF (s : State) (i j : Reg) (c : Wide) : (s.putF i c).f j = if j = i then c else s.f j := by
  split
  · next hji => rw [hji, f_putF_self]
  · next hji => exact f_putF_ne s c hji

/-! ## The index check -/

theorem hasX_eq_true_iff {s : State} {i : Reg} : s.hasX i = true ↔ i.toNat < s.params.nxpr.count := decide_eq_true_iff

theorem hasX_eq_false_iff {s : State} {i : Reg} : s.hasX i = false ↔ s.params.nxpr.count ≤ i.toNat := by
  rw [← Bool.not_eq_true, hasX_eq_true_iff, Nat.not_lt]

/-- The smaller of the two files has 16 registers. -/
theorem sixteen_le_count (n : RegFile) : 16 ≤ n.count := by
  cases n <;> decide

theorem compactReg_lt_sixteen : ∀ i : Reg, compactReg i = true → i.toNat < 16 := by
  decide

/-! ## Boxed cells bit by bit -/

theorem FWidth.bits_pos (w : FWidth) : 0 < w.bits := by
  cases w <;> decide

theorem FWidth.bits_le (w : FWidth) : w.bits ≤ 128 := by
  cases w <;> decide

/-- A value that fits in `n` bits is its low `n` bits. -/
theorem lowWide_of_lt {n : Nat} {v : Wide} (h : v.toNat < 2 ^ n) : lowWide n v = v := by
  apply BitVec.eq_of_toNat_eq
  rw [lowWide, BitVec.toNat_setWidth, BitVec.toNat_setWidth, Nat.mod_eq_of_lt h, Nat.mod_eq_of_lt v.isLt]

theorem getLsbD_box (w : FWidth) (v : Wide) {k : Nat} (hk : k < 128) :
    (box w v).getLsbD k = if k < w.bits then v.getLsbD k else true := by
  rw [box, BitVec.getLsbD_or, onesAbove_getLsbD _ _ hk, lowWide_getLsbD _ _ _ hk]
  split
  · next h => simp [h]
  · next h => simp [Nat.not_lt.mp h]

/-- Boxing keeps the bits below the width. -/
theorem lowWide_box (w : FWidth) (v : Wide) : lowWide w.bits (box w v) = lowWide w.bits v := by
  apply BitVec.eq_of_getLsbD_eq
  intro k hk
  rw [lowWide_getLsbD _ _ _ hk, lowWide_getLsbD _ _ _ hk, getLsbD_box w v hk]
  by_cases h : k < w.bits <;> simp [h]

theorem unbox_of_isBoxed {w : FWidth} {c : Wide} (h : isBoxed w c = true) : unbox w c = lowWide w.bits c := if_pos h

theorem unbox_of_not_isBoxed {w : FWidth} {c : Wide} (h : ¬isBoxed w c = true) : unbox w c = canonicalNaN w := if_neg h

/-- The round trip of 40_register_access.md R174. -/
theorem unbox_box {w : FWidth} {v : Wide} (h : v.toNat < 2 ^ w.bits) : unbox w (box w v) = v := by
  rw [unbox_of_isBoxed (isBoxed_box w v), lowWide_box, lowWide_of_lt h]

/-! ## Sign injection bit by bit -/

/-- Bit `n` is the sign, and every other bit 0. -/
theorem getLsbD_signMask (s : Bool) (n : Nat) {k : Nat} (hk : k < 128) :
    ((if s then 1 <<< n else 0 : Nat) : Wide).getLsbD k = (s && decide (n = k)) := by
  rw [BitVec.natCast_eq_ofNat, BitVec.getLsbD_ofNat]
  cases s with
  | false => simp
  | true => simp [hk, Nat.one_shiftLeft, Nat.testBit_two_pow]

/-- The magnitude bits are the value's, the bit above them is the sign. -/
theorem getLsbD_withSign (w : FWidth) (s : Bool) (v : Wide) {k : Nat} (hk : k < w.bits) :
    (withSign w s v).getLsbD k = if k < w.bits - 1 then v.getLsbD k else s := by
  have hk' : k < 128 := hk.trans_le w.bits_le
  rw [withSign, BitVec.getLsbD_or, getLsbD_signMask _ _ hk', lowWide_getLsbD _ _ _ hk']
  split
  · next h => simp [h, h.ne']
  · next h => simp [show w.bits - 1 = k by omega]

theorem getLsbD_fsgnj (w : FWidth) (n xr : Bool) (a b : Wide) {k : Nat} (hk : k < 128) :
    (fsgnj w n xr a b).getLsbD k =
      if k < w.bits then
        if k < w.bits - 1 then (unbox w a).getLsbD k
        else (if xr then signBit w (unbox w a) else n) ^^ signBit w (unbox w b)
      else true := by
  rw [fsgnj, getLsbD_box _ _ hk]
  split
  · next h => rw [getLsbD_withSign _ _ _ h]
  · rfl

/-! ## Rounding modes -/

theorem resolveRm_of_some {field : BitVec 3} {s : State} {m : RMode} (h : selectMode field s.inputs.frm = some m) :
    resolveRm field s = .ok m s := by
  rw [resolveRm, h]

theorem resolveRm_of_none {field : BitVec 3} {s : State} (h : selectMode field s.inputs.frm = none) :
    resolveRm field s = .error .illegal s := by
  rw [resolveRm, h]

/-- No mode has a number above 4. -/
theorem RMode.ofField_eq_none : ∀ r : BitVec 3, 4 < r.toNat → RMode.ofField r = none := by
  decide

end Sys2Proof.Machine
end

section
/-! PROOFS of the statements of 40_register_access.md. -/

namespace Sys2Proof.Machine

/-- Settles O11: a write of x0 changes no cell, and any other write changes the cell it names. -/
theorem registerFileLaws : Obligations.RegisterFileLaws := by
  unfold Obligations.RegisterFileLaws
  exact fun s i j v c => ⟨x_putX s i j v, x_zero s, x_zero _, State.putX_log s i v, State.putF_log s i c,
    f_putF s i j c, State.putF_fsDirty s i c⟩

/-- Settles O12: the check is a comparison with the size of the file, which is at least 16, past any compact index. -/
theorem registerIndexCheck : Obligations.RegisterIndexCheck := by
  unfold Obligations.RegisterIndexCheck
  intro s i v
  refine ⟨fun h => ?_, fun h => ?_, fun h => ?_, fun h => ?_, fun h => ?_⟩
  · simp [hasX_eq_false_iff.mpr h]
  · simp [hasX_eq_true_iff.mpr h]
  · rw [h]
    exact i.isLt
  · rw [h]
    rfl
  · exact (compactReg_lt_sixteen i h).trans_le (sixteen_le_count _)

/-- Settles O13: the boxed test looks at every bit above the width, and boxing sets them all. -/
theorem boxingLaws : Obligations.BoxingLaws := by
  unfold Obligations.BoxingLaws
  refine ⟨fun w v => unbox_box, fun w c => ⟨?_, fun h => unbox_of_isBoxed ((isBoxed_iff w c).mpr h)⟩⟩
  rintro ⟨k, hwk, hk, hbit⟩
  refine unbox_of_not_isBoxed fun hboxed => ?_
  exact absurd ((isBoxed_iff w c).mp hboxed k hwk hk) (by simp [hbit])

/-- Settles O14: below the width the value with its new sign, from the width up the ones of the box. -/
theorem signInjectionBits : Obligations.SignInjectionBits := by
  unfold Obligations.SignInjectionBits
  intro w n xr a b k hk
  have hpos := w.bits_pos
  rw [getLsbD_fsgnj w n xr a b hk]
  rcases Nat.lt_trichotomy k (w.bits - 1) with h | h | h
  · rw [if_pos (by omega), if_pos h, if_pos h]
  · rw [if_pos (by omega), if_neg h.not_lt, if_neg h.not_lt, if_pos h]
    rfl
  · rw [if_neg (by omega), if_neg h.not_gt, if_neg h.ne']

/-- Settles O15: the resolved value is the number of a mode, or of none above 4. -/
theorem roundingModeResolution : Obligations.RoundingModeResolution := by
  unfold Obligations.RoundingModeResolution
  rintro s field r rfl
  exact ⟨fun h => resolveRm_of_some (congrArg RMode.ofField h), fun h => resolveRm_of_some (congrArg RMode.ofField h),
    fun h => resolveRm_of_some (congrArg RMode.ofField h), fun h => resolveRm_of_some (congrArg RMode.ofField h),
    fun h => resolveRm_of_some (congrArg RMode.ofField h), fun h => resolveRm_of_none (RMode.ofField_eq_none _ h)⟩

end Sys2Proof.Machine
end

section
/-! SUPPORT for the statements of 41_vector_engine.md: floating-point formats. A value is a sign and a magnitude number
(the exponent and fraction fields read as one number), and magnitudes rise with their numbers. -/

namespace Sys2Proof.Machine

/-! ## The parameters of a format -/

theorem FWidth.bits_eq (w : FWidth) : w.bits = w.frac + w.exp + 1 := by
  cases w <;> rfl

theorem FWidth.maxExp_add_one (w : FWidth) : w.maxExp + 1 = 2 ^ w.exp := by
  cases w <;> rfl

theorem FWidth.maxExp_eq (w : FWidth) : w.maxExp = 2 * w.bias + 1 := by
  cases w <;> rfl

theorem FWidth.bias_pos (w : FWidth) : 0 < w.bias := by
  cases w <;> decide

theorem FWidth.frac_pos (w : FWidth) : 0 < w.frac := by
  cases w <;> decide

/-! ## Sign and magnitude -/

/-- The bits below the sign as one number: the exponent field above the fraction field. -/
def magnitude (w : FWidth) (v : Wide) : Nat := v.toNat % 2 ^ (w.bits - 1)

theorem two_pow_bits_sub_one (w : FWidth) : 2 ^ (w.bits - 1) = 2 ^ w.frac * 2 ^ w.exp := by
  rw [← pow_add, w.bits_eq, Nat.add_sub_cancel]

theorem two_pow_bits (w : FWidth) : 2 ^ w.bits = 2 * 2 ^ (w.bits - 1) := by
  rw [← pow_succ', Nat.sub_add_cancel w.bits_pos]

theorem magnitude_lt (w : FWidth) (v : Wide) : magnitude w v < 2 ^ (w.bits - 1) := Nat.mod_lt _ (by positivity)

theorem expField_eq (w : FWidth) (v : Wide) : expField w v = magnitude w v / 2 ^ w.frac := by
  rw [expField, magnitude, Nat.shiftRight_eq_div_pow, two_pow_bits_sub_one, Nat.mod_mul_right_div_self]

theorem fracField_eq (w : FWidth) (v : Wide) : fracField w v = magnitude w v % 2 ^ w.frac := by
  rw [fracField, magnitude, two_pow_bits_sub_one, Nat.mod_mul_right_mod]

theorem magnitude_eq (w : FWidth) (v : Wide) : magnitude w v = expField w v * 2 ^ w.frac + fracField w v := by
  rw [expField_eq, fracField_eq, Nat.div_add_mod']

theorem fracField_lt (w : FWidth) (v : Wide) : fracField w v < 2 ^ w.frac := Nat.mod_lt _ (by positivity)

theorem expField_le (w : FWidth) (v : Wide) : expField w v ≤ w.maxExp := by
  have h : expField w v < 2 ^ w.exp := Nat.mod_lt _ (by positivity)
  have := w.maxExp_add_one
  omega

/-- The number of an infinity, past every finite magnitude, leaves room for the fraction of a NaN. -/
theorem maxExp_mul_add (w : FWidth) : w.maxExp * 2 ^ w.frac + 2 ^ w.frac = 2 ^ (w.bits - 1) := by
  rw [two_pow_bits_sub_one, ← w.maxExp_add_one]
  ring

theorem isFinite_iff {w : FWidth} {v : Wide} : isFinite w v = true ↔ magnitude w v < w.maxExp * 2 ^ w.frac := by
  have hle := expField_le w v
  rw [expField_eq] at hle
  rw [isFinite, bne_iff_ne, expField_eq, ← Nat.div_lt_iff_lt_mul (by positivity)]
  omega

theorem isFinite_eq_false_iff {w : FWidth} {v : Wide} :
    isFinite w v = false ↔ w.maxExp * 2 ^ w.frac ≤ magnitude w v := by
  rw [← Bool.not_eq_true, isFinite_iff, Nat.not_lt]

theorem isNaN_eq_false {w : FWidth} {v : Wide} (h : magnitude w v ≤ w.maxExp * 2 ^ w.frac) : isNaN w v = false := by
  by_contra hn
  simp only [isNaN, Bool.not_eq_false, Bool.and_eq_true, beq_iff_eq, bne_iff_ne] at hn
  rw [magnitude_eq, hn.1] at h
  omega

/-! ## Packing -/

theorem toNat_packMagnitude {w : FWidth} {M : Nat} (s : Bool) (h : M < 2 ^ (w.bits - 1)) :
    (packMagnitude w s M).toNat = (if s then 2 ^ (w.bits - 1) else 0) + M := by
  have hle : 2 ^ w.bits ≤ 2 ^ 128 := Nat.pow_le_pow_right (by decide) w.bits_le
  have hb := two_pow_bits w
  rw [packMagnitude, BitVec.toNat_ofNat, Nat.mod_eq_of_lt]
  cases s <;> simp only [Bool.false_eq_true, if_true, if_false] <;> omega

theorem packMagnitude_lt {w : FWidth} {M : Nat} (s : Bool) (h : M < 2 ^ (w.bits - 1)) :
    (packMagnitude w s M).toNat < 2 ^ w.bits := by
  rw [toNat_packMagnitude s h, two_pow_bits]
  cases s <;> simp only [Bool.false_eq_true, if_true, if_false] <;> omega

theorem magnitude_packMagnitude {w : FWidth} {M : Nat} (s : Bool) (h : M < 2 ^ (w.bits - 1)) :
    magnitude w (packMagnitude w s M) = M := by
  rw [magnitude, toNat_packMagnitude s h]
  cases s <;> simp [Nat.mod_eq_of_lt h]

/-- The sign bit of a value that fits is set exactly when the value reaches it. -/
theorem signBit_eq {w : FWidth} {v : Wide} (h : v.toNat < 2 ^ w.bits) :
    signBit w v = decide (2 ^ (w.bits - 1) ≤ v.toNat) := by
  rw [signBit, BitVec.getLsbD, ← Bool.decide_coe (v.toNat.testBit _), decide_eq_decide]
  rw [two_pow_bits] at h
  constructor
  · exact Nat.ge_two_pow_of_testBit
  · intro hle
    rw [Nat.testBit_eq_decide_div_mod_eq, decide_eq_true_iff,
      show v.toNat / 2 ^ (w.bits - 1) = 1 from Nat.div_eq_of_lt_le (by omega) (by omega)]

theorem signBit_packMagnitude {w : FWidth} {M : Nat} (s : Bool) (h : M < 2 ^ (w.bits - 1)) :
    signBit w (packMagnitude w s M) = s := by
  rw [signBit_eq (packMagnitude_lt s h), toNat_packMagnitude s h]
  cases s <;> simp [h]

/-- A value that fits is its sign and its magnitude. -/
theorem packMagnitude_signBit_magnitude {w : FWidth} {v : Wide} (h : v.toNat < 2 ^ w.bits) :
    packMagnitude w (signBit w v) (magnitude w v) = v := by
  apply BitVec.eq_of_toNat_eq
  rw [toNat_packMagnitude _ (magnitude_lt w v), signBit_eq h, magnitude]
  rw [two_pow_bits] at h
  by_cases hle : 2 ^ (w.bits - 1) ≤ v.toNat
  · rw [if_pos (decide_eq_true hle), Nat.mod_eq_sub_mod hle, Nat.mod_eq_of_lt (by omega), Nat.add_sub_cancel' hle]
  · rw [if_neg (by simpa using hle), Nat.mod_eq_of_lt (by omega), Nat.zero_add]

/-! ## Values of magnitudes -/

/-- The exponent of the unit in which the fraction is counted when the exponent field is `E + 1`. -/
def unitExp (w : FWidth) (E : Nat) : ℤ := E + 1 - w.bias - w.frac

/-- The rational a finite magnitude number stands for. -/
def magValue (w : FWidth) (M : Nat) : ℚ :=
  ((if M / 2 ^ w.frac = 0 then 0 else 2 ^ w.frac) + M % 2 ^ w.frac : ℕ) *
    (2 : ℚ) ^ ((max (M / 2 ^ w.frac : ℕ) 1 : ℤ) - w.bias - w.frac)

theorem floatValue_eq (w : FWidth) (v : Wide) :
    floatValue w v = (if signBit w v then -1 else 1) * magValue w (magnitude w v) := by
  rw [floatValue, magValue, expField_eq, fracField_eq, mul_assoc]

theorem magValue_nonneg (w : FWidth) (M : Nat) : 0 ≤ magValue w M := by
  unfold magValue
  positivity

theorem abs_floatValue (w : FWidth) (v : Wide) : |floatValue w v| = magValue w (magnitude w v) := by
  rw [floatValue_eq]
  cases signBit w v <;> simp [abs_of_nonneg (magValue_nonneg w _)]

/-- A number in its exponent part `E` and its significand `n`; the significand may be the first one of the next
exponent, and only at the bottom may it lack its top bit. -/
theorem magValue_parts (w : FWidth) {E n : Nat} (hn : n ≤ 2 ^ (w.frac + 1)) (hE : E = 0 ∨ 2 ^ w.frac ≤ n) :
    magValue w (E * 2 ^ w.frac + n) = n * (2 : ℚ) ^ unitExp w E := by
  have hp : 0 < 2 ^ w.frac := by positivity
  rw [pow_succ] at hn
  unfold magValue unitExp
  rcases Nat.lt_or_ge n (2 ^ w.frac) with hlt | hge
  · obtain rfl : E = 0 := hE.resolve_right hlt.not_ge
    simp [Nat.div_eq_of_lt hlt, Nat.mod_eq_of_lt hlt]
  rcases Nat.lt_or_ge n (2 * 2 ^ w.frac) with hlt | hge
  · obtain ⟨f, rfl⟩ := Nat.exists_eq_add_of_le hge
    have hf : f < 2 ^ w.frac := by omega
    rw [show E * 2 ^ w.frac + (2 ^ w.frac + f) = f + (E + 1) * 2 ^ w.frac by ring, Nat.add_mul_div_right _ _ hp,
      Nat.add_mul_mod_self_right, Nat.div_eq_of_lt hf, Nat.mod_eq_of_lt hf, Nat.zero_add, if_neg E.succ_ne_zero,
      max_eq_left (by push_cast; omega)]
    push_cast
    rfl
  · obtain rfl : n = 2 * 2 ^ w.frac := by omega
    rw [show E * 2 ^ w.frac + 2 * 2 ^ w.frac = (E + 2) * 2 ^ w.frac by ring, Nat.mul_div_cancel _ hp,
      Nat.mul_mod_left, if_neg (by omega), max_eq_left (by push_cast; omega),
      show ((E + 2 : ℕ) : ℤ) - w.bias - w.frac = (E + 1 - w.bias - w.frac) + 1 by push_cast; ring,
      zpow_add_one₀ two_ne_zero]
    push_cast
    ring

/-- Every number has parts, with the significand below the first one of the next exponent. -/
theorem exists_parts (w : FWidth) (M : Nat) :
    ∃ E n, M = E * 2 ^ w.frac + n ∧ n < 2 ^ (w.frac + 1) ∧ (E = 0 ∨ 2 ^ w.frac ≤ n) := by
  have hp : 0 < 2 ^ w.frac := by positivity
  have hr : M % 2 ^ w.frac < 2 ^ w.frac := Nat.mod_lt _ hp
  have hM := Nat.div_add_mod' M (2 ^ w.frac)
  rw [pow_succ]
  cases he : M / 2 ^ w.frac with
  | zero =>
    rw [he] at hM
    exact ⟨0, M, by omega, by omega, .inl rfl⟩
  | succ E =>
    refine ⟨E, 2 ^ w.frac + M % 2 ^ w.frac, ?_, by omega, .inr (by omega)⟩
    rw [he, add_mul] at hM
    omega

theorem magValue_strictMono (w : FWidth) : StrictMono (magValue w) := by
  refine strictMono_nat_of_lt_succ fun M => ?_
  obtain ⟨E, n, rfl, hn, hE⟩ := exists_parts w M
  have hE' : E = 0 ∨ 2 ^ w.frac ≤ n + 1 := hE.imp_right (by omega)
  rw [Nat.add_assoc, magValue_parts w hn.le hE, magValue_parts w (Nat.succ_le_of_lt hn) hE']
  gcongr
  exact Nat.lt_succ_self n

theorem magValue_zero (w : FWidth) : magValue w 0 = 0 := by simp [magValue]

/-- The number of an infinity, read as a finite one, is the power of two past every finite magnitude. -/
theorem magValue_infinity (w : FWidth) : magValue w (w.maxExp * 2 ^ w.frac) = w.overflowBound := by
  have hb := w.bias_pos
  have hm := w.maxExp_eq
  rw [show w.maxExp * 2 ^ w.frac = (w.maxExp - 2) * 2 ^ w.frac + 2 ^ (w.frac + 1) by
      rw [pow_succ, mul_comm (2 ^ w.frac) 2, ← add_mul]; congr 1; omega,
    magValue_parts w le_rfl (.inr (Nat.pow_le_pow_right (by decide) (by omega))), FWidth.overflowBound, unitExp]
  push_cast
  rw [← zpow_natCast, ← zpow_add₀ two_ne_zero]
  congr 1
  push_cast [show 2 ≤ w.maxExp by omega]
  ring

theorem magValue_largestFinite (w : FWidth) :
    magValue w (w.maxExp * 2 ^ w.frac - 1) = w.overflowBound - w.topSpacing := by
  have hb := w.bias_pos
  have hm := w.maxExp_eq
  have hp : 0 < 2 ^ w.frac := by positivity
  have hpow : 2 ^ (w.frac + 1) = 2 * 2 ^ w.frac := pow_succ' 2 w.frac
  rw [show w.maxExp * 2 ^ w.frac - 1 = (w.maxExp - 2) * 2 ^ w.frac + (2 ^ (w.frac + 1) - 1) by
      obtain ⟨c, hc⟩ := Nat.exists_eq_add_of_le' (show 2 ≤ w.maxExp by omega)
      rw [hc, Nat.add_sub_cancel, add_mul]
      omega,
    magValue_parts w (by omega) (.inr (by omega)), FWidth.overflowBound, FWidth.topSpacing, unitExp]
  push_cast [Nat.one_le_two_pow, show 2 ≤ w.maxExp by omega]
  rw [sub_mul, one_mul, ← zpow_natCast, ← zpow_add₀ two_ne_zero]
  congr 2 <;> push_cast <;> ring

/-- Counted in the units of exponent part `E`, a magnitude is whole or below every significand with its top bit. -/
theorem exists_magValue_eq_mul (w : FWidth) (E M : Nat) :
    ∃ W : ℚ, magValue w M = W * 2 ^ unitExp w E ∧ ((∃ j : ℕ, W = j) ∨ 0 < E ∧ W < (2 ^ w.frac : ℕ)) := by
  obtain ⟨E', n, rfl, hn, hE⟩ := exists_parts w M
  have hscale : magValue w (E' * 2 ^ w.frac + n) = n * 2 ^ ((E' : ℤ) - E) * 2 ^ unitExp w E := by
    rw [magValue_parts w hn.le hE, mul_assoc, ← zpow_add₀ two_ne_zero]
    unfold unitExp
    ring_nf
  refine ⟨_, hscale, ?_⟩
  rcases Nat.lt_or_ge E' E with hlt | hge
  · right
    refine ⟨by omega, ?_⟩
    have hq : (2 : ℚ) ^ ((E' : ℤ) - E) ≤ 2 ^ (-1 : ℤ) := zpow_le_zpow_right₀ one_le_two (by omega)
    calc (n : ℚ) * 2 ^ ((E' : ℤ) - E) < (2 ^ (w.frac + 1) : ℕ) * 2 ^ ((E' : ℤ) - E) := by gcongr
      _ ≤ (2 ^ (w.frac + 1) : ℕ) * 2 ^ (-1 : ℤ) := by gcongr
      _ = (2 ^ w.frac : ℕ) := by push_cast; rw [pow_succ, zpow_neg_one]; ring
  · left
    obtain ⟨d, rfl⟩ := Nat.exists_eq_add_of_le hge
    exact ⟨n * 2 ^ d, by push_cast; rw [add_sub_cancel_left, zpow_natCast]⟩

end Sys2Proof.Machine
end

section
/-! SUPPORT for the statements of 41_vector_engine.md: rounding. A mode rounds a number of units to an integer, and so a
magnitude to one of the format; past a power of two it rounds exactly when the integer does. -/

namespace Sys2Proof.Machine

/-! ## Rounding to an integer -/

/-- `n` is `y`, the magnitude of a value of sign `neg`, rounded to an integer as the mode directs (40_register_access.md
R173). -/
structure RoundsTo (m : RMode) (neg : Bool) (y : ℚ) (n : ℕ) : Prop where
  near : |(n : ℚ) - y| < 1
  toward : towardZero m neg = true → (n : ℚ) ≤ y
  away : awayFromZero m neg = true → y ≤ n
  half : m = .rne ∨ m = .rmm → |(n : ℚ) - y| ≤ 1 / 2
  tieEven : m = .rne → |(n : ℚ) - y| = 1 / 2 → n % 2 = 0
  tieAway : m = .rmm → |(n : ℚ) - y| = 1 / 2 → y ≤ n

theorem RoundsTo.refl (m : RMode) (neg : Bool) (n : ℕ) : RoundsTo m neg n n := by
  constructor <;> norm_num

/-- Cutting off a fraction `ρ` rounds, when the mode may go toward zero there. -/
theorem roundsTo_floor {m : RMode} {neg : Bool} {n : ℕ} {ρ : ℚ} (h0 : 0 ≤ ρ) (h1 : ρ < 1)
    (haway : awayFromZero m neg = true → ρ = 0) (hhalf : m = .rne ∨ m = .rmm → ρ ≤ 1 / 2)
    (heven : m = .rne → ρ = 1 / 2 → n % 2 = 0) (htie : m = .rmm → ρ ≠ 1 / 2) : RoundsTo m neg (n + ρ) n := by
  have habs : |(n : ℚ) - (n + ρ)| = ρ := by rw [sub_add_cancel_left, abs_neg, abs_of_nonneg h0]
  constructor
  · rwa [habs]
  · exact fun _ => le_add_of_nonneg_right h0
  · exact fun h => by rw [haway h, add_zero]
  · rwa [habs]
  · rwa [habs]
  · exact fun h he => absurd (habs ▸ he) (htie h)

/-- Going past a fraction `ρ` to the next integer rounds, when the mode may go away from zero there. -/
theorem roundsTo_ceil {m : RMode} {neg : Bool} {n : ℕ} {ρ : ℚ} (h0 : 0 < ρ) (h1 : ρ < 1)
    (htoward : towardZero m neg = false) (hhalf : m = .rne ∨ m = .rmm → 1 / 2 ≤ ρ)
    (hodd : m = .rne → ρ = 1 / 2 → n % 2 = 1) : RoundsTo m neg (n + ρ) (n + 1 : ℕ) := by
  have habs : |((n + 1 : ℕ) : ℚ) - (n + ρ)| = 1 - ρ := by
    rw [Nat.cast_add_one, add_sub_add_left_eq_sub, abs_of_pos (by linarith)]
  have hle : n + ρ ≤ ((n + 1 : ℕ) : ℚ) := by push_cast; linarith
  constructor
  · rw [habs]
    linarith
  · exact fun h => absurd h (by simp [htoward])
  · exact fun _ => hle
  · rw [habs]
    exact fun h => by linarith [hhalf h]
  · rw [habs]
    exact fun h he => by have := hodd h (by linarith); omega
  · exact fun _ _ => hle

theorem RoundsTo.lt_add_one {m : RMode} {neg : Bool} {y : ℚ} {n : ℕ} (h : RoundsTo m neg y n) : (n : ℚ) < y + 1 := by
  linarith [(abs_lt.mp h.near).2]

theorem RoundsTo.sub_one_lt {m : RMode} {neg : Bool} {y : ℚ} {n : ℕ} (h : RoundsTo m neg y n) : y - 1 < n := by
  linarith [(abs_lt.mp h.near).1]

/-- Rounding does not pass an integer. -/
theorem RoundsTo.le_of_natCast_le {m : RMode} {neg : Bool} {y : ℚ} {n k : ℕ} (h : RoundsTo m neg y n)
    (hk : (k : ℚ) ≤ y) : k ≤ n := by
  have : (k : ℚ) < (n + 1 : ℕ) := by push_cast; linarith [h.sub_one_lt]
  exact Nat.lt_succ_iff.mp (by exact_mod_cast this)

theorem RoundsTo.le_of_le_natCast {m : RMode} {neg : Bool} {y : ℚ} {n k : ℕ} (h : RoundsTo m neg y n) (hk : y ≤ k) :
    n ≤ k := by
  have : (n : ℚ) < (k + 1 : ℕ) := by push_cast; linarith [h.lt_add_one]
  exact Nat.lt_succ_iff.mp (by exact_mod_cast this)

/-- An integer is its own rounding. -/
theorem RoundsTo.eq_of_natCast {m : RMode} {neg : Bool} {y : ℚ} {n j : ℕ} (h : RoundsTo m neg y n) (hy : y = j) :
    n = j :=
  le_antisymm (h.le_of_le_natCast hy.le) (h.le_of_natCast_le hy.ge)

/-! ### Among all magnitudes

Where `W` is an integer or an integer separates it from `y`, it is no better than the rounding. -/

theorem RoundsTo.not_between {m : RMode} {neg : Bool} {y W : ℚ} {n : ℕ} (h : RoundsTo m neg y n)
    (hW : (∃ j : ℕ, W = j) ∨ ∃ k : ℕ, W < k ∧ (k : ℚ) ≤ y) : ¬(y < W ∧ W < n) ∧ ¬(n < W ∧ W < y) := by
  rcases hW with ⟨j, rfl⟩ | ⟨k, hWk, hky⟩
  · refine ⟨fun ⟨h1, h2⟩ => ?_, fun ⟨h1, h2⟩ => ?_⟩
    · exact absurd (h.le_of_le_natCast h1.le) (Nat.not_le.mpr (by exact_mod_cast h2))
    · exact absurd (h.le_of_natCast_le h2.le) (Nat.not_le.mpr (by exact_mod_cast h1))
  · have hkn : (k : ℚ) ≤ n := by exact_mod_cast h.le_of_natCast_le hky
    exact ⟨fun hc => by linarith [hc.1], fun hc => by linarith [hc.1]⟩

theorem RoundsTo.half_le {m : RMode} {neg : Bool} {y : ℚ} {n j : ℕ} (h : RoundsTo m neg y n)
    (hm : m = .rne ∨ m = .rmm) (hj : j ≠ n) : 1 / 2 ≤ |(j : ℚ) - y| := by
  have hint : (1 : ℤ) ≤ |(j : ℤ) - n| := Int.one_le_abs (by omega)
  have hint' : (1 : ℚ) ≤ |(j : ℚ) - n| := by exact_mod_cast hint
  linarith [h.half hm, abs_sub_le (j : ℚ) y n, abs_sub_comm y n]

theorem RoundsTo.nearest_natCast {m : RMode} {neg : Bool} {y : ℚ} {n : ℕ} (h : RoundsTo m neg y n)
    (hm : m = .rne ∨ m = .rmm) (j : ℕ) : |(n : ℚ) - y| ≤ |(j : ℚ) - y| := by
  by_cases hj : j = n
  · rw [hj]
  · exact (h.half hm).trans (h.half_le hm hj)

theorem RoundsTo.nearer_of_separated {m : RMode} {neg : Bool} {y W : ℚ} {n k : ℕ} (h : RoundsTo m neg y n)
    (hm : m = .rne ∨ m = .rmm) (hW : W < k) (hk : (k : ℚ) ≤ y) : |(n : ℚ) - y| < |W - y| :=
  calc |(n : ℚ) - y| ≤ |(k : ℚ) - y| := h.nearest_natCast hm k
    _ = y - k := by rw [abs_sub_comm, abs_of_nonneg (by linarith)]
    _ < y - W := by linarith
    _ = |W - y| := by rw [abs_sub_comm, abs_of_pos (by linarith)]

theorem RoundsTo.nearest {m : RMode} {neg : Bool} {y W : ℚ} {n : ℕ} (h : RoundsTo m neg y n)
    (hm : m = .rne ∨ m = .rmm) (hW : (∃ j : ℕ, W = j) ∨ ∃ k : ℕ, W < k ∧ (k : ℚ) ≤ y) :
    |(n : ℚ) - y| ≤ |W - y| := by
  rcases hW with ⟨j, rfl⟩ | ⟨k, hWk, hky⟩
  · exact h.nearest_natCast hm j
  · exact (h.nearer_of_separated hm hWk hky).le

theorem RoundsTo.tie {m : RMode} {neg : Bool} {y W : ℚ} {n : ℕ} (h : RoundsTo m neg y n)
    (hm : m = .rne ∨ m = .rmm) (hW : (∃ j : ℕ, W = j) ∨ ∃ k : ℕ, W < k ∧ (k : ℚ) ≤ y)
    (he : |(n : ℚ) - y| = |W - y|) (hne : W ≠ n) : (m = .rne → n % 2 = 0) ∧ (m = .rmm → y ≤ n) := by
  rcases hW with ⟨j, rfl⟩ | ⟨k, hWk, hky⟩
  · have hj : j ≠ n := fun hj => hne (by rw [hj])
    have hhalf : |(n : ℚ) - y| = 1 / 2 := le_antisymm (h.half hm) (he ▸ h.half_le hm hj)
    exact ⟨fun hr => h.tieEven hr hhalf, fun hr => h.tieAway hr hhalf⟩
  · exact absurd he (h.nearer_of_separated hm hWk hky).ne

/-! ### The model's rounding -/

/-- What the model rounds away: the part of `sig / 2^d` below 1. -/
theorem roundShift_of_pos (m : RMode) (neg : Bool) (sig D : Nat) (hD : 0 < D) :
    roundShift m neg sig D =
      (if roundsUp m neg (sig / 2 ^ D % 2 == 1) (sig % 2 ^ D == 0) (compare (2 * (sig % 2 ^ D)) (2 ^ D)) then
        sig / 2 ^ D + 1 else sig / 2 ^ D, sig % 2 ^ D != 0) := by
  rw [roundShift, if_neg (by omega), Nat.shiftRight_eq_div_pow, Int.toNat_natCast]

/-- The mode goes to the next integer only past something discarded, never toward zero, and to the nearest one. -/
theorem roundsUp_eq_true {m : RMode} {neg : Bool} {n r b : ℕ} (hb : 0 < b)
    (h : roundsUp m neg (n % 2 == 1) (r == 0) (compare (2 * r) b) = true) :
    0 < r ∧ towardZero m neg = false ∧ (m = .rne ∨ m = .rmm → b ≤ 2 * r) ∧ (m = .rne → 2 * r = b → n % 2 = 1) := by
  cases m
  case rne =>
    simp only [roundsUp, Bool.or_eq_true, Bool.and_eq_true, beq_iff_eq, compare_gt_iff_gt, compare_eq_iff_eq] at h
    exact ⟨by omega, rfl, fun _ => by omega, fun _ _ => by omega⟩
  case rtz => cases h
  case rdn | rup =>
    simp only [roundsUp, Bool.and_eq_true, Bool.not_eq_true', beq_eq_false_iff_ne] at h
    exact ⟨by omega, by simp [towardZero, h.1], by simp, by simp⟩
  case rmm =>
    simp only [roundsUp, bne_iff_ne, ne_eq, compare_lt_iff_lt] at h
    exact ⟨by omega, rfl, fun _ => by omega, by simp⟩

/-- The mode stays at the integer below only at one, unless it may go toward zero, and to the nearest one. -/
theorem roundsUp_eq_false {m : RMode} {neg : Bool} {n r b : ℕ}
    (h : roundsUp m neg (n % 2 == 1) (r == 0) (compare (2 * r) b) = false) :
    (awayFromZero m neg = true → r = 0) ∧ (m = .rne ∨ m = .rmm → 2 * r ≤ b) ∧ (m = .rne → 2 * r = b → n % 2 = 0) ∧
      (m = .rmm → 2 * r ≠ b) := by
  cases m
  case rne =>
    simp only [roundsUp, Bool.or_eq_false_iff, Bool.and_eq_false_iff, beq_eq_false_iff_ne, ne_eq, compare_gt_iff_gt,
      compare_eq_iff_eq] at h
    exact ⟨by simp [awayFromZero], fun _ => by omega, fun _ _ => by omega, by simp⟩
  case rtz => exact ⟨by simp [awayFromZero], by simp, by simp, by simp⟩
  case rdn | rup => cases neg <;> simp_all [roundsUp, awayFromZero]
  case rmm =>
    simp only [roundsUp, bne_eq_false_iff_eq, compare_lt_iff_lt] at h
    exact ⟨by simp [awayFromZero], fun _ => by omega, by simp, fun _ => by omega⟩

theorem div_le_half_iff {r b : ℕ} (hb : 0 < b) : (r : ℚ) / b ≤ 1 / 2 ↔ 2 * r ≤ b := by
  rw [div_le_div_iff₀ (by exact_mod_cast hb) two_pos, one_mul, mul_comm]
  exact_mod_cast Iff.rfl

theorem half_le_div_iff {r b : ℕ} (hb : 0 < b) : 1 / 2 ≤ (r : ℚ) / b ↔ b ≤ 2 * r := by
  rw [div_le_div_iff₀ two_pos (by exact_mod_cast hb), one_mul, mul_comm]
  exact_mod_cast Iff.rfl

theorem div_eq_half_iff {r b : ℕ} (hb : 0 < b) : (r : ℚ) / b = 1 / 2 ↔ 2 * r = b := by
  rw [le_antisymm_iff, div_le_half_iff hb, half_le_div_iff hb, ← le_antisymm_iff]

/-- The model's choice at the integer `n` and the fraction `r / b` rounds as the mode directs. -/
theorem roundsUp_spec {m : RMode} {neg : Bool} {n r b : ℕ} (hr : r < b) :
    RoundsTo m neg (n + r / b)
      (if roundsUp m neg (n % 2 == 1) (r == 0) (compare (2 * r) b) then n + 1 else n) := by
  have hb : 0 < b := by omega
  have hbq : (0 : ℚ) < b := by exact_mod_cast hb
  have h1 : (r : ℚ) / b < 1 := (div_lt_one hbq).mpr (by exact_mod_cast hr)
  cases hup : roundsUp m neg (n % 2 == 1) (r == 0) (compare (2 * r) b) with
  | true =>
    obtain ⟨hr0, htoward, hhalf, hodd⟩ := roundsUp_eq_true hb hup
    exact roundsTo_ceil (by positivity) h1 htoward (fun h => (half_le_div_iff hb).mpr (hhalf h))
      fun h he => hodd h ((div_eq_half_iff hb).mp he)
  | false =>
    obtain ⟨haway, hhalf, heven, htie⟩ := roundsUp_eq_false hup
    exact roundsTo_floor (by positivity) h1 (fun h => by simp [haway h])
      (fun h => (div_le_half_iff hb).mpr (hhalf h)) (fun h he => heven h ((div_eq_half_iff hb).mp he))
      fun h he => htie h ((div_eq_half_iff hb).mp he)

/-- A quotient is its integer part and the fraction of the remainder. -/
theorem natCast_div_add_mod_div (a : ℕ) {b : ℕ} (hb : 0 < b) :
    ((a / b : ℕ) : ℚ) + ((a % b : ℕ) : ℚ) / b = (a : ℚ) / b := by
  have hbq : (b : ℚ) ≠ 0 := by exact_mod_cast hb.ne'
  rw [eq_div_iff hbq, add_mul, div_mul_cancel₀ _ hbq]
  exact_mod_cast Nat.div_add_mod' a b

/-- The model rounds `sig / 2^d` as the mode directs, and calls it inexact when that changes it. -/
theorem roundShift_spec (m : RMode) (neg : Bool) (sig : Nat) (d : ℤ) :
    RoundsTo m neg (sig / (2 : ℚ) ^ d) (roundShift m neg sig d).1 ∧
      ((roundShift m neg sig d).2 = true ↔ ((roundShift m neg sig d).1 : ℚ) ≠ sig / (2 : ℚ) ^ d) := by
  rcases le_or_gt d 0 with hd | hd
  · have hv : (sig / (2 : ℚ) ^ d) = ((sig <<< (-d).toNat : ℕ) : ℚ) := by
      rw [Nat.shiftLeft_eq, div_eq_mul_inv, ← zpow_neg]
      push_cast
      rw [← zpow_natCast, Int.toNat_of_nonneg (by omega)]
    rw [roundShift, if_pos hd, hv]
    exact ⟨RoundsTo.refl _ _ _, by simp⟩
  · obtain ⟨D, rfl⟩ := Int.eq_ofNat_of_zero_le hd.le
    have hshift := roundShift_of_pos m neg sig D (by omega)
    have hspec : RoundsTo m neg (sig / (2 : ℚ) ^ D) (roundShift m neg sig D).1 := by
      have h := roundsUp_spec (m := m) (neg := neg) (n := sig / 2 ^ D) (Nat.mod_lt sig (Nat.two_pow_pos D))
      rw [natCast_div_add_mod_div sig (Nat.two_pow_pos D), Nat.cast_pow, Nat.cast_ofNat] at h
      rwa [hshift]
    have hzero : sig % 2 ^ D = 0 ↔ ((roundShift m neg sig D).1 : ℚ) = sig / (2 : ℚ) ^ D := by
      constructor
      · intro h
        have hy := natCast_div_add_mod_div sig (Nat.two_pow_pos D)
        rw [h, Nat.cast_zero, zero_div, add_zero, Nat.cast_pow, Nat.cast_ofNat] at hy
        rw [hspec.eq_of_natCast hy.symm, hy]
      · intro h
        rw [eq_div_iff (by positivity)] at h
        exact Nat.mod_eq_zero_of_dvd (Dvd.intro_left _ (by exact_mod_cast h))
    rw [zpow_natCast]
    refine ⟨hspec, ?_⟩
    rw [Ne, ← hzero, hshift, bne_iff_ne]

/-! ## Rounding to a magnitude of the format -/

/-- Magnitude `M` of the format is what the mode makes of `x`, the magnitude of a value of sign `neg`, among the finite
ones (40_register_access.md R173). -/
structure RoundsOnGrid (w : FWidth) (m : RMode) (neg : Bool) (x : ℚ) (M : ℕ) : Prop where
  neighbour : ∀ N, N < w.maxExp * 2 ^ w.frac →
    ¬(x < magValue w N ∧ magValue w N < magValue w M) ∧ ¬(magValue w M < magValue w N ∧ magValue w N < x)
  toward : towardZero m neg = true → magValue w M ≤ x
  away : awayFromZero m neg = true → x ≤ magValue w M
  nearest : m = .rne ∨ m = .rmm → ∀ N, N < w.maxExp * 2 ^ w.frac → |magValue w M - x| ≤ |magValue w N - x|
  tie : m = .rne ∨ m = .rmm → ∀ N, N < w.maxExp * 2 ^ w.frac → |magValue w M - x| = |magValue w N - x| → N ≠ M →
    (m = .rne → M % 2 = 0) ∧ (m = .rmm → x ≤ magValue w M)

/-- A magnitude of the format rounds to itself. -/
theorem RoundsOnGrid.refl (w : FWidth) (m : RMode) (neg : Bool) (M : ℕ) : RoundsOnGrid w m neg (magValue w M) M where
  neighbour _ _ := ⟨fun h => lt_asymm h.1 h.2, fun h => lt_asymm h.1 h.2⟩
  toward _ := le_rfl
  away _ := le_rfl
  nearest _ N _ := by simp
  tie _ N _ he hne := by
    rw [sub_self, abs_zero, eq_comm, abs_eq_zero, sub_eq_zero] at he
    exact absurd ((magValue_strictMono w).injective he) hne

/-- Past every finite magnitude a mode that never goes away from zero stays at the largest one. -/
theorem RoundsOnGrid.largestFinite {w : FWidth} {m : RMode} {neg : Bool} {x : ℚ} (ht : towardZero m neg = true)
    (hx : w.overflowBound ≤ x) : RoundsOnGrid w m neg x (w.maxExp * 2 ^ w.frac - 1) := by
  have hmodes : awayFromZero m neg = false ∧ ¬(m = .rne ∨ m = .rmm) := by
    revert ht
    cases m <;> cases neg <;> decide
  have hle : ∀ N, N < w.maxExp * 2 ^ w.frac → magValue w N ≤ magValue w (w.maxExp * 2 ^ w.frac - 1) := fun N hN =>
    (magValue_strictMono w).monotone (by omega)
  have hxl : magValue w (w.maxExp * 2 ^ w.frac - 1) ≤ x := by
    refine le_trans ((magValue_strictMono w).monotone (Nat.sub_le _ _)) ?_
    rwa [magValue_infinity]
  constructor
  · exact fun N hN => ⟨fun h => absurd (h.1.trans h.2) hxl.not_gt, fun h => absurd h.1 (hle N hN).not_gt⟩
  · exact fun _ => hxl
  · exact fun h => absurd h (by simp [hmodes.1])
  · exact fun h => absurd h hmodes.2
  · exact fun h => absurd h hmodes.2

/-- Rounding the number of units to an integer rounds on the grid: in those units every magnitude is whole, or lies
below one that is at most the number. -/
theorem RoundsTo.onGrid {w : FWidth} {m : RMode} {neg : Bool} {y : ℚ} {E n : ℕ} (h : RoundsTo m neg y n)
    (hn : n ≤ 2 ^ (w.frac + 1)) (hE : E = 0 ∨ ((2 ^ w.frac : ℕ) : ℚ) ≤ y) :
    RoundsOnGrid w m neg (y * 2 ^ unitExp w E) (E * 2 ^ w.frac + n) := by
  have hM := magValue_parts w hn (hE.imp_right h.le_of_natCast_le)
  have hu : (0 : ℚ) < 2 ^ unitExp w E := by positivity
  have habs (k : ℚ) : |k * 2 ^ unitExp w E - y * 2 ^ unitExp w E| = |k - y| * 2 ^ unitExp w E := by
    rw [← sub_mul, abs_mul, abs_of_pos hu]
  have hunits (N : ℕ) : ∃ W : ℚ, magValue w N = W * 2 ^ unitExp w E ∧
      ((∃ j : ℕ, W = j) ∨ ∃ k : ℕ, W < k ∧ (k : ℚ) ≤ y) := by
    obtain ⟨W, hW, hj | ⟨hpos, hlt⟩⟩ := exists_magValue_eq_mul w E N
    · exact ⟨W, hW, .inl hj⟩
    · exact ⟨W, hW, .inr ⟨_, hlt, hE.resolve_left hpos.ne'⟩⟩
  constructor
  · intro N _
    obtain ⟨W, hN, hW⟩ := hunits N
    rw [hM, hN, mul_lt_mul_iff_left₀ hu, mul_lt_mul_iff_left₀ hu, mul_lt_mul_iff_left₀ hu, mul_lt_mul_iff_left₀ hu]
    exact h.not_between hW
  · intro ht
    rw [hM, mul_le_mul_iff_left₀ hu]
    exact h.toward ht
  · intro ha
    rw [hM, mul_le_mul_iff_left₀ hu]
    exact h.away ha
  · intro hm N _
    obtain ⟨W, hN, hW⟩ := hunits N
    rw [hM, hN, habs, habs, mul_le_mul_iff_left₀ hu]
    exact h.nearest hm hW
  · intro hm N _ he hne
    obtain ⟨W, hN, hW⟩ := hunits N
    have hWn : W ≠ n := by
      rintro rfl
      exact hne ((magValue_strictMono w).injective (hN.trans hM.symm))
    rw [hM, hN, habs, habs, mul_left_inj' hu.ne'] at he
    rw [hM, mul_le_mul_iff_left₀ hu]
    have h2 : 2 ∣ E * 2 ^ w.frac := (dvd_pow_self 2 w.frac_pos.ne').mul_left E
    exact (h.tie hm hW he hWn).imp_left fun h' hr => by have := h' hr; omega

/-! ## Rounding past a power of two -/

theorem reaches_of_le {m : RMode} {neg : Bool} {x b u : ℚ} (hu : 0 < u) (h : b ≤ x) : reaches m neg x b u := by
  unfold reaches
  split
  · exact h
  · split <;> linarith

theorem not_reaches_of_le {m : RMode} {neg : Bool} {x b u : ℚ} (hu : 0 < u) (h : x ≤ b - u) :
    ¬reaches m neg x b u := by
  unfold reaches
  split
  · linarith
  · split <;> linarith

theorem reaches_mul_right {m : RMode} {neg : Bool} {x b u c : ℚ} (hc : 0 < c) :
    reaches m neg (x * c) (b * c) (u * c) ↔ reaches m neg x b u := by
  unfold reaches
  rw [mul_le_mul_iff_left₀ hc, ← sub_mul, mul_lt_mul_iff_left₀ hc, mul_div_right_comm, ← sub_mul,
    mul_le_mul_iff_left₀ hc]

/-- An even integer is reached exactly when the rounding is it or beyond. -/
theorem RoundsTo.le_iff_reaches {m : RMode} {neg : Bool} {y : ℚ} {n k : ℕ} (h : RoundsTo m neg y n) (hk : k % 2 = 0) :
    k ≤ n ↔ reaches m neg y k 1 := by
  unfold reaches
  have hcast : k ≤ n ↔ (k : ℚ) - 1 < n := by
    rw [sub_lt_iff_lt_add, ← Nat.cast_add_one, Nat.cast_lt, Nat.lt_succ_iff]
  split
  · next ht => exact ⟨fun hkn => le_trans (by exact_mod_cast hkn) (h.toward ht), h.le_of_natCast_le⟩
  split
  · next ha =>
    refine ⟨fun hkn => ?_, fun hy => hcast.mpr (hy.trans_le (h.away ha))⟩
    have : (k : ℚ) ≤ n := by exact_mod_cast hkn
    linarith [h.lt_add_one]
  · next ht ha =>
    have hm : m = .rne ∨ m = .rmm := by
      revert ht ha
      cases m <;> cases neg <;> decide
    obtain ⟨hlo, hhi⟩ := abs_le.mp (h.half hm)
    refine ⟨fun hkn => ?_, fun hy => ?_⟩
    · have : (k : ℚ) ≤ n := by exact_mod_cast hkn
      linarith
    · by_contra hnk
      have hn1 : (n : ℚ) + 1 ≤ k := by exact_mod_cast Nat.not_le.mp hnk
      have hnk' : n + 1 = k := by
        have : (k : ℚ) = (n + 1 : ℕ) := by push_cast; linarith
        exact_mod_cast this.symm
      have htie : |(n : ℚ) - y| = 1 / 2 := by
        rw [abs_sub_comm, abs_of_nonneg (by linarith)]
        linarith
      rcases hm with rfl | rfl
      · have := h.tieEven rfl htie
        omega
      · linarith [h.tieAway rfl htie]

/-- A magnitude between `2^t` and `2^(t+1)` rounds to `2^(T+1)` or beyond when it lies in a higher binade than `T`, or
in that one and its significand rounds past the last. -/
theorem reaches_iff_of_binade {m : RMode} {neg : Bool} {x : ℚ} {t T : ℤ} {p n : ℕ} (h0 : 2 ^ t ≤ x)
    (h1 : x < 2 ^ (t + 1)) (hn : t = T → RoundsTo m neg (x / 2 ^ (t - p)) n) :
    reaches m neg x (2 ^ (T + 1)) (2 ^ (T - p)) ↔ T < t ∨ t = T ∧ 2 ^ (p + 1) ≤ n := by
  have hu : (0 : ℚ) < 2 ^ (T - p) := by positivity
  rcases lt_trichotomy t T with hlt | rfl | hgt
  · refine iff_of_false (not_reaches_of_le hu (h1.le.trans ?_)) (by omega)
    have hb : (2 : ℚ) ^ (T + 1) = 2 ^ T + 2 ^ T := by rw [zpow_add_one₀ two_ne_zero, mul_two]
    have h2 : (2 : ℚ) ^ (t + 1) ≤ 2 ^ T := zpow_le_zpow_right₀ one_le_two (by omega)
    have h3 : (2 : ℚ) ^ (T - p) ≤ 2 ^ T := zpow_le_zpow_right₀ one_le_two (by omega)
    linarith
  · have hb : ((2 ^ (p + 1) : ℕ) : ℚ) * 2 ^ (t - p) = 2 ^ (t + 1) := by
      push_cast
      rw [← zpow_natCast, ← zpow_add₀ two_ne_zero]
      congr 1
      push_cast
      ring
    have hr := (hn rfl).le_iff_reaches (k := 2 ^ (p + 1)) (by rw [pow_succ, Nat.mul_mod_left])
    rw [← reaches_mul_right hu, div_mul_cancel₀ _ hu.ne', one_mul, hb] at hr
    rw [hr]
    exact ⟨fun h => .inr ⟨rfl, h⟩, fun h => (h.resolve_left (lt_irrefl t)).2⟩
  · refine iff_of_true (reaches_of_le hu (le_trans ?_ h0)) (.inl hgt)
    exact zpow_le_zpow_right₀ one_le_two (by omega)

end Sys2Proof.Machine
end

section
/-! SUPPORT for the statements of 41_vector_engine.md: the conversions between formats, through the magnitude number the
model rounds to. -/

namespace Sys2Proof.Machine

/-! ## Rounding to a format -/

/-- The exponent of the top bit of `sig * 2^exp`. -/
def topExp (sig : ℕ) (exp : ℤ) : ℤ := sig.log2 + exp

/-- The exponent part in whose units the model rounds `sig * 2^exp`. -/
def expPart (w : FWidth) (sig : ℕ) (exp : ℤ) : ℕ := (topExp sig exp - (1 - w.bias)).toNat

/-- The significand the model rounds to. -/
def roundedSig (w : FWidth) (m : RMode) (neg : Bool) (sig : ℕ) (exp : ℤ) : ℕ :=
  (roundShift m neg sig (unitExp w (expPart w sig exp) - exp)).1

/-- The magnitude number the model rounds to, before it looks for an overflow. -/
def roundedMag (w : FWidth) (m : RMode) (neg : Bool) (sig : ℕ) (exp : ℤ) : ℕ :=
  expPart w sig exp * 2 ^ w.frac + roundedSig w m neg sig exp

/-- The significand the model would round to if exponents had no lower bound. -/
def unboundedSig (w : FWidth) (m : RMode) (neg : Bool) (sig : ℕ) (exp : ℤ) : ℕ :=
  (roundShift m neg sig (topExp sig exp - w.frac - exp)).1

/-- The model's test for a tiny result. -/
def tinyAfter (w : FWidth) (m : RMode) (neg : Bool) (sig : ℕ) (exp : ℤ) : Bool :=
  decide (topExp sig exp < 1 - w.bias) &&
    !(decide (topExp sig exp = 1 - w.bias - 1) && unboundedSig w m neg sig exp == 2 ^ (w.frac + 1))

/-- The model's rounding, through the numbers named above. -/
theorem roundToFormat_eq (w : FWidth) (m : RMode) (neg : Bool) (sig : ℕ) (exp : ℤ) :
    roundToFormat w m neg sig exp =
      if w.maxExp * 2 ^ w.frac ≤ roundedMag w m neg sig exp then (overflowResult w m neg, overflowFlags)
      else (packMagnitude w neg (roundedMag w m neg sig exp), roundedFlags (tinyAfter w m neg sig exp)
        (roundShift m neg sig (unitExp w (expPart w sig exp) - exp)).2) := by
  have hq : max (topExp sig exp) (1 - w.bias) - w.frac = unitExp w (expPart w sig exp) := by
    unfold unitExp expPart
    omega
  have hE : (unitExp w (expPart w sig exp) + w.frac + w.bias - 1).toNat = expPart w sig exp := by
    unfold unitExp
    omega
  unfold topExp at hq
  simp only [roundToFormat, hq, hE]
  rfl

section
variable {w : FWidth} {m : RMode} {neg : Bool} {sig : ℕ} {exp : ℤ}

theorem two_zpow_topExp_le (hs : 0 < sig) (exp : ℤ) : (2 : ℚ) ^ topExp sig exp ≤ sig * 2 ^ exp := by
  rw [topExp, zpow_add₀ two_ne_zero, zpow_natCast]
  gcongr
  exact_mod_cast Nat.log2_self_le hs.ne'

theorem lt_two_zpow_topExp (sig : ℕ) (exp : ℤ) : sig * (2 : ℚ) ^ exp < 2 ^ (topExp sig exp + 1) := by
  rw [topExp, show (sig.log2 : ℤ) + exp + 1 = (sig.log2 + 1 : ℕ) + exp by push_cast; ring, zpow_add₀ two_ne_zero,
    zpow_natCast]
  gcongr
  exact_mod_cast Nat.lt_log2_self

/-- Rounding after a shift rounds the number of units of that size. -/
theorem roundShift_sub_spec (m : RMode) (neg : Bool) (sig : ℕ) (q exp : ℤ) :
    RoundsTo m neg (sig * (2 : ℚ) ^ exp / 2 ^ q) (roundShift m neg sig (q - exp)).1 ∧
      ((roundShift m neg sig (q - exp)).2 = true ↔
        ((roundShift m neg sig (q - exp)).1 : ℚ) ≠ sig * (2 : ℚ) ^ exp / 2 ^ q) := by
  have h := roundShift_spec m neg sig (q - exp)
  rwa [zpow_sub₀ two_ne_zero, div_div_eq_mul_div] at h

theorem roundedSig_spec (w : FWidth) (m : RMode) (neg : Bool) (sig : ℕ) (exp : ℤ) :
    RoundsTo m neg (sig * (2 : ℚ) ^ exp / 2 ^ unitExp w (expPart w sig exp)) (roundedSig w m neg sig exp) :=
  (roundShift_sub_spec m neg sig _ exp).1

theorem unboundedSig_spec (w : FWidth) (m : RMode) (neg : Bool) (sig : ℕ) (exp : ℤ) :
    RoundsTo m neg (sig * (2 : ℚ) ^ exp / 2 ^ (topExp sig exp - w.frac)) (unboundedSig w m neg sig exp) :=
  (roundShift_sub_spec m neg sig _ exp).1

/-- Above the bottom the units are those of the top bit. -/
theorem expPart_eq_zero_or (w : FWidth) (sig : ℕ) (exp : ℤ) :
    expPart w sig exp = 0 ∧ topExp sig exp < 1 - w.bias ∨
      unitExp w (expPart w sig exp) = topExp sig exp - w.frac ∧ 1 - w.bias ≤ topExp sig exp := by
  unfold unitExp expPart
  omega

/-- Fewer units than a significand of one bit more. -/
theorem units_le (w : FWidth) (sig : ℕ) (exp : ℤ) :
    sig * (2 : ℚ) ^ exp / 2 ^ unitExp w (expPart w sig exp) ≤ ((2 ^ (w.frac + 1) : ℕ) : ℚ) := by
  rw [div_le_iff₀ (by positivity)]
  push_cast
  rw [← zpow_natCast, ← zpow_add₀ two_ne_zero]
  refine (lt_two_zpow_topExp sig exp).le.trans (zpow_le_zpow_right₀ one_le_two ?_)
  unfold unitExp expPart
  push_cast
  omega

/-- Above the bottom there are as many units as a significand with its top bit. -/
theorem le_units (hs : 0 < sig) : expPart w sig exp = 0 ∨
    ((2 ^ w.frac : ℕ) : ℚ) ≤ sig * (2 : ℚ) ^ exp / 2 ^ unitExp w (expPart w sig exp) := by
  refine (expPart_eq_zero_or w sig exp).imp And.left fun ⟨hu, _⟩ => ?_
  rw [le_div_iff₀ (by positivity), hu]
  push_cast
  rw [← zpow_natCast, ← zpow_add₀ two_ne_zero, add_sub_cancel]
  exact two_zpow_topExp_le hs exp

theorem roundedSig_le (w : FWidth) (m : RMode) (neg : Bool) (sig : ℕ) (exp : ℤ) :
    roundedSig w m neg sig exp ≤ 2 ^ (w.frac + 1) :=
  (roundedSig_spec w m neg sig exp).le_of_le_natCast (units_le w sig exp)

theorem le_roundedSig (hs : 0 < sig) : expPart w sig exp = 0 ∨ 2 ^ w.frac ≤ roundedSig w m neg sig exp :=
  (le_units hs).imp_right (roundedSig_spec w m neg sig exp).le_of_natCast_le

theorem magValue_roundedMag (hs : 0 < sig) : magValue w (roundedMag w m neg sig exp) =
    roundedSig w m neg sig exp * (2 : ℚ) ^ unitExp w (expPart w sig exp) :=
  magValue_parts w (roundedSig_le ..) (le_roundedSig hs)

theorem roundsOnGrid_roundedMag (hs : 0 < sig) :
    RoundsOnGrid w m neg (sig * (2 : ℚ) ^ exp) (roundedMag w m neg sig exp) := by
  have h := (roundedSig_spec w m neg sig exp).onGrid (roundedSig_le w m neg sig exp) (le_units hs)
  rwa [div_mul_cancel₀ _ (by positivity)] at h

/-- The model calls a result inexact when it differs from the value rounded. -/
theorem inexact_iff (hs : 0 < sig) : (roundShift m neg sig (unitExp w (expPart w sig exp) - exp)).2 = true ↔
    magValue w (roundedMag w m neg sig exp) ≠ sig * (2 : ℚ) ^ exp := by
  rw [(roundShift_sub_spec m neg sig _ exp).2, magValue_roundedMag hs, not_iff_not, eq_div_iff (by positivity)]
  rfl

/-- The model sees an overflow when the value rounds past every finite magnitude. -/
theorem overflow_iff (hs : 0 < sig) : w.maxExp * 2 ^ w.frac ≤ roundedMag w m neg sig exp ↔
    reaches m neg (sig * (2 : ℚ) ^ exp) w.overflowBound w.topSpacing := by
  have hb := w.bias_pos
  have hmax := w.maxExp_eq
  have hparts := expPart_eq_zero_or w sig exp
  have hbinade := reaches_iff_of_binade (m := m) (neg := neg) (T := w.maxExp - 1 - w.bias) (p := w.frac)
    (n := roundedSig w m neg sig exp) (two_zpow_topExp_le hs exp) (lt_two_zpow_topExp sig exp) fun ht => by
      rw [← (hparts.resolve_left (by omega)).1]
      exact roundedSig_spec w m neg sig exp
  rw [FWidth.overflowBound, FWidth.topSpacing,
    show (w.maxExp : ℤ) - w.bias = w.maxExp - 1 - w.bias + 1 by ring, hbinade]
  have hle := roundedSig_le w m neg sig exp
  have hge := le_roundedSig (w := w) (m := m) (neg := neg) (exp := exp) hs
  have hE : (expPart w sig exp : ℤ) = max (topExp sig exp - (1 - w.bias)) 0 := Int.toNat_eq_max _
  unfold roundedMag
  have hp : 0 < 2 ^ w.frac := by positivity
  generalize expPart w sig exp = E at hge hE ⊢
  rw [pow_succ'] at hle ⊢
  obtain ⟨c, hc⟩ := Nat.exists_eq_add_of_le' (show 2 ≤ w.maxExp by omega)
  rw [hc, add_mul]
  rcases lt_trichotomy E c with hlt | rfl | hgt
  · have := Nat.mul_le_mul_right (2 ^ w.frac) (Nat.succ_le_of_lt hlt)
    rw [Nat.succ_mul] at this
    omega
  · omega
  · have := Nat.mul_le_mul_right (2 ^ w.frac) (Nat.succ_le_of_lt hgt)
    rw [Nat.succ_mul] at this
    omega

/-- The model sees a tiny result when the value does not round to the smallest normal magnitude or beyond. -/
theorem tinyAfter_iff (hs : 0 < sig) : tinyAfter w m neg sig exp = true ↔
    ¬reaches m neg (sig * (2 : ℚ) ^ exp) w.minNormal w.tinySpacing := by
  have hbinade := reaches_iff_of_binade (m := m) (neg := neg) (T := -w.bias) (p := w.frac)
    (n := unboundedSig w m neg sig exp) (two_zpow_topExp_le hs exp) (lt_two_zpow_topExp sig exp) fun ht => by
      exact unboundedSig_spec w m neg sig exp
  have hle : topExp sig exp = -w.bias → unboundedSig w m neg sig exp ≤ 2 ^ (w.frac + 1) := fun ht =>
    (unboundedSig_spec w m neg sig exp).le_of_le_natCast (by
      rw [div_le_iff₀ (by positivity)]
      push_cast
      rw [← zpow_natCast, ← zpow_add₀ two_ne_zero]
      convert (lt_two_zpow_topExp sig exp).le using 2
      push_cast
      ring)
  rw [FWidth.minNormal, FWidth.tinySpacing, sub_eq_neg_add, hbinade, tinyAfter]
  simp only [Bool.and_eq_true, Bool.not_eq_true', Bool.and_eq_false_iff, decide_eq_true_eq, decide_eq_false_iff_not,
    beq_eq_false_iff_ne]
  omega

end

/-! ## Results of narrowing -/

/-- `r`, with the flags `fl`, is what the mode makes of a value of sign `neg` and magnitude `x`: a magnitude of the
format, or past every finite one what the mode directs (41_vector_engine.md R213). -/
structure RoundedFloat (w : FWidth) (m : RMode) (neg : Bool) (x : ℚ) (r : Wide) (fl : FFlags) : Prop where
  fits : r.toNat < 2 ^ w.bits
  notNaN : magnitude w r ≤ w.maxExp * 2 ^ w.frac
  sign : signBit w r = neg
  valid : fl.nv = false
  noDivide : fl.dz = false
  onGrid : isFinite w r = true → RoundsOnGrid w m neg x (magnitude w r)
  overflow : fl.of = true ↔ reaches m neg x w.overflowBound w.topSpacing
  finite : fl.of = false → isFinite w r = true
  largest : fl.of = true → towardZero m neg = true →
    isFinite w r = true ∧ magValue w (magnitude w r) = w.overflowBound - w.topSpacing
  infinite : fl.of = true → towardZero m neg = false → isFinite w r = false
  inexact : fl.nx = true ↔ isFinite w r = false ∨ magValue w (magnitude w r) ≠ x
  underflow : fl.uf = true ↔ fl.nx = true ∧ ¬reaches m neg x w.minNormal w.tinySpacing

/-- The largest finite magnitude where the mode never rounds away from zero, and infinity elsewhere. -/
theorem overflowResult_eq (w : FWidth) (m : RMode) (neg : Bool) : overflowResult w m neg =
    packMagnitude w neg (if towardZero m neg then w.maxExp * 2 ^ w.frac - 1 else w.maxExp * 2 ^ w.frac) := by
  have hlargest : packFloat w neg (w.maxExp - 1) (2 ^ w.frac - 1) =
      packMagnitude w neg (w.maxExp * 2 ^ w.frac - 1) := by
    have hmax : w.maxExp = w.maxExp - 1 + 1 := by have := w.maxExp_eq; omega
    have hp : 0 < 2 ^ w.frac := by positivity
    rw [packFloat, hmax, Nat.add_sub_cancel, Nat.succ_mul, Nat.add_sub_assoc hp]
  have hinf : packFloat w neg w.maxExp 0 = packMagnitude w neg (w.maxExp * 2 ^ w.frac) := rfl
  simp only [overflowResult, hlargest, hinf]
  cases m <;> cases neg <;> rfl

theorem maxExp_mul_pos (w : FWidth) : 0 < w.maxExp * 2 ^ w.frac :=
  Nat.mul_pos (by have := w.maxExp_eq; omega) (by positivity)

theorem maxExp_mul_lt (w : FWidth) : w.maxExp * 2 ^ w.frac < 2 ^ (w.bits - 1) := by
  have := maxExp_mul_add w
  have : 0 < 2 ^ w.frac := by positivity
  omega

theorem FWidth.topSpacing_pos (w : FWidth) : 0 < w.topSpacing := by
  unfold FWidth.topSpacing
  positivity

theorem FWidth.tinySpacing_pos (w : FWidth) : 0 < w.tinySpacing := by
  unfold FWidth.tinySpacing
  positivity

theorem FWidth.tinySpacing_le_minNormal (w : FWidth) : w.tinySpacing ≤ w.minNormal :=
  zpow_le_zpow_right₀ one_le_two (by omega)

theorem FWidth.minNormal_le_largestFinite (w : FWidth) : w.minNormal ≤ w.overflowBound - w.topSpacing := by
  have hmin : magValue w (2 ^ w.frac) = w.minNormal := by
    have h := magValue_parts w (E := 0) (Nat.pow_le_pow_right two_pos (Nat.le_succ w.frac)) (.inl rfl)
    rw [zero_mul, zero_add] at h
    rw [h, FWidth.minNormal, unitExp]
    push_cast
    rw [← zpow_natCast, ← zpow_add₀ two_ne_zero]
    congr 1
    ring
  rw [← hmin, ← magValue_largestFinite]
  refine (magValue_strictMono w).monotone ?_
  obtain ⟨c, hc⟩ := Nat.exists_eq_add_of_le' (show 2 ≤ w.maxExp by have := w.bias_pos; have := w.maxExp_eq; omega)
  have : 0 < 2 ^ w.frac := by positivity
  rw [hc, add_mul]
  omega

section
variable {w : FWidth} {m : RMode} {neg : Bool} {x : ℚ}

/-- Past every finite magnitude. -/
theorem RoundedFloat.of_overflow (h : reaches m neg x w.overflowBound w.topSpacing) :
    RoundedFloat w m neg x (overflowResult w m neg) overflowFlags := by
  have hlow : w.overflowBound - w.topSpacing < x := lt_of_not_ge fun hle => not_reaches_of_le w.topSpacing_pos hle h
  have hmin : reaches m neg x w.minNormal w.tinySpacing :=
    reaches_of_le w.tinySpacing_pos (w.minNormal_le_largestFinite.trans hlow.le)
  have hpos := maxExp_mul_pos w
  have hlt := maxExp_mul_lt w
  have hlt' : w.maxExp * 2 ^ w.frac - 1 < 2 ^ (w.bits - 1) := by omega
  rw [overflowResult_eq]
  cases ht : towardZero m neg with
  | true =>
    have hx : w.overflowBound ≤ x := by rwa [reaches, if_pos ht] at h
    have hM := magnitude_packMagnitude neg hlt'
    have hfin : isFinite w (packMagnitude w neg (w.maxExp * 2 ^ w.frac - 1)) = true :=
      isFinite_iff.mpr (by rw [hM]; omega)
    simp only [if_true]
    exact {
      fits := packMagnitude_lt neg hlt'
      notNaN := by rw [hM]; omega
      sign := signBit_packMagnitude neg hlt'
      valid := rfl
      noDivide := rfl
      onGrid := fun _ => by rw [hM]; exact .largestFinite ht hx
      overflow := iff_of_true rfl h
      finite := fun _ => hfin
      largest := fun _ _ => ⟨hfin, by rw [hM, magValue_largestFinite]⟩
      infinite := fun _ h' => absurd (ht.symm.trans h') (by decide)
      inexact := iff_of_true rfl (.inr (by rw [hM, magValue_largestFinite]; exact hlow.ne))
      underflow := iff_of_false (by decide) fun hc => hc.2 hmin }
  | false =>
    have hM := magnitude_packMagnitude neg hlt
    have hinf : isFinite w (packMagnitude w neg (w.maxExp * 2 ^ w.frac)) = false :=
      isFinite_eq_false_iff.mpr hM.ge
    simp only [Bool.false_eq_true, if_false]
    exact {
      fits := packMagnitude_lt neg hlt
      notNaN := hM.le
      sign := signBit_packMagnitude neg hlt
      valid := rfl
      noDivide := rfl
      onGrid := fun h' => absurd (hinf.symm.trans h') (by decide)
      overflow := iff_of_true rfl h
      finite := fun h' => by cases h'
      largest := fun _ h' => absurd (ht.symm.trans h') (by decide)
      infinite := fun _ _ => hinf
      inexact := iff_of_true rfl (.inl hinf)
      underflow := iff_of_false (by decide) fun hc => hc.2 hmin }

/-- At a finite magnitude. -/
theorem RoundedFloat.of_lt {M : ℕ} {tiny inexact : Bool} (hM : M < w.maxExp * 2 ^ w.frac)
    (hno : ¬reaches m neg x w.overflowBound w.topSpacing) (hgrid : RoundsOnGrid w m neg x M)
    (hinexact : inexact = true ↔ magValue w M ≠ x)
    (htiny : tiny = true ↔ ¬reaches m neg x w.minNormal w.tinySpacing) :
    RoundedFloat w m neg x (packMagnitude w neg M) (roundedFlags tiny inexact) := by
  have hlt := hM.trans (maxExp_mul_lt w)
  have hmag := magnitude_packMagnitude neg hlt
  have hfin : isFinite w (packMagnitude w neg M) = true := isFinite_iff.mpr (by rwa [hmag])
  exact {
    fits := packMagnitude_lt neg hlt
    notNaN := by rw [hmag]; exact hM.le
    sign := signBit_packMagnitude neg hlt
    valid := rfl
    noDivide := rfl
    onGrid := fun _ => by rwa [hmag]
    overflow := iff_of_false Bool.false_ne_true hno
    finite := fun _ => hfin
    largest := fun h => by cases h
    infinite := fun h => by cases h
    inexact := by rw [hmag, hfin]; simpa [roundedFlags] using hinexact
    underflow := by rw [← htiny, roundedFlags, Bool.and_eq_true, and_comm] }

/-- A zero stays one. -/
theorem RoundedFloat.zero (w : FWidth) (m : RMode) (neg : Bool) :
    RoundedFloat w m neg 0 (packFloat w neg 0 0) .none := by
  have hgrid := RoundsOnGrid.refl w m neg 0
  have hmin := sub_nonneg.mpr w.tinySpacing_le_minNormal
  rw [magValue_zero] at hgrid
  have h := RoundedFloat.of_lt (tiny := true) (inexact := false) (maxExp_mul_pos w)
    (not_reaches_of_le w.topSpacing_pos ((hmin.trans (sub_le_self _ w.tinySpacing_pos.le)).trans
      w.minNormal_le_largestFinite)) hgrid (by simp [magValue_zero])
    (iff_of_true rfl (not_reaches_of_le w.tinySpacing_pos hmin))
  simpa [packFloat, roundedFlags, FFlags.none] using h

theorem roundToFormat_rounded {sig : ℕ} (hs : 0 < sig) (w : FWidth) (m : RMode) (neg : Bool) (exp : ℤ) :
    RoundedFloat w m neg (sig * (2 : ℚ) ^ exp) (roundToFormat w m neg sig exp).1 (roundToFormat w m neg sig exp).2 := by
  rw [roundToFormat_eq]
  split
  · next h => exact .of_overflow ((overflow_iff hs).mp h)
  · next h =>
    exact .of_lt (Nat.not_le.mp h) (fun hr => h ((overflow_iff hs).mpr hr)) (roundsOnGrid_roundedMag hs)
      (inexact_iff hs) (tinyAfter_iff hs)

/-- A representable magnitude is rounded to itself, with no flag. -/
theorem roundToFormat_exact {sig M : ℕ} {exp : ℤ} (hs : 0 < sig) (hM : M < w.maxExp * 2 ^ w.frac)
    (hx : sig * (2 : ℚ) ^ exp = magValue w M) (m : RMode) (neg : Bool) :
    roundToFormat w m neg sig exp = (packMagnitude w neg M, .none) := by
  have hround := roundedSig_spec w m neg sig exp
  obtain ⟨W, hW, hunits⟩ := exists_magValue_eq_mul w (expPart w sig exp) M
  rw [← hx] at hW
  have hy : sig * (2 : ℚ) ^ exp / 2 ^ unitExp w (expPart w sig exp) = W := by
    rw [hW, mul_div_cancel_right₀ _ (by positivity)]
  obtain ⟨j, rfl⟩ : ∃ j : ℕ, W = j := hunits.resolve_right fun ⟨hpos, hlt⟩ =>
    absurd ((le_units hs).resolve_left hpos.ne') (by rw [hy]; exact hlt.not_ge)
  have hval : magValue w (roundedMag w m neg sig exp) = sig * (2 : ℚ) ^ exp := by
    rw [magValue_roundedMag hs, hround.eq_of_natCast hy, hW]
  have hmag : roundedMag w m neg sig exp = M := (magValue_strictMono w).injective (hval.trans hx)
  have hexact : (roundShift m neg sig (unitExp w (expPart w sig exp) - exp)).2 = false := by
    rw [← Bool.not_eq_true, inexact_iff hs, not_not]
    exact hval
  rw [roundToFormat_eq, hmag, if_neg hM.not_ge, hexact]
  simp [roundedFlags, FFlags.none]

end

/-! ## Narrowing and widening -/

/-- A finite value is narrowed by rounding its significand and exponent, unless it is a zero. -/
theorem fnarrow_of_isFinite {w1 : FWidth} {v : Wide} (h : isFinite w1 v = true) (w2 : FWidth) (m : RMode) :
    (magnitude w1 v = 0 ∧ fnarrow w1 w2 m v = (packFloat w2 (signBit w1 v) 0 0, .none)) ∨
      ∃ (sig : ℕ) (exp : ℤ), 0 < sig ∧ sig * (2 : ℚ) ^ exp = magValue w1 (magnitude w1 v) ∧
        fnarrow w1 w2 m v = roundToFormat w2 m (signBit w1 v) sig exp := by
  rw [isFinite, bne_iff_ne] at h
  unfold fnarrow
  rw [if_neg h, magValue, ← expField_eq, ← fracField_eq]
  by_cases he : expField w1 v = 0
  · rw [if_pos he]
    by_cases hf : fracField w1 v = 0
    · exact .inl ⟨by rw [magnitude_eq, he, hf, zero_mul], if_pos hf⟩
    · exact .inr ⟨_, _, Nat.pos_of_ne_zero hf, by simp [he], if_neg hf⟩
  · have hmax : max (expField w1 v : ℤ) 1 = expField w1 v := max_eq_left (by omega)
    rw [if_neg he]
    exact .inr ⟨_, _, by positivity, by rw [if_neg he, hmax], rfl⟩

theorem fnarrow_rounded {w1 : FWidth} {v : Wide} (h : isFinite w1 v = true) (w2 : FWidth) (m : RMode) :
    RoundedFloat w2 m (signBit w1 v) |floatValue w1 v| (fnarrow w1 w2 m v).1 (fnarrow w1 w2 m v).2 := by
  rw [abs_floatValue]
  obtain ⟨hz, hr⟩ | ⟨sig, exp, hs, hx, hr⟩ := fnarrow_of_isFinite h w2 m
  · rw [hz, magValue_zero, hr]
    exact .zero w2 m _
  · rw [← hx, hr]
    exact roundToFormat_rounded hs w2 m _ exp

/-- An infinity stays one. -/
theorem fnarrow_of_infinity {w1 : FWidth} {v : Wide} (he : expField w1 v = w1.maxExp) (hf : fracField w1 v = 0)
    (w2 : FWidth) (m : RMode) : fnarrow w1 w2 m v = (packFloat w2 (signBit w1 v) w2.maxExp 0, .none) := by
  unfold fnarrow
  rw [if_pos he, if_pos hf]

theorem fwiden_of_infinity {w1 : FWidth} {v : Wide} (he : expField w1 v = w1.maxExp) (hf : fracField w1 v = 0)
    (w2 : FWidth) : fwiden w1 w2 v = (packFloat w2 (signBit w1 v) w2.maxExp 0, .none) := by
  unfold fwiden
  rw [if_pos he, if_pos hf]

/-- A wider format has room for the exponents and the fractions of a narrower one, its subnormal values included. -/
theorem FWidth.wider {w1 w2 : FWidth} (h : w1.bits < w2.bits) :
    w1.frac < w2.frac ∧ w1.bias + w1.frac ≤ w2.bias := by
  revert h
  cases w1 <;> cases w2 <;> decide

/-- A significand moved up by `j` bits, with the unit `2^j` times smaller, is the same magnitude. -/
theorem magValue_shift {w1 w2 : FWidth} {E1 E2 n j : ℕ} (hn1 : n ≤ 2 ^ (w1.frac + 1))
    (hE1 : E1 = 0 ∨ 2 ^ w1.frac ≤ n) (hn2 : n * 2 ^ j ≤ 2 ^ (w2.frac + 1)) (hE2 : 2 ^ w2.frac ≤ n * 2 ^ j)
    (hu : unitExp w2 E2 + j = unitExp w1 E1) :
    magValue w2 (E2 * 2 ^ w2.frac + n * 2 ^ j) = magValue w1 (E1 * 2 ^ w1.frac + n) := by
  rw [magValue_parts w1 hn1 hE1, magValue_parts w2 hn2 (.inr hE2), ← hu, zpow_add₀ two_ne_zero, zpow_natCast]
  push_cast
  ring

/-- The exponent and fraction fields of a normal magnitude, as its parts. -/
theorem succ_mul_add (w : FWidth) (E f : ℕ) : (E + 1) * 2 ^ w.frac + f = E * 2 ^ w.frac + (2 ^ w.frac + f) := by ring

theorem fields_lt (w : FWidth) {e f : ℕ} (he : e < w.maxExp) (hf : f < 2 ^ w.frac) :
    e * 2 ^ w.frac + f < w.maxExp * 2 ^ w.frac :=
  calc e * 2 ^ w.frac + f < (e + 1) * 2 ^ w.frac := by rw [Nat.succ_mul]; omega
    _ ≤ _ := Nat.mul_le_mul_right _ he

section
variable {w1 w2 : FWidth} (hw : w1.bits < w2.bits)
include hw

/-- A subnormal magnitude with its top bit in place is a normal one of the wider format. -/
theorem widen_subnormal {f : ℕ} (hf0 : f ≠ 0) (hf : f < 2 ^ w1.frac) :
    (f.log2 + 1 + w2.bias - w1.bias - w1.frac) * 2 ^ w2.frac + (f - 2 ^ f.log2) <<< (w2.frac - f.log2) <
        w2.maxExp * 2 ^ w2.frac ∧
      magValue w2 ((f.log2 + 1 + w2.bias - w1.bias - w1.frac) * 2 ^ w2.frac +
        (f - 2 ^ f.log2) <<< (w2.frac - f.log2)) = magValue w1 f := by
  obtain ⟨hfrac, hbias⟩ := FWidth.wider hw
  have hmax := w2.maxExp_eq
  have hk : f.log2 < w1.frac := (Nat.log2_lt hf0).mpr hf
  have hlo := Nat.log2_self_le hf0
  have hhi : f < 2 ^ (f.log2 + 1) := Nat.lt_log2_self
  generalize f.log2 = k at hk hlo hhi ⊢
  have hpow : 2 ^ w2.frac = 2 ^ k * 2 ^ (w2.frac - k) := by rw [← pow_add]; congr 1; omega
  have hsig : 2 ^ w2.frac + (f - 2 ^ k) <<< (w2.frac - k) = f * 2 ^ (w2.frac - k) := by
    rw [Nat.shiftLeft_eq, hpow, ← add_mul, Nat.add_sub_cancel' hlo]
  have hlt : f * 2 ^ (w2.frac - k) < 2 ^ (w2.frac + 1) := by
    rw [pow_succ', hpow, ← mul_assoc, ← pow_succ']
    exact Nat.mul_lt_mul_of_pos_right hhi (by positivity)
  rw [show k + 1 + w2.bias - w1.bias - w1.frac = k + (w2.bias - w1.bias - w1.frac) + 1 by omega]
  refine ⟨fields_lt w2 (by omega) (by rw [pow_succ'] at hlt; omega), ?_⟩
  have hshift := magValue_shift (w1 := w1) (w2 := w2) (E1 := 0) (E2 := k + (w2.bias - w1.bias - w1.frac)) (n := f)
    (j := w2.frac - k) (by rw [pow_succ']; omega) (.inl rfl) hlt.le (Nat.le.intro hsig) (by unfold unitExp; omega)
  rwa [zero_mul, zero_add, ← hsig, ← succ_mul_add] at hshift

/-- A normal magnitude is the one of the wider format with the exponent rebiased and zeros below the fraction. -/
theorem widen_normal {e f : ℕ} (he0 : e ≠ 0) (he : e < w1.maxExp) (hf : f < 2 ^ w1.frac) :
    (e + w2.bias - w1.bias) * 2 ^ w2.frac + f <<< (w2.frac - w1.frac) < w2.maxExp * 2 ^ w2.frac ∧
      magValue w2 ((e + w2.bias - w1.bias) * 2 ^ w2.frac + f <<< (w2.frac - w1.frac)) =
        magValue w1 (e * 2 ^ w1.frac + f) := by
  obtain ⟨hfrac, hbias⟩ := FWidth.wider hw
  have hmax1 := w1.maxExp_eq
  have hmax2 := w2.maxExp_eq
  obtain ⟨E, rfl⟩ := Nat.exists_eq_succ_of_ne_zero he0
  have hpow : 2 ^ w2.frac = 2 ^ w1.frac * 2 ^ (w2.frac - w1.frac) := by rw [← pow_add]; congr 1; omega
  have hsig : 2 ^ w2.frac + f <<< (w2.frac - w1.frac) = (2 ^ w1.frac + f) * 2 ^ (w2.frac - w1.frac) := by
    rw [Nat.shiftLeft_eq, hpow, add_mul]
  have hlt : f <<< (w2.frac - w1.frac) < 2 ^ w2.frac := by
    rw [Nat.shiftLeft_eq, hpow]
    exact Nat.mul_lt_mul_of_pos_right hf (by positivity)
  rw [show E.succ + w2.bias - w1.bias = E + (w2.bias - w1.bias) + 1 by omega]
  refine ⟨fields_lt w2 (by omega) hlt, ?_⟩
  rw [succ_mul_add, succ_mul_add, hsig]
  refine magValue_shift ?_ (.inr (Nat.le_add_right _ _)) ?_ (Nat.le.intro hsig) (by unfold unitExp; omega)
  · rw [pow_succ']
    omega
  · rw [← hsig, pow_succ']
    omega

/-- Widening a finite value keeps its sign and its magnitude, which stays finite. -/
theorem fwiden_of_isFinite {v : Wide} (h : isFinite w1 v = true) :
    ∃ M, M < w2.maxExp * 2 ^ w2.frac ∧ magValue w2 M = magValue w1 (magnitude w1 v) ∧
      fwiden w1 w2 v = (packMagnitude w2 (signBit w1 v) M, .none) := by
  have hf := fracField_lt w1 v
  have he := expField_le w1 v
  rw [isFinite, bne_iff_ne] at h
  rw [magnitude_eq]
  unfold fwiden
  rw [if_neg h]
  by_cases he0 : expField w1 v = 0
  · by_cases hf0 : fracField w1 v = 0
    · exact ⟨0, maxExp_mul_pos w2, by simp [he0, hf0, magValue_zero], by simp [he0, hf0, packFloat]⟩
    · obtain ⟨hlt, hval⟩ := widen_subnormal hw hf0 hf
      exact ⟨_, hlt, by rw [hval, he0, zero_mul, zero_add], by rw [if_pos he0, if_neg hf0]; rfl⟩
  · obtain ⟨hlt, hval⟩ := widen_normal hw he0 (by omega) hf
    exact ⟨_, hlt, hval, by rw [if_neg he0]; rfl⟩

end

theorem isFinite_or_infinity_of_not_isNaN {w : FWidth} {v : Wide} (h : isNaN w v = false) :
    isFinite w v = true ∨ expField w v = w.maxExp ∧ fracField w v = 0 := by
  by_cases he : expField w v = w.maxExp
  · exact .inr ⟨he, by simpa [isNaN, he] using h⟩
  · exact .inl (by simpa [isFinite] using he)

theorem fwiden_of_isNaN {w1 : FWidth} {v : Wide} (h : isNaN w1 v = true) (w2 : FWidth) :
    fwiden w1 w2 v = (canonicalNaN w2, invalidIf (!v.getLsbD (w1.frac - 1))) := by
  have hs : isSignallingNaN w1 v = !v.getLsbD (w1.frac - 1) := by rw [isSignallingNaN, h, Bool.true_and]
  simp only [isNaN, Bool.and_eq_true, beq_iff_eq, bne_iff_ne] at h
  unfold fwiden
  rw [if_pos h.1, if_neg h.2, hs]

theorem fnarrow_of_isNaN {w1 : FWidth} {v : Wide} (h : isNaN w1 v = true) (w2 : FWidth) (m : RMode) :
    fnarrow w1 w2 m v = (canonicalNaN w2, invalidIf (!v.getLsbD (w1.frac - 1))) := by
  have hs : isSignallingNaN w1 v = !v.getLsbD (w1.frac - 1) := by rw [isSignallingNaN, h, Bool.true_and]
  simp only [isNaN, Bool.and_eq_true, beq_iff_eq, bne_iff_ne] at h
  unfold fnarrow
  rw [if_pos h.1, if_neg h.2, hs]

/-! ## Values of one sign -/

/-- Of two values of one sign, the distance is that of their magnitudes. -/
theorem abs_floatValue_sub {w1 w2 : FWidth} {v r : Wide} (h : signBit w2 r = signBit w1 v) :
    |floatValue w2 r - floatValue w1 v| = |magValue w2 (magnitude w2 r) - magValue w1 (magnitude w1 v)| := by
  rw [floatValue_eq, floatValue_eq, h, ← mul_sub, abs_mul]
  cases signBit w1 v <;> simp

theorem floatValue_eq_floatValue_iff {w1 w2 : FWidth} {v r : Wide} (h : signBit w2 r = signBit w1 v) :
    floatValue w2 r = floatValue w1 v ↔ magValue w2 (magnitude w2 r) = magValue w1 (magnitude w1 v) := by
  rw [← sub_eq_zero, ← abs_eq_zero, abs_floatValue_sub h, abs_eq_zero, sub_eq_zero]

/-- Of any two values the distance is at least that of their magnitudes. -/
theorem abs_magValue_sub_le (w1 w2 : FWidth) (v u : Wide) :
    |magValue w2 (magnitude w2 u) - magValue w1 (magnitude w1 v)| ≤ |floatValue w2 u - floatValue w1 v| := by
  rw [← abs_floatValue, ← abs_floatValue]
  exact abs_abs_sub_abs_le_abs_sub _ _

section
variable {w1 w2 : FWidth} {m : RMode} {neg : Bool} {v r u : Wide}
  (h : RoundsOnGrid w2 m neg (magValue w1 (magnitude w1 v)) (magnitude w2 r)) (hs : signBit w2 r = signBit w1 v)
  (hm : m = .rne ∨ m = .rmm)
include h hs hm

/-- Rounded to the nearest, a finite result is as near as any value of the format, of either sign. -/
theorem RoundsOnGrid.nearest_floatValue (hu : isFinite w2 u = true) :
    |floatValue w2 r - floatValue w1 v| ≤ |floatValue w2 u - floatValue w1 v| := by
  rw [abs_floatValue_sub hs]
  exact (h.nearest hm _ (isFinite_iff.mp hu)).trans (abs_magValue_sub_le w1 w2 v u)

/-- The opposite of a rounded value is farther, unless it is the same zero. -/
theorem RoundsOnGrid.floatValue_eq_of_magnitude_eq (hM : magnitude w2 u = magnitude w2 r)
    (he : |floatValue w2 r - floatValue w1 v| = |floatValue w2 u - floatValue w1 v|) :
    floatValue w2 u = floatValue w2 r := by
  have hR := magValue_nonneg w2 (magnitude w2 r)
  have hX := magValue_nonneg w1 (magnitude w1 v)
  have hzero := h.nearest hm 0 (maxExp_mul_pos w2)
  rw [abs_floatValue_sub hs, floatValue_eq w2 u, floatValue_eq w1 v, hM] at he
  rw [magValue_zero, zero_sub, abs_neg, abs_of_nonneg hX] at hzero
  rw [floatValue_eq, floatValue_eq, hs, hM]
  generalize magValue w2 (magnitude w2 r) = R at hR hzero he ⊢
  generalize magValue w1 (magnitude w1 v) = X at hX hzero he
  by_cases hsign : signBit w2 u = signBit w1 v
  · rw [hsign]
  · have hopposite : |(if signBit w2 u then -1 else 1) * R - (if signBit w1 v then -1 else 1) * X| = R + X := by
      rw [← abs_of_nonneg (add_nonneg hR hX)]
      cases hv : signBit w1 v <;> rw [hv] at hsign
      · rw [Bool.eq_true_of_not_eq_false hsign, ← abs_neg]
        simp [add_comm]
      · rw [Bool.eq_false_of_not_eq_true hsign]
        simp
    have hR0 : R = 0 := by linarith
    rw [hR0, mul_zero, mul_zero]

/-- Another value as near is another magnitude as near, at a tie. -/
theorem RoundsOnGrid.tie_floatValue (hu : isFinite w2 u = true)
    (he : |floatValue w2 r - floatValue w1 v| = |floatValue w2 u - floatValue w1 v|)
    (hne : floatValue w2 u ≠ floatValue w2 r) : (m = .rne → magnitude w2 r % 2 = 0) ∧
      (m = .rmm → magValue w1 (magnitude w1 v) ≤ magValue w2 (magnitude w2 r)) := by
  have hnear := h.nearest hm _ (isFinite_iff.mp hu)
  have hle := abs_magValue_sub_le w1 w2 v u
  rw [← he, abs_floatValue_sub hs] at hle
  exact h.tie hm _ (isFinite_iff.mp hu) (le_antisymm hnear hle) fun hM =>
    hne (h.floatValue_eq_of_magnitude_eq hs hm hM he)

end

/-! ## Fields of particular values -/

theorem packMagnitude_zero (w : FWidth) (s : Bool) : packMagnitude w s 0 = packFloat w s 0 0 := by
  rw [packFloat, zero_mul]

/-- A value that fits is its three fields. -/
theorem packFloat_fields {w : FWidth} {v : Wide} (h : v.toNat < 2 ^ w.bits) :
    packFloat w (signBit w v) (expField w v) (fracField w v) = v := by
  rw [packFloat, ← magnitude_eq, packMagnitude_signBit_magnitude h]

theorem fields_packFloat_infinity (w : FWidth) (s : Bool) :
    expField w (packFloat w s w.maxExp 0) = w.maxExp ∧ fracField w (packFloat w s w.maxExp 0) = 0 ∧
      signBit w (packFloat w s w.maxExp 0) = s := by
  rw [packFloat, add_zero, expField_eq, fracField_eq, magnitude_packMagnitude s (maxExp_mul_lt w)]
  exact ⟨Nat.mul_div_cancel _ (by positivity), Nat.mul_mod_left _ _, signBit_packMagnitude s (maxExp_mul_lt w)⟩

theorem getLsbD_zero_of_even {w : FWidth} {v : Wide} (h : magnitude w v % 2 = 0) : v.getLsbD 0 = false := by
  have hdvd : 2 ∣ 2 ^ (w.bits - 1) := by
    rw [two_pow_bits_sub_one]
    exact (dvd_pow_self 2 w.frac_pos.ne').mul_right _
  rw [magnitude, Nat.mod_mod_of_dvd _ hdvd] at h
  rw [BitVec.getLsbD, Nat.testBit_zero, h]
  rfl

end Sys2Proof.Machine
end

section
/-! SUPPORT for the statements of 41_vector_engine.md: tags and their configuration, elements, and the types a vector
operation resolves, extends and truncates. -/

namespace Sys2Proof

/-! ## Element widths -/

theorem EWidth.bits_injective : Function.Injective EWidth.bits := by
  intro w w' h
  revert h
  cases w <;> cases w' <;> decide

theorem EWidth.bits_le (w : EWidth) : w.bits ≤ 128 := by
  cases w <;> decide

end Sys2Proof

namespace Sys2Proof.Machine

/-! ## Low bits -/

theorem lowWide_lowWide (n : Nat) (v : Wide) : lowWide n (lowWide n v) = lowWide n v := by
  apply BitVec.eq_of_getLsbD_eq
  intro k hk
  rw [lowWide_getLsbD _ _ _ hk, lowWide_getLsbD _ _ _ hk, ← Bool.and_assoc, Bool.and_self]

theorem toNat_lowWide {n : Nat} (hn : n ≤ 128) (v : Wide) : (lowWide n v).toNat = v.toNat % 2 ^ n := by
  have hlt : v.toNat % 2 ^ n < 2 ^ 128 :=
    (Nat.mod_lt _ (by positivity)).trans_le (Nat.pow_le_pow_right two_pos hn)
  rw [lowWide, BitVec.toNat_setWidth, BitVec.toNat_setWidth, Nat.mod_eq_of_lt hlt]

/-! ## Elements -/

/-- A stored element has no bits above its width. -/
theorem lowWide_storedElem (p : Params) (r : Reg) (w : EWidth) (v : Wide) :
    lowWide w.bits (storedElem p r w v) = storedElem p r w v := by
  unfold storedElem
  split
  · simp [lowWide]
  · exact lowWide_lowWide _ _

/-! ## Type resolution (41_vector_engine.md R209) -/

theorem resolveType_of_float {t : Tag} {ts : List Tag} (h : ∀ u ∈ t :: ts, u.rep = .float) :
    resolveType (t :: ts) = some ⟨.w128, .float⟩ :=
  if_pos (List.all_eq_true.mpr fun u hu => beq_iff_eq.mpr (h u hu))

theorem resolveType_of_mixed {t : Tag} {ts : List Tag} (hf : ∃ u ∈ t :: ts, u.rep = .float)
    (hi : ∃ u ∈ t :: ts, u.rep ≠ .float) : resolveType (t :: ts) = none := by
  have hall : ¬(t :: ts).all (·.rep == .float) = true := by
    obtain ⟨u, hu, hne⟩ := hi
    exact fun h => hne (beq_iff_eq.mp (List.all_eq_true.mp h u hu))
  have hany : (t :: ts).any (·.rep == .float) = true := by simpa using hf
  rw [resolveType, if_neg hall, if_pos hany]

theorem resolveType_of_int {t : Tag} {ts : List Tag} (h : ∀ u ∈ t :: ts, u.rep ≠ .float) :
    resolveType (t :: ts) = some ⟨t.width, t.rep⟩ := by
  have hall : ¬(t :: ts).all (·.rep == .float) = true := by
    simpa using fun ht => absurd ht (h t List.mem_cons_self)
  have hany : ¬(t :: ts).any (·.rep == .float) = true := by simpa using h
  rw [resolveType, if_neg hall, if_neg hany]

/-! ## Extension (41_vector_engine.md R210) -/

section
variable {t : Tag} {ty : VType} {v : Wide}

theorem extendValue_int (ht : t.rep ≠ .float) (hty : ty.rep ≠ .float) (v : Wide) : extendValue t ty v =
    if t.width.bits < ty.width.bits then some (extendInt t.rep t.width.bits ty.width.bits v, .none)
    else if t.width = ty.width then some (v, .none) else none := by
  rw [extendValue, if_neg fun h => ht h.1, if_neg fun h => h.elim ht hty]

theorem extendValue_float {w1 w2 : FWidth} (ht : t.rep = .float) (hty : ty.rep = .float)
    (h1 : floatFormat t.width = some w1) (h2 : floatFormat ty.width = some w2) (v : Wide) : extendValue t ty v =
    if t.width.bits < ty.width.bits then some (fwiden w1 w2 v)
    else if t.width = ty.width then some (v, .none) else none := by
  rw [extendValue, if_pos ⟨ht, hty⟩, h1, h2]

theorem extendValue_of_float_w8 (ht : t.rep = .float) (hw : t.width = .w8) : extendValue t ty v = none := by
  by_cases hty : ty.rep = .float
  · rw [extendValue, if_pos ⟨ht, hty⟩, hw]
    rfl
  · rw [extendValue, if_neg fun h => hty h.2, if_pos (.inl ht)]

theorem extendValue_of_mixed (h : ¬(t.rep = .float ↔ ty.rep = .float)) : extendValue t ty v = none := by
  rw [extendValue, if_neg fun hb => h (iff_of_true hb.1 hb.2), if_pos (by tauto)]

/-- Whether an extension is allowed depends on the tags alone. -/
theorem extendValue_isSome (t : Tag) (ty : VType) (v : Wide) : (extendValue t ty v).isSome = extendAllowed t ty := by
  unfold extendAllowed extendValue
  repeat' split
  all_goals rfl

end

/-- An integer extended by its own signedness keeps its value. -/
theorem toInt_extendInt_sint {w n : Nat} (hw : w ≤ n) (hn : n ≤ 128) (v : Wide) :
    ((extendInt .sint w n v).setWidth n).toInt = (v.setWidth w).toInt := by
  have hset : (extendInt .sint w n v).setWidth n = (v.setWidth w).signExtend n := by
    apply BitVec.eq_of_getLsbD_eq
    intro k hk
    simp [extendInt, lowWide, hk, show k < 128 by omega, BitVec.getElem_signExtend]
  rw [hset, BitVec.toInt_signExtend_of_le hw]

/-! ## Floating-point element widths -/

theorem floatFormat_eq_none_iff {w : EWidth} : floatFormat w = none ↔ w = .w8 := by
  cases w <;> decide

theorem floatFormat_bits {w : EWidth} {f : FWidth} (h : floatFormat w = some f) : w.bits = f.bits := by
  cases w <;> cases h <;> rfl

theorem FWidth.bits_injective : Function.Injective FWidth.bits := by
  intro w w' h
  revert h
  cases w <;> cases w' <;> decide

theorem width_eq_iff_of_floatFormat {w w' : EWidth} {f f' : FWidth} (h : floatFormat w = some f)
    (h' : floatFormat w' = some f') : w = w' ↔ f = f' := by
  rw [← EWidth.bits_injective.eq_iff, floatFormat_bits h, floatFormat_bits h', FWidth.bits_injective.eq_iff]

/-! ## Truncation (41_vector_engine.md R211) -/

section
variable {ty : VType} {d : Tag} {m : Option RMode} {r : Wide}

theorem truncateValue_int (hd : d.rep ≠ .float) (hty : ty.rep ≠ .float) (m : Option RMode) (r : Wide) :
    truncateValue ty d m r =
      if d.width.bits ≤ ty.width.bits then some (lowWide d.width.bits r, .none) else none := by
  rw [truncateValue, if_neg fun h => hd h.1, if_neg fun h => h.elim hd hty]

theorem truncateValue_float {wd wt : FWidth} (hd : d.rep = .float) (hty : ty.rep = .float)
    (h1 : floatFormat d.width = some wd) (h2 : floatFormat ty.width = some wt) (m : Option RMode) (r : Wide) :
    truncateValue ty d m r =
      if d.width.bits < ty.width.bits then m.map fun mode => fnarrow wt wd mode r
      else if d.width = ty.width then some (r, .none) else none := by
  rw [truncateValue, if_pos ⟨hd, hty⟩, h1, h2]

theorem truncateValue_of_float_w8 (hd : d.rep = .float) (hw : d.width = .w8) : truncateValue ty d m r = none := by
  by_cases hty : ty.rep = .float
  · rw [truncateValue, if_pos ⟨hd, hty⟩, hw]
    rfl
  · rw [truncateValue, if_neg fun h => hty h.2, if_pos (.inl hd)]

theorem truncateValue_of_mixed (h : ¬(d.rep = .float ↔ ty.rep = .float)) : truncateValue ty d m r = none := by
  rw [truncateValue, if_neg fun hb => h (iff_of_true hb.1 hb.2), if_pos (by tauto)]

end

/-! ## Requested tags (41_vector_engine.md R201) -/

theorem widthOf_eq_none_iff {n : Nat} : widthOf n = none ↔ n ∉ [8, 16, 32, 64, 128] := by
  simp only [widthOf, List.mem_cons, List.not_mem_nil]
  repeat' split
  all_goals simp_all

theorem bits_of_widthOf {n : Nat} {w : EWidth} (h : widthOf n = some w) : w.bits = n := by
  unfold widthOf at h
  split_ifs at h <;> cases h <;> exact Eq.symm ‹_›

theorem requestedTag_eq_none {q : TagRequest}
    (h : q.width ∉ [8, 16, 32, 64, 128] ∨ q.rep = none ∨ q.rep = some .float ∧ q.width = 8) :
    requestedTag q = none := by
  unfold requestedTag
  rcases h with hw | hr | ⟨hr, hw⟩
  · rw [widthOf_eq_none_iff.mpr hw]
  · rw [hr]
    cases widthOf q.width <;> rfl
  · rw [hr, hw]
    rfl

theorem requestedTag_eq_some {q : TagRequest} {w : EWidth} {r : Rep} (hw : widthOf q.width = some w)
    (hr : q.rep = some r) (h : ¬(r = .float ∧ w = .w8)) : requestedTag q = some ⟨q.shape, w, r⟩ := by
  rw [requestedTag, hw, hr]
  exact if_neg h

theorem groupsValid_eq_false {g : Groups} (h : (g.map (·.1)).sum > 32 ∨ ∃ p ∈ g, requestedTag p.2 = none) :
    groupsValid g = false := by
  rw [groupsValid, Bool.and_eq_false_iff, decide_eq_false_iff_not, List.all_eq_false]
  exact h.imp Nat.not_le.mpr fun ⟨p, hp, hn⟩ => ⟨p, hp, by simp [hn]⟩

/-! ## Configuration (41_vector_engine.md R200, R202) -/

theorem sum_le_of_groupsValid {g : Groups} (h : groupsValid g = true) : (g.map (·.1)).sum ≤ 32 := by
  rw [groupsValid, Bool.and_eq_true, decide_eq_true_eq] at h
  exact h.1

theorem length_assignedTags (g : Groups) : (assignedTags g).length = (g.map (·.1)).sum := by
  simp [assignedTags, List.length_flatMap]

/-- A register of the file, as an entry of the list its tags are taken from. -/
theorem getElem?_tagFile (g : Groups) {k : Nat} (hk : k < 32) :
    (tagFile g)[k]? = (assignedTags g ++ List.replicate 32 VTag.unconfigured)[k]? := by
  simp [tagFile, hk]

/-- The registers of a group carry its tag. -/
theorem tagFile_of_group {pre post : Groups} {c j : Nat} {q : TagRequest} {tag : Tag}
    (hv : groupsValid (pre ++ (c, q) :: post) = true) (hj : j < c) (hq : requestedTag q = some tag) :
    (tagFile (pre ++ (c, q) :: post))[(pre.map (·.1)).sum + j]? = some (.configured tag) := by
  have hsum := sum_le_of_groupsValid hv
  rw [List.map_append, List.map_cons, List.sum_append, List.sum_cons] at hsum
  have hassigned : assignedTags (pre ++ (c, q) :: post) =
      assignedTags pre ++ (List.replicate c (.configured tag) ++ assignedTags post) := by
    simp only [assignedTags, List.flatMap_append, List.flatMap_cons, hq]
  rw [getElem?_tagFile _ (by omega), hassigned, List.append_assoc, ← length_assignedTags,
    List.getElem?_append_right (Nat.le_add_right _ _), Nat.add_sub_cancel_left, List.append_assoc,
    List.getElem?_append_left (by simpa using hj), List.getElem?_replicate_of_lt hj]

/-- The registers past the groups are Unconfigured. -/
theorem tagFile_of_rest {g : Groups} {k : Nat} (hk : k < 32) (h : (g.map (·.1)).sum ≤ k) :
    (tagFile g)[k] = .unconfigured := by
  have hget := getElem?_tagFile g hk
  rw [List.getElem?_append_right (by rwa [length_assignedTags]), List.getElem?_replicate_of_lt (by omega),
    Vector.getElem?_eq_getElem hk, Option.some_inj] at hget
  exact hget

theorem configure_run (avl : Word) (g : Groups) (s : State) : configure avl g s =
    match supports s .v with
    | .yes =>
      if groupsValid g = true then
        match csrWriteFault s.params s.params.vcfgCsr (Config.vcfgEnc g) with
        | none => .ok (BitVec.ofNat 64 (min avl.toNat (maxVlOf s.params g)))
            ((s.putCsr s.params.vcfgCsr (Config.vcfgEnc g)).configured avl g)
        | some r => .error (.collaborator r) s
      else .error .illegal s
    | .no => .error .illegal s
    | .faults r => .error (.collaborator r) s := by
  cases hs : supports s .v <;> cases hg : groupsValid g <;>
    cases hf : csrWriteFault s.params s.params.vcfgCsr (Config.vcfgEnc g) <;> simp [configure, hs, hg, hf]

end Sys2Proof.Machine
end

section
/-! SUPPORT for the statements of 41_vector_engine.md: the states an element loop goes through, and what an element-wise
operation answers, element by element. -/

namespace Sys2Proof.Machine

/-! ## Elements written in order -/

/-- The state after elements `0 .. k-1` of register `d` were written. -/
def State.putElems (s : State) (d : Reg) (w : EWidth) (v : Nat → Wide) : Nat → State
  | 0 => s
  | k + 1 => (s.putElems d w v k).putElem d w k (v k)

section
variable (s : State) (d : Reg) (w : EWidth) (v : Nat → Wide) (k : Nat)

/-- Nothing but the elements changes. -/
theorem putElems_eq : s.putElems d w v k = { s with velem := (s.putElems d w v k).velem } := by
  induction k with
  | zero => rfl
  | succ k ih =>
    rw [State.putElems, putElem_eq]
    exact congrArg (fun t : State => { t with velem := ((s.putElems d w v k).putElem d w k (v k)).velem }) ih

@[simp] theorem putElems_params : (s.putElems d w v k).params = s.params := by rw [putElems_eq]

@[simp] theorem putElems_inputs : (s.putElems d w v k).inputs = s.inputs := by rw [putElems_eq]

@[simp] theorem putElems_mem : (s.putElems d w v k).mem = s.mem := by rw [putElems_eq]

@[simp] theorem putElems_fflags : (s.putElems d w v k).fflags = s.fflags := by rw [putElems_eq]

end

section
variable {s : State} {d : Reg} (w : EWidth) (v : Nat → Wide) {k : Nat}

theorem elemsSized_putElems (hs : s.elemsSized = true) : (s.putElems d w v k).elemsSized = true := by
  induction k with
  | zero => exact hs
  | succ k ih => exact elemsSized_putElem d w k (v k) ih

/-- Another register, and an element not yet reached, keeps its cell. -/
theorem elemCell_putElems_ne {q : Reg} {e : Nat} (h : q ≠ d ∨ k ≤ e) :
    (s.putElems d w v k).elemCell q e = s.elemCell q e := by
  induction k with
  | zero => rfl
  | succ k ih => rw [State.putElems, elemCell_putElem_ne w (v k) (h.imp_right (by omega)), ih (h.imp_right (by omega))]

/-- An element written keeps what was stored. -/
theorem elemCell_putElems_lt (hs : s.elemsSized = true) (hk : k ≤ s.params.vlmax) {e : Nat} (he : e < k) :
    (s.putElems d w v k).elemCell d e = storedElem s.params d w (v e) := by
  induction k with
  | zero => exact absurd he (Nat.not_lt_zero e)
  | succ k ih =>
    rcases Nat.lt_succ_iff_lt_or_eq.mp he with hlt | rfl
    · rw [State.putElems, elemCell_putElem_ne w (v k) (.inr hlt.ne), ih (by omega) hlt]
    · have hlen : e < (s.putElems d w v e).params.vlmax := by simpa using hk
      rw [State.putElems, elemCell_putElem_self w (v e) (elemsSized_putElems w v hs) hlen, putElems_params]

end

/-! ## One element of an element-wise operation (41_vector_engine.md R214) -/

/-- A source gives its old element, also where it is the destination: a scalar destination has one element alone, and a
vector's is written after it is read. -/
theorem operandElem_putElems {s : State} {d r : Reg} {dt t : Tag} {k : Nat} (hd : s.tagOf d = .configured dt)
    (hr : s.tagOf r = .configured t) (hk : k < effLen s dt) (v : Nat → Wide) :
    (s.putElems d dt.width v k).operandElem r t k = s.operandElem r t k := by
  have hcell : r ≠ d ∨ k ≤ operandIndex t k := by
    by_cases hrd : r = d
    · right
      subst hrd
      cases hd.symm.trans hr
      unfold operandIndex
      unfold effLen at hk
      cases hs : dt.shape with
      | scalar =>
        rw [hs] at hk
        exact Nat.le_of_lt_succ hk
      | vector => exact le_rfl
    · exact .inl hrd
  rw [State.operandElem, State.operandElem, State.elem, State.elem, elemCell_putElems_ne _ _ hcell]

/-- The sources' values where the conversions allow each. -/
theorem extendOperands_run {ty : VType} {e : Nat} {l : List (Reg × Tag)} {as : List (Wide × FFlags)} {s : State}
    (h : l.map (fun p => extendValue p.2 ty (s.operandElem p.1 p.2 e)) = as.map some) :
    extendOperands ty e l s = .ok (as.map (·.1), (as.map (·.2)).foldr FFlags.merge .none) s := by
  induction l generalizing as with
  | nil =>
    cases as with
    | nil => rfl
    | cons a as => cases h
  | cons p l ih =>
    cases as with
    | nil => cases h
    | cons a as =>
      rw [List.map_cons, List.map_cons, List.cons.injEq] at h
      simp only [extendOperands, bind_run, look_run, h.1, orIllegal, ih h.2, pure_run, List.map_cons, List.foldr_cons]

/-- The sources, each of its tag. -/
theorem tagOf_of_mem_zip {s : State} {srcs : List Reg} {ts : List Tag} (h : srcs.map s.tagOf = ts.map VTag.configured)
    {p : Reg × Tag} (hp : p ∈ srcs.zip ts) : s.tagOf p.1 = .configured p.2 := by
  induction srcs generalizing ts with
  | nil => simp at hp
  | cons r srcs ih =>
    cases ts with
    | nil => simp at hp
    | cons t ts =>
      rw [List.map_cons, List.map_cons, List.cons.injEq] at h
      rw [List.zip_cons_cons, List.mem_cons] at hp
      rcases hp with rfl | hp
      · exact h.1
      · exact ih h.2 hp

/-- What an element-wise operation on configured registers whose tags go together starts from. -/
structure VopReady (s : State) (d : Reg) (srcs : List Reg) (ts : List Tag) (dt : Tag) (ty : VType) : Prop where
  supported : supports s .v = .yes
  dest : s.tagOf d = .configured dt
  sources : srcs.map s.tagOf = ts.map VTag.configured
  resolved : resolveType ts = some ty
  allowed : combinationAllowed ty ts dt = true

section
variable {s : State} {d : Reg} {srcs : List Reg} {ts : List Tag} {dt : Tag} {ty : VType} {field : BitVec 3}
  {op : VectorOp} {k : Nat} {as : List (Wide × FFlags)}

theorem VopReady.vop_run (h : VopReady s d srcs ts dt ty) (field : BitVec 3) (op : VectorOp) :
    vop field op d srcs s = elementLoop (opElement field op ty d dt (srcs.zip ts)) 0 (effLen s dt) s := by
  simp [vop, h.supported, requireConfigured_of_configured h.dest, requireAll_of_configured h.sources, h.resolved,
    orIllegal, h.allowed]

/-- Past earlier elements the operands are the old ones. -/
theorem VopReady.extendOperands_run (h : VopReady s d srcs ts dt ty) (hk : k < effLen s dt) (v : Nat → Wide)
    (has : (srcs.zip ts).map (fun p => extendValue p.2 ty (s.operandElem p.1 p.2 k)) = as.map some) :
    extendOperands ty k (srcs.zip ts) (s.putElems d dt.width v k) =
      .ok (as.map (·.1), (as.map (·.2)).foldr FFlags.merge .none) (s.putElems d dt.width v k) := by
  refine Machine.extendOperands_run (Eq.trans (List.map_congr_left fun p hp => ?_) has)
  rw [operandElem_putElems h.dest (tagOf_of_mem_zip h.sources hp) hk]

/-- An element that completes. -/
theorem VopReady.opElement_ok (h : VopReady s d srcs ts dt ty) (hk : k < effLen s dt) (v : Nat → Wide × FFlags)
    (has : (srcs.zip ts).map (fun p => extendValue p.2 ty (s.operandElem p.1 p.2 k)) = as.map some) {r : Wide}
    (hop : op (as.map (·.1)) = .ok r) (ht : truncateValue ty dt (selectMode field s.inputs.frm) r = some (v k)) :
    opElement field op ty d dt (srcs.zip ts) k (s.putElems d dt.width (fun e => (v e).1) k) =
      .ok (((as.map (·.2)).foldr FFlags.merge .none).merge (v k).2)
        (s.putElems d dt.width (fun e => (v e).1) (k + 1)) := by
  simp only [opElement, bind_run, h.extendOperands_run hk _ has, applyOp, hop, truncateElem, putElems_inputs, ht,
    orIllegal, change_run, pure_run]
  rfl

/-- An element whose arithmetic stops. -/
theorem VopReady.opElement_error (h : VopReady s d srcs ts dt ty) (hk : k < effLen s dt) (v : Nat → Wide)
    (has : (srcs.zip ts).map (fun p => extendValue p.2 ty (s.operandElem p.1 p.2 k)) = as.map some) {x : Stop}
    (hop : op (as.map (·.1)) = .error x) :
    opElement field op ty d dt (srcs.zip ts) k (s.putElems d dt.width v k) = .error x (s.putElems d dt.width v k) := by
  simp only [opElement, bind_run, h.extendOperands_run hk _ has, applyOp, hop]

/-- An element whose truncation finds no rounding mode. -/
theorem VopReady.opElement_illegal (h : VopReady s d srcs ts dt ty) (hk : k < effLen s dt) (v : Nat → Wide)
    (has : (srcs.zip ts).map (fun p => extendValue p.2 ty (s.operandElem p.1 p.2 k)) = as.map some) {r : Wide}
    (hop : op (as.map (·.1)) = .ok r) (ht : truncateValue ty dt (selectMode field s.inputs.frm) r = none) :
    opElement field op ty d dt (srcs.zip ts) k (s.putElems d dt.width v k) =
      .error .illegal (s.putElems d dt.width v k) := by
  simp only [opElement, bind_run, h.extendOperands_run hk _ has, applyOp, hop, truncateElem, putElems_inputs, ht,
    orIllegal]

end

/-! ## The element-wise operation -/

/-- Elements `0 .. k-1` of the operation answer: `as` are their extended operands, `r` the results of the arithmetic,
`v` the truncated ones. The operands of element `k`, if there is one, extend too. -/
structure ElementsAnswer (s : State) (field : BitVec 3) (op : VectorOp) (pairs : List (Reg × Tag)) (dt : Tag)
    (ty : VType) (k : Nat) (as : Nat → List (Wide × FFlags)) (r : Nat → Wide) (v : Nat → Wide × FFlags) : Prop where
  extended : ∀ e, e ≤ k → e < effLen s dt →
    pairs.map (fun p => extendValue p.2 ty (s.operandElem p.1 p.2 e)) = (as e).map some
  answered : ∀ e, e < k → op ((as e).map (·.1)) = .ok (r e) ∧
    truncateValue ty dt (selectMode field s.inputs.frm) (r e) = some (v e)

section
variable {s : State} {d : Reg} {srcs : List Reg} {ts : List Tag} {dt : Tag} {ty : VType} {field : BitVec 3}
  {op : VectorOp} {k : Nat} {as : Nat → List (Wide × FFlags)} {r : Nat → Wide} {v : Nat → Wide × FFlags}
  (h : VopReady s d srcs ts dt ty) (ha : ElementsAnswer s field op (srcs.zip ts) dt ty k as r v)
include h ha

/-- The iterations before element `k` complete. -/
theorem VopReady.iterations_ok (hk : k ≤ effLen s dt) (j : Nat) (hj : j < k) :
    opElement field op ty d dt (srcs.zip ts) (0 + j) (s.putElems d dt.width (fun e => (v e).1) j) =
      .ok ((((as j).map (·.2)).foldr FFlags.merge .none).merge (v j).2)
        (s.putElems d dt.width (fun e => (v e).1) (j + 1)) := by
  rw [Nat.zero_add]
  exact h.opElement_ok (by omega) v (ha.extended j hj.le (by omega)) (ha.answered j hj).1 (ha.answered j hj).2

/-- All elements answer: the operation completes. -/
theorem VopReady.vop_ok (hk : k = effLen s dt) :
    vop field op d srcs s = .ok (loopFlags k as v) (s.putElems d dt.width (fun e => (v e).1) k) := by
  rw [h.vop_run, ← hk]
  exact elementLoop_ok (st := fun j => s.putElems d dt.width (fun e => (v e).1) j) (h.iterations_ok ha hk.le)

/-- The arithmetic of element `k` stops: so does the operation, with the earlier elements written. -/
theorem VopReady.vop_error (hk : k < effLen s dt) {x : Stop} (hx : op ((as k).map (·.1)) = .error x) :
    vop field op d srcs s = .error x (s.putElems d dt.width (fun e => (v e).1) k) := by
  rw [h.vop_run]
  refine elementLoop_error (st := fun j => s.putElems d dt.width (fun e => (v e).1) j) hk
    (h.iterations_ok ha hk.le) ?_
  rw [Nat.zero_add]
  exact h.opElement_error hk _ (ha.extended k le_rfl hk) hx

/-- The truncation of element `k` finds no rounding mode: illegal-instruction, with the earlier elements written. -/
theorem VopReady.vop_illegal (hk : k < effLen s dt) {y : Wide} (hop : op ((as k).map (·.1)) = .ok y)
    (ht : truncateValue ty dt (selectMode field s.inputs.frm) y = none) :
    vop field op d srcs s = .error .illegal (s.putElems d dt.width (fun e => (v e).1) k) := by
  rw [h.vop_run]
  refine elementLoop_error (st := fun j => s.putElems d dt.width (fun e => (v e).1) j) hk
    (h.iterations_ok ha hk.le) ?_
  rw [Nat.zero_add]
  exact h.opElement_illegal hk _ (ha.extended k le_rfl hk) hop ht

end

/-- Where the tags go together every operand extends. -/
theorem VopReady.exists_extended {s : State} {d : Reg} {srcs : List Reg} {ts : List Tag} {dt : Tag} {ty : VType}
    (h : VopReady s d srcs ts dt ty) (e : Nat) : ∃ as : List (Wide × FFlags),
      (srcs.zip ts).map (fun p => extendValue p.2 ty (s.operandElem p.1 p.2 e)) = as.map some := by
  have hall := h.allowed
  rw [combinationAllowed, Bool.and_eq_true, List.all_eq_true] at hall
  have hsome : ∀ p ∈ srcs.zip ts, ∃ a, extendValue p.2 ty (s.operandElem p.1 p.2 e) = some a := fun p hp =>
    Option.isSome_iff_exists.mp ((extendValue_isSome ..).trans (hall.1 _ (List.of_mem_zip hp).2))
  generalize srcs.zip ts = l at hsome
  induction l with
  | nil => exact ⟨[], rfl⟩
  | cons p l ih =>
    obtain ⟨a, ha⟩ := hsome p List.mem_cons_self
    obtain ⟨as, has⟩ := ih fun q hq => hsome q (List.mem_cons_of_mem p hq)
    exact ⟨a :: as, by rw [List.map_cons, List.map_cons, ha, has]⟩

/-- A ready operation that completes has the answers of all its elements. -/
theorem VopReady.exists_answers {s t : State} {d : Reg} {srcs : List Reg} {ts : List Tag} {dt : Tag} {ty : VType}
    {field : BitVec 3} {op : VectorOp} {fl : FFlags} (h : VopReady s d srcs ts dt ty)
    (hok : vop field op d srcs s = .ok fl t) :
    ∃ as r v, ElementsAnswer s field op (srcs.zip ts) dt ty (effLen s dt) as r v := by
  choose as has using h.exists_extended
  have : Nonempty (Wide × FFlags) := ⟨(0, .none)⟩
  have hall : ∀ k, k ≤ effLen s dt → ∀ e, e < k → ∃ (r : Wide) (v : Wide × FFlags), op ((as e).map (·.1)) = .ok r ∧
      truncateValue ty dt (selectMode field s.inputs.frm) r = some v := by
    intro k hk
    induction k with
    | zero => exact fun e he => absurd he (Nat.not_lt_zero e)
    | succ k ih =>
      have hbefore := ih (Nat.le_of_succ_le hk)
      choose! r v hrv using hbefore
      have ha : ElementsAnswer s field op (srcs.zip ts) dt ty k as r v := ⟨fun e _ _ => has e, hrv⟩
      intro e he
      rcases Nat.lt_succ_iff_lt_or_eq.mp he with hlt | rfl
      · exact ⟨_, _, hrv e hlt⟩
      · cases hop : op ((as e).map (·.1)) with
        | error x => cases (h.vop_error ha hk hop).symm.trans hok
        | ok y =>
          cases ht : truncateValue ty dt (selectMode field s.inputs.frm) y with
          | none => cases (h.vop_illegal ha hk hop ht).symm.trans hok
          | some z => exact ⟨y, z, rfl, ht⟩
  choose! r v hrv using hall _ le_rfl
  exact ⟨as, r, v, fun e _ _ => has e, hrv⟩

/-! ## Gates of the element-wise operation (41_vector_engine.md R206, R207, R214) -/

section
variable {s : State} {d : Reg} {srcs : List Reg} (field : BitVec 3) (op : VectorOp)

theorem vop_of_supports_no (h : supports s .v = .no) (d : Reg) (srcs : List Reg) :
    vop field op d srcs s = .error .illegal s := by
  simp [vop, h]

theorem vop_of_supports_faults {r : Report} (h : supports s .v = .faults r) (d : Reg) (srcs : List Reg) :
    vop field op d srcs s = .error (.collaborator r) s := by
  simp [vop, h]

theorem vop_of_unconfigured (hs : supports s .v = .yes) (h : ∃ r ∈ d :: srcs, s.tagOf r = .unconfigured) :
    vop field op d srcs s = .error .illegal s := by
  cases hd : s.tagOf d with
  | unconfigured => simp [vop, hs, requireConfigured_of_unconfigured hd]
  | configured dt =>
    have hsrc : ∃ r ∈ srcs, s.tagOf r = .unconfigured := by
      obtain ⟨r, hr, hu⟩ := h
      rcases List.mem_cons.mp hr with rfl | hr
      · cases hd.symm.trans hu
      · exact ⟨r, hr, hu⟩
    simp [vop, hs, requireConfigured_of_configured hd, requireAll_of_unconfigured hsrc]

theorem vop_of_mismatch {dt : Tag} {ts : List Tag} (hs : supports s .v = .yes) (hd : s.tagOf d = .configured dt)
    (hsrc : srcs.map s.tagOf = ts.map VTag.configured)
    (h : resolveType ts = none ∨ ∃ ty, resolveType ts = some ty ∧ combinationAllowed ty ts dt = false) :
    vop field op d srcs s = .error .illegal s := by
  obtain hr | ⟨ty, hr, hc⟩ := h
  · simp [vop, hs, requireConfigured_of_configured hd, requireAll_of_configured hsrc, hr, orIllegal]
  · simp [vop, hs, requireConfigured_of_configured hd, requireAll_of_configured hsrc, hr, orIllegal, hc]

/-- An operation on configured registers that completes was ready. -/
theorem vopReady_of_ok {t : State} {ts : List Tag} {dt : Tag} {ty : VType} {field : BitVec 3} {op : VectorOp}
    {fl : FFlags} (hd : s.tagOf d = .configured dt) (hsrc : srcs.map s.tagOf = ts.map VTag.configured)
    (hr : resolveType ts = some ty) (h : vop field op d srcs s = .ok fl t) : VopReady s d srcs ts dt ty := by
  cases hs : supports s .v with
  | no => cases (vop_of_supports_no field op hs d srcs).symm.trans h
  | faults r => cases (vop_of_supports_faults field op hs d srcs).symm.trans h
  | yes =>
    cases hc : combinationAllowed ty ts dt with
    | false => cases (vop_of_mismatch field op hs hd hsrc (.inr ⟨ty, hr, hc⟩)).symm.trans h
    | true => exact ⟨hs, hd, hsrc, hr, hc⟩

end

end Sys2Proof.Machine
end

section
/-! SUPPORT for the statements of 41_vector_engine.md: the memory accessors of one element, and vector loads and
stores. -/

namespace Sys2Proof.Machine

/-! ## Accessors of one element (41_vector_engine.md R217) -/

/-- Up to 64 bits an element is one access of its own width. -/
theorem exists_memWidth {t : Tag} (h : t.width ≠ .w128) : ∃ mw : MWidth, t.width.bits = 8 * mw.bytes ∧
    (∀ a, routeLoad t a = do
      let v ← memLoad (t.rep == .sint) mw a
      pure (v.setWidth 128)) ∧
    ∀ a v, routeStore t a v = memStore mw a (v.setWidth 64) := by
  obtain ⟨sh, w, rep⟩ := t
  cases w
  case w8 => exact ⟨.b8, rfl, fun _ => rfl, fun _ _ => rfl⟩
  case w16 => exact ⟨.b16, rfl, fun _ => rfl, fun _ _ => rfl⟩
  case w32 => exact ⟨.b32, rfl, fun _ => rfl, fun _ _ => rfl⟩
  case w64 => exact ⟨.b64, rfl, fun _ => rfl, fun _ _ => rfl⟩
  case w128 => exact absurd rfl h

theorem routeLoad_w128 {t : Tag} (h : t.width = .w128) (a : Word) : routeLoad t a = memLoadPair a := by
  rw [routeLoad, h]

theorem routeStore_w128 {t : Tag} (h : t.width = .w128) (a : Word) (v : Wide) :
    routeStore t a v = memStorePair a v := by
  rw [routeStore, h]

theorem memLoadPair_run (a : Word) (s : State) : memLoadPair a s =
    match accessFault s.params .load 8 a with
    | some r => .error (.collaborator r) s
    | none =>
      match accessFault s.params .load 8 (a + 8) with
      | some r => .error (.collaborator r) s
      | none => .ok (leWord (readBytes s.mem (a + 8) 8) ++ leWord (readBytes s.mem a 8)) s := by
  simp only [memLoadPair, bind_run, memLoad_run, extendLoad_b64, MWidth.bytes]
  cases accessFault s.params .load 8 a with
  | some r => rfl
  | none =>
    simp only
    cases accessFault s.params .load 8 (a + 8) <;> rfl

/-- A load answers a value or a fault by the parameters and memory alone, and leaves the state. -/
theorem routeLoad_cases (t : Tag) (a : Word) (p : Params) (m : Memory) :
    (∃ v, ∀ s : State, s.params = p → s.mem = m → routeLoad t a s = .ok v s) ∨
      ∃ r, ∀ s : State, s.params = p → s.mem = m → routeLoad t a s = .error (.collaborator r) s := by
  by_cases h : t.width = .w128
  · simp only [routeLoad_w128 h, memLoadPair_run]
    cases h1 : accessFault p .load 8 a with
    | some r => exact .inr ⟨r, fun s hp _ => by rw [hp, h1]⟩
    | none =>
      cases h2 : accessFault p .load 8 (a + 8) with
      | some r => exact .inr ⟨r, fun s hp _ => by rw [hp, h1, h2]⟩
      | none => exact .inl ⟨_, fun s hp hm => by rw [hp, hm, h1, h2]⟩
  · obtain ⟨mw, -, hload, -⟩ := exists_memWidth h
    simp only [hload, bind_run, memLoad_run]
    cases h1 : accessFault p .load mw.bytes a with
    | some r => exact .inr ⟨r, fun s hp _ => by rw [hp, h1]⟩
    | none => exact .inl ⟨_, fun s hp hm => by rw [hp, hm, h1]; rfl⟩

/-- The same load in a state of the same parameters and memory. -/
theorem routeLoad_congr {s s' : State} (hp : s'.params = s.params) (hm : s'.mem = s.mem) {t : Tag} {a : Word} :
    (∀ v, routeLoad t a s = .ok v s → routeLoad t a s' = .ok v s') ∧
      ∀ e, routeLoad t a s = .error e s → routeLoad t a s' = .error e s' := by
  obtain ⟨v, h⟩ | ⟨r, h⟩ := routeLoad_cases t a s.params s.mem
  · rw [h s rfl rfl, h s' hp hm]
    exact ⟨fun _ h' => by cases h'; rfl, fun _ h' => by cases h'⟩
  · rw [h s rfl rfl, h s' hp hm]
    exact ⟨fun _ h' => (by cases h'), fun _ h' => by cases h'; rfl⟩

/-! ### Bytes of an element -/

theorem elemBytes_length (w : EWidth) (v : Wide) : (elemBytes w v).length = w.bits / 8 := by
  simp [elemBytes]

theorem elemBytes_getElem (w : EWidth) (v : Wide) (k : Nat) (h : k < (elemBytes w v).length) :
    (elemBytes w v)[k] = v.extractLsb' (8 * k) 8 := by
  simp [elemBytes]

/-- The bytes of a register value are those of the element it holds. -/
theorem leBytes_eq_take_elemBytes {w : EWidth} {n : Nat} (hn : n ≤ 8) (hw : n ≤ w.bits / 8) (v : Wide) :
    leBytes n (v.setWidth 64) = (elemBytes w v).take n := by
  refine List.ext_getElem (by simp [elemBytes_length, hw]) fun j h1 h2 => ?_
  have hj : j < n := by simpa using h1
  rw [leBytes_getElem, List.getElem_take, elemBytes_getElem]
  apply BitVec.eq_of_getLsbD_eq
  intro k hk
  simp [hk, show 8 * j + k < 64 by omega]

/-- The high half of a 128-bit element follows its low half. -/
theorem leBytes_pair_eq_take_elemBytes {n : Nat} (hn : n ≤ 8) (v : Wide) :
    leBytes 8 (v.extractLsb' 0 64) ++ leBytes n (v.extractLsb' 64 64) = (elemBytes .w128 v).take (8 + n) := by
  refine List.ext_getElem (by simp [elemBytes_length, EWidth.bits]; omega) fun j h1 h2 => ?_
  have hj : j < 8 + n := by simpa using h1
  rw [List.getElem_take, elemBytes_getElem, List.getElem_append]
  apply BitVec.eq_of_getLsbD_eq
  intro k hk
  by_cases hj8 : j < 8
  · simp [leBytes_getElem, hj8, hk, show 8 * j + k < 64 by omega]
  · simp [leBytes_getElem, hj8, hk, show 8 * (j - 8) + k < 64 by omega,
      show 64 + (8 * (j - 8) + k) = 8 * j + k by omega]

theorem writeBytes_append (m : Memory) (a : Word) (bs cs : List Byte) :
    writeBytes m a (bs ++ cs) = writeBytes (writeBytes m a bs) (a + BitVec.ofNat 64 bs.length) cs := by
  induction bs generalizing m a with
  | nil => simp [writeBytes]
  | cons b bs ih => rw [List.cons_append, writeBytes, writeBytes, ih, succ_add_ofNat, List.length_cons]

/-- The low half is written, then the high half behind it. -/
theorem writeBytes_pair (m : Memory) (a : Word) {n : Nat} (hn : n ≤ 8) (v : Wide) :
    writeBytes (writeBytes m a (leBytes 8 (v.extractLsb' 0 64))) (a + 8) (leBytes n (v.extractLsb' 64 64)) =
      writeBytes m a ((elemBytes .w128 v).take (8 + n)) := by
  rw [← leBytes_pair_eq_take_elemBytes hn, writeBytes_append, leBytes_length]
  rfl

/-! ### Stores of an element -/

/-- A paired store writes the element's bytes, up to where it stops. -/
theorem memStorePair_run (a : Word) (v : Wide) (s : State) : memStorePair a v s =
    match elemStop s.params .w128 a with
    | some q => .error (.collaborator q.2) (s.withMem (writeBytes s.mem a ((elemBytes .w128 v).take q.1)))
    | none => .ok () (s.withMem (writeBytes s.mem a (elemBytes .w128 v))) := by
  have hall : elemBytes .w128 v = (elemBytes .w128 v).take (8 + 8) := rfl
  have hlow : ∀ n, n ≤ 8 → leBytes n (v.extractLsb' 0 64) = (elemBytes .w128 v).take n := fun n hn => by
    rw [← leBytes_eq_take_elemBytes hn (hn.trans (by decide)), BitVec.setWidth_eq_extractLsb' (by decide)]
  simp only [memStorePair, bind_run, memStore_run, MWidth.bytes, elemStop, if_true]
  cases h1 : accessStop s.params .store 8 a with
  | some q => simp only [hlow q.1 (accessStop_le h1)]
  | none =>
    simp only [State.withMem_params, State.withMem_mem]
    cases h2 : accessStop s.params .store 8 (a + 8) with
    | some q =>
      simp only [writeBytes_pair s.mem a (accessStop_le h2), Option.map_some]
      rfl
    | none =>
      simp only [writeBytes_pair s.mem a le_rfl, Option.map_none, ← hall]
      rfl

/-- A store of an element writes its bytes, up to where it stops. -/
theorem routeStore_run (t : Tag) (a : Word) (v : Wide) (s : State) : routeStore t a v s =
    match elemStop s.params t.width a with
    | some q => .error (.collaborator q.2) (s.withMem (writeBytes s.mem a ((elemBytes t.width v).take q.1)))
    | none => .ok () (s.withMem (writeBytes s.mem a (elemBytes t.width v))) := by
  by_cases h : t.width = .w128
  · rw [routeStore_w128 h, memStorePair_run, h]
  · obtain ⟨mw, hbits, -, hstore⟩ := exists_memWidth h
    have hbytes : t.width.bits / 8 = mw.bytes := by omega
    have hle : mw.bytes ≤ 8 := by cases mw <;> decide
    have hbs : ∀ n, n ≤ mw.bytes → leBytes n (v.setWidth 64) = (elemBytes t.width v).take n := fun n hn =>
      leBytes_eq_take_elemBytes (hn.trans hle) (hn.trans hbytes.ge) v
    have hall : leBytes mw.bytes (v.setWidth 64) = elemBytes t.width v := by
      rw [hbs _ le_rfl, List.take_of_length_le (by rw [elemBytes_length, hbytes])]
    rw [hstore, memStore_run, elemStop, if_neg h, hbytes]
    cases h1 : accessStop s.params .store mw.bytes a with
    | some q => simp only [hbs q.1 (accessStop_le h1)]
    | none => simp only [hall]

/-! ## Vector loads (41_vector_engine.md R215) -/

section
variable {s : State} {d : Reg} {t : Tag} {base : Word} {val : Nat → Wide} {k : Nat}

/-- One element loads what its accessor answers, whatever elements were written before. -/
theorem loadElement_ok (h : routeLoad t (elementAddr base t.width k) s = .ok (val k) s) :
    loadElement d t base k (s.putElems d t.width val k) = .ok .none (s.putElems d t.width val (k + 1)) := by
  have h' := (routeLoad_congr (putElems_params s d t.width val k) (putElems_mem s d t.width val k)).1 _ h
  simp only [loadElement, bind_run, h', change_run, pure_run]
  rfl

theorem loadElement_error {e : Stop} (h : routeLoad t (elementAddr base t.width k) s = .error e s) :
    loadElement d t base k (s.putElems d t.width val k) = .error e (s.putElems d t.width val k) := by
  have h' := (routeLoad_congr (putElems_params s d t.width val k) (putElems_mem s d t.width val k)).2 _ h
  simp only [loadElement, bind_run, h']

variable (hs : supports s .v = .yes) (hd : s.tagOf d = .configured t) (hr : routable t = true)
  (hval : ∀ e, e < k → routeLoad t (elementAddr base t.width e) s = .ok (val e) s)
include hs hd hr hval

/-- The loads of all elements answer. -/
theorem vload_ok (hk : k = effLen s t) : vload d base s = .ok () (s.putElems d t.width val k) := by
  have hloop : elementLoop (loadElement d t base) 0 k s = .ok _ (s.putElems d t.width val k) :=
    elementLoop_ok (fl := fun _ => .none) (st := fun j => s.putElems d t.width val j) fun j hj => by
      rw [Nat.zero_add]
      exact loadElement_ok (hval j hj)
  rw [hk] at hloop ⊢
  simp [vload, hs, requireConfigured_of_configured hd, hr, hloop]

/-- The load of element `k` stops. -/
theorem vload_error (hk : k < effLen s t) {e : Stop} (he : routeLoad t (elementAddr base t.width k) s = .error e s) :
    vload d base s = .error e (s.putElems d t.width val k) := by
  have hloop : elementLoop (loadElement d t base) 0 (effLen s t) s = .error e (s.putElems d t.width val k) :=
    elementLoop_error (fl := fun _ => .none) (st := fun j => s.putElems d t.width val j) hk (fun j hj => by
      rw [Nat.zero_add]
      exact loadElement_ok (hval j hj)) (by rw [Nat.zero_add]; exact loadElement_error he)
  simp [vload, hs, requireConfigured_of_configured hd, hr, hloop]

end

/-! ## Vector stores (41_vector_engine.md R216) -/

/-- Memory after elements `0 .. k-1` of register `r` were stored. -/
def State.storedElems (s : State) (r : Reg) (t : Tag) (base : Word) (k : Nat) : Memory :=
  (List.range k).foldl (fun m e => writeBytes m (elementAddr base t.width e) (elemBytes t.width (s.elem r t.width e)))
    s.mem

theorem storedElems_succ (s : State) (r : Reg) (t : Tag) (base : Word) (k : Nat) :
    s.storedElems r t base (k + 1) =
      writeBytes (s.storedElems r t base k) (elementAddr base t.width k) (elemBytes t.width (s.elem r t.width k)) := by
  rw [State.storedElems, List.range_succ, List.foldl_append]
  rfl

section
variable {s : State} {r : Reg} {t : Tag} {base : Word} {k : Nat}

theorem storeElement_ok (h : elemStop s.params t.width (elementAddr base t.width k) = none) :
    storeElement r t base k (s.withMem (s.storedElems r t base k)) =
      .ok .none (s.withMem (s.storedElems r t base (k + 1))) := by
  simp only [storeElement, bind_run, look_run, routeStore_run, State.withMem_params, State.withMem_mem, h, pure_run,
    storedElems_succ]
  rfl

theorem storeElement_error {q : Nat × Report} (h : elemStop s.params t.width (elementAddr base t.width k) = some q) :
    storeElement r t base k (s.withMem (s.storedElems r t base k)) =
      .error (.collaborator q.2) (s.withMem (writeBytes (s.storedElems r t base k) (elementAddr base t.width k)
        ((elemBytes t.width (s.elem r t.width k)).take q.1))) := by
  simp only [storeElement, bind_run, look_run, routeStore_run, State.withMem_params, State.withMem_mem, h]
  rfl

variable (hs : supports s .v = .yes) (hd : s.tagOf r = .configured t) (hr : routable t = true)
  (hstop : ∀ e, e < k → elemStop s.params t.width (elementAddr base t.width e) = none)
include hs hd hr hstop

/-- The stores of all elements complete. -/
theorem vstore_ok (hk : k = effLen s t) : vstore r base s = .ok () (s.withMem (s.storedElems r t base k)) := by
  have hloop : elementLoop (storeElement r t base) 0 k s = .ok _ (s.withMem (s.storedElems r t base k)) :=
    elementLoop_ok (fl := fun _ => .none) (st := fun j => s.withMem (s.storedElems r t base j)) fun j hj => by
      rw [Nat.zero_add]
      exact storeElement_ok (hstop j hj)
  rw [hk] at hloop ⊢
  simp [vstore, hs, requireConfigured_of_configured hd, hr, hloop]

/-- The store of element `k` faults. -/
theorem vstore_error (hk : k < effLen s t) {q : Nat × Report}
    (hq : elemStop s.params t.width (elementAddr base t.width k) = some q) :
    vstore r base s = .error (.collaborator q.2) (s.withMem (writeBytes (s.storedElems r t base k)
      (elementAddr base t.width k) ((elemBytes t.width (s.elem r t.width k)).take q.1))) := by
  have hloop : elementLoop (storeElement r t base) 0 (effLen s t) s = .error _ _ :=
    elementLoop_error (fl := fun _ => .none) (st := fun j => s.withMem (s.storedElems r t base j)) hk (fun j hj => by
      rw [Nat.zero_add]
      exact storeElement_ok (hstop j hj)) (by rw [Nat.zero_add]; exact storeElement_error hq)
  simp [vstore, hs, requireConfigured_of_configured hd, hr, hloop]

end

/-! ## Gates of loads and stores (41_vector_engine.md R206, R207, R217) -/

section
variable {s : State} (d : Reg) (base : Word)

theorem vload_of_supports_no (h : supports s .v = .no) : vload d base s = .error .illegal s := by
  simp [vload, h]

theorem vstore_of_supports_no (h : supports s .v = .no) : vstore d base s = .error .illegal s := by
  simp [vstore, h]

theorem vload_of_supports_faults {r : Report} (h : supports s .v = .faults r) :
    vload d base s = .error (.collaborator r) s := by
  simp [vload, h]

theorem vstore_of_supports_faults {r : Report} (h : supports s .v = .faults r) :
    vstore d base s = .error (.collaborator r) s := by
  simp [vstore, h]

variable {d} (hs : supports s .v = .yes)
include hs

theorem vload_of_unconfigured (h : s.tagOf d = .unconfigured) : vload d base s = .error .illegal s := by
  simp [vload, hs, requireConfigured_of_unconfigured h]

theorem vstore_of_unconfigured (h : s.tagOf d = .unconfigured) : vstore d base s = .error .illegal s := by
  simp [vstore, hs, requireConfigured_of_unconfigured h]

theorem vload_of_not_routable {t : Tag} (h : s.tagOf d = .configured t) (hr : routable t = false) :
    vload d base s = .error .illegal s := by
  simp [vload, hs, requireConfigured_of_configured h, hr]

theorem vstore_of_not_routable {t : Tag} (h : s.tagOf d = .configured t) (hr : routable t = false) :
    vstore d base s = .error .illegal s := by
  simp [vstore, hs, requireConfigured_of_configured h, hr]

end

/-! ## Gates of the bodies over a word (60_exceptions.md R405) -/

section
variable {s : State} {insn : Word} {f : RegField} {gs : (Nat → Word) → Groups} {opOf : (Nat → Word) → VectorOp}
  {fs : List RegField}

theorem bodies_of_supports_no (h : supports s .v = .no) :
    ∀ b ∈ [configureBody insn f gs, vopBody insn opOf fs, vloadBody insn, vstoreBody insn f],
      b s = .error .illegal s := by
  simp [configureBody_run, vopBody_run, vloadBody_run, vstoreBody_run, h, vop_of_supports_no]

theorem bodies_of_supports_faults {r : Report} (h : supports s .v = .faults r) :
    ∀ b ∈ [configureBody insn f gs, vopBody insn opOf fs, vloadBody insn, vstoreBody insn f],
      b s = .error (.collaborator r) s := by
  simp [configureBody_run, vopBody_run, vloadBody_run, vstoreBody_run, h, vop_of_supports_faults]

variable (hs : supports s .v = .yes)
include hs

theorem configureBody_of_not_hasX (h : s.hasX (regIndex insn f) = false) :
    configureBody insn f gs s = .error .illegal s := by
  simp [configureBody_run, hs, h]

theorem vloadBody_illegal (h : s.hasX (rs1 insn) = false ∨ s.tagOf (rd insn) = .unconfigured) :
    vloadBody insn s = .error .illegal s := by
  cases hx : s.hasX (rs1 insn) with
  | false => simp [vloadBody_run, hs, hx]
  | true =>
    have hu := h.resolve_left (by simp [hx])
    simp [vloadBody_run, hs, hx, vload_of_unconfigured _ hs hu]

theorem vstoreBody_illegal (h : s.hasX (rs1 insn) = false ∨ s.tagOf (regIndex insn f) = .unconfigured) :
    vstoreBody insn f s = .error .illegal s := by
  cases hx : s.hasX (rs1 insn) with
  | false => simp [vstoreBody_run, hs, hx]
  | true =>
    have hu := h.resolve_left (by simp [hx])
    simp [vstoreBody_run, hs, hx, vstore_of_unconfigured _ hs hu]

theorem vopBody_of_unconfigured (h : ∃ r ∈ rd insn :: fs.map (regIndex insn), s.tagOf r = .unconfigured) :
    vopBody insn opOf fs s = .error .illegal s := by
  rw [vopBody_run, vop_of_unconfigured _ _ hs h]

end

/-! ## Words whose body stops at once (60_exceptions.md R400, R402, R403)

The shell starts the body from the state with another outcome, which no gate reads. -/

theorem wordIllegal_of_body {insn : Word} {b : Body Unit} {s : State}
    (h : ∀ o, b (s.withOutcome o) = .error .illegal (s.withOutcome o)) : wordIllegal insn b s :=
  ⟨h s.outcome, runWord_of_error (h _)⟩

theorem wordFaults_of_body {insn : Word} {r : Report} {b : Body Unit} {s : State}
    (h : ∀ o, b (s.withOutcome o) = .error (.collaborator r) (s.withOutcome o)) : wordFaults insn r b s :=
  ⟨h s.outcome, runWord_of_error (h _)⟩

end Sys2Proof.Machine
end

section
/-! PROOFS of the statements of 41_vector_engine.md. -/

namespace Sys2Proof.Machine

/-- Settles O16: the widened magnitude number stands for the same magnitude. -/
theorem wideningIsExact : Obligations.WideningIsExact := by
  unfold Obligations.WideningIsExact
  intro w1 w2 v hw hv hfin
  obtain ⟨M, hM, hval, hr⟩ := fwiden_of_isFinite hw hfin
  have hlt := hM.trans (maxExp_mul_lt w2)
  have hmag := magnitude_packMagnitude (signBit w1 v) hlt
  have hsign := signBit_packMagnitude (signBit w1 v) hlt
  rw [hr]
  refine ⟨?_, hsign, isFinite_iff.mpr (by rwa [hmag]), rfl⟩
  rw [floatValue_eq_floatValue_iff hsign, hmag, hval]

/-- Settles O17: both conversions look for a NaN first. -/
theorem convertedNaNsAreCanonical : Obligations.ConvertedNaNsAreCanonical := by
  unfold Obligations.ConvertedNaNsAreCanonical
  exact fun w1 w2 m v h => ⟨fwiden_of_isNaN h w2, fnarrow_of_isNaN h w2 m⟩

/-- Settles O18: the widened value has the magnitude of the narrow one, which is representable there, so it is rounded
to it with no flag. -/
theorem wideFloatRoundTrip : Obligations.WideFloatRoundTrip := by
  unfold Obligations.WideFloatRoundTrip
  intro w m v hw hv hnan
  have hbits : w.bits < FWidth.f128.bits := by
    revert hw
    cases w <;> decide
  rcases isFinite_or_infinity_of_not_isNaN hnan with hfin | ⟨he, hf⟩
  · obtain ⟨M, hM, hval, hr⟩ := fwiden_of_isFinite hbits hfin
    have hlt := hM.trans (maxExp_mul_lt .f128)
    have hmag := magnitude_packMagnitude (signBit w v) hlt
    have hsign := signBit_packMagnitude (signBit w v) hlt
    have hfin' : isFinite .f128 (packMagnitude .f128 (signBit w v) M) = true := isFinite_iff.mpr (by rwa [hmag])
    rw [hr]
    refine ⟨?_, rfl⟩
    obtain ⟨hz, hn⟩ | ⟨sig, exp, hs, hx, hn⟩ := fnarrow_of_isFinite hfin' w m
    · have hv0 : magnitude w v = 0 := by
        rw [hmag] at hz
        rw [hz, magValue_zero, ← magValue_zero w] at hval
        exact ((magValue_strictMono w).injective hval).symm
      rw [hn, hsign, ← packMagnitude_zero, ← hv0, packMagnitude_signBit_magnitude hv]
    · rw [hn, hsign, roundToFormat_exact hs (isFinite_iff.mp hfin) (by rw [hx, hmag, hval]),
        packMagnitude_signBit_magnitude hv]
  · obtain ⟨he', hf', hs'⟩ := fields_packFloat_infinity .f128 (signBit w v)
    rw [fwiden_of_infinity he hf, fnarrow_of_infinity he' hf', hs', ← he, ← hf, packFloat_fields hv]
    exact ⟨rfl, rfl⟩

/-- Settles O19: the mode picks the magnitude number of the result, and what it says of magnitudes of the one sign holds
of the values. -/
theorem narrowingRounds : Obligations.NarrowingRounds := by
  unfold Obligations.NarrowingRounds
  intro w1 w2 m v r fl _ hv hr
  refine ⟨fun he hf => ?_, fun hfin => ?_⟩
  · rw [fnarrow_of_infinity he hf] at hr
    cases hr
    exact ⟨rfl, rfl⟩
  have h := fnarrow_rounded hfin w2 m
  rw [hr] at h
  have hs : signBit w2 r = signBit w1 v := h.sign
  rw [abs_floatValue w1 v] at h ⊢
  refine ⟨h.fits, isNaN_eq_false h.notNaN, hs, h.valid, h.noDivide, fun hf => ?_, h.overflow, h.finite,
    fun ho => ⟨fun ht => ?_, h.infinite ho⟩,
    h.inexact.trans (or_congr_right (floatValue_eq_floatValue_iff hs).not.symm), h.underflow⟩
  · have hg := h.onGrid hf
    rw [abs_floatValue]
    refine ⟨fun u _ hu => ?_, hg.toward, hg.away, fun hm u _ hu => ⟨hg.nearest_floatValue hs hm hu, fun he hne => ?_⟩⟩
    · rw [abs_floatValue]
      exact hg.neighbour _ (isFinite_iff.mp hu)
    · exact (hg.tie_floatValue hs hm hu he hne).imp_left fun heven hm => getLsbD_zero_of_even (heven hm)
  · rw [abs_floatValue]
    exact h.largest ho ht

/-- Settles O20: the run of a configuration whose checks pass; its tags are those of the tag file. -/
theorem configureCompletes : Obligations.ConfigureCompletes := by
  unfold Obligations.ConfigureCompletes
  intro s avl g hs hg hf
  have hrun : configure avl g s = .ok (BitVec.ofNat 64 (min avl.toNat (maxVlOf s.params g)))
      ((s.putCsr s.params.vcfgCsr (Config.vcfgEnc g)).configured avl g) := by
    simp only [configure_run, hs, hg, hf, if_true]
  refine ⟨(s.putCsr s.params.vcfgCsr (Config.vcfgEnc g)).configured avl g, hrun, rfl, ?_,
    fun r hr => tagFile_of_rest r.isLt hr, fun r w e => ?_, rfl, ?_⟩
  · rintro pre c q post j tag rfl hj hq
    exact tagFile_of_group hg hj hq
  · simp [State.elem, State.elemCell, lowWide]
  · rintro insn f gs hx rfl rfl
    rw [configureBody_run]
    simp only [hs, hx, if_true, hrun, writeSext_run]
    exact ⟨fun h => if_pos h, fun h => if_neg (Bool.not_eq_true _ ▸ h)⟩

/-- Settles O21: a tag of another kind stands for none, and the others stand for one of their width and
representation. -/
theorem configureRefuses : Obligations.ConfigureRefuses := by
  unfold Obligations.ConfigureRefuses
  refine ⟨fun s avl g h => ?_, fun q hw hr hf => ?_⟩
  · obtain hs | ⟨hs, hbad⟩ := h
    · simp only [configure_run, hs]
    · have hg : groupsValid g = false := groupsValid_eq_false <| hbad.imp_right fun ⟨p, hp, hq⟩ =>
        ⟨p, hp, requestedTag_eq_none hq⟩
      simp only [configure_run, hs, hg, Bool.false_eq_true, if_false]
  · obtain ⟨w, hw⟩ : ∃ w, widthOf q.width = some w := Option.ne_none_iff_exists'.mp fun h =>
      widthOf_eq_none_iff.mp h hw
    obtain ⟨r, hr⟩ := Option.ne_none_iff_exists'.mp hr
    have hbits := bits_of_widthOf hw
    refine ⟨_, requestedTag_eq_some hw hr fun ⟨h1, h2⟩ => hf ⟨by rw [hr, h1], ?_⟩, rfl, hbits, hr.symm⟩
    rw [← hbits, h2]
    rfl

/-- Settles O22: one element of one register's list is replaced, by a payload cut to the width. -/
theorem vectorElements : Obligations.VectorElements := by
  unfold Obligations.VectorElements
  intro s r w e v hs he
  have hself := elemCell_putElem_self w v hs he (r := r)
  refine ⟨hself, ?_, fun q e' h => elemCell_putElem_ne w v h, fun rep => ⟨rfl, rfl⟩, fun rep => ⟨rfl, rfl⟩⟩
  rw [State.elem, hself, lowWide_storedElem]

/-- Settles O23: the three kinds of operand lists. -/
theorem typeResolution : Obligations.TypeResolution := by
  unfold Obligations.TypeResolution
  exact fun t ts => ⟨resolveType_of_float, resolveType_of_mixed, resolveType_of_int⟩

/-- Settles O24: by the representations of the two types, then by their widths. -/
theorem extensionRules : Obligations.ExtensionRules := by
  unfold Obligations.ExtensionRules
  intro t ty v hv
  refine ⟨fun ht hty hle => ?_, fun ht hty hle => ?_, fun ht hty hgt => ?_, fun w1 w2 ht hty h1 h2 => ?_,
    extendValue_of_float_w8, fun ht hty => extendValue_of_mixed (by simp [ht, hty]),
    fun ht hty => extendValue_of_mixed (by simp [ht, hty])⟩
  · rw [extendValue_int (by simp [ht]) hty, ht]
    split
    · refine ⟨_, rfl, ?_, toInt_extendInt_sint hle ty.width.bits_le v⟩
      rw [extendInt, toNat_lowWide ty.width.bits_le]
      exact Nat.mod_lt _ (by positivity)
    · next hlt =>
      have hw := EWidth.bits_injective (le_antisymm hle (Nat.not_lt.mp hlt))
      rw [if_pos hw, ← hw]
      exact ⟨v, rfl, hv, rfl⟩
  · rw [extendValue_int (by simp [ht]) hty, ht]
    split
    · rw [extendInt, lowWide_of_lt hv]
    · next hlt => rw [if_pos (EWidth.bits_injective (le_antisymm hle (Nat.not_lt.mp hlt)))]
  · rw [extendValue_int ht hty, if_neg hgt.not_gt, if_neg fun h => hgt.ne (by rw [h])]
  · rw [extendValue_float ht hty h1 h2, floatFormat_bits h1, floatFormat_bits h2,
      if_congr (width_eq_iff_of_floatFormat h1 h2) rfl rfl]
    refine ⟨fun h => if_pos h, ?_, fun h => ?_⟩
    · rintro rfl
      rw [if_neg (lt_irrefl _), if_pos rfl]
    · rw [if_neg h.not_gt, if_neg fun he => h.ne (by rw [he])]

/-- Settles O25: by the representations of the two types, then by their widths. -/
theorem truncationRules : Obligations.TruncationRules := by
  unfold Obligations.TruncationRules
  intro ty d m r
  refine ⟨fun hd hty hle => ?_, fun hd hty hgt => ?_, fun wd wt hd hty h1 h2 => ?_,
    truncateValue_of_float_w8, fun hd hty => truncateValue_of_mixed (by simp [hd, hty]),
    fun hd hty => truncateValue_of_mixed (by simp [hd, hty])⟩
  · rw [truncateValue_int hd hty, if_pos hle]
    exact ⟨_, rfl, toNat_lowWide d.width.bits_le r⟩
  · rw [truncateValue_int hd hty, if_neg (Nat.not_le.mpr hgt)]
  · rw [truncateValue_float hd hty h1 h2, floatFormat_bits h1, floatFormat_bits h2,
      if_congr (width_eq_iff_of_floatFormat h1 h2) rfl rfl]
    refine ⟨fun h => ⟨?_, ?_⟩, ?_, fun h => ?_⟩
    · rintro mode rfl
      rw [if_pos h]
      rfl
    · rintro rfl
      rw [if_pos h]
      rfl
    · rintro rfl
      rw [if_neg (lt_irrefl _), if_pos rfl]
    · rw [if_neg h.not_gt, if_neg fun he => h.ne (by rw [he])]

/-- Settles O26: an integer is cut to the width it has, and a float of a width that has a format is left. -/
theorem equalWidthIdentity : Obligations.EqualWidthIdentity := by
  unfold Obligations.EqualWidthIdentity
  intro t m v ht hv
  by_cases hr : t.rep = .float
  · obtain ⟨w, hw⟩ : ∃ w, floatFormat t.width = some w := Option.ne_none_iff_exists'.mp fun h => by
      simp [routable, hr, floatFormat_eq_none_iff.mp h] at ht
    rw [extendValue_float hr hr hw hw, truncateValue_float hr hr hw hw]
    simp
  · rw [extendValue_int hr hr, truncateValue_int hr hr, lowWide_of_lt hv]
    simp

/-- Settles O27: an operation that completes has the answers of all its elements, each from the old sources, and goes
through the states in which they are written one by one. -/
theorem elementLoopResult : Obligations.ElementLoopResult := by
  unfold Obligations.ElementLoopResult
  intro s t field op d srcs ts dt ty fl hsized hlen hd hsrc hr hok
  have h := vopReady_of_ok hd hsrc hr hok
  obtain ⟨as, r, v, ha⟩ := h.exists_answers hok
  cases (h.vop_ok ha rfl).symm.trans hok
  refine ⟨fun e he => ⟨as e, r e, v e, ha.extended e he.le he, (ha.answered e he).1, (ha.answered e he).2, ?_⟩,
    fun q e hqe => elemCell_putElems_ne _ _ hqe, putElems_eq ..⟩
  exact elemCell_putElems_lt _ _ hsized hlen he

/-- Settles O28: the state in which the elements that answered are written, and how the loop goes on from it. -/
theorem elementLoopCompletes : Obligations.ElementLoopCompletes := by
  unfold Obligations.ElementLoopCompletes
  intro s insn op d srcs ts dt ty k as r v hs hsized hlen hd hsrc hr hc hk hext hans
  have h : VopReady s d srcs ts dt ty := ⟨hs, hd, hsrc, hr, hc⟩
  have ha : ElementsAnswer s (rm insn) op (srcs.zip ts) dt ty k as r v := ⟨hext, hans⟩
  have hok := h.vop_ok ha
  have herror := fun hlt (x : Stop) => h.vop_error ha hlt (x := x)
  have hillegal := fun hlt => h.vop_illegal ha hlt (y := r k)
  refine ⟨s.putElems d dt.width (fun e => (v e).1) k, putElems_eq .., fun e he => ?_,
    fun q e hqe => elemCell_putElems_ne _ _ hqe, hok, fun x hlt => herror hlt x, hillegal, ?_⟩
  · exact elemCell_putElems_lt _ _ hsized (hk.trans hlen) he
  · rintro opOf fs rfl rfl rfl
    refine ⟨fun hk => ?_, fun x hlt hx => ?_, fun hlt hop ht => ?_⟩
    · rw [vopBody_run, hok hk]
      simp only [putElems_fflags]
    · rw [vopBody_run, herror hlt x hx]
    · rw [vopBody_run, hillegal hlt hop ht]

/-- Settles O29: the loads of the elements answer as in the first state, since they read memory and the parameters
alone. -/
theorem vectorLoadResult : Obligations.VectorLoadResult := by
  unfold Obligations.VectorLoadResult
  intro s d base t val k hs hsized hlen hd hr hk hval
  have hok := vload_ok hs hd hr hval
  have herror := fun hlt (r : Report) => vload_error hs hd hr hval hlt (e := .collaborator r)
  refine ⟨s.putElems d t.width val k, putElems_eq .., fun e he => ?_, fun q e hqe => elemCell_putElems_ne _ _ hqe,
    hok, fun r hlt => herror hlt r, ?_⟩
  · exact elemCell_putElems_lt _ _ hsized (hk.trans hlen) he
  · rintro insn rfl hx rfl
    rw [vloadBody_run, hs]
    simp only [hx, if_true]
    exact ⟨hok, fun r hlt => herror hlt r⟩

/-- Settles O30: the accessor of each width, with the bytes of an element taken up to the fault. -/
theorem vectorWidthRouting : Obligations.VectorWidthRouting := by
  unfold Obligations.VectorWidthRouting
  intro s t a v
  refine ⟨fun hw => ?_, fun hw => ?_, fun h => ?_, fun q h => ?_, fun d base hs hf hw hd => ?_⟩
  · obtain ⟨mw, hbits, hload, -⟩ := exists_memWidth hw
    have hbytes : t.width.bits / 8 = mw.bytes := by omega
    rw [hload, hbytes, hbits, bind_run, memLoad_run]
    refine ⟨fun h => ?_, fun r h => ?_⟩
    · simp only [h, extendLoad, beq_iff_eq, pure_run]
    · simp only [h]
  · simp only [routeLoad_w128 hw, memLoadPair_run]
    exact ⟨fun h1 h2 => by rw [h1, h2], fun r h1 => by rw [h1], fun r h1 h2 => by rw [h1, h2]⟩
  · rw [routeStore_run, h]
  · rw [routeStore_run, h]
  · have hr : routable t = false := by simp [routable, hf, hw]
    exact ⟨vload_of_not_routable base hs hd hr, vstore_of_not_routable base hs hd hr⟩

/-- Settles O31: the stores of the elements, one by one, into the memory the earlier ones left. -/
theorem vectorStoreResult : Obligations.VectorStoreResult := by
  unfold Obligations.VectorStoreResult
  intro s r base t k hs hd hr _ hstop
  refine ⟨s.withMem (s.storedElems r t base k), rfl, vstore_ok hs hd hr hstop,
    fun q hlt hq => vstore_error hs hd hr hstop hlt hq, ?_⟩
  rintro insn f rfl hx rfl
  rw [vstoreBody_run, hs]
  simp only [hx, if_true]

/-- Settles O32: each gate, met before anything is changed, by an operation and by the body of a word. -/
theorem vectorGates : Obligations.VectorGates := by
  unfold Obligations.VectorGates
  intro s avl base g field op d srcs insn f gs opOf fs
  refine ⟨fun h => ?_, fun r h => ?_, fun h => ⟨?_, ?_, ?_, ?_, ?_, ?_, ?_⟩⟩
  · exact ⟨by rw [configure_run, h], vop_of_supports_no field op h d srcs, vload_of_supports_no d base h,
      vstore_of_supports_no d base h,
      fun b hb => wordIllegal_of_body fun o => bodies_of_supports_no (by simpa using h) b hb⟩
  · exact ⟨by rw [configure_run, h], vop_of_supports_faults field op h d srcs, vload_of_supports_faults d base h,
      vstore_of_supports_faults d base h,
      fun b hb => wordFaults_of_body fun o => bodies_of_supports_faults (by simpa using h) b hb⟩
  · exact vop_of_unconfigured field op h
  · exact fun dt ts hd hsrc => vop_of_mismatch field op h hd hsrc
  · exact fun hu => ⟨vload_of_unconfigured base h hu, vstore_of_unconfigured base h hu⟩
  · exact fun hx => wordIllegal_of_body fun o => configureBody_of_not_hasX (by simpa using h) (by simpa using hx)
  · exact fun hx => wordIllegal_of_body fun o => vloadBody_illegal (by simpa using h) (by simpa using hx)
  · exact fun hx => wordIllegal_of_body fun o => vstoreBody_illegal (by simpa using h) (by simpa using hx)
  · exact fun hu => wordIllegal_of_body fun o => vopBody_of_unconfigured (by simpa using h) (by simpa using hu)

end Sys2Proof.Machine
end

section
/-! SUPPORT for the statements of 42_csr_gate.md: the gate's tests as numbers, and what the one shape of all CSR bodies
answers, statement by statement. -/

namespace Sys2Proof.Machine

/-! ## The gate's tests (42_csr_gate.md R260, R261, R265) -/

theorem toNat_csrLevel (a : CsrAddr) : (csrLevel a).toNat = a.toNat / 256 % 4 := by
  rw [csrLevel, BitVec.extractLsb'_toNat, Nat.shiftRight_eq_div_pow]

theorem csrReadOnly_iff {a : CsrAddr} : csrReadOnly a = true ↔ a.toNat / 1024 = 3 := by
  have hlt : a.toNat / 1024 < 4 := by omega
  rw [csrReadOnly, beq_iff_eq, ← BitVec.toNat_inj, BitVec.extractLsb'_toNat, Nat.shiftRight_eq_div_pow,
    Nat.mod_eq_of_lt hlt]
  rfl

theorem csrDenied_iff {s : State} {a : CsrAddr} {w : Bool} :
    csrDenied s a w = true ↔ (w = true ∧ a.toNat / 1024 = 3) ∨ s.inputs.prv.toNat < a.toNat / 256 % 4 := by
  rw [csrDenied, Bool.or_eq_true, Bool.and_eq_true, csrReadOnly_iff, BitVec.ult_iff_lt, BitVec.lt_def, toNat_csrLevel]

/-- The context meets the serialisation precondition of the CSR. -/
def State.serializedFor (s : State) (a : CsrAddr) : Prop := s.serialized = true ∨ a ∈ s.params.noSerialize

/-- The gate asks for serialisation exactly where the precondition fails. -/
theorem asksSerialize_iff {s : State} {a : CsrAddr} :
    (needsSerialize s.params a && !s.serialized) = true ↔ ¬s.serializedFor a := by
  simp [needsSerialize, State.serializedFor, and_comm]

section
variable {s : State} {a : CsrAddr} {w : Bool}

theorem validateCsr_of_not_serializedFor (h : ¬s.serializedFor a) :
    validateCsr a w s = .error .serializeBefore s := by
  rw [validateCsr_run, if_pos (asksSerialize_iff.mpr h)]

theorem validateCsr_of_denied (hs : s.serializedFor a) (hd : csrDenied s a w = true) :
    validateCsr a w s = .error .illegal (s.withSerialized false) := by
  rw [validateCsr_run, if_neg fun h => asksSerialize_iff.mp h hs, if_pos hd]

theorem validateCsr_of_allowed (hs : s.serializedFor a) (hd : csrDenied s a w = false) :
    validateCsr a w s = .ok a (s.withSerialized false) := by
  rw [validateCsr_run, if_neg fun h => asksSerialize_iff.mp h hs, hd]
  rfl

end

/-! ## One shape for the six accesses -/

/-- The value a CSR access writes; the register it reads for it, if it names one, is checked first. -/
def csrOperand (i : Instr) (f : CsrForm) (old : Word) : Body Word := do
  illegalIf fun s => f.src.any fun r => !s.hasX r
  look fun s => csrNew i s old

theorem csrOperand_ok {i : Instr} {f : CsrForm} {s : State} (old : Word) (h : ∀ r, f.src = some r → s.hasX r = true) :
    csrOperand i f old s = .ok (csrNew i s old) s := by
  cases hf : f.src with
  | none => simp [csrOperand, hf]
  | some r => simp [csrOperand, hf, h r hf]

theorem csrOperand_illegal {i : Instr} {f : CsrForm} {s : State} {r : Reg} (old : Word) (hf : f.src = some r)
    (hr : s.hasX r = false) : csrOperand i f old s = .error .illegal s := by
  simp [csrOperand, hf, hr]

/-- Each access is the shell around the shape of its form (45_reference_rv.md section 4). -/
theorem exec_of_csrForm {i : Instr} {f : CsrForm} (h : csrForm i = some f) (s : State) :
    exec i s = runBody i (csrAccess f.rd f.addr f.isWrite (csrOperand i f)) s := by
  cases i
  case csrrw | csrrwi | csrrsi | csrrci =>
    cases h
    rfl
  case csrrs d a r | csrrc d a r =>
    cases h
    refine congrArg (fun new => runBody _ (csrAccess d a _ new) s) (funext₂ fun old t => ?_)
    cases hr : t.hasX r <;> simp [csrOperand, csrNew, hr]
  all_goals cases h

/-- A CSR access whose body stops. -/
theorem exec_of_csrAccess_error {i : Instr} {f : CsrForm} (h : csrForm i = some f) {s : State} (u : State) (e : Stop)
    (hb : csrAccess f.rd f.addr f.isWrite (csrOperand i f) (s.started i) =
      .error e (u.withOutcome (s.started i).outcome)) :
    exec i s = .next (u.withOutcome (stopOutcome (instrLength i) (encode i) u e)) := by
  rw [exec_of_csrForm h, runBody_of_error hb]
  cases e <;> rfl

/-! ## The statements of a CSR body, in order (42_csr_gate.md R260, R262) -/

/-- The statements after the write of the CSR: the destination, then the default next PC through the PC gate. -/
def csrFinish (rd : Reg) (old : Word) : Body Unit := do
  writeSext rd old
  let npc ← look (npcDefault · 4)
  setPcAndSerialize npc

/-- The CSR store and the integer file admit what the access writes, if it writes anything. -/
def csrAdmitted (s : State) (i : Instr) (f : CsrForm) : Prop :=
  f.isWrite = true → csrWriteFault s.params f.addr (csrNew i s (s.csrAt f.addr)) = none ∧
    ∀ r, f.src = some r → s.hasX r = true

/-- The state after a CSR access has written the CSR, if it is a write. -/
def State.csrWritten (s : State) (i : Instr) (f : CsrForm) : State :=
  if f.isWrite then (s.withSerialized false).putCsr f.addr (csrNew i s (s.csrAt f.addr)) else s.withSerialized false

theorem bind_of_ok {α β : Type} {b : Body α} {f : α → Body β} {a : α} {s t : State} (h : b s = .ok a t) :
    (b >>= f) s = f a t := by
  rw [bind_run, h]

/-- The value written depends on the integer registers alone. -/
theorem csrNew_congr {s t : State} (i : Instr) (h : ∀ r, t.x r = s.x r) : csrNew i t = csrNew i s := by
  funext old
  cases i
  case csrrw | csrrs | csrrc => simp only [csrNew, h]
  all_goals rfl

theorem csrNew_withSerialized (i : Instr) (s : State) (b : Bool) : csrNew i (s.withSerialized b) = csrNew i s :=
  csrNew_congr i fun _ => rfl

theorem csrNew_started (i : Instr) (s : State) : csrNew i (s.started i) = csrNew i s := csrNew_congr i fun _ => rfl

/-- The written CSR aside, nothing but `serialized` changes. -/
theorem csrWritten_eq (s : State) (i : Instr) (f : CsrForm) :
    s.csrWritten i f = (s.withSerialized false).withCsrs (s.csrWritten i f).csrs := by
  unfold State.csrWritten
  split <;> rfl

theorem csrWritten_started (s : State) (i : Instr) (f : CsrForm) :
    (s.started i).csrWritten i f = (s.csrWritten i f).withOutcome (s.started i).outcome := by
  unfold State.csrWritten
  rw [csrNew_started]
  split <;> rfl

theorem csrAdmitted_started {s : State} {i : Instr} {f : CsrForm} (h : csrAdmitted s i f) :
    csrAdmitted (s.started i) i f := by
  unfold csrAdmitted
  rw [csrNew_started]
  exact h

section
variable {s : State} {rd : Reg} {a : CsrAddr} {w : Bool} {new : Word → Body Word}

theorem csrAccess_of_not_serializedFor (hs : ¬s.serializedFor a) :
    csrAccess rd a w new s = .error .serializeBefore s :=
  bind_of_error (validateCsr_of_not_serializedFor hs)

theorem csrAccess_of_denied (hs : s.serializedFor a) (hd : csrDenied s a w = true) :
    csrAccess rd a w new s = .error .illegal (s.withSerialized false) :=
  bind_of_error (validateCsr_of_denied hs hd)

variable (hs : s.serializedFor a) (hd : csrDenied s a w = false)
include hs hd

theorem csrAccess_of_readFault {r : Report} (hr : csrReadFault s.params a = some r) :
    csrAccess rd a w new s = .error (.collaborator r) (s.withSerialized false) := by
  rw [csrAccess, bind_of_ok (validateCsr_of_allowed hs hd)]
  exact bind_of_error (by simp [hr])

/-- Past the gate and the read, the write and the rest remain. -/
theorem csrAccess_of_read (hr : csrReadFault s.params a = none) :
    csrAccess rd a w new s =
      (when w (new (s.csrAt a) >>= csrWrite a) >>= fun _ => csrFinish rd (s.csrAt a)) (s.withSerialized false) := by
  rw [csrAccess, bind_of_ok (validateCsr_of_allowed hs hd), bind_of_ok (a := s.csrAt a) (t := s.withSerialized false)]
  · rfl
  · simp [hr]

end

section
variable {s : State} {i : Instr} {f : CsrForm} (hs : s.serializedFor f.addr)
  (hd : csrDenied s f.addr f.isWrite = false) (hr : csrReadFault s.params f.addr = none)
include hs hd hr

theorem csrAccess_of_source {q : Reg} (hw : f.isWrite = true) (hf : f.src = some q) (hq : s.hasX q = false) :
    csrAccess f.rd f.addr f.isWrite (csrOperand i f) s = .error .illegal (s.withSerialized false) := by
  have hop := csrOperand_illegal (i := i) (s := s.withSerialized false) (s.csrAt f.addr) hf hq
  rw [csrAccess_of_read hs hd hr, hw]
  exact bind_of_error (bind_of_error hop)

theorem csrAccess_of_writeFault {r : Report} (hw : f.isWrite = true) (hf : ∀ q, f.src = some q → s.hasX q = true)
    (hc : csrWriteFault s.params f.addr (csrNew i s (s.csrAt f.addr)) = some r) :
    csrAccess f.rd f.addr f.isWrite (csrOperand i f) s = .error (.collaborator r) (s.withSerialized false) := by
  have hop := csrOperand_ok (i := i) (s := s.withSerialized false) (s.csrAt f.addr) hf
  rw [csrNew_withSerialized] at hop
  rw [csrAccess_of_read hs hd hr, hw]
  exact bind_of_error ((bind_of_ok hop).trans (by simp [hc]))

/-- Once the CSR is written, the destination and the next PC remain. -/
theorem csrAccess_of_admitted (ha : csrAdmitted s i f) :
    csrAccess f.rd f.addr f.isWrite (csrOperand i f) s = csrFinish f.rd (s.csrAt f.addr) (s.csrWritten i f) := by
  rw [csrAccess_of_read hs hd hr, State.csrWritten]
  cases hw : f.isWrite with
  | false => rfl
  | true =>
    obtain ⟨hc, hf⟩ := ha hw
    have hop := csrOperand_ok (i := i) (s := s.withSerialized false) (s.csrAt f.addr) hf
    rw [csrNew_withSerialized] at hop
    exact bind_of_ok (a := ()) ((bind_of_ok hop).trans (by simp [hc]))

end

@[simp] theorem State.csrWritten_hasX (s : State) (i : Instr) (f : CsrForm) (r : Reg) :
    (s.csrWritten i f).hasX r = s.hasX r := by rw [csrWritten_eq]; rfl

@[simp] theorem State.csrWritten_inputs (s : State) (i : Instr) (f : CsrForm) :
    (s.csrWritten i f).inputs = s.inputs := by rw [csrWritten_eq]; rfl

@[simp] theorem State.csrWritten_npcDefault (s : State) (i : Instr) (f : CsrForm) (n : Nat) :
    npcDefault (s.csrWritten i f) n = npcDefault s n := by rw [csrWritten_eq]; rfl

@[simp] theorem State.csrWritten_targetMisaligned (s : State) (i : Instr) (f : CsrForm) (t : Word) :
    targetMisaligned (s.csrWritten i f) t = targetMisaligned s t := by rw [csrWritten_eq]; rfl

@[simp] theorem State.csrWritten_targetFault (s : State) (i : Instr) (f : CsrForm) (t : Word) :
    targetFault (s.csrWritten i f) t = targetFault s t := by rw [csrWritten_eq]; rfl

section
variable {t : State} {rd : Reg} {old : Word}

theorem csrFinish_of_not_hasX (hx : t.hasX rd = false) : csrFinish rd old t = .error .illegal t := by
  simp [csrFinish, hx]

/-- The destination is written when the next PC fails the gate. -/
theorem csrFinish_of_misaligned (hx : t.hasX rd = true) (hm : targetMisaligned t (npcDefault t 4) = true) :
    csrFinish rd old t = .error (.misaligned (npcDefault t 4)) (t.putX rd (sextXlen t.inputs.xlen old)) := by
  simp [csrFinish, hx, hm, targetFault_of_misaligned hm]

theorem csrFinish_of_targetFault {r : Report} (hx : t.hasX rd = true) (hq : targetFault t (npcDefault t 4) = some r) :
    csrFinish rd old t = .error (.collaborator r) (t.putX rd (sextXlen t.inputs.xlen old)) := by
  simp [csrFinish, hx, hq]

end

/-- A CSR access that stops after the write of the CSR. -/
theorem exec_of_csrFinish_error {i : Instr} {f : CsrForm} (h : csrForm i = some f) {s : State} (u : State) (e : Stop)
    (hs : s.serializedFor f.addr) (hd : csrDenied s f.addr f.isWrite = false)
    (hr : csrReadFault s.params f.addr = none) (ha : csrAdmitted s i f)
    (hb : csrFinish f.rd (s.csrAt f.addr) ((s.csrWritten i f).withOutcome (s.started i).outcome) =
      .error e (u.withOutcome (s.started i).outcome)) :
    exec i s = .next (u.withOutcome (stopOutcome (instrLength i) (encode i) u e)) := by
  apply exec_of_csrAccess_error h u e
  rw [csrAccess_of_admitted (s := s.started i) hs hd hr (csrAdmitted_started ha), csrWritten_started]
  exact hb

end Sys2Proof.Machine
end

section
/-! SUPPORT for the statements of 42_csr_gate.md: what an instruction leaves unchanged, one reading of the state at a
time. -/

namespace Sys2Proof.Machine

/-- Both contexts give the same reading. -/
def Agree {γ : Type} (g : State → γ) (s t : State) : Prop := g t = g s

theorem composes_agree {γ : Type} (g : State → γ) : Composes (Agree g) where
  refl := fun _ => rfl
  trans := fun hst htu => htu.trans hst

/-- A reading that no update of the instruction changes is the same in every next state; the updates that write another
field than the one read need no proof. -/
theorem exec_keeps {γ : Type} {i : Instr} {s t : State} (he : exec i s = .next t) (g : State → γ)
    (outcome : ∀ s o, g (s.withOutcome o) = g s := by exact fun _ _ => rfl)
    (intReg : ∀ d, destX i = some d → ∀ s v, g (s.putX d v) = g s := by exact fun _ _ _ _ => rfl)
    (floatReg : ∀ d, destF i = some d → ∀ s c, g (s.putF d c) = g s := by exact fun _ _ _ _ => rfl)
    (serialized : (csrForm i).isSome = true → ∀ s, g (s.withSerialized false) = g s := by exact fun _ _ => rfl)
    (csr : ∀ f, csrForm i = some f → ∀ s v, g (s.putCsr f.addr v) = g s := by exact fun _ _ _ _ => rfl)
    (memory : ∀ s m, g (s.withMem m) = g s := by exact fun _ _ => rfl) : g t = g s :=
  exec_frame (R := Agree g)
    { toComposes := composes_agree g
      outcome := outcome
      intReg := intReg
      floatReg := floatReg
      serialized := serialized
      csr := fun f hf _ => csr f hf
      memory := fun _ => memory } he

/-- What no instruction writes. -/
theorem exec_keeps_rest {i : Instr} {s t : State} (he : exec i s = .next t) :
    t.pc = s.pc ∧ t.params = s.params ∧ t.inputs = s.inputs ∧ t.vtag = s.vtag ∧ t.vl = s.vl ∧ t.velem = s.velem ∧
      t.fflags = s.fflags ∧ t.fetchView = s.fetchView ∧ t.resumes = s.resumes :=
  ⟨exec_keeps he (·.pc), exec_keeps he (·.params), exec_keeps he (·.inputs), exec_keeps he (·.vtag),
    exec_keeps he (·.vl), exec_keeps he (·.velem), exec_keeps he (·.fflags), exec_keeps he (·.fetchView),
    exec_keeps he (·.resumes)⟩

end Sys2Proof.Machine
end

section
/-! PROOFS of the statements of 42_csr_gate.md. -/

namespace Sys2Proof.Machine

/-- Settles O34: the privilege and read-only tests as numbers, each made after `serialized` was cleared. -/
theorem csrGateLaws : Obligations.CsrGateLaws := by
  unfold Obligations.CsrGateLaws
  intro s a w hs
  refine ⟨fun hlevel => ?_, fun hw hro => ?_, fun hlevel hro => ?_⟩
  · exact validateCsr_of_denied hs (csrDenied_iff.mpr (.inr hlevel))
  · exact validateCsr_of_denied hs (csrDenied_iff.mpr (.inl ⟨hw, hro⟩))
  · refine validateCsr_of_allowed hs (Bool.eq_false_iff.mpr fun hd => ?_)
    rcases csrDenied_iff.mp hd with ⟨hw, h3⟩ | hlt
    · exact hro hw h3
    · exact Nat.not_lt.mpr hlevel hlt

/-- Settles O35: the gate is the first statement of the body, and the loop sets `serialized` at the same pc. -/
theorem csrAccessSerializesFirst : Obligations.CsrAccessSerializesFirst := by
  unfold Obligations.CsrAccessSerializesFirst
  intro s i f h hser hno
  have hs : ¬s.serializedFor f.addr := by simp [State.serializedFor, hser, hno]
  have hexec : exec i s = .next (s.withOutcome (.next s.pc .serializeBefore)) :=
    exec_of_csrAccess_error h s .serializeBefore (csrAccess_of_not_serializedFor hs)
  rw [hexec]
  exact ⟨rfl, rfl⟩

/-- Settles O37: each statement of the body that can stop it, with the state the ones before it left. -/
theorem csrAccessTraps : Obligations.CsrAccessTraps := by
  unfold Obligations.CsrAccessTraps
  intro s i f h hs
  refine ⟨fun hd => ?denied, fun r hd hr => ?read, fun r hd hr hw hf hc => ?write, fun q hd hr hw hf hq => ?source,
    fun hd hr ha hx => ?destination, fun hd hr ha hx hm => ?misaligned, fun q hd hr ha hx hq => ?query⟩
  case denied =>
    exact exec_of_csrAccess_error h (s.withSerialized false) .illegal
      (csrAccess_of_denied (s := s.started i) hs hd)
  case read =>
    exact exec_of_csrAccess_error h (s.withSerialized false) (.collaborator r)
      (csrAccess_of_readFault (s := s.started i) hs hd hr)
  case write =>
    refine exec_of_csrAccess_error h (s.withSerialized false) (.collaborator r)
      (csrAccess_of_writeFault (s := s.started i) hs hd hr hw hf ?_)
    rw [csrNew_started]
    exact hc
  case source =>
    exact exec_of_csrAccess_error h (s.withSerialized false) .illegal
      (csrAccess_of_source (s := s.started i) hs hd hr hw hf hq)
  case destination =>
    exact exec_of_csrFinish_error h (s.csrWritten i f) .illegal hs hd hr ha (csrFinish_of_not_hasX (by simpa using hx))
  case misaligned =>
    refine exec_of_csrFinish_error h ((s.csrWritten i f).putX f.rd (sextXlen s.inputs.xlen (s.csrAt f.addr)))
      (.misaligned (npcDefault s 4)) hs hd hr ha ?_
    rw [csrFinish_of_misaligned (by simpa using hx) (by simpa using hm)]
    simp
  case query =>
    refine exec_of_csrFinish_error h ((s.csrWritten i f).putX f.rd (sextXlen s.inputs.xlen (s.csrAt f.addr)))
      (.collaborator q) hs hd hr ha ?_
    rw [csrFinish_of_targetFault (by simpa using hx) (by simpa using hq)]
    simp

/-- Settles O53: no update of an instruction writes what is read, but for the updates of its destinations, of its CSR
and of `serialized`. -/
theorem execFrame : Obligations.ExecFrame := by
  unfold Obligations.ExecFrame
  intro s t i he
  refine ⟨fun r hr => ?x, fun r hr => ?f, fun a ha => ?csr, fun hc => ?serialized, fun hf => ?dirty,
    fun hx hf => ?log, exec_keeps_rest he⟩
  case x => exact exec_keeps he (·.x r) (intReg := fun d hd s v => x_putX_ne s v fun e => hr (e ▸ hd))
  case f => exact exec_keeps he (·.f r) (floatReg := fun d hd s c => f_putF_ne s c fun e => hr (e ▸ hd))
  case csr => exact exec_keeps he (·.csrAt a) (csr := fun f hf s v => csrAt_putCsr_ne s v (ha f hf).symm)
  case serialized => exact exec_keeps he (·.serialized) (serialized := fun h => by simp [hc] at h)
  case dirty => exact exec_keeps he (·.fsDirty) (floatReg := fun d hd => by simp [hf] at hd)
  case log =>
    exact exec_keeps he (·.log) (intReg := fun d hd => by simp [hx] at hd) (floatReg := fun d hd => by simp [hf] at hd)

end Sys2Proof.Machine
end

section
/-! SUPPORT for the statements of 43_dispatch_shell.md: extension to XLEN as an integer, what the PC gate answers, the
loop around the block by outcome, and the memory the fetch unit reads. -/

namespace Sys2Proof.Machine

/-! ## Extension to XLEN (00_scope.md R23) -/

/-- At XLEN 32 the extension is the signed value of the low 32 bits. -/
theorem toInt_sextXlen_x32 (v : Word) : (sextXlen .x32 v).toInt = v.toInt.bmod (2 ^ 32) := by
  have hlow : v.toInt.bmod (2 ^ 32) = (v.toNat : Int).bmod (2 ^ 32) := by
    rw [BitVec.toInt_eq_toNat_bmod, Int.bmod_bmod_of_dvd (Nat.pow_dvd_pow 2 (by decide))]
  rw [hlow, sextXlen, BitVec.toInt_signExtend_of_le (by decide), BitVec.toInt_setWidth]

/-- A sum of words and the sum of their values agree in the low 32 bits. -/
theorem toInt_add_ofNat_bmod (v : Word) (n : Nat) :
    (v + BitVec.ofNat 64 n).toInt.bmod (2 ^ 32) = (v.toInt + n).bmod (2 ^ 32) := by
  rw [BitVec.toInt_add, BitVec.toInt_ofNat', Int.add_bmod_bmod, Int.bmod_bmod_of_dvd (Nat.pow_dvd_pow 2 (by decide))]

/-! ## The PC gate (43_dispatch_shell.md R282, R283) -/

section Gate

variable {s : State} {t : Word}

theorem targetMisaligned_iff : targetMisaligned s t = true ↔ t.getLsbD 1 = true ∧ s.inputs.caps.c = .no := by
  simp [targetMisaligned, supports]

theorem targetFault_eq_some_iff {r : Report} :
    targetFault s t = some r ↔ t.getLsbD 1 = true ∧ s.inputs.caps.c = .faults r := by
  rw [targetFault, supports]
  cases t.getLsbD 1 <;> cases s.inputs.caps.c <;> simp

/-- A target the gate lets through raises nothing, and asks nothing that faults. -/
theorem gate_of_passes (h : t.getLsbD 1 = false ∨ s.inputs.caps.c = .yes) :
    targetFault s t = none ∧ targetMisaligned s t = false := by
  rw [targetFault, targetMisaligned, supports]
  rcases h with hb | hc
  · rw [hb]
    exact ⟨rfl, rfl⟩
  · rw [hc]
    exact ⟨ite_self _, Bool.and_false _⟩

end Gate

/-! ## The loop after the block (43_dispatch_shell.md R287) -/

section Loop

variable {s : State} {npc v : Word} {c : Cause}

theorem commit_of_normal (h : s.outcome = .next npc .normal) : commit s = s.withPc npc := by simp only [commit, h]

theorem commit_of_serializeAfter (h : s.outcome = .next npc .serializeAfter) : commit s = s.withPc npc := by
  simp only [commit, h]

theorem commit_of_serializeBefore (h : s.outcome = .next npc .serializeBefore) :
    commit s = (s.withPc npc).withSerialized true := by simp only [commit, h]

theorem commit_of_trap (h : s.outcome = .trap c v) : commit s = s := by simp only [commit, h]

@[simp] theorem settle_next (s : State) : settle (.next s) = .next (commit s).advanceFetch := rfl

/-- After a trap the handler's next decision is taken. -/
theorem step_of_trap_cons {r : Resume} {rest : List Resume} (h : s.outcome = .trap c v) (hr : s.resumes = r :: rest) :
    step s = .next (resumeWith r rest s).advanceFetch := by simp only [step, h, resume, hr, endStep]

/-- After a trap with no decision queued the machine stops. -/
theorem step_of_trap_nil (h : s.outcome = .trap c v) (hr : s.resumes = []) :
    step s = .fault .noHandlerDecision := by simp only [step, h, resume, hr, endStep]

end Loop

/-! ## What the fetch unit reads (20_memory.md R83; log 12) -/

section Fetch

variable {s : State}

theorem fetchMemory_of_none (h : s.fetchView = none) : fetchMemory s = s.mem := by simp only [fetchMemory, h]

theorem fetchMemory_of_some {w : FetchView} (h : s.fetchView = some w) : fetchMemory s = w.seen := by
  simp only [fetchMemory, h]

theorem fetchMemory_advanceFetch {w : FetchView} (h : s.fetchView = some w) :
    fetchMemory s.advanceFetch = (advanceView s.mem w).seen :=
  fetchMemory_of_some (by rw [State.advanceFetch_fetchView, h, Option.map_some])

end Fetch

end Sys2Proof.Machine
end

section
/-! PROOFS of the statements of 43_dispatch_shell.md. -/

namespace Sys2Proof.Machine

/-- Settles O38: the gate by what its query answers (log 32), and the extension at its two widths. -/
theorem pcGate : Obligations.PcGate := by
  unfold Obligations.PcGate
  intro s t len
  refine ⟨fun hb hc => ?misaligned, fun r hb hc => ?query, fun hp => ?passes, fun hx => ?wide, fun hx => ?narrow⟩
  case misaligned =>
    have hm : targetMisaligned s t = true := targetMisaligned_iff.mpr ⟨hb, hc⟩
    simp [targetFault_of_misaligned hm, hm]
  case query => simp [targetFault_eq_some_iff.mpr ⟨hb, hc⟩]
  case passes =>
    obtain ⟨hf, hm⟩ := gate_of_passes hp
    simp [hf, hm, State.withOutcome]
  case wide => simp [npcDefault, hx]
  case narrow =>
    rw [npcDefault, hx]
    exact ⟨(toInt_sextXlen_x32 _).trans (toInt_add_ofNat_bmod s.pc len), toInt_sextXlen_x32 t⟩

/-- Settles O39: `step` reaches its last branch. -/
theorem stepRunsDecodedInstruction : Obligations.StepRunsDecodedInstruction := by
  unfold Obligations.StepRunsDecodedInstruction
  intro s npc act bytes rest i ho hf hd
  simp only [step, ho, hf, hd]

/-- Settles O41: the loop by outcome, the two schedules of the fetch unit's view (log 12), and the handler's queue
(log 9). -/
theorem loopFollowsOutcome : Obligations.LoopFollowsOutcome := by
  unfold Obligations.LoopFollowsOutcome
  intro s npc v c r rest
  refine ⟨fun h => ?normal, fun h => ?after, fun h => ?before, fun h => ?trap, s.advanceFetch_eq, fun h => ?atOnce,
    fun w h => ⟨fun hk => ?hidden, fun hk => ?revealed⟩, fun h hr => ?decision, step_of_trap_nil⟩
  case normal => rw [settle_next, commit_of_normal h]; rfl
  case after => rw [settle_next, commit_of_serializeAfter h]; rfl
  case before => rw [settle_next, commit_of_serializeBefore h]; rfl
  case trap => rw [settle_next, commit_of_trap h]
  case atOnce => exact ⟨s.advanceFetch_of_none h, fetchMemory_of_none h⟩
  case hidden => rw [fetchMemory_advanceFetch h, advanceView_of_zero hk, fetchMemory_of_some h]
  case revealed => rw [fetchMemory_advanceFetch h, advanceView_of_all hk]
  case decision => exact ⟨_, step_of_trap_cons h hr, rfl, rfl, rfl, rfl, rfl, rfl, rfl, rfl⟩

end Sys2Proof.Machine
end

section
/-! SUPPORT for the statements of 45_reference_rv.md: the words of a row of the opcode table, and what the shell answers
for a body, one statement of the body after the other. -/

namespace Sys2Proof.Machine

/-! ## The words of a row (30_encoding.md R137, R138) -/

/-- Every word with the pattern of row `k` of the table under its mask decodes to what the row builds. The row of
`c.lui` is left out: some of its words are `c.addi16sp`'s. -/
theorem spells_of_row (k : Nat) {x : XLen} {pattern mask : Word} {only64 : Bool} {build : Word → Instr}
    (hrow : opcodeTable[k]? = some ⟨pattern, mask, only64, build⟩) (hx : only64 = true → x = .x64 := by nofun)
    (hlui : pattern ≠ 0x6001#64 := by decide) : spells x pattern mask build := by
  intro w hw
  have htakes : Row.takes ⟨pattern, mask, only64, build⟩ w = true := beq_iff_eq.mpr hw
  obtain h32 | h16 := List.mem_append.mp (List.mem_of_getElem? hrow)
  · rw [decodeWord, insnLength_of_takes32 h32 htakes, if_neg (by decide), if_pos rfl, decode32_of_takes _ h32 htakes]
  · rw [decodeWord, if_pos (insnLength_of_takes16 h16 htakes),
      decode16_of_takes _ h16 htakes fun _ hp => absurd hp hlui, Row.answer]
    cases only64 with
    | false => rfl
    | true =>
      rw [hx rfl]
      rfl

/-! ## Registers checked on the way (40_register_access.md R160) -/

@[simp] theorem hasXs_nil (s : State) : s.hasXs [] = true := rfl

@[simp] theorem hasXs_cons (s : State) (r : Reg) (l : List Reg) : s.hasXs (r :: l) = (s.hasX r && s.hasXs l) := rfl

/-- The answer of an instruction that checks these registers: illegal-instruction if one of them is outside the file,
and the state `t` otherwise. -/
def State.checked (s : State) (i : Instr) (l : List Reg) (t : State) : Answer :=
  .next (if s.hasXs l = true then t else s.illegalAt i)

section
variable {s t : State} {i : Instr} {l : List Reg}

theorem checked_of_hasXs (h : s.hasXs l = true) : s.checked i l t = .next t := by rw [State.checked, if_pos h]

theorem checked_of_not_hasXs (h : s.hasXs l = false) : s.checked i l t = .next (s.illegalAt i) := by
  rw [State.checked, h]
  rfl

end

/-! ## The PC gate as the end of a body (43_dispatch_shell.md R282) -/

/-- What `set_pc(a)` makes of an instruction that would end in `t`: a fault of the gate's query, the misaligned trap, or
`t`. -/
def State.gated (s : State) (a : Word) (t : State) : State :=
  match targetFault s a with
  | some r => s.faultsAt r
  | none => if targetMisaligned s a = true then s.traps .instructionAddressMisaligned a else t

section
variable {s t : State} {a : Word}

theorem gated_of_targetFault {r : Report} (h : targetFault s a = some r) : s.gated a t = s.faultsAt r := by
  simp only [State.gated, h]

theorem gated_of_misaligned (h : targetMisaligned s a = true) :
    s.gated a t = s.traps .instructionAddressMisaligned a := by
  simp only [State.gated, targetFault_of_misaligned h, h, if_true]

theorem gated_of_passes (hf : targetFault s a = none) (hm : targetMisaligned s a = false) : s.gated a t = t := by
  simp [State.gated, hf, hm]

end

/-! ## The shell around a body, statement by statement (43_dispatch_shell.md R281; 60_exceptions.md R400) -/

section
variable {s : State} {i : Instr}

/-- What the shell makes of the result of a body of the instruction. -/
def ended (i : Instr) : EStateM.Result Stop State Unit → State
  | .ok _ t => t
  | .error e t => t.withOutcome (stopOutcome (instrLength i) (encode i) t e)

theorem runBody_eq_ended (i : Instr) (b : Body Unit) (s : State) :
    runBody i b s = .next (ended i (b (s.started i))) := by
  cases h : b (s.started i) with
  | ok u t => exact runBody_of_ok h
  | error e t => exact runBody_of_error h

/-- A statement that answers and changes nothing leaves the rest of the body. -/
theorem runBody_of_passes {α : Type} {b : Body α} {f : α → Body Unit} {a : α}
    (h : b (s.started i) = .ok a (s.started i)) : runBody i (b >>= f) s = runBody i (f a) s := by
  rw [runBody_eq_ended, runBody_eq_ended, bind_of_ok h]

theorem runBody_look {α : Type} {g : State → α} {f : α → Body Unit} {a : α} (h : g (s.started i) = a) :
    runBody i (look g >>= f) s = runBody i (f a) s := runBody_of_passes (by rw [look_run, h])

theorem runBody_of_supports {e : Ext} {f : Unit → Body Unit} (h : supports s e = .yes) :
    runBody i (requireExt e >>= f) s = runBody i (f ()) s :=
  runBody_of_passes (by simp [State.started, h])

theorem runBody_of_stopIf {c : Bool} {e : Stop} {f : Unit → Body Unit} (h : c = false) :
    runBody i (stopIf c e >>= f) s = runBody i (f ()) s :=
  runBody_of_passes (by simp [h])

theorem runBody_of_illegalIf {g : State → Bool} {f : Unit → Body Unit} (h : g (s.started i) = false) :
    runBody i (illegalIf g >>= f) s = runBody i (f ()) s :=
  runBody_of_passes (by simp [h])

/-- A checked read adds its register to those the rest of the body checks. -/
theorem runBody_readX {r : Reg} {f : Word → Body Unit} {l : List Reg} {t : State}
    (h : runBody i (f (s.x r)) s = s.checked i l t) : runBody i (readX r >>= f) s = s.checked i (r :: l) t := by
  cases hr : s.hasX r with
  | false =>
    rw [checked_of_not_hasXs (by simp [hr])]
    exact runBody_illegal (bind_of_error (by simp [State.started, hr]))
  | true =>
    rw [runBody_of_passes (a := s.x r) (by simp [State.started, hr]), h]
    simp [State.checked, hr]

theorem runBody_readAddr {r : Reg} {off : Word} {f : Word → Body Unit} {l : List Reg} {t : State}
    (h : runBody i (f (s.x r + off)) s = s.checked i l t) :
    runBody i (readAddr r off >>= f) s = s.checked i (r :: l) t := by
  rw [readAddr, bind_assoc]
  exact runBody_readX h

theorem runBody_writeX (d : Reg) (v : Word) :
    runBody i (writeX d v) s = s.checked i [d] ((s.putX d v).completes (instrLength i)) := by
  cases hd : s.hasX d with
  | false =>
    rw [checked_of_not_hasXs (by simp [hd])]
    exact runBody_illegal (by simp [State.started, hd])
  | true =>
    rw [checked_of_hasXs (by simp [hd])]
    exact runBody_of_ok (by simp [State.completes, hd])

theorem runBody_writeSext (d : Reg) (v : Word) :
    runBody i (writeSext d v) s =
      s.checked i [d] ((s.putX d (sextXlen s.inputs.xlen v)).completes (instrLength i)) :=
  (runBody_look rfl).trans (runBody_writeX d _)

/-- The rest of the body starts from the redirected PC, if the gate lets the target through. -/
theorem runBody_setPc_bind (a : Word) (f : Unit → Body Unit) :
    runBody i (setPc a >>= f) s = .next (s.gated a (ended i (f () (s.redirects a)))) := by
  rw [runBody_eq_ended]
  congr 1
  cases hf : targetFault s a with
  | some r =>
    rw [gated_of_targetFault hf, bind_of_error (e := .collaborator r) (t := s.started i) (by simp [State.started, hf])]
    rfl
  | none =>
    cases hm : targetMisaligned s a with
    | true =>
      rw [gated_of_misaligned hm, bind_of_error (e := .misaligned a) (t := s.started i)
        (by simp [State.started, hf, hm])]
      rfl
    | false =>
      rw [gated_of_passes hf hm, bind_of_ok (a := ()) (t := s.redirects a)
        (by simp [State.started, State.redirects, hf, hm])]

theorem runBody_setPc (a : Word) : runBody i (setPc a) s = .next (s.gated a (s.redirects a)) := by
  rw [← bind_pure (setPc a), runBody_setPc_bind]
  rfl

/-- A link is written after the gate let the target through. -/
theorem runBody_setPc_writeX (a : Word) (d : Reg) (v : Word) :
    runBody i (setPc a >>= fun _ => writeX d v) s =
      .next (s.gated a (if s.hasX d = true then (s.putX d v).redirects a else s.illegalAt i)) := by
  rw [runBody_setPc_bind, writeX_run, State.redirects, State.withOutcome_hasX]
  cases s.hasX d <;> rfl

theorem runBody_jumpRel (off : Word) :
    runBody i (jumpRel off) s = .next (s.gated (s.pc + off) (s.redirects (s.pc + off))) := by
  rw [jumpRel, runBody_look (a := s.pc + off) rfl, runBody_setPc]

theorem runBody_jumpRel_writeX (off : Word) (d : Reg) (v : Word) :
    runBody i (jumpRel off >>= fun _ => writeX d v) s =
      .next (s.gated (s.pc + off)
        (if s.hasX d = true then (s.putX d v).redirects (s.pc + off) else s.illegalAt i)) := by
  rw [jumpRel, bind_assoc, runBody_look (a := s.pc + off) rfl, runBody_setPc_writeX]

theorem runBody_branchIf (taken : Bool) (off : Word) :
    runBody i (branchIf taken off) s =
      .next (if taken = true then s.gated (s.pc + off) (s.redirects (s.pc + off))
        else s.completes (instrLength i)) := by
  cases taken with
  | true => exact runBody_jumpRel off
  | false => rfl

end

end Sys2Proof.Machine
end

section
/-! SUPPORT for the statements of 45_reference_rv.md: what each shape of instruction answers. -/

namespace Sys2Proof.Machine

/-! ## Integer computation (45_reference_rv.md R300 to R304) -/

section
variable (s : State) (d r q : Reg) (imm : Word)

theorem exec_add :
    exec (.add d r q) s =
      s.checked (.add d r q) [r, q, d] ((s.putX d (sextXlen s.inputs.xlen (s.x r + s.x q))).completes 4) :=
  runBody_readX (runBody_readX (runBody_writeSext ..))

theorem exec_addi :
    exec (.addi d r imm) s =
      s.checked (.addi d r imm) [r, d] ((s.putX d (sextXlen s.inputs.xlen (s.x r + imm))).completes 4) :=
  runBody_readX (runBody_writeSext ..)

theorem exec_lui : exec (.lui d imm) s = s.checked (.lui d imm) [d] ((s.putX d imm).completes 4) := runBody_writeX ..

theorem exec_slli {sh : BitVec 6} (h : sh.toNat < xlenBits s.inputs.xlen) :
    exec (.slli d r sh) s =
      s.checked (.slli d r sh) [r, d] ((s.putX d (sextXlen s.inputs.xlen (s.x r <<< sh.toNat))).completes 4) := by
  rw [exec, execSlli, runBody_of_illegalIf (decide_eq_false (Nat.not_le.mpr h))]
  exact runBody_readX (runBody_writeSext ..)

theorem exec_auipc :
    exec (.auipc d imm) s =
      s.checked (.auipc d imm) [d] ((s.putX d (sextXlen s.inputs.xlen (imm + s.pc))).completes 4) := by
  rw [exec, execAuipc, runBody_look (a := s.pc) rfl]
  exact runBody_writeSext ..

end

/-! ## Jumps and branches (45_reference_rv.md R306 to R313) -/

section
variable (s : State) (d r : Reg) (off : Word)

theorem exec_jal :
    exec (.jal d off) s = .next (s.gated (s.pc + off)
      (if s.hasX d = true then (s.putX d (npcDefault s 4)).redirects (s.pc + off) else s.illegalAt (.jal d off))) := by
  rw [exec, execJal, runBody_look (a := npcDefault s 4) rfl, runBody_jumpRel_writeX]

theorem exec_jalr :
    exec (.jalr d r off) s = s.checked (.jalr d r off) [r] (s.gated ((s.x r + off) &&& ~~~1)
      (if s.hasX d = true then (s.putX d (npcDefault s 4)).redirects ((s.x r + off) &&& ~~~1)
        else s.illegalAt (.jalr d r off))) := by
  rw [exec, execJalr, runBody_look (a := npcDefault s 4) rfl]
  exact runBody_readX (l := []) (runBody_setPc_writeX ..)

end

/-- The shape of every branch body. -/
def branchBody (f : BranchForm) (test : Word → Word → Bool) : Body Unit := do
  let a ← readX f.rs1
  let b ← readX f.rs2
  branchIf (test a b) f.off

theorem runBody_branchBody {i : Instr} (f : BranchForm) (test : Word → Word → Bool) (s : State) :
    runBody i (branchBody f test) s = s.checked i [f.rs1, f.rs2]
      (if test (s.x f.rs1) (s.x f.rs2) = true then s.gated (s.pc + f.off) (s.redirects (s.pc + f.off))
        else s.completes (instrLength i)) :=
  runBody_readX (runBody_readX (l := []) (runBody_branchIf ..))

/-- Each branch runs the shape of its form, with a test that says when it is taken. -/
theorem exec_of_branchForm {i : Instr} {f : BranchForm} (h : branchForm i = some f) :
    ∃ test : Word → Word → Bool, instrLength i = 4 ∧ (∀ a b, test a b = true ↔ branchTaken i a b) ∧
      ∀ s, exec i s = runBody i (branchBody f test) s := by
  cases i
  case beq =>
    cases h
    exact ⟨(· == ·), rfl, fun _ _ => beq_iff_eq, fun _ => rfl⟩
  case bne =>
    cases h
    exact ⟨(· != ·), rfl, fun _ _ => bne_iff_ne, fun _ => rfl⟩
  case blt =>
    cases h
    exact ⟨BitVec.slt, rfl, fun _ _ => BitVec.slt_iff_toInt_lt, fun _ => rfl⟩
  case bge =>
    cases h
    exact ⟨(!BitVec.slt · ·), rfl, fun _ _ => by simp [branchTaken, BitVec.slt_eq_decide], fun _ => rfl⟩
  case bltu =>
    cases h
    exact ⟨BitVec.ult, rfl, fun _ _ => BitVec.ult_iff_lt, fun _ => rfl⟩
  case bgeu =>
    cases h
    exact ⟨(!BitVec.ult · ·), rfl, fun _ _ => by simp [branchTaken, BitVec.ult_eq_decide], fun _ => rfl⟩
  all_goals cases h

/-! ## Loads (45_reference_rv.md R314, R315; 46_reference_rvc.md R351, R352, R363, R364) -/

/-- The shape of every load body past its preconditions. -/
def loadBody (f : LoadForm) (w : MWidth) : Body Unit := do
  let ea ← readAddr f.base f.off
  let v ← memLoad true w ea
  writeX f.rd v

/-- What a load of the instruction ends in, once its base is read. -/
def State.loaded (s : State) (i : Instr) (f : LoadForm) : State :=
  match accessFault s.params .load f.bytes (s.x f.base + f.off) with
  | some r => s.faultsAt r
  | none =>
    if s.hasX f.rd = true then
      (s.putX f.rd (((leWord (readBytes s.mem (s.x f.base + f.off) f.bytes)).setWidth (8 * f.bytes)).signExtend
        64)).completes (instrLength i)
    else s.illegalAt i

/-- The extension a word load makes again is the one the access made. -/
theorem memLoad_sext32 (a : Word) (d : Reg) :
    (memLoad true .b32 a >>= fun v => writeX d (sext32 v)) = (memLoad true .b32 a >>= writeX d) := by
  funext s
  simp only [bind_run, memLoad_run]
  cases accessFault s.params .load MWidth.b32.bytes a with
  | some r => rfl
  | none => simp only [sext32_extendLoad]

theorem runBody_loadBody {i : Instr} {f : LoadForm} {w : MWidth} (s : State) (hw : f.bytes = w.bytes) :
    runBody i (loadBody f w) s = s.checked i [f.base] (s.loaded i f) := by
  refine runBody_readAddr (l := []) ?_
  unfold State.loaded
  rw [hw]
  cases hf : accessFault s.params .load w.bytes (s.x f.base + f.off) with
  | some r => exact runBody_faults (bind_of_error (by simp [State.started, hf]))
  | none =>
    rw [runBody_of_passes (a := extendLoad true w (leWord (readBytes s.mem (s.x f.base + f.off) w.bytes)))
      (by simp [State.started, hf]), runBody_writeX]
    simp [State.checked, extendLoad]

/-- A load whose preconditions hold runs the shape of its form. -/
theorem exec_of_loadForm {i : Instr} {f : LoadForm} {s : State} (h : loadForm i = some f)
    (hx : rv64Only i = true → s.inputs.xlen = .x64) (hl : legalIn s i = true) :
    ∃ w : MWidth, f.bytes = w.bytes ∧ exec i s = runBody i (loadBody f w) s := by
  cases i
  case lw =>
    cases h
    exact ⟨.b32, rfl, by simp only [exec, execLw, loadBody, memLoad_sext32]⟩
  case ld =>
    cases h
    exact ⟨.b64, rfl, runBody_of_illegalIf (by simpa [State.started, legalIn] using hl)⟩
  case cLw =>
    cases h
    refine ⟨.b32, rfl, ?_⟩
    simp only [exec, execCLw, loadBody, memLoad_sext32]
    exact runBody_of_supports (beq_iff_eq.mp hl)
  case cLd =>
    cases h
    exact ⟨.b64, rfl, (runBody64_of_x64 (hx rfl)).trans
      (runBody_of_supports (beq_iff_eq.mp (Bool.and_eq_true_iff.mp hl).1))⟩
  case cLwsp =>
    cases h
    simp only [legalIn, Bool.and_eq_true, beq_iff_eq] at hl
    obtain ⟨hc, hd⟩ := hl
    refine ⟨.b32, rfl, ?_⟩
    simp only [exec, execCLwsp, loadBody, memLoad_sext32]
    exact (runBody_of_supports (e := .c) hc).trans (runBody_of_stopIf (by simpa using hd))
  case cLdsp =>
    cases h
    simp only [legalIn, Bool.and_eq_true, beq_iff_eq] at hl
    obtain ⟨⟨hc, -⟩, hd⟩ := hl
    exact ⟨.b64, rfl, (runBody64_of_x64 (hx rfl)).trans
      ((runBody_of_supports (e := .c) hc).trans (runBody_of_stopIf (by simpa using hd)))⟩
  all_goals cases h

theorem exec_load {i : Instr} {f : LoadForm} {s : State} (h : loadForm i = some f)
    (hx : rv64Only i = true → s.inputs.xlen = .x64) (hl : legalIn s i = true) :
    exec i s = s.checked i [f.base] (s.loaded i f) := by
  obtain ⟨w, hw, he⟩ := exec_of_loadForm h hx hl
  rw [he, runBody_loadBody s hw]

/-! ## Stores (45_reference_rv.md R316, R317; 46_reference_rvc.md R353, R354, R365, R366) -/

/-- The shape of every store body past its preconditions. -/
def storeBody (f : StoreForm) (w : MWidth) : Body Unit := do
  let ea ← readAddr f.base f.off
  let v ← readX f.src
  memStore w ea v

/-- What a store of the instruction ends in, once its registers are read. -/
def State.stored (s : State) (i : Instr) (f : StoreForm) : State :=
  match accessStop s.params .store f.bytes (s.x f.base + f.off) with
  | some q => (s.withMem (writeBytes s.mem (s.x f.base + f.off) (leBytes q.1 (s.x f.src)))).faultsAt q.2
  | none =>
    (s.withMem (writeBytes s.mem (s.x f.base + f.off) (leBytes f.bytes (s.x f.src)))).completes (instrLength i)

/-- A word store writes the low bytes of its source, however many of them it makes. -/
theorem memStore_low32 (a v : Word) : memStore .b32 a (low32 v) = memStore .b32 a v := by
  funext s
  simp only [memStore_run]
  cases hq : accessStop s.params .store MWidth.b32.bytes a with
  | some q => simp only [leBytes_low32_of_le v (accessStop_le hq)]
  | none => simp only [MWidth.bytes, leBytes_low32]

theorem runBody_storeBody {i : Instr} {f : StoreForm} {w : MWidth} (s : State) (hw : f.bytes = w.bytes) :
    runBody i (storeBody f w) s = s.checked i [f.base, f.src] (s.stored i f) := by
  refine runBody_readAddr (runBody_readX (l := []) ?_)
  rw [runBody_eq_ended, memStore_run]
  unfold State.stored
  rw [hw]
  cases hq : accessStop s.params .store w.bytes (s.x f.base + f.off) with
  | some q =>
    simp only [State.started, State.withOutcome_params, hq]
    rfl
  | none =>
    simp only [State.started, State.withOutcome_params, hq]
    rfl

/-- A store whose preconditions hold runs the shape of its form. -/
theorem exec_of_storeForm {i : Instr} {f : StoreForm} {s : State} (h : storeForm i = some f)
    (hx : rv64Only i = true → s.inputs.xlen = .x64) (hl : legalIn s i = true) :
    ∃ w : MWidth, f.bytes = w.bytes ∧ exec i s = runBody i (storeBody f w) s := by
  cases i
  case sw =>
    cases h
    exact ⟨.b32, rfl, by simp only [exec, execSw, storeBody, memStore_low32]⟩
  case sd =>
    cases h
    exact ⟨.b64, rfl, runBody_of_illegalIf (by simpa [State.started, legalIn] using hl)⟩
  case cSw | cSwsp =>
    cases h
    refine ⟨.b32, rfl, ?_⟩
    simp only [exec, execCSw, execCSwsp, storeBody, memStore_low32]
    exact runBody_of_supports (beq_iff_eq.mp hl)
  case cSd | cSdsp =>
    cases h
    exact ⟨.b64, rfl, (runBody64_of_x64 (hx rfl)).trans
      (runBody_of_supports (beq_iff_eq.mp (Bool.and_eq_true_iff.mp hl).1))⟩
  all_goals cases h

theorem exec_store {i : Instr} {f : StoreForm} {s : State} (h : storeForm i = some f)
    (hx : rv64Only i = true → s.inputs.xlen = .x64) (hl : legalIn s i = true) :
    exec i s = s.checked i [f.base, f.src] (s.stored i f) := by
  obtain ⟨w, hw, he⟩ := exec_of_storeForm h hx hl
  rw [he, runBody_storeBody s hw]

/-! ## The rows at XLEN 64 alone (30_encoding.md R139; log 18) -/

theorem exec_of_rv64Only_x32 {i : Instr} {s : State} (h : rv64Only i = true) (hx : s.inputs.xlen = .x32) :
    exec i s = .refused .rv64OnlyRow := by
  cases i
  case cLd | cSd | cLdsp | cSdsp => exact runBody64_of_x32 hx
  all_goals cases h

/-! ## Memory (20_memory.md R71) -/

theorem exec_keeps_mem {i : Instr} {s t : State} (h : storeForm i = none) (he : exec i s = .next t) : t.mem = s.mem :=
  exec_frame (R := Agree State.mem)
    { toComposes := composes_agree State.mem
      outcome := fun _ _ => rfl
      intReg := fun _ _ _ _ => rfl
      floatReg := fun _ _ _ _ => rfl
      serialized := fun _ _ => rfl
      csr := fun _ _ _ _ _ => rfl
      memory := fun hs => by simp [h] at hs } he

theorem stored_mem (s : State) (i : Instr) (f : StoreForm) : ∃ n ≤ f.bytes,
    (s.stored i f).mem = writeBytes s.mem (s.x f.base + f.off) (leBytes n (s.x f.src)) := by
  cases hq : accessStop s.params .store f.bytes (s.x f.base + f.off) with
  | some q => exact ⟨q.1, accessStop_le hq, by simp only [State.stored, hq]; rfl⟩
  | none => exact ⟨f.bytes, Nat.le_refl _, by simp only [State.stored, hq]; rfl⟩

/-- A store writes the first bytes of its source at its address: all of them, those before a fault, or none at a trap
before the access. -/
theorem exec_store_mem {i : Instr} {f : StoreForm} {s t : State} (h : storeForm i = some f) (he : exec i s = .next t) :
    ∃ n ≤ f.bytes, t.mem = writeBytes s.mem (s.x f.base + f.off) (leBytes n (s.x f.src)) := by
  have hx : rv64Only i = true → s.inputs.xlen = .x64 := fun h64 => by
    cases hxlen : s.inputs.xlen with
    | x64 => rfl
    | x32 =>
      rw [exec_of_rv64Only_x32 h64 hxlen] at he
      cases he
  obtain ⟨hillegal, hfault⟩ := failedPreconditionTraps s i hx
  cases hl : legalIn s i with
  | false =>
    refine ⟨0, Nat.zero_le _, ?_⟩
    cases hc : capFault s i with
    | none =>
      rw [hillegal hc hl] at he
      cases he
      rfl
    | some r =>
      rw [hfault r hc] at he
      cases he
      rfl
  | true =>
    rw [exec_store h hx hl] at he
    cases hxs : s.hasXs [f.base, f.src] with
    | true =>
      rw [checked_of_hasXs hxs] at he
      cases he
      exact stored_mem s i f
    | false =>
      rw [checked_of_not_hasXs hxs] at he
      cases he
      exact ⟨0, Nat.zero_le _, rfl⟩

/-! ## Sign injection (45_reference_rv.md R330 to R338) -/

/-- The nine sign injections have one shape, at a width that is boxed whatever the capabilities. -/
theorem exec_of_signForm {i : Instr} {f : SignForm} (h : signForm i = some f) :
    gateExt i = some f.ext ∧ rv64Only i = false ∧ instrLength i = 4 ∧ f.width ≠ .f16 ∧
      ∀ s, exec i s = runBody i (injectSign f.ext f.width f.n f.xr f.rd f.rs1 f.rs2) s := by
  cases i
  case fsgnjS | fsgnjnS | fsgnjxS | fsgnjD | fsgnjnD | fsgnjxD | fsgnjQ | fsgnjnQ | fsgnjxQ =>
    cases h
    exact ⟨rfl, rfl, rfl, nofun, fun _ => rfl⟩
  all_goals cases h

/-! ## CSR accesses (45_reference_rv.md R320 to R325) -/

theorem csrFinish_ok {t : State} {rd : Reg} {old : Word} (hx : t.hasX rd = true)
    (hq : targetFault t (npcDefault t 4) = none) (hm : targetMisaligned t (npcDefault t 4) = false) :
    csrFinish rd old t =
      .ok () ((t.putX rd (sextXlen t.inputs.xlen old)).withOutcome (.next (npcDefault t 4) .serializeAfter)) := by
  simp only [csrFinish, bind_run, writeSext_run, hx, if_true, look_run, setPcAndSerialize_run, State.putX_npcDefault,
    State.putX_targetFault, State.putX_targetMisaligned, State.putX_inputs, hq, hm]
  simp [npcDefault]

end Sys2Proof.Machine
end

section
/-! PROOFS of the statements of 45_reference_rv.md. -/

namespace Sys2Proof.Machine

/-- Settles O36: past the gate, the read and the write, the destination and the default next PC go through. -/
theorem csrAccessResults : Obligations.CsrAccessResults := by
  unfold Obligations.CsrAccessResults
  intro s i f h hs hd hr hw hsrc hx hq hm
  have ha : csrAdmitted s i f := fun hwrite => ⟨hw hwrite, hsrc⟩
  rw [exec_of_csrForm h]
  apply runBody_of_ok
  have hwritten := csrAccess_of_admitted (s := s.started i) hs hd hr (csrAdmitted_started ha)
  rw [csrWritten_started, csrFinish_ok (by simpa using hx) (by simpa using hq) (by simpa using hm)] at hwritten
  refine hwritten.trans ?_
  simp only [State.putX_of_withOutcome, State.withOutcome_withOutcome, State.withOutcome_npcDefault,
    State.csrWritten_npcDefault, State.withOutcome_inputs, State.csrWritten_inputs]
  rfl

/-- Settles O42: the operands are checked in order, then the destination. -/
theorem integerComputation : Obligations.IntegerComputation := by
  unfold Obligations.IntegerComputation
  refine ⟨fun x => ⟨spells_of_row 0 rfl, spells_of_row 1 rfl, spells_of_row 2 rfl, spells_of_row 3 rfl,
    spells_of_row 4 rfl⟩, fun s rd rs1 rs2 imm sh => ?_⟩
  rw [exec_add, exec_addi, exec_lui, exec_auipc]
  refine ⟨checked_of_hasXs, checked_of_not_hasXs, checked_of_hasXs, checked_of_not_hasXs,
    fun h => checked_of_hasXs (by simpa using h), fun h => checked_of_not_hasXs (by simpa using h),
    fun hsh h => ?_, fun h => ?_, fun h => checked_of_hasXs (by simpa using h),
    fun h => checked_of_not_hasXs (by simpa using h)⟩
  · rw [exec_slli s rd rs1 hsh, checked_of_hasXs h]
  · by_cases hsh : sh.toNat < xlenBits s.inputs.xlen
    · rw [exec_slli s rd rs1 hsh, checked_of_not_hasXs (h.resolve_left (Nat.not_le.mpr hsh))]
    · exact exec_illegal_of_ungated rfl (decide_eq_false hsh)

/-- Settles O43: the gate looks at the target before the link register is looked at. -/
theorem jumps : Obligations.Jumps := by
  unfold Obligations.Jumps
  refine ⟨fun x => ⟨spells_of_row 5 rfl, spells_of_row 6 rfl⟩, fun s rd rs1 imm t => ⟨?jal, ?jalr⟩⟩
  case jal =>
    rintro rfl
    rw [exec_jal]
    refine ⟨fun hf hm hd => ?_, fun hm => by rw [gated_of_misaligned hm],
      fun r hf => by rw [gated_of_targetFault hf], fun hf hm hd => ?_⟩
    · rw [gated_of_passes hf hm, if_pos hd]
    · rw [gated_of_passes hf hm, hd]
      rfl
  case jalr =>
    rintro rfl
    rw [exec_jalr]
    refine ⟨fun hx hf hm hd => ?_, fun hx hm => ?_, fun r hx hf => ?_, ?illegal⟩
    · rw [checked_of_hasXs (by simpa using hx), gated_of_passes hf hm, if_pos hd]
    · rw [checked_of_hasXs (by simpa using hx), gated_of_misaligned hm]
    · rw [checked_of_hasXs (by simpa using hx), gated_of_targetFault hf]
    case illegal =>
      rintro (hx | ⟨hf, hm, hd⟩)
      · exact checked_of_not_hasXs (by simpa using hx)
      · rw [gated_of_passes hf hm, hd]
        exact congrArg Host.Outcome.next (ite_self _)

/-- Settles O44: the gate is passed only when the branch is taken. -/
theorem branches : Obligations.Branches := by
  unfold Obligations.Branches
  refine ⟨fun x => ⟨spells_of_row 7 rfl, spells_of_row 8 rfl, spells_of_row 9 rfl, spells_of_row 10 rfl,
    spells_of_row 11 rfl, spells_of_row 12 rfl⟩, fun s i f h => ?_⟩
  obtain ⟨test, hlen, htest, hexec⟩ := exec_of_branchForm h
  rw [hexec, runBody_branchBody, hlen, ← htest]
  refine ⟨checked_of_not_hasXs, fun hx => ?_⟩
  rw [checked_of_hasXs hx]
  refine ⟨fun ht => ?_, fun ht hf hm => ?_, fun ht hm => ?_, fun r ht hf => ?_⟩
  · rw [if_neg ht]
  · rw [if_pos ht, gated_of_passes hf hm]
  · rw [if_pos ht, gated_of_misaligned hm]
  · rw [if_pos ht, gated_of_targetFault hf]

/-- Settles O45: the preconditions, then the base, then the access, then the destination. -/
theorem loadResults : Obligations.LoadResults := by
  unfold Obligations.LoadResults
  refine ⟨fun x => ⟨spells_of_row 13 rfl, spells_of_row 14 rfl, spells_of_row 33 rfl,
    spells_of_row 34 rfl fun _ => rfl, spells_of_row 45 rfl, spells_of_row 46 rfl fun _ => rfl⟩, ?_⟩
  rintro s i f ea h rfl
  refine ⟨exec_of_rv64Only_x32, fun hx => ⟨fun hl hb ha hd => ?result, fun r hl hb ha => ?fault,
    (failedPreconditionTraps s i hx).2, fun hc hbad => ?illegal⟩⟩
  case result =>
    rw [exec_load h hx hl, checked_of_hasXs (by simpa using hb)]
    simp only [State.loaded, ha, hd, if_true]
  case fault =>
    rw [exec_load h hx hl, checked_of_hasXs (by simpa using hb)]
    simp only [State.loaded, ha]
    rfl
  case illegal =>
    cases hl : legalIn s i with
    | false => exact (failedPreconditionTraps s i hx).1 hc hl
    | true =>
      rw [exec_load h hx hl]
      rw [hl] at hbad
      obtain hbad | hb | ⟨ha, hd⟩ := hbad
      · cases hbad
      · exact checked_of_not_hasXs (by simpa using hb)
      · simp [State.checked, State.loaded, ha, hd]

/-- Settles O46: the preconditions, then both registers, then the access, whose parts before a fault stay made. -/
theorem storeResults : Obligations.StoreResults := by
  unfold Obligations.StoreResults
  refine ⟨fun x => ⟨spells_of_row 15 rfl, spells_of_row 16 rfl, spells_of_row 35 rfl,
    spells_of_row 36 rfl fun _ => rfl, spells_of_row 47 rfl, spells_of_row 48 rfl fun _ => rfl⟩, ?_⟩
  rintro s i f ea h rfl
  refine ⟨exec_of_rv64Only_x32, fun hx => ⟨fun hl hxs ha => ?result, fun q hl hxs hq => ⟨?fault, accessStop_le hq,
    fun hu => accessStop_whole (accessParts_unsplit _ _ _ hu) hq,
    fun h0 => accessStop_whole (accessParts_aligned _ _ h0) hq⟩,
    (failedPreconditionTraps s i hx).2, fun hc hbad => ?illegal⟩⟩
  case result =>
    rw [exec_store h hx hl, checked_of_hasXs hxs]
    simp only [State.stored, accessFault_eq_none.mp ha]
  case fault =>
    rw [exec_store h hx hl, checked_of_hasXs hxs]
    simp only [State.stored, hq]
    rfl
  case illegal =>
    cases hl : legalIn s i with
    | false => exact (failedPreconditionTraps s i hx).1 hc hl
    | true =>
      rw [exec_store h hx hl]
      exact checked_of_not_hasXs (hbad.resolve_left (by simp [hl]))

/-- Settles O47: one shape, behind `require_fp`. -/
theorem signInjectionInstructions : Obligations.SignInjectionInstructions := by
  unfold Obligations.SignInjectionInstructions
  refine ⟨fun x => ⟨spells_of_row 23 rfl, spells_of_row 24 rfl, spells_of_row 25 rfl, spells_of_row 26 rfl,
    spells_of_row 27 rfl, spells_of_row 28 rfl, spells_of_row 29 rfl, spells_of_row 30 rfl, spells_of_row 31 rfl⟩,
    fun s i f h => ?_⟩
  obtain ⟨hgate, h64, hlen, hw, hexec⟩ := exec_of_signForm h
  have hx : rv64Only i = true → s.inputs.xlen = .x64 := by simp [h64]
  refine ⟨fun hs hon => ?_, ?_, fun r hs => exec_of_supports_faults hgate hx hs⟩
  · rw [hexec]
    exact runBody_of_ok (by simp [hw, hs, hon, hlen, State.completes])
  · rintro (hs | ⟨hs, hoff⟩)
    · exact exec_of_supports_no hgate hx hs
    · rw [hexec]
      exact runBody_illegal (by simp [State.started, hw, hs, hoff])

/-- Settles O54: an instruction that is no store updates other fields, and a store writes bytes at its own address. -/
theorem memoryFrame : Obligations.MemoryFrame := by
  unfold Obligations.MemoryFrame
  intro s t i he
  refine ⟨fun h a => ?_, fun f h a ha => ?_⟩
  · rw [exec_keeps_mem h he]
  · obtain ⟨n, hn, hmem⟩ := exec_store_mem h he
    rw [hmem]
    exact readByte_writeBytes_ne _ _ _ _ fun k hk => ha k (by rw [leBytes_length] at hk; omega)

end Sys2Proof.Machine
end

section
/-! SUPPORT for the statements of 46_reference_rvc.md: the words of `c.lui`, and what each compressed computation, jump
and branch answers when the compressed extension is there. -/

namespace Sys2Proof

/-! ## The words of `c.lui` (30_encoding.md R138; 46_reference_rvc.md R358) -/

/-- The words of the row of `c.lui` whose register is not x2 are its own. -/
theorem decodeWord_cLui {w : Word} (h : w &&& 0xe003#64 = 0x6001#64) (hrd : rvcRd w ≠ 2#5) (x : XLen) :
    decodeWord x w = .ok (.cLui (rvcRd w) (rvcImm w)) := by
  have hl : insnLength w = 2 := insnLength_eq_two_iff.mpr (by simp [bits_of_masked h, bits_ofNat])
  simp [decodeWord, hl, decode16, bits_of_masked h, hrd, bits_ofNat]

end Sys2Proof

namespace Sys2Proof.Machine

/-! ## The stack pointer and the PC gate (40_register_access.md R160; 43_dispatch_shell.md R282) -/

/-- The stack pointer is in both files. -/
@[simp] theorem hasX_sp (s : State) : s.hasX 2#5 = true :=
  hasX_eq_true_iff.mpr (Nat.lt_of_lt_of_le (by decide) (sixteen_le_count _))

/-- With the compressed extension the gate lets every target through. -/
theorem gated_of_supports_c {s : State} (hc : supports s .c = .yes) (a : Word) (t : State) : s.gated a t = t := by
  obtain ⟨hf, hm⟩ := gate_of_passes (t := a) (.inr hc)
  exact gated_of_passes hf hm

/-! ## Preconditions (43_dispatch_shell.md R284; 30_encoding.md R139) -/

/-- Without the compressed extension its instructions raise illegal-instruction, and a fault of the query for it passes
through. -/
theorem exec_of_not_supports_c {l : List Instr} (hl : ∀ i ∈ l, gateExt i = some .c ∧ rv64Only i = false) (s : State) :
    ∀ i ∈ l, (supports s .c = .no → exec i s = .next (s.illegalAt i)) ∧
      ∀ r, supports s .c = .faults r → exec i s = .next (s.faultsAt r) := by
  intro i hi
  obtain ⟨hg, h64⟩ := hl i hi
  have hx : rv64Only i = true → s.inputs.xlen = .x64 := by simp [h64]
  exact ⟨exec_of_supports_no hg hx, fun _ => exec_of_supports_faults hg hx⟩

/-- An instruction of the compressed extension whose operand has to meet a condition `p`, and whose registers are then
checked, raises illegal-instruction when either fails. -/
theorem exec_illegal_of_condition {i : Instr} {p : Prop} {l : List Reg} {s t : State} (hc : supports s .c = .yes)
    (hg : gateExt i = some .c) (h64 : rv64Only i = false) (hl : ¬p → legalIn s i = false)
    (he : p → exec i s = s.checked i l t) (hbad : ¬p ∨ s.hasXs l = false) : exec i s = .next (s.illegalAt i) := by
  by_cases hp : p
  · rw [he hp, checked_of_not_hasXs (hbad.resolve_left (not_not_intro hp))]
  · exact exec_illegal_of_supports_yes hg (by simp [h64]) hc (hl hp)

section
variable {s : State} (hc : supports s .c = .yes) (d r : Reg) {imm : Word}
include hc

/-! ## Compressed computation (46_reference_rvc.md R350, R355 to R358, R362) -/

theorem exec_cAddi4spn (himm : imm ≠ 0) :
    exec (.cAddi4spn d imm) s =
      s.checked (.cAddi4spn d imm) [2, d] ((s.putX d (sextXlen s.inputs.xlen (s.x 2 + imm))).completes 2) := by
  rw [exec, execCAddi4spn, runBody_of_supports hc, runBody_of_stopIf (beq_eq_false_iff_ne.mpr himm)]
  exact runBody_readX (runBody_writeSext ..)

theorem exec_cAddi (imm : Word) :
    exec (.cAddi d imm) s =
      s.checked (.cAddi d imm) [d, d] ((s.putX d (sextXlen s.inputs.xlen (s.x d + imm))).completes 2) := by
  rw [exec, execCAddi, runBody_of_supports hc]
  exact runBody_readX (runBody_writeSext ..)

theorem exec_cLi (imm : Word) : exec (.cLi d imm) s = s.checked (.cLi d imm) [d] ((s.putX d imm).completes 2) := by
  rw [exec, execCLi, runBody_of_supports hc]
  exact runBody_writeX ..

theorem exec_cAddi16sp (himm : imm ≠ 0) :
    exec (.cAddi16sp imm) s =
      s.checked (.cAddi16sp imm) [2, 2] ((s.putX 2 (sextXlen s.inputs.xlen (s.x 2 + imm))).completes 2) := by
  rw [exec, execCAddi16sp, runBody_of_supports hc, runBody_of_stopIf (beq_eq_false_iff_ne.mpr himm)]
  exact runBody_readX (runBody_writeSext ..)

theorem exec_cLui (himm : imm ≠ 0) :
    exec (.cLui d imm) s =
      s.checked (.cLui d imm) [d] ((s.putX d (sextXlen s.inputs.xlen (imm <<< 12))).completes 2) := by
  rw [exec, execCLui, runBody_of_supports hc, runBody_of_stopIf (beq_eq_false_iff_ne.mpr himm)]
  exact runBody_writeSext ..

theorem exec_cSlli {sh : BitVec 6} (hsh : sh.toNat < xlenBits s.inputs.xlen) :
    exec (.cSlli d sh) s =
      s.checked (.cSlli d sh) [d, d] ((s.putX d (sextXlen s.inputs.xlen (s.x d <<< sh.toNat))).completes 2) := by
  rw [exec, execCSlli, runBody_of_supports hc, runBody_of_illegalIf (decide_eq_false (Nat.not_le.mpr hsh))]
  exact runBody_readX (runBody_writeSext ..)

/-! ## Compressed jump and branches (46_reference_rvc.md R359 to R361) -/

theorem exec_cJ (off : Word) : exec (.cJ off) s = .next (s.redirects (s.pc + off)) := by
  rw [exec, execCJ, runBody_of_supports hc, runBody_jumpRel, gated_of_supports_c hc]

theorem exec_cBeqz (off : Word) :
    exec (.cBeqz r off) s =
      s.checked (.cBeqz r off) [r] (if s.x r = 0 then s.redirects (s.pc + off) else s.completes 2) := by
  rw [exec, execCBeqz, runBody_of_supports hc]
  refine runBody_readX (l := []) ((runBody_branchIf ..).trans ?_)
  simp only [gated_of_supports_c hc, beq_iff_eq]
  rfl

theorem exec_cBnez (off : Word) :
    exec (.cBnez r off) s =
      s.checked (.cBnez r off) [r] (if s.x r ≠ 0 then s.redirects (s.pc + off) else s.completes 2) := by
  rw [exec, execCBnez, runBody_of_supports hc]
  refine runBody_readX (l := []) ((runBody_branchIf ..).trans ?_)
  simp only [gated_of_supports_c hc, bne_iff_ne]
  rfl

end

end Sys2Proof.Machine
end

section
/-! PROOFS of the statements of 46_reference_rvc.md. -/

namespace Sys2Proof.Machine

/-- Settles O48: behind `require_c` the operand is checked, then the registers. -/
theorem compressedComputation : Obligations.CompressedComputation := by
  unfold Obligations.CompressedComputation
  refine ⟨fun x => ⟨spells_of_row 32 rfl, spells_of_row 37 rfl, spells_of_row 38 rfl, spells_of_row 39 rfl,
    spells_of_row 44 rfl, fun w h hrd => decodeWord_cLui h hrd x⟩,
    fun s rd imm sh => ⟨exec_of_not_supports_c (by simp [gateExt, rv64Only]) s, fun hc => ?_⟩⟩
  rw [exec_cAddi hc, exec_cLi hc]
  refine ⟨fun himm hd => ?_, fun hbad => ?addi4spn, fun hd => checked_of_hasXs (by simpa using hd),
    fun hd => checked_of_not_hasXs (by simpa using hd), fun hd => checked_of_hasXs (by simpa using hd),
    fun hd => checked_of_not_hasXs (by simpa using hd), fun himm => ?_, fun himm => ?addi16sp,
    fun himm hd => ?_, fun hbad => ?lui, fun hsh hd => ?_, fun hbad => ?slli⟩
  · rw [exec_cAddi4spn hc rd himm, checked_of_hasXs (by simpa using hd)]
  case addi4spn =>
    exact exec_illegal_of_condition hc rfl rfl (fun h => by simp [legalIn, not_not.mp h]) (exec_cAddi4spn hc rd)
      (by simpa using hbad)
  · rw [exec_cAddi16sp hc himm, checked_of_hasXs (by simp)]
  case addi16sp => exact exec_illegal_of_supports_yes rfl nofun hc (by simp [legalIn, himm])
  · rw [exec_cLui hc rd himm, checked_of_hasXs (by simpa using hd)]
  case lui =>
    exact exec_illegal_of_condition hc rfl rfl (fun h => by simp [legalIn, not_not.mp h]) (exec_cLui hc rd)
      (by simpa using hbad)
  · rw [exec_cSlli hc rd hsh, checked_of_hasXs (by simpa using hd)]
  case slli =>
    exact exec_illegal_of_condition hc rfl rfl (fun h => by simp [legalIn, h]) (exec_cSlli hc rd) (by simpa using hbad)

/-- Settles O49: behind `require_c` the gate lets every target through. -/
theorem compressedControl : Obligations.CompressedControl := by
  unfold Obligations.CompressedControl
  refine ⟨fun x => ⟨spells_of_row 41 rfl, spells_of_row 42 rfl, spells_of_row 43 rfl⟩,
    fun s rs1 off => ⟨exec_of_not_supports_c (by simp [gateExt, rv64Only]) s, fun hc => ?_⟩⟩
  rw [exec_cJ hc, exec_cBeqz hc, exec_cBnez hc]
  refine ⟨rfl, fun hr h0 => ?_, fun hr h0 => ?_, fun hr h0 => ?_, fun hr h0 => ?_,
    fun hr => ⟨checked_of_not_hasXs (by simpa using hr), checked_of_not_hasXs (by simpa using hr)⟩⟩
  all_goals rw [checked_of_hasXs (by simpa using hr)]
  · rw [if_pos h0]
  · rw [if_neg h0]
  · rw [if_pos h0]
  · rw [if_neg (not_not_intro h0)]

end Sys2Proof.Machine
end

section
/-! SUPPORT for the statements of 60_exceptions.md: two changes of the state that no body sees, the commit log taken
away and another privilege level, and the step of a state without its log. -/

namespace Sys2Proof.Machine

/-! ## Changes that a body does not see -/

/-- The log and its hook are read only to record a register write (40_register_access.md R163). -/
theorem blind_unlogged : Blind State.unlogged := by
  constructor
  case access => exact fun s => accessStop_congr rfl rfl
  all_goals intros; rfl

/-- No reading of `Blind` sees the privilege level; the CSR gate's test, which does, is none of them (42_csr_gate.md
R260). -/
theorem blind_atLevel (p : BitVec 2) : Blind (·.atLevel p) := by
  constructor
  all_goals intros; rfl

/-! ## The step of a state without its log -/

@[simp] theorem State.unlogged_unlogged (s : State) : s.unlogged.unlogged = s.unlogged := rfl

@[simp] theorem mapNext_unlogged_idem (a : Answer) :
    mapNext State.unlogged (mapNext State.unlogged a) = mapNext State.unlogged a := by
  cases a with
  | next s => simp only [mapNext, State.unlogged_unlogged]
  | fault r => rfl
  | refused r => rfl

theorem exec_unlogged (i : Instr) (s : State) : exec i s.unlogged = mapNext State.unlogged (exec i s) :=
  exec_commutes blind_unlogged i (fun _ _ _ => rfl) s

theorem fetchParcels_unlogged (s : State) (a : Word) (n : Nat) :
    fetchParcels s.unlogged a n = fetchParcels s a n := by
  induction n generalizing a with
  | zero => rfl
  | succ n ih =>
    have hfault : accessFault s.unlogged.params .fetch 2 a = accessFault s.params .fetch 2 a := by
      rw [accessFault, accessFault, blind_unlogged.access]
    have hmem : fetchMemory s.unlogged = fetchMemory s := rfl
    simp only [fetchParcels, hfault, hmem, ih]

@[simp] theorem fetchBytes_unlogged (s : State) : fetchBytes s.unlogged = fetchBytes s := by
  simp only [fetchBytes, fetchParcels_unlogged, blind_unlogged.pc]

theorem commit_unlogged (s : State) : commit s.unlogged = (commit s).unlogged := by
  have ho : s.unlogged.outcome = s.outcome := rfl
  unfold commit
  rw [ho]
  split <;> rfl

theorem settle_unlogged (a : Answer) : settle (mapNext State.unlogged a) = mapNext State.unlogged (settle a) := by
  cases a with
  | next s =>
    simp only [mapNext, settle, commit_unlogged]
    rfl
  | fault r => rfl
  | refused r => rfl

theorem endStep_resume_unlogged (s : State) :
    endStep (resume s.unlogged) = mapNext State.unlogged (endStep (resume s)) := by
  have hr : s.unlogged.resumes = s.resumes := rfl
  unfold resume
  rw [hr]
  split <;> rfl

/-- Taking the log away before a step is taking it away after the step. -/
theorem step_unlogged (s : State) : step s.unlogged = mapNext State.unlogged (step s) := by
  have ho : s.unlogged.outcome = s.outcome := rfl
  unfold step
  rw [ho, fetchBytes_unlogged, blind_unlogged.xlen]
  split
  · exact endStep_resume_unlogged s
  · split
    · rfl
    · split
      · rfl
      · rw [exec_unlogged, settle_unlogged]

end Sys2Proof.Machine
end

section
/-! PROOFS of the statements of 60_exceptions.md. -/

namespace Sys2Proof.Machine

/-- Settles O56: a step from the state without its log is the step from the state itself, its log taken away. -/
theorem commitLogHasNoInfluence : Obligations.CommitLogHasNoInfluence := by
  unfold Obligations.CommitLogHasNoInfluence
  intro s
  rw [step_unlogged, mapNext_unlogged_idem]

/-- Settles O57: the CSR gate's test alone tells levels apart, and no instruction writes an input. -/
theorem privilegeReachesOnlyTheCsrGate : Obligations.PrivilegeReachesOnlyTheCsrGate := by
  unfold Obligations.PrivilegeReachesOnlyTheCsrGate
  refine fun s i p => ⟨fun hno => ?other, fun t he => exec_keeps he (·.inputs.prv)⟩
  case other => exact exec_commutes (blind_atLevel p) i (fun c hc => by simp [hno] at hc) s

end Sys2Proof.Machine
end

section
/-! SUPPORT for the statements of 70_reset_and_hazards.md and for the example words of 30_encoding.md: what the views
read right after construction, and that a table word decodes to the instruction whose bytes it begins with. -/

namespace Sys2Proof.Machine

/-! ## The views of a constructed context (70_reset_and_hazards.md R440) -/

section Construct
variable (p : Params) (inp : Inputs) (pc : Word) (xs : Vector Word 32) (fs : Vector Wide 32)

theorem construct_x_of_ne_zero {r : Reg} (hr : r ≠ 0) :
    (State.construct p inp pc xs fs).x r = xs[r.toNat]'r.isLt := by
  have hcell : 0 ≠ r.toNat := fun h => hr (BitVec.eq_of_toNat_eq h.symm)
  rw [State.x, if_neg hr]
  exact Vector.getElem_set_ne (by decide) r.isLt hcell

theorem construct_tagOf (r : Reg) : (State.construct p inp pc xs fs).tagOf r = .unconfigured :=
  Vector.getElem_replicate r.isLt

/-- Every element is 0, the elements above the maximal vector length with them. -/
theorem construct_elemCell (r : Reg) (e : Nat) : (State.construct p inp pc xs fs).elemCell r e = 0 := by
  have hreg : (State.construct p inp pc xs fs).velem[r.toNat]'r.isLt = List.replicate p.vlmax 0 :=
    Vector.getElem_replicate r.isLt
  rw [State.elemCell, hreg]
  by_cases he : e < p.vlmax
  · exact List.getD_replicate 0 he
  · exact List.getD_eq_default _ _ (by simpa using he)

end Construct

/-! ## The bytes of an instruction with others after them (20_memory.md R72, 30_encoding.md R101) -/

theorem decodeBytes_encodeBytes_append {x : XLen} {i : Instr} (hwf : i.wf = true) (hx : rv64Only i = true → x = .x64)
    (rest : List Byte) : decodeBytes x (encodeBytes i ++ rest) = .ok (i, rest) := by
  have hl : 2 ≤ instrLength i := by have := instrLength_eq_two_or_four i; omega
  have hlen : insnLength (leWord ((encodeBytes i ++ rest).take 2)) = instrLength i := by
    rw [List.take_append_of_le_length (by rwa [encodeBytes_length])]
    exact insnLength_leWord_take_encodeBytes i (by decide)
  have hlong : ¬ ((encodeBytes i ++ rest).length < 2 ∨ (encodeBytes i ++ rest).length < instrLength i) := by
    rw [List.length_append, encodeBytes_length]
    omega
  simp only [decodeBytes, hlen, if_neg hlong, List.take_left' (encodeBytes_length i),
    List.drop_left' (encodeBytes_length i), canonical_leWord_encodeBytes, decodeWord_encode hwf hx]

/-- A table word that begins with the bytes of a well-formed instruction decodes to that instruction. -/
theorem decodeTableWord_of_prefix {nbits w : Nat} {i : Instr} (hwf : i.wf = true)
    (hbytes : encodeBytes i <+: leBytes 8 (BitVec.ofNat 64 (w % 2 ^ nbits))) : decodeTableWord nbits w = some i := by
  obtain ⟨rest, hrest⟩ := hbytes
  rw [decodeTableWord, ← hrest, decodeBytes_encodeBytes_append hwf fun _ => rfl]

end Sys2Proof.Machine
end

section
/-! PROOFS of the statements of 70_reset_and_hazards.md, and of the example words of 30_encoding.md. -/

namespace Sys2Proof.Machine

/-- Settles O60: each view of the constructed state reads the draw or the constant of the table. -/
theorem resetTable : Obligations.ResetTable := by
  unfold Obligations.ResetTable
  rintro p inp pc xs fs s rfl
  exact ⟨x_zero _, fun r hr => construct_x_of_ne_zero p inp pc xs fs hr, fun r => rfl,
    construct_tagOf p inp pc xs fs, rfl, construct_elemCell p inp pc xs fs, rfl⟩

/-- Settles O9: each example word begins with the bytes of the instruction named, and the decoder undoes the encoder. -/
theorem exampleWordsDecode : Obligations.ExampleWordsDecode := by
  unfold Obligations.ExampleWordsDecode
  and_intros
  all_goals exact decodeTableWord_of_prefix (by decide) (by decide)

end Sys2Proof.Machine
end
